-- ==== Sys2Proof/Word.lean ====
section
/-! DEFINITION. The word types of i2c_master_ctrl: every quantity of the spec is an unsigned byte or a
7-bit device address (R10 of 00_scope.md, R60 and R68 of 20_memory.md). -/

namespace Sys2Proof

/-- A byte, 8 bits, bit 0 the least significant (R10). -/
abbrev Byte := BitVec 8

/-- A 7-bit I2C device address (R65). -/
abbrev Addr7 := BitVec 7

end Sys2Proof
end

