-- ==== Sys2Proof/Config.lean ====
section
/-! DEFINITION. The parameters of R6 of 00_scope.md, and the free values: what the environment answers, which no
rule constrains (R9 of 00_scope.md, R36 of 10_state.md). -/

namespace Sys2Proof

/-- `BUF_LEN`: the number of bytes of `buf` and the largest payload (R6, R26). -/
def bufLen : Nat := 255

/-- `SCAN_FIRST`: the first address of the default scan range (R6, R98). -/
def scanFirst : Byte := 0x03#8

/-- `SCAN_LAST`: the last address of the default scan range (R6, R98). -/
def scanLast : Byte := 0x77#8

/-- The parameters that R6 leaves OPEN. A budget is stored as the polls it allows beyond the first, so that every
value of the record is a legal setting: R6 asks for at least 1. -/
structure Params where
  /-- `T_RX` minus 1. -/
  rxMore : Nat
  /-- `T_BUS` minus 1. -/
  busMore : Nat
  /-- `RX_ID_WAIT_BOUNDED` (R129, conflict C1). -/
  idWaitBounded : Bool
  deriving DecidableEq, Repr

/-- `T_RX`: the per-byte receive timeout in polls (R6). -/
def Params.tRx (p : Params) : Nat := p.rxMore + 1

/-- `T_BUS`: the per-bus-step timeout in polls (R6). -/
def Params.tBus (p : Params) : Nat := p.busMore + 1

/-- `W_TO`: the smallest `w` with `2^w > max(T_RX, T_BUS)` (R6, R30). -/
def Params.wTo (p : Params) : Nat := Nat.log2 (max p.tRx p.tBus) + 1

/-- The record that one `Poll` returns: every status input of R32, R33 and R35 (R36). -/
structure Poll where
  rxReady : Bool
  txReady : Bool
  busBusy : Bool
  evMms : Bool
  evTms : Bool
  evRms : Bool
  evBtx : Bool
  evBrx : Bool
  af : Bool
  deriving DecidableEq, Repr, Inhabited

/-- `T_RX` minus 1 as it stands at reset: OPEN, no value chosen (R6, decision D6). -/
opaque Config.rxMore : Nat

/-- `T_BUS` minus 1 as it stands at reset: OPEN, no value chosen (R6, decision D6). -/
opaque Config.busMore : Nat

/-- `RX_ID_WAIT_BOUNDED` as it stands at reset: the default that R6 gives (decision D7). -/
def Config.idWaitBounded : Bool := true

/-- Free value: the record the environment returns to poll number `n` when nothing in the state decides it (R36,
"under no law of this spec"; U5). -/
opaque Config.pollAnswer : Nat → Poll

/-- Free value: the byte the environment returns to `RxTake` number `n` when nothing in the state decides it (U6). -/
opaque Config.rxByte : Nat → Byte

/-- Free value: the byte the environment returns to `BusRecv` number `n` when nothing in the state decides it (U7). -/
opaque Config.busByte : Nat → Byte

end Sys2Proof
end

