-- ==== Sys2Proof/Syntax.lean ====
section
/-! DEFINITION. The instructions: request frames, one constructor per row of opcode_table.json (R91, R100, R108 of
30_encoding.md). A count byte is the length of the payload it announces, so it is not stored beside the payload. -/

namespace Sys2Proof

/-- A command frame (R3: instruction = command frame). -/
inductive Instr where
  /-- WRITE, identifier 0x00 (R91, R225). -/
  | write (addr reg : Byte) (payload : List Byte)
  /-- READ, identifier 0x01 (R91, R226). -/
  | read (addr reg count : Byte)
  /-- DETECT, identifier 0x02; the empty list selects the default range (R91, R98, R260). -/
  | detect (addrs : List Byte)
  /-- ECHO, identifier 0x03 (R91, R227). -/
  | echo (payload : List Byte)
  /-- Identifiers 0x04 to 0x07, pattern 000001xx (R101, R108). -/
  | unrec04 (low : BitVec 2)
  /-- Identifiers 0x08 to 0x0F, pattern 00001xxx (R101, R108). -/
  | unrec08 (low : BitVec 3)
  /-- Identifiers 0x10 to 0x1F, pattern 0001xxxx (R101, R108). -/
  | unrec10 (low : BitVec 4)
  /-- Identifiers 0x20 to 0x3F, pattern 001xxxxx (R101, R108). -/
  | unrec20 (low : BitVec 5)
  /-- Identifiers 0x40 to 0x7F, pattern 01xxxxxx (R101, R108). -/
  | unrec40 (low : BitVec 6)
  /-- Identifiers 0x80 to 0xFF, pattern 1xxxxxxx (R101, R108). -/
  | unrec80 (low : BitVec 7)
  deriving DecidableEq, Repr

/-- `SCAN`: the default scan (R107). -/
def Instr.scan : Instr := .detect []

/-- `PING a`: the probe of one address (R107). -/
def Instr.ping (a : Byte) : Instr := .detect [a]

/-- `SETPTR a, r`: the pointer write without data (R107). -/
def Instr.setPtr (a r : Byte) : Instr := .write a r []

/-- `NOP`: the empty echo (R107). -/
def Instr.nop : Instr := .echo []

/-- Why a byte sequence is not a complete frame (R103). Every identifier byte opens some frame, so a sequence that
is too short is the only thing a decoder can reject. -/
inductive DecodeError where
  /-- There is no byte at all. -/
  | noIdentifier
  /-- A fixed field (`addr`, `reg`, `N` or `M`) is missing. -/
  | missingField
  /-- Fewer payload bytes stand there than the count byte announces. -/
  | missingPayload
  deriving DecidableEq, Repr

/-- One row of opcode_table.json: a byte `x` selects it when `x and mask` equals `pattern` (R108). -/
structure OpcodeRow where
  mnemonic : String
  pattern : Byte
  mask : Byte
  deriving DecidableEq, Repr

end Sys2Proof
end

