-- ==== Sys2Proof/WellFormed.lean ====
section
/-! DEFINITION. Which terms of `Instr` some frame encodes: a payload or an address list has at most 255 bytes, the
range of its count byte (R92, R96 of 30_encoding.md; R26 of 10_state.md). No other field has an illegal value
(R102). -/

namespace Sys2Proof

/-- A payload that one count byte can announce and `buf` can hold (R25, R26). -/
def payloadFits (p : List Byte) : Bool := decide (p.length ≤ bufLen)

/-- The well-formed instructions. -/
def Instr.wf : Instr → Bool
  | .write _ _ p => payloadFits p
  | .read _ _ _ => true
  | .detect as => payloadFits as
  | .echo p => payloadFits p
  | .unrec04 _ => true
  | .unrec08 _ => true
  | .unrec10 _ => true
  | .unrec20 _ => true
  | .unrec40 _ => true
  | .unrec80 _ => true

end Sys2Proof
end

