-- ==== Sys2Proof/Decode.lean ====
section
/-! DEFINITION. The frame decoder, total on any bytes, and after it the encoder (R90 to R103 of 30_encoding.md). -/

namespace Sys2Proof

/-! ## Decoding -/

/-- A frame's tail: the count byte's payload taken from the bytes that follow, `mk` applied to it, and the bytes
left for the next frame (R103). -/
def decodePayload (mk : List Byte → Instr) (n : Byte) (bs : List Byte) : Except DecodeError (Instr × List Byte) :=
  if n.toNat ≤ bs.length then .ok (mk (bs.take n.toNat), bs.drop n.toNat) else .error .missingPayload

/-- The fields of WRITE after its identifier (R91). -/
def decodeWrite : List Byte → Except DecodeError (Instr × List Byte)
  | addr :: reg :: n :: bs => decodePayload (.write addr reg) n bs
  | _ => .error .missingField

/-- The fields of READ after its identifier (R91). -/
def decodeRead : List Byte → Except DecodeError (Instr × List Byte)
  | addr :: reg :: n :: bs => .ok (.read addr reg n, bs)
  | _ => .error .missingField

/-- The fields of DETECT after its identifier (R91). -/
def decodeDetect : List Byte → Except DecodeError (Instr × List Byte)
  | m :: bs => decodePayload .detect m bs
  | _ => .error .missingField

/-- The fields of ECHO after its identifier (R91). -/
def decodeEcho : List Byte → Except DecodeError (Instr × List Byte)
  | n :: bs => decodePayload .echo n bs
  | _ => .error .missingField

/-- The row of an unrecognized identifier (R101, R108): its leading bits choose the row, its other bits are the
operand. -/
def decodeUnrecognized (x : Byte) : Instr :=
  if x.toNat < 0x08 then .unrec04 (x.extractLsb' 0 2)
  else if x.toNat < 0x10 then .unrec08 (x.extractLsb' 0 3)
  else if x.toNat < 0x20 then .unrec10 (x.extractLsb' 0 4)
  else if x.toNat < 0x40 then .unrec20 (x.extractLsb' 0 5)
  else if x.toNat < 0x80 then .unrec40 (x.extractLsb' 0 6)
  else .unrec80 (x.extractLsb' 0 7)

/-- The first frame of a byte sequence and the bytes after it: the identifier decides the fields (R91, R100,
R103). -/
def decode : List Byte → Except DecodeError (Instr × List Byte)
  | [] => .error .noIdentifier
  | x :: bs =>
    if x = 0x00#8 then decodeWrite bs
    else if x = 0x01#8 then decodeRead bs
    else if x = 0x02#8 then decodeDetect bs
    else if x = 0x03#8 then decodeEcho bs
    else .ok (decodeUnrecognized x, bs)

/-! ## Encoding -/

/-- The count byte of a payload (R96: unsigned, no bias). -/
def countByte (p : List Byte) : Byte := BitVec.ofNat 8 p.length

/-- The identifier byte of an instruction (R100, R108). -/
def Instr.idByte : Instr → Byte
  | .write _ _ _ => 0x00#8
  | .read _ _ _ => 0x01#8
  | .detect _ => 0x02#8
  | .echo _ => 0x03#8
  | .unrec04 low => 0b000001#6 ++ low
  | .unrec08 low => 0b00001#5 ++ low
  | .unrec10 low => 0b0001#4 ++ low
  | .unrec20 low => 0b001#3 ++ low
  | .unrec40 low => 0b01#2 ++ low
  | .unrec80 low => 0b1#1 ++ low

/-- The bytes after the identifier (R91). -/
def Instr.operandBytes : Instr → List Byte
  | .write addr reg p => addr :: reg :: countByte p :: p
  | .read addr reg n => [addr, reg, n]
  | .detect as => countByte as :: as
  | .echo p => countByte p :: p
  | .unrec04 _ => []
  | .unrec08 _ => []
  | .unrec10 _ => []
  | .unrec20 _ => []
  | .unrec40 _ => []
  | .unrec80 _ => []

/-- The request frame of an instruction (R91, R106). -/
def encode (i : Instr) : List Byte := i.idByte :: i.operandBytes

/-- The number of bytes of an instruction's frame (R91, R103). -/
def Instr.frameLength : Instr → Nat
  | .write _ _ p => 4 + p.length
  | .read _ _ _ => 4
  | .detect as => 2 + as.length
  | .echo p => 2 + p.length
  | .unrec04 _ => 1
  | .unrec08 _ => 1
  | .unrec10 _ => 1
  | .unrec20 _ => 1
  | .unrec40 _ => 1
  | .unrec80 _ => 1

/-! ## The opcode table's words -/

/-- The ten rows of opcode_table.json (R100, R108). -/
def opcodeRows : List OpcodeRow :=
  [ ⟨"WRITE", 0x00#8, 0xFF#8⟩,
    ⟨"READ", 0x01#8, 0xFF#8⟩,
    ⟨"DETECT", 0x02#8, 0xFF#8⟩,
    ⟨"ECHO", 0x03#8, 0xFF#8⟩,
    ⟨"UNRECOGNIZED_04_07", 0x04#8, 0xFC#8⟩,
    ⟨"UNRECOGNIZED_08_0F", 0x08#8, 0xF8#8⟩,
    ⟨"UNRECOGNIZED_10_1F", 0x10#8, 0xF0#8⟩,
    ⟨"UNRECOGNIZED_20_3F", 0x20#8, 0xE0#8⟩,
    ⟨"UNRECOGNIZED_40_7F", 0x40#8, 0xC0#8⟩,
    ⟨"UNRECOGNIZED_80_FF", 0x80#8, 0x80#8⟩ ]

/-- A byte selects a row (R108). -/
def OpcodeRow.selects (r : OpcodeRow) (x : Byte) : Bool := x &&& r.mask == r.pattern

/-- The row of an instruction (R108). -/
def Instr.mnemonic : Instr → String
  | .write _ _ _ => "WRITE"
  | .read _ _ _ => "READ"
  | .detect _ => "DETECT"
  | .echo _ => "ECHO"
  | .unrec04 _ => "UNRECOGNIZED_04_07"
  | .unrec08 _ => "UNRECOGNIZED_08_0F"
  | .unrec10 _ => "UNRECOGNIZED_10_1F"
  | .unrec20 _ => "UNRECOGNIZED_20_3F"
  | .unrec40 _ => "UNRECOGNIZED_40_7F"
  | .unrec80 _ => "UNRECOGNIZED_80_FF"

/-- The length in bytes of the longest frame, a WRITE of 255 bytes (R91). -/
def longestFrame : Nat := 259

/-- The bytes of a table word of `nbits` bits, first byte in bits 7..0, and zero bytes after them up to the longest
frame. -/
def tableBytes (nbits w : Nat) : List Byte :=
  (List.range longestFrame).map fun k => BitVec.ofNat 8 ((w % 2 ^ nbits) >>> (8 * k))

/-- The instruction the decoder reads from a table word. -/
def decodeTableWord (nbits w : Nat) : Option Instr :=
  match decode (tableBytes nbits w) with
  | .ok (i, _) => some i
  | .error _ => none

end Sys2Proof
end

