-- ==== Sys2Proof/Machine/State.lean ====
section
/-! DEFINITION. The machine's state as plain data: every register of 10_state.md, the buffer, the action trace, and
the environment's answers (R9 of 00_scope.md, R20 to R44 of 10_state.md). -/

namespace Sys2Proof.Machine

/-- The dispatcher states (R20). The spec numbers them 0 to 3 and lets a model use an enumeration. -/
inductive DispState where
  | startup
  | receive
  | execute
  | respond
  deriving DecidableEq, Repr

/-- The phase labels, in the order of R21's table. -/
inductive Phase where
  | suInit
  | rxId
  | rxAddr
  | rxReg
  | rxCount
  | rxData
  | exLocal
  | exIdle
  | exStart
  | exAddrW
  | exReg
  | exWdata
  | exRestart
  | exAddrR
  | exRdata
  | txLen
  | txData
  | txFail
  deriving DecidableEq, Repr

/-- The direction of an address byte (R6, R34). -/
inductive Direction where
  /-- `DIR_W`. -/
  | write
  /-- `DIR_R`. -/
  | read
  deriving DecidableEq, Repr

/-- The controller's acknowledge modes (R34). -/
inductive AckMode where
  /-- `AckCurrent`: the controller acknowledges each byte it receives. -/
  | current
  /-- `AckNone`: the controller does not acknowledge the byte being received. -/
  | none
  deriving DecidableEq, Repr

/-- One entry of the action trace (R9): an action of R31 to R34 with the byte the environment returned to it, or a
poll with the record returned (R36). -/
inductive Event where
  | poll (f : Poll)
  | init
  | rxTake (b : Byte)
  | txPut (b : Byte)
  | busStart
  | busStop
  | busAddr (a : Addr7) (d : Direction)
  | busSend (b : Byte)
  | busRecv (b : Byte)
  | busClearAF
  | busAck (m : AckMode)
  deriving DecidableEq, Repr

/-- The failure classes of R281, numbered there (a) to (e) and (u). -/
inductive FailKind where
  /-- (a): an `RxByte` wait expired. -/
  | framing
  /-- (b): `W_IDLE` expired. -/
  | busBusy
  /-- (c): `W_MMS`, `W_TMS` or `W_RMS` expired. -/
  | busSelect
  /-- (d): the device did not acknowledge its address. -/
  | ackFailure
  /-- (e): `W_BTX` or `W_BRX` expired. -/
  | transfer
  /-- (u): the identifier is 0x04 to 0xFF. -/
  | unrecognizedId
  deriving DecidableEq, Repr

/-- What one wait returns (R165). -/
inductive WaitOutcome where
  | done
  | nack
  | expired
  deriving DecidableEq, Repr

/-- What an engine sequence returns (R168). A timeout carries the class that R281 gives the wait which expired: a
label, used for `failKind` alone. -/
inductive EngineOutcome where
  | ok
  | nack
  | timeout (kind : FailKind)
  deriving DecidableEq, Repr

/-- Answers of the environment to one kind of question: those already decided, in order, and how many have been
drawn so far. Past the queue the answer is a free value of Config at the count. -/
structure Feed (α : Type) where
  queue : List α
  drawn : Nat
  deriving DecidableEq, Repr

/-- The contents of `buf` (R26): the written bytes by index, in the canonical form `Memory.wf`. A byte that is not
listed holds no value (R43). -/
abbrev Memory := List Host.Cell

/-- The state of the block, its action trace, and the environment's coming answers. -/
structure State where
  /-- `st` (R20). -/
  st : DispState
  /-- `ph` (R21). -/
  ph : Phase
  /-- `cmd_id` (R22). -/
  cmdId : Byte
  /-- `dev_addr` (R23). -/
  devAddr : Byte
  /-- `reg_ptr` (R24). -/
  regPtr : Byte
  /-- `count` (R25). -/
  count : Byte
  /-- `buf` (R26). -/
  buf : Memory
  /-- `res_ok` (R27): true is `Ok`. -/
  resOk : Bool
  /-- `res_len` (R28). -/
  resLen : Byte
  /-- `idx` (R29). -/
  idx : Byte
  /-- `scan_idx` (R29). -/
  scanIdx : Byte
  /-- `scan_addr` (R29). -/
  scanAddr : Byte
  /-- `out_cnt` (R29). -/
  outCnt : Byte
  /-- `to_cnt` (R30), a number below `2 ^ W_TO`. -/
  toCnt : Nat
  /-- The parameters of R6, which no step changes. -/
  params : Params
  /-- The answers to the coming polls (R36). -/
  polls : Feed Poll
  /-- The bytes the coming `RxTake` actions return (R32). -/
  rx : Feed Byte
  /-- The bytes the coming `BusRecv` actions return (R34). -/
  busRx : Feed Byte
  /-- The action trace (R9), newest event first. -/
  trace : List Event
  /-- The class of the failure of the command cycle in progress: R282's ghost label, read by nothing. -/
  failKind : Option FailKind
  deriving DecidableEq, Repr

/-- What stops the machine. No state that a run from reset reaches stops it. -/
inductive Fault where
  /-- Raised by a step that reads a byte of `buf` which nothing has written (R43: it holds no value). Safe. -/
  | bufUnwritten
  /-- Raised by a step that reads `buf` at an index it does not have (R61). Safe. -/
  | bufOutOfRange
  deriving DecidableEq, Repr

/-- Why an instruction has no meaning here. -/
inductive Refusal where
  /-- Raised by an arm of `exec` that has no meaning yet; no arm is left so. Safe. -/
  | notModelled (mnemonic : String)
  /-- Raised by a meaning whose payload is longer than 255 bytes: no frame encodes such a term. Safe. -/
  | illFormed
  /-- Raised by a step whose command registers hold no complete frame; none of the register contents is such. Safe. -/
  | undecodable (why : DecodeError)
  deriving DecidableEq, Repr

/-- Right after reset (R43, R320): `st` and `ph` as the spec says, the registers whose value it leaves unspecified at
zero (DESIGN CHOICE, log entry 5), no byte of `buf` written (log entry 6), nothing observed and nothing decided about
the environment (log entry 2), the parameters at their open or default values (log entries 3 and 4). -/
def State.reset : State where
  st := .startup
  ph := .suInit
  cmdId := 0#8
  devAddr := 0#8
  regPtr := 0#8
  count := 0#8
  buf := []
  resOk := false
  resLen := 0#8
  idx := 0#8
  scanIdx := 0#8
  scanAddr := 0#8
  outCnt := 0#8
  toCnt := 0
  params := ⟨Config.rxMore, Config.busMore, Config.idWaitBounded⟩
  polls := ⟨[], 0⟩
  rx := ⟨[], 0⟩
  busRx := ⟨[], 0⟩
  trace := []
  failKind := none

end Sys2Proof.Machine
end

