-- ==== Sys2Proof/Machine/Memory.lean ====
section
/-! DEFINITION. The buffer `buf` as a canonical list of written bytes (R60, R61 of 20_memory.md; R26, R43 of
10_state.md). -/

namespace Sys2Proof.Machine

/-- The byte at an index, or none where nothing has been written (R43, R61). -/
def Memory.read : Memory → Nat → Option Byte
  | [], _ => none
  | (b, v) :: m, a => if a = b then some v else Memory.read m a

/-- The buffer with a byte written at an index (R61). -/
def Memory.write : Memory → Nat → Byte → Memory
  | [], a, v => [(a, v)]
  | (b, w) :: m, a, v =>
    if a < b then (a, v) :: (b, w) :: m
    else if a = b then (a, v) :: m
    else (b, w) :: Memory.write m a v

/-- The indices rise strictly from at least `lo` and stay below `BUF_LEN`. -/
def Memory.risesFrom : Nat → Memory → Bool
  | _, [] => true
  | lo, (a, _) :: m => decide (lo ≤ a) && decide (a < bufLen) && Memory.risesFrom (a + 1) m

/-- The canonical form: strictly rising indices, all of them indices of `buf`. An unlisted index holds no value, so
no entry can equal what an unlisted index reads as. -/
def Memory.wf (m : Memory) : Bool := Memory.risesFrom 0 m

/-- The `n` bytes from an index on, or none where one of them was never written. -/
def Memory.readRange (m : Memory) : Nat → Nat → Option (List Byte)
  | _, 0 => some []
  | a, n + 1 =>
    match m.read a, m.readRange (a + 1) n with
    | some b, some bs => some (b :: bs)
    | _, _ => none

/-- The buffer with the bytes of a list written from an index on. -/
def Memory.writeRange (m : Memory) : Nat → List Byte → Memory
  | _, [] => m
  | a, b :: bs => Memory.writeRange (m.write a b) (a + 1) bs

end Sys2Proof.Machine
end

