-- ==== Sys2Proof/Machine/Ops.lean ====
section
/-! DEFINITION. The named operations over registers, buffer, ports and trace; the failure entry and the return from it
(R10, R11 of 00_scope.md; R31 to R36 of 10_state.md; R61 of 20_memory.md; R289, R290, R292 of 60_exceptions.md). -/

namespace Sys2Proof.Machine

/-! ## Register updates -/

/-- `st <- v` (R20). -/
def State.setSt (s : State) (v : DispState) : State := { s with st := v }

/-- `ph <- v` (R21). -/
def State.setPh (s : State) (v : Phase) : State := { s with ph := v }

/-- `cmd_id <- v` (R22). -/
def State.setCmdId (s : State) (v : Byte) : State := { s with cmdId := v }

/-- `dev_addr <- v` (R23). -/
def State.setDevAddr (s : State) (v : Byte) : State := { s with devAddr := v }

/-- `reg_ptr <- v` (R24). -/
def State.setRegPtr (s : State) (v : Byte) : State := { s with regPtr := v }

/-- `count <- v` (R25). -/
def State.setCount (s : State) (v : Byte) : State := { s with count := v }

/-- The buffer replaced (R26). -/
def State.setBuf (s : State) (v : Memory) : State := { s with buf := v }

/-- `res_ok <- v` (R27). -/
def State.setResOk (s : State) (v : Bool) : State := { s with resOk := v }

/-- `res_len <- v` (R28). -/
def State.setResLen (s : State) (v : Byte) : State := { s with resLen := v }

/-- `idx <- v` (R29). -/
def State.setIdx (s : State) (v : Byte) : State := { s with idx := v }

/-- `scan_idx <- v` (R29). -/
def State.setScanIdx (s : State) (v : Byte) : State := { s with scanIdx := v }

/-- `scan_addr <- v` (R29). -/
def State.setScanAddr (s : State) (v : Byte) : State := { s with scanAddr := v }

/-- `out_cnt <- v` (R29). -/
def State.setOutCnt (s : State) (v : Byte) : State := { s with outCnt := v }

/-- `to_cnt <- v` (R30). -/
def State.setToCnt (s : State) (v : Nat) : State := { s with toCnt := v }

/-- The coming poll answers replaced. -/
def State.setPolls (s : State) (v : Feed Poll) : State := { s with polls := v }

/-- The coming `RxTake` answers replaced. -/
def State.setRx (s : State) (v : Feed Byte) : State := { s with rx := v }

/-- The coming `BusRecv` answers replaced. -/
def State.setBusRx (s : State) (v : Feed Byte) : State := { s with busRx := v }

/-- The ghost failure label set (R282). -/
def State.setFailKind (s : State) (v : Option FailKind) : State := { s with failKind := v }

/-! ## The trace and the environment -/

/-- An action on a port, or any other observable event, recorded in the action trace (R9). -/
def State.log (s : State) (e : Event) : State := { s with trace := e :: s.trace }

/-- The next answer of a feed: the head of its queue, or past the queue the free value at the count. -/
def Feed.next {α : Type} (free : Nat → α) (f : Feed α) : α :=
  match f.queue with
  | a :: _ => a
  | [] => free f.drawn

/-- A feed after one answer has been drawn. -/
def Feed.rest {α : Type} (f : Feed α) : Feed α := ⟨f.queue.tail, f.drawn + 1⟩

/-- The record the next `Poll` returns (R36). -/
def State.pollAnswer (s : State) : Poll := s.polls.next Config.pollAnswer

/-- The state after one `Poll` (R36): the answer is drawn and recorded, no register changes. -/
def State.polled (s : State) : State := (s.setPolls s.polls.rest).log (.poll s.pollAnswer)

/-- The byte the next `RxTake` returns (R32). -/
def State.rxAnswer (s : State) : Byte := s.rx.next Config.rxByte

/-- The state after one `RxTake` (R32). -/
def State.rxTaken (s : State) : State := (s.setRx s.rx.rest).log (.rxTake s.rxAnswer)

/-- The byte the next `BusRecv` returns (R34). -/
def State.busAnswer (s : State) : Byte := s.busRx.next Config.busByte

/-- The state after one `BusRecv` (R34). -/
def State.busReceived (s : State) : State := (s.setBusRx s.busRx.rest).log (.busRecv s.busAnswer)

/-! ## The buffer -/

/-- `buf[i] <- v` (R10, R61). An index the buffer does not have is left alone: R61 and R78 show that no rule writes
there, and no step of this model does (log entry 16). -/
def State.bufStore (s : State) (i : Nat) (v : Byte) : State :=
  if i < bufLen then s.setBuf (s.buf.write i v) else s

/-- `buf[i]` where the machine depends on the value: a byte that holds none, or an index the buffer does not have, is
a fault (R43, R61). -/
def State.bufLoad (s : State) (i : Nat) : Except Fault Byte :=
  if i < bufLen then
    match s.buf.read i with
    | some b => .ok b
    | none => .error .bufUnwritten
  else .error .bufOutOfRange

/-! ## Results and failures -/

/-- `raise Failure(kind)`: the one failure entry, in Receive and in Execute (R289, R290). Nothing is saved; control
goes to Respond. -/
def State.raiseFailure (s : State) (kind : FailKind) : State :=
  ((s.setResOk false).setFailKind (some kind)).setSt .respond

/-- The end of a command cycle, after a failure as after a success: `st <- Receive` (R151, R292). -/
def State.returnToReceive (s : State) : State := s.setSt .receive

/-- The result `Ok` with its payload length, and the way to Respond (R223, R225 to R227, R260). -/
def State.succeed (s : State) (len : Byte) : State := ((s.setResLen len).setResOk true).setSt .respond

/-- What a meaning answers for a term of `Instr`: the state after it, or a refusal of a term that no frame
encodes. -/
def answerIf (wf : Bool) (t : State) : Host.Outcome State Fault Refusal :=
  if wf then .next t else .refused .illFormed

end Sys2Proof.Machine
end

