-- ==== Sys2Proof/Machine/Operands.lean ====
section
/-! DEFINITION. Operand forms: address bytes, the default range, and the frame that the command registers hold
(R62, R65, R69 of 20_memory.md; R96 to R99 of 30_encoding.md; R261 of 44_device_scan.md). -/

namespace Sys2Proof.Machine

/-- `a[6:0]`: the device address of an address byte; bit 7 is ignored (R65, R97). -/
def addr7 (a : Byte) : Addr7 := a.extractLsb' 0 7

/-- The value of the direction bit: `DIR_W` = 0, `DIR_R` = 1 (R6, R34; from general knowledge, log entry 12). -/
def Direction.bit : Direction → BitVec 1
  | .write => 0#1
  | .read => 1#1

/-- The byte `BusAddr(a7, d)` puts on the bus: the address in bits 7..1, the direction in bit 0 (R34, R69, R97). -/
def addressByte (a : Addr7) (d : Direction) : Byte := a ++ d.bit

/-- The candidates of a default scan: 0x03, 0x04, ..., 0x77 (R98, R261). -/
def defaultRange : List Byte :=
  (List.range (scanLast.toNat - scanFirst.toNat + 1)).map fun k => BitVec.ofNat 8 (scanFirst.toNat + k)

/-- The addresses a DETECT probes: the listed ones, or the default range for an empty list (R92, R98, R261). -/
def candidates : List Byte → List Byte
  | [] => defaultRange
  | a :: as => a :: as

/-- The frame that the command registers and the buffer hold after Receive (R62, R92): the identifier, the fields of
its layout, and the payload. None where a byte of the payload was never written. -/
def State.heldFrame (s : State) : Option (List Byte) :=
  if s.cmdId = 0x00#8 then
    (s.buf.readRange 0 s.count.toNat).map fun p => s.cmdId :: s.devAddr :: s.regPtr :: s.count :: p
  else if s.cmdId = 0x01#8 then some [s.cmdId, s.devAddr, s.regPtr, s.count]
  else if s.cmdId = 0x02#8 ∨ s.cmdId = 0x03#8 then
    (s.buf.readRange 0 s.count.toNat).map fun p => s.cmdId :: s.count :: p
  else some [s.cmdId]

/-- The command registers and the buffer loaded with an instruction's fields, as Receive leaves them (R62, R122 to
R125, R127); nothing else changes. -/
def State.holdInstr (s : State) (i : Instr) : State :=
  match i with
  | .write a r p =>
    ((((s.setCmdId i.idByte).setDevAddr a).setRegPtr r).setCount (countByte p)).setBuf (s.buf.writeRange 0 p)
  | .read a r n => (((s.setCmdId i.idByte).setDevAddr a).setRegPtr r).setCount n
  | .detect as => ((s.setCmdId i.idByte).setCount (countByte as)).setBuf (s.buf.writeRange 0 as)
  | .echo p => ((s.setCmdId i.idByte).setCount (countByte p)).setBuf (s.buf.writeRange 0 p)
  | .unrec04 _ => s.setCmdId i.idByte
  | .unrec08 _ => s.setCmdId i.idByte
  | .unrec10 _ => s.setCmdId i.idByte
  | .unrec20 _ => s.setCmdId i.idByte
  | .unrec40 _ => s.setCmdId i.idByte
  | .unrec80 _ => s.setCmdId i.idByte

end Sys2Proof.Machine
end

