-- ==== Sys2Proof/Machine/Flags.lean ====
section
/-! DEFINITION. The conditions a wait tests in a poll record: the seven bus waits of R167 of 42_bus_engine.md and the
two transport waits of R120 and R150. The block's one flag, `res_ok` (R38), is written by the operations of
Ops.lean. -/

namespace Sys2Proof.Machine

/-- The bus waits (R167). -/
inductive BusWait where
  /-- `W_IDLE`. -/
  | idle
  /-- `W_MMS`, after the first start and after the repeated one. -/
  | mms
  /-- `W_TMS`. -/
  | tms
  /-- `W_RMS`. -/
  | rms
  /-- `W_BTX` of the pointer byte. -/
  | btxPointer
  /-- `W_BTX` of a data byte. -/
  | btxData
  /-- `W_BRX`. -/
  | brx
  deriving DecidableEq, Repr

/-- The column `done(f)` of R167. -/
def BusWait.done : BusWait → Poll → Bool
  | .idle, f => !f.busBusy
  | .mms, f => f.evMms
  | .tms, f => f.evTms
  | .rms, f => f.evRms
  | .btxPointer, f => f.evBtx
  | .btxData, f => f.evBtx
  | .brx, f => f.evBrx

/-- The column `nack_en` of R167: the acknowledge-failure flag is watched in the two address waits only. -/
def BusWait.nackEn : BusWait → Bool
  | .idle => false
  | .mms => false
  | .tms => true
  | .rms => true
  | .btxPointer => false
  | .btxData => false
  | .brx => false

/-- The failure class of an expiry (R167, R281). -/
def BusWait.expiryKind : BusWait → FailKind
  | .idle => .busBusy
  | .mms => .busSelect
  | .tms => .busSelect
  | .rms => .busSelect
  | .btxPointer => .transfer
  | .btxData => .transfer
  | .brx => .transfer

end Sys2Proof.Machine
end

