-- ==== Sys2Proof/Machine/Wait.lean ====
section
/-! DEFINITION. The timeout arbiter: the one wait loop of the block (R165 to R167 of 42_bus_engine.md, R295 and R296 of
60_exceptions.md). -/

namespace Sys2Proof.Machine

/-- The loop of `Wait` with so many polls left (R165): the awaited condition is tested first, `af` second, the
countdown last (R286). -/
def waitLoop (done : Poll → Bool) (nackEn : Bool) : Nat → State → WaitOutcome × State
  | 0, s => (.expired, s)
  | k + 1, s =>
    if done s.pollAnswer then (.done, s.polled)
    else if nackEn && s.pollAnswer.af then (.nack, s.polled)
    else waitLoop done nackEn k (s.polled.setToCnt k)

/-- `Wait(done, nack_en, T)` (R165). -/
def wait (done : Poll → Bool) (nackEn : Bool) (T : Nat) (s : State) : WaitOutcome × State :=
  waitLoop done nackEn T (s.setToCnt T)

/-- A bus wait, with the budget `T_BUS` (R167). -/
def busWait (w : BusWait) (s : State) : WaitOutcome × State := wait w.done w.nackEn s.params.tBus s

end Sys2Proof.Machine
end

