-- ==== Sys2Proof/Machine/Engine.lean ====
section
/-! DEFINITION. bus_engine: the address phase, the write and read transactions and the probe (R168 to R188 of
42_bus_engine.md). -/

namespace Sys2Proof.Machine

/-- An engine sequence's outcome and the state it leaves (R168). -/
abbrev EngineResult := EngineOutcome × State

/-- "if o != Ok then return o": the first step that does not return `Ok` ends the sequence (R168). -/
def andThen (r : EngineResult) (k : State → EngineResult) : EngineResult :=
  match r.1 with
  | .ok => k r.2
  | .nack => (.nack, r.2)
  | .timeout kind => (.timeout kind, r.2)

/-- A wait that does not watch `af`: on expiry the cleanup actions, newest first, and `Timeout`. -/
def awaitOr (w : BusWait) (cleanup : State → State) (s : State) : EngineResult :=
  match busWait w s with
  | (.expired, t) => (.timeout w.expiryKind, cleanup t)
  | (_, t) => (.ok, t)

/-- `IdleWait` (R169): on expiry nothing is done on the bus. -/
def idleWait (s : State) : EngineResult := awaitOr .idle id (s.setPh .exIdle)

/-- `Start(p)` (R170). -/
def startCondition (p : Phase) (s : State) : EngineResult :=
  awaitOr .mms (fun t => t.log .busStop) ((s.setPh p).log .busStart)

/-- The phase of an address wait (R171). -/
def Direction.phase : Direction → Phase
  | .write => .exAddrW
  | .read => .exAddrR

/-- The wait after an address byte (R171). -/
def Direction.addressWait : Direction → BusWait
  | .write => .tms
  | .read => .rms

/-- `Address(a, d)` (R171 to R173): an acknowledge failure clears the flag and then stops, an expiry stops. -/
def address (a : Byte) (d : Direction) (s : State) : EngineResult :=
  match busWait d.addressWait ((s.setPh d.phase).log (.busAddr (addr7 a) d)) with
  | (.done, t) => (.ok, t)
  | (.nack, t) => (.nack, (t.log .busClearAF).log .busStop)
  | (.expired, t) => (.timeout d.addressWait.expiryKind, t.log .busStop)

/-- `AddrPhase(a)` (R174). -/
def addrPhase (a : Byte) (s : State) : EngineResult :=
  andThen (idleWait s) fun s1 =>
  andThen (startCondition .exStart s1) fun s2 =>
  address a .write s2

/-- `ReAddrPhase(a)`: the repeated start of a READ (R174). -/
def reAddrPhase (a : Byte) (s : State) : EngineResult :=
  andThen (startCondition .exRestart s) fun s1 => address a .read s1

/-- One byte sent and its confirmation awaited; an expiry stops (R175, R176). -/
def sendByte (w : BusWait) (b : Byte) (s : State) : EngineResult :=
  awaitOr w (fun t => t.log .busStop) (s.log (.busSend b))

/-- `SendPointer(r)` (R176). -/
def sendPointer (r : Byte) (s : State) : EngineResult := sendByte .btxPointer r (s.setPh .exReg)

/-- The payload loop of `TxnWrite` (R175). -/
def sendPayload : List Byte → State → EngineResult
  | [], s => (.ok, s)
  | b :: bs, s => andThen (sendByte .btxData b s) fun t => sendPayload bs (t.setIdx (t.idx + 1#8))

/-- `TxnWrite(a, r, n)` with its `n` data bytes (R175). The stop comes after the last byte. -/
def txnWrite (a r : Byte) (data : List Byte) (s : State) : EngineResult :=
  andThen (addrPhase a s) fun s1 =>
  andThen (sendPointer r s1) fun s2 =>
  andThen (sendPayload data ((s2.setPh .exWdata).setIdx 0#8)) fun s3 =>
  (.ok, s3.log .busStop)

/-- Before the last byte of a READ, and only before it: acknowledge off, then stop (R177, R178). -/
def prepareByte (last : Bool) (s : State) : State :=
  if last then (s.log (.busAck .none)).log .busStop else s

/-- `buf[idx] <- BusRecv()` and `idx <- idx + 1` (R177). -/
def recvByte (s : State) : State :=
  let t := s.busReceived.bufStore s.idx.toNat s.busAnswer
  t.setIdx (t.idx + 1#8)

/-- The receive loop of `TxnRead` with so many bytes left to receive (R177 to R179): the acknowledge mode is restored
on every exit. -/
def recvPayload : Nat → State → EngineResult
  | 0, s => (.ok, s.log (.busAck .current))
  | k + 1, s =>
    andThen (awaitOr .brx (fun t => (t.log .busStop).log (.busAck .current)) (prepareByte (k == 0) s)) fun t =>
    recvPayload k (recvByte t)

/-- `TxnRead(a, r, n)` (R177, R180). -/
def txnRead (a r n : Byte) (s : State) : EngineResult :=
  andThen (addrPhase a s) fun s1 =>
  andThen (sendPointer r s1) fun s2 =>
  if n = 0#8 then (.ok, s2.log .busStop)
  else
    andThen (reAddrPhase a s2) fun s3 =>
    recvPayload n.toNat ((s3.setPh .exRdata).setIdx 0#8)

/-- `Probe(a)` (R181): the address phase alone, and a stop when the device is present. -/
def probe (a : Byte) (s : State) : EngineResult :=
  andThen (addrPhase a s) fun t => (.ok, t.log .busStop)

end Sys2Proof.Machine
end

