-- ==== Sys2Proof/Machine/BusCommands.lean ====
section
/-! DEFINITION. WRITE and READ (R225, R226 of 43_dispatcher.md). -/

namespace Sys2Proof.Machine

/-- What the dispatcher makes of an engine outcome for WRITE and READ (R168, R225, R226): `Ok` gives the result, every
other outcome is a Failure (R281). -/
def concludeTxn (onOk : State → State) (r : EngineResult) : State :=
  match r.1 with
  | .ok => onOk r.2
  | .nack => r.2.raiseFailure .ackFailure
  | .timeout kind => r.2.raiseFailure kind

/-- `ExecWrite` (R225): the reported count is always the request's N. -/
def execWrite (addr reg : Byte) (payload : List Byte) (s : State) : Host.Outcome State Fault Refusal :=
  answerIf (payloadFits payload)
    (concludeTxn (fun t => (t.bufStore 0 (countByte payload)).succeed 1#8) (txnWrite addr reg payload s))

/-- `ExecRead` (R226). -/
def execRead (addr reg count : Byte) (s : State) : Host.Outcome State Fault Refusal :=
  .next (concludeTxn (fun t => t.succeed count) (txnRead addr reg count s))

end Sys2Proof.Machine
end

