-- ==== Sys2Proof/Machine/Local.lean ====
section
/-! DEFINITION. The commands that touch no bus: ECHO (R227 of 43_dispatcher.md) and the unrecognized identifiers (R101
of 30_encoding.md, R127 of 40_frame_codec_rx.md). -/

namespace Sys2Proof.Machine

/-- `ExecEcho` (R227): the payload stands in `buf` and stays there. -/
def execEcho (payload : List Byte) (s : State) : Host.Outcome State Fault Refusal :=
  answerIf (payloadFits payload) ((s.setPh .exLocal).succeed (countByte payload))

/-- The answer to an unrecognized identifier: the failure of class (u), no bus action, no further byte taken (R101,
R127). In Execute it is the meaning R223 offers for a `cmd_id` that cannot be there. -/
def rejectIdentifier (s : State) : State := s.raiseFailure .unrecognizedId

/-- Identifiers 0x04 to 0x07 (R127). -/
def execUnrec04 (_low : BitVec 2) (s : State) : Host.Outcome State Fault Refusal := .next (rejectIdentifier s)

/-- Identifiers 0x08 to 0x0F (R127). -/
def execUnrec08 (_low : BitVec 3) (s : State) : Host.Outcome State Fault Refusal := .next (rejectIdentifier s)

/-- Identifiers 0x10 to 0x1F (R127). -/
def execUnrec10 (_low : BitVec 4) (s : State) : Host.Outcome State Fault Refusal := .next (rejectIdentifier s)

/-- Identifiers 0x20 to 0x3F (R127). -/
def execUnrec20 (_low : BitVec 5) (s : State) : Host.Outcome State Fault Refusal := .next (rejectIdentifier s)

/-- Identifiers 0x40 to 0x7F (R127). -/
def execUnrec40 (_low : BitVec 6) (s : State) : Host.Outcome State Fault Refusal := .next (rejectIdentifier s)

/-- Identifiers 0x80 to 0xFF (R127). -/
def execUnrec80 (_low : BitVec 7) (s : State) : Host.Outcome State Fault Refusal := .next (rejectIdentifier s)

end Sys2Proof.Machine
end

