-- ==== Sys2Proof/Machine/Scan.lean ====
section
/-! DEFINITION. device_scan: the DETECT command (R260 to R266 of 44_device_scan.md). -/

namespace Sys2Proof.Machine

/-- "Retain": `buf[out_cnt] <- scan_addr` and `out_cnt <- out_cnt + 1` (R260, R263). -/
def retain (s : State) : State :=
  let t := s.bufStore s.outCnt.toNat s.scanAddr
  t.setOutCnt (t.outCnt + 1#8)

/-- The step to the next candidate: an explicit list counts `scan_idx`, the default range does not (R260). -/
def advance (listed : Bool) (s : State) : State := if listed then s.setScanIdx (s.scanIdx + 1#8) else s

/-- The scan loop over the candidates in order (R260, R264): present is retained, absent is not, a timeout aborts. -/
def scanLoop (listed : Bool) : List Byte → State → EngineResult
  | [], s => (.ok, s)
  | a :: as, s =>
    match probe a (s.setScanAddr a) with
    | (.ok, t) => scanLoop listed as (advance listed (retain t))
    | (.nack, t) => scanLoop listed as (advance listed t)
    | (.timeout kind, t) => (.timeout kind, t)

/-- The two loops of `ExecDetect` (R260): the default range for an empty list, else the list with `scan_idx` from 0. -/
def scanAll (addrs : List Byte) (s : State) : EngineResult :=
  match addrs with
  | [] => scanLoop false defaultRange s
  | a :: as => scanLoop true (a :: as) (s.setScanIdx 0#8)

/-- `ExecDetect` (R260): only a timeout fails the command (R264, R284). -/
def execDetect (addrs : List Byte) (s : State) : Host.Outcome State Fault Refusal :=
  answerIf (payloadFits addrs)
    (match scanAll addrs (s.setOutCnt 0#8) with
      | (.timeout kind, t) => t.raiseFailure kind
      | (_, t) => t.succeed t.outCnt)

end Sys2Proof.Machine
end

