-- ==== Sys2Proof/Machine/Dispatch.lean ====
section
/-! DEFINITION. The Execute routing: one arm per row of opcode_table.json (R223 of 43_dispatcher.md). -/

namespace Sys2Proof.Machine

def exec (i : Instr) (s : State) : Host.Outcome State Fault Refusal :=
  match i with
  | .write addr reg payload => Sys2Proof.Machine.execWrite addr reg payload s
  | .read addr reg count => Sys2Proof.Machine.execRead addr reg count s
  | .detect addrs => Sys2Proof.Machine.execDetect addrs s
  | .echo payload => Sys2Proof.Machine.execEcho payload s
  | .unrec04 low => Sys2Proof.Machine.execUnrec04 low s
  | .unrec08 low => Sys2Proof.Machine.execUnrec08 low s
  | .unrec10 low => Sys2Proof.Machine.execUnrec10 low s
  | .unrec20 low => Sys2Proof.Machine.execUnrec20 low s
  | .unrec40 low => Sys2Proof.Machine.execUnrec40 low s
  | .unrec80 low => Sys2Proof.Machine.execUnrec80 low s

end Sys2Proof.Machine
end

