-- ==== Sys2Proof/Machine/Fetch.lean ====
section
/-! DEFINITION. Startup, and the fetch of the command that the command registers hold (R221, R223 of
43_dispatcher.md). -/

namespace Sys2Proof.Machine

/-- `Startup` (R221): one `Init`, then Receive. -/
def startup (s : State) : State := ((s.setPh .suInit).log .init).setSt .receive

/-- The instruction in the command registers (R3, R223), or why there is none. -/
def fetchInstr (s : State) : Except (Host.Outcome State Fault Refusal) Instr :=
  match s.heldFrame with
  | none => .error (.fault .bufUnwritten)
  | some bytes =>
    match decode bytes with
    | .ok (i, _) => .ok i
    | .error e => .error (.refused (.undecodable e))

/-- The state in which the next step runs the instruction of a table word: Execute, with the instruction's fields in
the command registers and the buffer. A word the decoder does not read changes nothing. -/
def State.withTableWord (s : State) (nbits w : Nat) : State :=
  match decodeTableWord nbits w with
  | some i => (s.holdInstr i).setSt .execute
  | none => s

end Sys2Proof.Machine
end

