-- ==== Sys2Proof/Machine/Receive.lean ====
section
/-! DEFINITION. frame_codec_rx: the command parser that runs in Receive (R120 to R131 of 40_frame_codec_rx.md). -/

namespace Sys2Proof.Machine

/-- `RxByte()` (R120): the byte, or none when the wait expired, and the state after. -/
def rxByte (s : State) : Option Byte × State :=
  match wait (fun f => f.rxReady) false s.params.tRx s with
  | (.expired, t) => (none, t)
  | (_, t) => (some t.rxAnswer, t.rxTaken)

/-- A decode sub-sequence: whether it ran to its end, and the state it leaves. -/
abbrev RxResult := Bool × State

/-- The next part of a sub-sequence, unless a byte failed to come (R121). -/
def rxThen (r : RxResult) (k : State → RxResult) : RxResult :=
  match r.1 with
  | true => k r.2
  | false => (false, r.2)

/-- One byte received and stored (R121). -/
def rxStore (put : State → Byte → State) (s : State) : RxResult :=
  match rxByte s with
  | (some y, t) => (true, put t y)
  | (none, t) => (false, t)

/-- `buf[idx] <- y` and `idx <- idx + 1` (R126). -/
def putPayloadByte (s : State) (y : Byte) : State :=
  let t := s.bufStore s.idx.toNat y
  t.setIdx (t.idx + 1#8)

/-- The loop of `RxPayload` with so many bytes left to take (R126): every byte has its own budget. -/
def rxPayloadLoop : Nat → State → RxResult
  | 0, s => (true, s)
  | k + 1, s => rxThen (rxStore putPayloadByte s) (rxPayloadLoop k)

/-- `ph <- RX_DATA; RxPayload` (R126). -/
def rxPayload (s : State) : RxResult := rxPayloadLoop s.count.toNat ((s.setPh .rxData).setIdx 0#8)

/-- `ph <- RX_ADDR; dev_addr <- RxByte()` (R122, R123). -/
def rxAddr (s : State) : RxResult := rxStore State.setDevAddr (s.setPh .rxAddr)

/-- `ph <- RX_REG; reg_ptr <- RxByte()` (R122, R123). -/
def rxReg (s : State) : RxResult := rxStore State.setRegPtr (s.setPh .rxReg)

/-- `ph <- RX_COUNT; count <- RxByte()` (R122 to R125). -/
def rxCount (s : State) : RxResult := rxStore State.setCount (s.setPh .rxCount)

/-- `RxWrite` (R122). -/
def rxWrite (s : State) : RxResult := rxThen (rxThen (rxThen (rxAddr s) rxReg) rxCount) rxPayload

/-- `RxRead` (R123). -/
def rxRead (s : State) : RxResult := rxThen (rxThen (rxAddr s) rxReg) rxCount

/-- `RxDetect` (R124). -/
def rxDetect (s : State) : RxResult := rxThen (rxCount s) rxPayload

/-- `RxEcho` (R125). -/
def rxEcho (s : State) : RxResult := rxThen (rxCount s) rxPayload

/-- The end of the decode sequence (R121): Execute with a complete frame, else the failure of class (a) (R128). -/
def rxFinish (r : RxResult) : State :=
  match r.1 with
  | true => r.2.setSt .execute
  | false => r.2.raiseFailure .framing

/-- The decode sequence from the identifier on (R121); an unrecognized one takes no further byte (R127). -/
def parseFrom (x : Byte) (s : State) : State :=
  let t := s.setCmdId x
  if x = 0x00#8 then rxFinish (rxWrite t)
  else if x = 0x01#8 then rxFinish (rxRead t)
  else if x = 0x02#8 then rxFinish (rxDetect t)
  else if x = 0x03#8 then rxFinish (rxEcho t)
  else rejectIdentifier t

/-- The identifier wait of R129 when it is bounded. -/
def receiveBounded (s : State) : State :=
  match rxByte s with
  | (some x, t) => parseFrom x t
  | (none, t) => t.raiseFailure .framing

/-- One poll of the identifier wait of R129 when it is not bounded: without a byte the block stays in Receive. -/
def receiveUnbounded (s : State) : State :=
  if s.pollAnswer.rxReady then parseFrom s.polled.rxAnswer s.polled.rxTaken else s.polled

/-- A step in Receive (R121, R129, R222): the whole decode sequence, or one poll of an unbounded identifier wait that
shows no byte. The ghost failure label is cleared here, at the start of a command cycle. -/
def receive (s : State) : State :=
  let t := (s.setPh .rxId).setFailKind none
  if t.params.idWaitBounded then receiveBounded t else receiveUnbounded t

end Sys2Proof.Machine
end

