-- ==== Sys2Proof/Machine/Respond.lean ====
section
/-! DEFINITION. frame_codec_tx: the result serializer that runs in Respond (R150 to R157 of 41_frame_codec_tx.md). The
transmit wait has no countdown (R150), so a step in Respond is one poll of it, with the `TxPut` when the poll shows
`tx_ready`. -/

namespace Sys2Proof.Machine

/-- One poll of `TxByte(b)`: the byte goes out and the serializer goes on, or the wait continues (R150). -/
def txPoll (b : Byte) (goOn : State → State) (s : State) : State :=
  if s.pollAnswer.txReady then goOn (s.polled.log (.txPut b)) else s.polled

/-- The serializer has begun on the pending result (R21, R151). -/
def Phase.isTx : Phase → Bool
  | .txLen => true
  | .txData => true
  | .txFail => true
  | _ => false

/-- The first phase of Respond, chosen by `res_ok` on entry (R151). -/
def beginRespond (s : State) : State :=
  if s.ph.isTx then s else s.setPh (if s.resOk then .txLen else .txFail)

/-- After the length byte: `ph <- TX_DATA; idx <- 0` (R151). -/
def beginData (s : State) : State := (s.setPh .txData).setIdx 0#8

/-- A step of the payload loop (R151): its exit, or one poll for the byte `buf[idx]`. -/
def respondData (s : State) : Host.Outcome State Fault Refusal :=
  if s.idx = s.resLen then .next s.returnToReceive
  else
    match s.bufLoad s.idx.toNat with
    | .ok b => .next (txPoll b (fun t => t.setIdx (t.idx + 1#8)) s)
    | .error r => .fault r

/-- A step in Respond (R151 to R153, R155). -/
def respond (s : State) : Host.Outcome State Fault Refusal :=
  let t := beginRespond s
  match t.ph with
  | .txData => respondData t
  | .txLen => .next (txPoll t.resLen beginData t)
  | _ => .next (txPoll 0x00#8 State.returnToReceive t)

end Sys2Proof.Machine
end

