-- ==== Sys2Proof/Machine/Step.lean ====
section
/-! DEFINITION. One step: the dispatcher's pass through the state it is in (R220 to R224 of 43_dispatcher.md). -/

namespace Sys2Proof.Machine

/-- A step in Execute: the held instruction is fetched, decoded and run (R223). -/
def executeHeld (s : State) : Host.Outcome State Fault Refusal :=
  match fetchInstr s with
  | .ok i => exec i s
  | .error stop => stop

/-- One step of the machine (R220). -/
def step (s : State) : Host.Outcome State Fault Refusal :=
  match s.st with
  | .startup => .next (startup s)
  | .receive => .next (receive s)
  | .execute => executeHeld s
  | .respond => respond s

/-- The state with a table word's instruction where the next step fetches it. -/
def State.withFetchWord (s : State) (nbits w : Nat) : State := s.withTableWord nbits w

end Sys2Proof.Machine
end

