-- ==== Sys2Proof/Machine/Reset.lean ====
section
/-! DEFINITION. The reset input asserted in a running machine (R320, R321, R323 of 70_reset_and_hazards.md). The
environment and the trace go on as they stand: the reset performs no action, and nothing is assumed of the bus. -/

namespace Sys2Proof.Machine

/-- A feed after `n` answers have been drawn. -/
def Feed.advance {α : Type} (f : Feed α) (n : Nat) : Feed α := ⟨f.queue.drop n, f.drawn + n⟩

/-- Reset asserted between two steps: every register goes to its reset value (R320), no port action is performed. -/
def State.assertReset (s : State) : State :=
  { State.reset with params := s.params, polls := s.polls, rx := s.rx, busRx := s.busRx, trace := s.trace }

/-- The events between two states of a run, oldest first. -/
def State.eventsSince (s t : State) : List Event := (t.trace.take (t.trace.length - s.trace.length)).reverse

/-- How many polls a list of events holds. -/
def pollCount (es : List Event) : Nat := es.countP fun e => match e with | .poll _ => true | _ => false

/-- How many `RxTake` actions a list of events holds. -/
def rxCountOf (es : List Event) : Nat := es.countP fun e => match e with | .rxTake _ => true | _ => false

/-- How many `BusRecv` actions a list of events holds. -/
def busRecvCount (es : List Event) : Nat := es.countP fun e => match e with | .busRecv _ => true | _ => false

/-- Reset asserted in the middle of the step from `s` to `t`, when `k` of its polls and actions have been performed
(R321): the rest of the step is abandoned without any cleanup action. -/
def State.resetDuring (s t : State) (k : Nat) : State :=
  let es := (s.eventsSince t).take k
  { State.reset with
    params := s.params
    polls := s.polls.advance (pollCount es)
    rx := s.rx.advance (rxCountOf es)
    busRx := s.busRx.advance (busRecvCount es)
    trace := es.reverse ++ s.trace }

end Sys2Proof.Machine
end

