-- ==== Sys2Proof/Machine/Micro.lean ====
section
/-! DEFINITION. The steps of R8 and R11 of 00_scope.md: one poll, one action on a port, one register update, or one access
to the buffer. A sequence of the spec's pseudocode is a program of such steps; running it to its end gives what the pass
of `step` does, and taking its steps one by one gives every state between them. -/

namespace Sys2Proof.Machine

/-! ## The steps -/

/-- One internal register update: a register and its new value (R8, R20 to R30). -/
inductive Update where
  | st (v : DispState)
  | ph (v : Phase)
  /-- `ph <- RX_ID` at the start of a command cycle, where the ghost failure label is cleared (R121, R282). -/
  | openFrame
  | cmdId (v : Byte)
  | devAddr (v : Byte)
  | regPtr (v : Byte)
  | count (v : Byte)
  /-- `MemWrite(i, 1, v)` (R11, R61). -/
  | buf (i : Nat) (v : Byte)
  | resOk (v : Bool)
  /-- `res_ok <- 0` of a failure entry, with the ghost label of its class (R282, R290). -/
  | fail (kind : FailKind)
  | resLen (v : Byte)
  | idx (v : Byte)
  | scanIdx (v : Byte)
  | scanAddr (v : Byte)
  | outCnt (v : Byte)
  | toCnt (v : Nat)
  deriving DecidableEq, Repr

/-- The state after one register update. -/
def Update.apply : Update → State → State
  | .st v, s => s.setSt v
  | .ph v, s => s.setPh v
  | .openFrame, s => (s.setPh .rxId).setFailKind none
  | .cmdId v, s => s.setCmdId v
  | .devAddr v, s => s.setDevAddr v
  | .regPtr v, s => s.setRegPtr v
  | .count v, s => s.setCount v
  | .buf i v, s => s.bufStore i v
  | .resOk v, s => s.setResOk v
  | .fail kind, s => (s.setResOk false).setFailKind (some kind)
  | .resLen v, s => s.setResLen v
  | .idx v, s => s.setIdx v
  | .scanIdx v, s => s.setScanIdx v
  | .scanAddr v, s => s.setScanAddr v
  | .outCnt v, s => s.setOutCnt v
  | .toCnt v, s => s.setToCnt v

/-- An action on a port that returns nothing (R31, R33, R34). -/
inductive PortAction where
  | init
  | txPut (b : Byte)
  | busStart
  | busStop
  | busAddr (a : Addr7) (d : Direction)
  | busSend (b : Byte)
  | busClearAF
  | busAck (m : AckMode)
  deriving DecidableEq, Repr

/-- The trace's event for an action. -/
def PortAction.event : PortAction → Event
  | .init => .init
  | .txPut b => .txPut b
  | .busStart => .busStart
  | .busStop => .busStop
  | .busAddr a d => .busAddr a d
  | .busSend b => .busSend b
  | .busClearAF => .busClearAF
  | .busAck m => .busAck m

/-- One step in the sense of R8. -/
inductive MicroOp where
  /-- `Poll()`. -/
  | poll
  /-- `RxTake()`. -/
  | rxTake
  /-- `BusRecv()`. -/
  | busRecv
  /-- Any other action on a port. -/
  | act (c : PortAction)
  /-- A register update, `MemWrite` among them. -/
  | update (u : Update)
  /-- `MemRead(i, 1)` (R11, R61). -/
  | memRead (i : Nat)
  deriving DecidableEq, Repr

/-- The state after one step of R8. -/
def MicroOp.apply : MicroOp → State → State
  | .poll, s => s.polled
  | .rxTake, s => s.rxTaken
  | .busRecv, s => s.busReceived
  | .act c, s => s.log c.event
  | .update u, s => u.apply s
  | .memRead _, s => s

/-! ## Programs of steps -/

/-- A program of steps that ends with a result. -/
inductive Prog (α : Type) where
  /-- The end. -/
  | ret (a : α)
  /-- A branch on what the registers hold: no step. -/
  | read (k : State → Prog α)
  /-- `f <- Poll()`. -/
  | poll (k : Poll → Prog α)
  /-- `b <- RxTake()`. -/
  | rxTake (k : Byte → Prog α)
  /-- `b <- BusRecv()`. -/
  | busRecv (k : Byte → Prog α)
  /-- Another action on a port. -/
  | act (c : PortAction) (k : Prog α)
  /-- A register update. -/
  | update (u : Update) (k : Prog α)
  /-- `b <- MemRead(i, 1)`. A byte that holds no value stops the machine (R43, log entry 6). -/
  | load (i : Nat) (k : Byte → Prog α)

/-- A program, and then another that depends on its result. -/
def Prog.bind {α β : Type} : Prog α → (α → Prog β) → Prog β
  | .ret a, q => q a
  | .read k, q => .read fun s => (k s).bind q
  | .poll k, q => .poll fun f => (k f).bind q
  | .rxTake k, q => .rxTake fun b => (k b).bind q
  | .busRecv k, q => .busRecv fun b => (k b).bind q
  | .act c k, q => .act c (k.bind q)
  | .update u k, q => .update u (k.bind q)
  | .load i k, q => .load i fun b => (k b).bind q

/-- A program run to its end: its result and the state it leaves, or how the machine stops. -/
def Prog.run {α : Type} : Prog α → State → Host.Outcome (α × State) Fault Refusal
  | .ret a, s => .next (a, s)
  | .read k, s => (k s).run s
  | .poll k, s => (k s.pollAnswer).run (MicroOp.poll.apply s)
  | .rxTake k, s => (k s.rxAnswer).run (MicroOp.rxTake.apply s)
  | .busRecv k, s => (k s.busAnswer).run (MicroOp.busRecv.apply s)
  | .act c k, s => k.run ((MicroOp.act c).apply s)
  | .update u k, s => k.run ((MicroOp.update u).apply s)
  | .load i k, s =>
    match s.bufLoad i with
    | .ok b => (k b).run ((MicroOp.memRead i).apply s)
    | .error r => .fault r

/-- What a program does next: its result at its end, else its first step and what is then left of it, or the fault of a
`MemRead`. -/
def Prog.first {α : Type} : Prog α → State → α ⊕ Host.Outcome (MicroOp × Prog α) Fault Refusal
  | .ret a, _ => .inl a
  | .read k, s => (k s).first s
  | .poll k, s => .inr (.next (.poll, k s.pollAnswer))
  | .rxTake k, s => .inr (.next (.rxTake, k s.rxAnswer))
  | .busRecv k, s => .inr (.next (.busRecv, k s.busAnswer))
  | .act c k, _ => .inr (.next (.act c, k))
  | .update u k, _ => .inr (.next (.update u, k))
  | .load i k, s =>
    match s.bufLoad i with
    | .ok b => .inr (.next (.memRead i, k b))
    | .error r => .inr (.fault r)

end Sys2Proof.Machine
end

