-- ==== Sys2Proof/Machine/MicroEngine.lean ====
section
/-! DEFINITION. The sequences of Execute as programs of R8's steps: the timeout arbiter, bus_engine, and the commands
(R165 to R181 of 42_bus_engine.md, R225 to R227 of 43_dispatcher.md, R260 of 44_device_scan.md). -/

namespace Sys2Proof.Machine

/-! ## The timeout arbiter -/

/-- The loop of `Wait` with so many polls left (R165). -/
def waitLoopProg (done : Poll → Bool) (nackEn : Bool) : Nat → Prog WaitOutcome
  | 0 => .ret .expired
  | k + 1 => .poll fun f =>
    if done f then .ret .done
    else if nackEn && f.af then .ret .nack
    else .update (.toCnt k) (waitLoopProg done nackEn k)

/-- `Wait(done, nack_en, T)` (R165). -/
def waitProg (done : Poll → Bool) (nackEn : Bool) (T : Nat) : Prog WaitOutcome :=
  .update (.toCnt T) (waitLoopProg done nackEn T)

/-- A bus wait (R167). -/
def busWaitProg (w : BusWait) : Prog WaitOutcome := .read fun s => waitProg w.done w.nackEn s.params.tBus

/-! ## bus_engine -/

/-- An engine sequence (R168). -/
abbrev EngineProg := Prog EngineOutcome

/-- Actions, oldest first, and then a program. -/
def acting {α : Type} (cs : List PortAction) (p : Prog α) : Prog α := cs.foldr .act p

/-- "if o != Ok then return o" (R168). -/
def andThenProg (p q : EngineProg) : EngineProg :=
  p.bind fun o => match o with
    | .ok => q
    | .nack => .ret .nack
    | .timeout kind => .ret (.timeout kind)

/-- A wait that does not watch `af`, with its cleanup actions on expiry, oldest first. -/
def awaitOrProg (w : BusWait) (cleanup : List PortAction) : EngineProg :=
  (busWaitProg w).bind fun o => match o with
    | .expired => acting cleanup (.ret (.timeout w.expiryKind))
    | _ => .ret .ok

/-- `IdleWait` (R169). -/
def idleWaitProg : EngineProg := .update (.ph .exIdle) (awaitOrProg .idle [])

/-- `Start(p)` (R170). -/
def startProg (p : Phase) : EngineProg := .update (.ph p) (.act .busStart (awaitOrProg .mms [.busStop]))

/-- `Address(a, d)` (R171 to R173). -/
def addressProg (a : Byte) (d : Direction) : EngineProg :=
  .update (.ph d.phase) (.act (.busAddr (addr7 a) d)
    ((busWaitProg d.addressWait).bind fun o => match o with
      | .done => .ret .ok
      | .nack => acting [.busClearAF, .busStop] (.ret .nack)
      | .expired => acting [.busStop] (.ret (.timeout d.addressWait.expiryKind))))

/-- `AddrPhase(a)` (R174). -/
def addrPhaseProg (a : Byte) : EngineProg :=
  andThenProg idleWaitProg (andThenProg (startProg .exStart) (addressProg a .write))

/-- `ReAddrPhase(a)` (R174). -/
def reAddrPhaseProg (a : Byte) : EngineProg := andThenProg (startProg .exRestart) (addressProg a .read)

/-- One byte sent and its confirmation awaited (R175, R176). -/
def sendByteProg (w : BusWait) (b : Byte) : EngineProg := .act (.busSend b) (awaitOrProg w [.busStop])

/-- `SendPointer(r)` (R176). -/
def sendPointerProg (r : Byte) : EngineProg := .update (.ph .exReg) (sendByteProg .btxPointer r)

/-- `idx <- idx + 1`. -/
def nextIdx {α : Type} (p : Prog α) : Prog α := .read fun s => .update (.idx (s.idx + 1#8)) p

/-- The payload loop of `TxnWrite` with so many bytes left to send: each is read from `buf[idx]` (R175). -/
def sendPayloadProg : Nat → EngineProg
  | 0 => .ret .ok
  | k + 1 => .read fun s => .load s.idx.toNat fun b =>
      andThenProg (sendByteProg .btxData b) (nextIdx (sendPayloadProg k))

/-- `TxnWrite(a, r, n)` (R175). -/
def txnWriteProg (a r n : Byte) : EngineProg :=
  andThenProg (addrPhaseProg a)
    (andThenProg (sendPointerProg r)
      (andThenProg (.update (.ph .exWdata) (.update (.idx 0#8) (sendPayloadProg n.toNat)))
        (.act .busStop (.ret .ok))))

/-- Before the last byte of a READ, and only before it: acknowledge off, then stop (R177, R178). -/
def prepareByteProg (last : Bool) (p : EngineProg) : EngineProg :=
  if last then acting [.busAck .none, .busStop] p else p

/-- `buf[idx] <- BusRecv()` and `idx <- idx + 1` (R177). -/
def recvByteProg (p : EngineProg) : EngineProg :=
  .busRecv fun b => .read fun s => .update (.buf s.idx.toNat b) (nextIdx p)

/-- The receive loop of `TxnRead` with so many bytes left to receive (R177 to R179). -/
def recvPayloadProg : Nat → EngineProg
  | 0 => .act (.busAck .current) (.ret .ok)
  | k + 1 =>
    andThenProg (prepareByteProg (k == 0) (awaitOrProg .brx [.busStop, .busAck .current]))
      (recvByteProg (recvPayloadProg k))

/-- `TxnRead(a, r, n)` (R177, R180). -/
def txnReadProg (a r n : Byte) : EngineProg :=
  andThenProg (addrPhaseProg a)
    (andThenProg (sendPointerProg r)
      (if n = 0#8 then .act .busStop (.ret .ok)
       else andThenProg (reAddrPhaseProg a)
         (.update (.ph .exRdata) (.update (.idx 0#8) (recvPayloadProg n.toNat)))))

/-- `Probe(a)` (R181). -/
def probeProg (a : Byte) : EngineProg := andThenProg (addrPhaseProg a) (.act .busStop (.ret .ok))

/-! ## The commands -/

/-- `raise Failure(kind)` (R290). -/
def failureProg (kind : FailKind) : Prog Unit := .update (.fail kind) (.update (.st .respond) (.ret ()))

/-- `res_len <- len`, `res_ok <- 1`, `st <- Respond` (R223, R225 to R227, R260). -/
def successProg (len : Byte) : Prog Unit :=
  .update (.resLen len) (.update (.resOk true) (.update (.st .respond) (.ret ())))

/-- What the dispatcher makes of an engine outcome for WRITE and READ (R225, R226). -/
def concludeTxnProg (onOk : Prog Unit) (p : EngineProg) : Prog Unit :=
  p.bind fun o => match o with
    | .ok => onOk
    | .nack => failureProg .ackFailure
    | .timeout kind => failureProg kind

/-- `ExecWrite` (R225). -/
def writeProg : Prog Unit := .read fun s =>
  concludeTxnProg (.update (.buf 0 s.count) (successProg 1#8)) (txnWriteProg s.devAddr s.regPtr s.count)

/-- `ExecRead` (R226). -/
def readProg : Prog Unit := .read fun s =>
  concludeTxnProg (successProg s.count) (txnReadProg s.devAddr s.regPtr s.count)

/-- "if o == Ok then buf[out_cnt] <- scan_addr; out_cnt <- out_cnt + 1" (R260, R263). -/
def retainProg (p : EngineProg) : EngineProg :=
  .read fun s => .update (.buf s.outCnt.toNat s.scanAddr) (.update (.outCnt (s.outCnt + 1#8)) p)

/-- `scan_addr <- a`, its probe, and the rest of the scan unless a wait expired (R260, R264). -/
def candidateProg (a : Byte) (rest : EngineProg) : EngineProg :=
  .update (.scanAddr a) ((probeProg a).bind fun o => match o with
    | .ok => retainProg rest
    | .nack => rest
    | .timeout kind => .ret (.timeout kind))

/-- The loop over the default range (R260, R261). -/
def scanRangeProg : List Byte → EngineProg
  | [] => .ret .ok
  | a :: as => candidateProg a (scanRangeProg as)

/-- The loop over an explicit list with so many candidates left: each is read from `buf[scan_idx]` (R260, R262). -/
def scanListProg : Nat → EngineProg
  | 0 => .ret .ok
  | k + 1 => .read fun s => .load s.scanIdx.toNat fun a =>
      candidateProg a (.read fun t => .update (.scanIdx (t.scanIdx + 1#8)) (scanListProg k))

/-- The two loops of `ExecDetect`, chosen by `count` (R260). -/
def scanProg (m : Byte) : EngineProg :=
  if m = 0#8 then scanRangeProg defaultRange else .update (.scanIdx 0#8) (scanListProg m.toNat)

/-- `ExecDetect` (R260). -/
def detectProg : Prog Unit :=
  .update (.outCnt 0#8) (.read fun s => (scanProg s.count).bind fun o => match o with
    | .timeout kind => failureProg kind
    | _ => .read fun t => successProg t.outCnt)

/-- `ExecEcho` (R227). -/
def echoProg : Prog Unit := .update (.ph .exLocal) (.read fun s => successProg s.count)

/-- `Execute`: the command that `cmd_id` selects, over the command registers and the buffer (R223). A `cmd_id` that cannot
be there is answered as the arms of `exec` answer it (log entry 11). -/
def executeProg : Prog Unit := .read fun s =>
  if s.cmdId = 0x00#8 then writeProg
  else if s.cmdId = 0x01#8 then readProg
  else if s.cmdId = 0x02#8 then detectProg
  else if s.cmdId = 0x03#8 then echoProg
  else failureProg .unrecognizedId

end Sys2Proof.Machine
end

