-- ==== Sys2Proof/Machine/MicroPass.lean ====
section
/-! DEFINITION. The passes of Startup, Receive and Respond as programs of R8's steps, and the machine that takes these
steps one at a time (R120 to R129 of 40_frame_codec_rx.md, R150 and R151 of 41_frame_codec_tx.md, R220 to R224 of
43_dispatcher.md). -/

namespace Sys2Proof.Machine

/-! ## Receive -/

/-- `RxByte()` (R120). -/
def rxByteProg : Prog (Option Byte) :=
  .read fun s => (waitProg (fun f => f.rxReady) false s.params.tRx).bind fun o => match o with
    | .expired => .ret none
    | _ => .rxTake fun b => .ret (some b)

/-- The next part of a sub-sequence, unless a byte failed to come (R121). -/
def rxThenProg (p q : Prog Bool) : Prog Bool := p.bind fun came => if came then q else .ret false

/-- One byte received and stored by register updates (R121). -/
def rxStoreProg (put : Byte → Prog Unit) : Prog Bool :=
  rxByteProg.bind fun o => match o with
    | some y => (put y).bind fun _ => .ret true
    | none => .ret false

/-- One byte received into a register (R122 to R125). -/
def rxFieldProg (ph : Phase) (put : Byte → Update) : Prog Bool :=
  .update (.ph ph) (rxStoreProg fun y => .update (put y) (.ret ()))

/-- The loop of `RxPayload` with so many bytes left to take (R126). -/
def rxPayloadLoopProg : Nat → Prog Bool
  | 0 => .ret true
  | k + 1 => rxThenProg (rxStoreProg fun y => .read fun s => .update (.buf s.idx.toNat y) (nextIdx (.ret ())))
      (rxPayloadLoopProg k)

/-- `ph <- RX_DATA; RxPayload` (R126). -/
def rxPayloadProg : Prog Bool :=
  .update (.ph .rxData) (.update (.idx 0#8) (.read fun s => rxPayloadLoopProg s.count.toNat))

/-- `RxRead`, and the first three fields of `RxWrite` (R122, R123). -/
def rxReadProg : Prog Bool :=
  rxThenProg (rxThenProg (rxFieldProg .rxAddr .devAddr) (rxFieldProg .rxReg .regPtr)) (rxFieldProg .rxCount .count)

/-- `RxWrite` (R122). -/
def rxWriteProg : Prog Bool := rxThenProg rxReadProg rxPayloadProg

/-- `RxDetect` and `RxEcho` (R124, R125). -/
def rxListedProg : Prog Bool := rxThenProg (rxFieldProg .rxCount .count) rxPayloadProg

/-- The end of the decode sequence (R121, R128). -/
def rxFinishProg (p : Prog Bool) : Prog Unit :=
  p.bind fun whole => if whole then .update (.st .execute) (.ret ()) else failureProg .framing

/-- The decode sequence from the identifier on (R121, R127). -/
def parseProg (x : Byte) : Prog Unit :=
  .update (.cmdId x)
    (if x = 0x00#8 then rxFinishProg rxWriteProg
     else if x = 0x01#8 then rxFinishProg rxReadProg
     else if x = 0x02#8 then rxFinishProg rxListedProg
     else if x = 0x03#8 then rxFinishProg rxListedProg
     else failureProg .unrecognizedId)

/-! ## Where a pass can begin -/

/-- Where the block stands between two passes of `step`: between two dispatcher states, or in one of the two waits
without a bound (R129, R150). -/
inductive Place where
  /-- At the entry to the dispatcher state `st`. -/
  | dispatch
  /-- In an identifier wait that is not bounded, before its next poll. -/
  | idWait
  /-- In `TxByte(res_len)`, before its next poll. -/
  | txLen
  /-- At the test of the payload loop of Respond. -/
  | txData
  /-- In `TxByte(b)` of the payload loop, before its next poll. -/
  | txDataWait (b : Byte)
  /-- In `TxByte(0x00)` of a failure, before its next poll. -/
  | txFail
  deriving DecidableEq, Repr

/-- A program at whose end the block stands between two dispatcher states. -/
def thenDispatch (p : Prog Unit) : Prog Place := p.bind fun _ => .ret .dispatch

/-- One poll of an identifier wait that is not bounded, and the frame when it shows a byte (R121, R129). -/
def idWaitProg : Prog Place :=
  .poll fun f => if f.rxReady then .rxTake fun x => thenDispatch (parseProg x) else .ret .idWait

/-- `Receive` (R121, R129). -/
def receiveProg : Prog Place :=
  .update .openFrame (.read fun s =>
    if s.params.idWaitBounded then
      thenDispatch (rxByteProg.bind fun o => match o with
        | some x => parseProg x
        | none => failureProg .framing)
    else idWaitProg)

/-! ## Startup and Respond -/

/-- `Startup` (R221). -/
def startupProg : Prog Unit := .update (.ph .suInit) (.act .init (.update (.st .receive) (.ret ())))

/-- One poll of `TxByte(b)` (R150): the `TxPut` and what follows it, or the wait goes on. -/
def txPollProg (b : Byte) (goOn : Prog Place) (waiting : Place) : Prog Place :=
  .poll fun f => if f.txReady then .act (.txPut b) goOn else .ret waiting

/-- `st <- Receive` at the end of Respond (R151). -/
def endRespondProg : Prog Place := .update (.st .receive) (.ret .dispatch)

/-- `TxByte(res_len)` (R151). -/
def txLenProg : Prog Place := .read fun s =>
  txPollProg s.resLen (.update (.ph .txData) (.update (.idx 0#8) (.ret .txData))) .txLen

/-- `TxByte(0x00)` of a failure (R151). -/
def txFailProg : Prog Place := txPollProg 0x00#8 endRespondProg .txFail

/-- `TxByte(b)` of the payload loop, and `idx <- idx + 1` (R151). -/
def txDataWaitProg (b : Byte) : Prog Place := txPollProg b (nextIdx (.ret .txData)) (.txDataWait b)

/-- The payload loop of Respond (R151): its end, or the byte `buf[idx]` read once and sent. -/
def txDataProg : Prog Place := .read fun s =>
  if s.idx = s.resLen then endRespondProg else .load s.idx.toNat txDataWaitProg

/-- `Respond` (R151). -/
def respondProg : Prog Place := .read fun s =>
  if s.resOk then .update (.ph .txLen) txLenProg else .update (.ph .txFail) txFailProg

/-! ## One step of R8 at a time -/

/-- The pass through the dispatcher state `st` (R220). -/
def dispatchProg : Prog Place := .read fun s =>
  match s.st with
  | .startup => thenDispatch startupProg
  | .receive => receiveProg
  | .execute => thenDispatch executeProg
  | .respond => respondProg

/-- The pass that begins at a place. -/
def placeProg : Place → Prog Place
  | .dispatch => dispatchProg
  | .idWait => idWaitProg
  | .txLen => txLenProg
  | .txData => txDataProg
  | .txDataWait b => txDataWaitProg b
  | .txFail => txFailProg

/-- The block in progress: its state, and what is left of the pass it is in. -/
structure Micro where
  todo : Prog Place
  now : State

/-- The place the block stands at when the pass it was in has no step left. -/
def Micro.place (m : Micro) : Option Place := (m.todo.first m.now).getLeft?

/-- What the block does next: the rest of the pass in progress, or from its end the next pass (R220). -/
def Micro.next (m : Micro) : Place ⊕ Host.Outcome (MicroOp × Prog Place) Fault Refusal :=
  match m.todo.first m.now with
  | .inl pl => (placeProg pl).first m.now
  | .inr o => .inr o

/-- One step of R8. Every pass has a first step, so there is always one. -/
def microStep (m : Micro) : Host.Outcome Micro Fault Refusal :=
  match m.next with
  | .inr (.next (op, rest)) => .next ⟨rest, op.apply m.now⟩
  | .inr (.fault r) => .fault r
  | .inr (.refused r) => .refused r
  | .inl _ => .next m

/-- The block at the entry to a dispatcher state. -/
def Micro.between (s : State) : Micro := ⟨.ret .dispatch, s⟩

/-- Reset asserted at a step of R8: the rest of the pass is abandoned (R321). -/
def Micro.assertReset (m : Micro) : Micro := Micro.between m.now.assertReset

/-- The machine whose steps are those of R8. -/
def microCore : Host.Core where
  State := Micro
  Fault := Fault
  Refusal := Refusal
  step := microStep
  reset := Micro.between State.reset

/-- The places at which a state of `step` can stand: it tells the waits without a bound from its registers (log entry 8),
and where it begins Execute or Respond it has not begun to send. -/
def Place.fits : Place → State → Bool
  | .dispatch, s => s.st == .startup || s.st == .receive || !s.ph.isTx
  | .idWait, s => s.st == .receive && !s.params.idWaitBounded && s.ph == .rxId && s.failKind == none
  | .txLen, s => s.st == .respond && s.ph == .txLen
  | .txData, s => s.st == .respond && s.ph == .txData
  | .txDataWait b, s => s.st == .respond && s.ph == .txData && s.idx != s.resLen &&
      match s.bufLoad s.idx.toNat with
      | .ok c => b == c
      | .error _ => false
  | .txFail, s => s.st == .respond && s.ph == .txFail

end Sys2Proof.Machine
end

