-- ==== Sys2Proof/Safety.lean ====
section
/-! DEFINITION. The terms in which claims about runs are stated: what the environment will answer, what a trace holds,
the promises of the block to its collaborators, and the invariant of the reachable states. -/

namespace Sys2Proof.Machine

/-! ## What the environment will answer -/

/-- The record the poll after the next `k` polls returns. -/
def State.pollAhead (s : State) (k : Nat) : Poll := (s.polls.advance k).next Config.pollAnswer

/-- The byte the `RxTake` after the next `k` returns. -/
def State.rxAhead (s : State) (k : Nat) : Byte := (s.rx.advance k).next Config.rxByte

/-- The byte the `BusRecv` after the next `k` returns. -/
def State.busAhead (s : State) (k : Nat) : Byte := (s.busRx.advance k).next Config.busByte

/-- The bytes that the next `n` `RxTake` actions return. -/
def State.rxBytes (s : State) (n : Nat) : List Byte := (List.range n).map s.rxAhead

/-- The bytes that the next `n` `BusRecv` actions return. -/
def State.busBytes (s : State) (n : Nat) : List Byte := (List.range n).map s.busAhead

/-- The bus waits of an instruction when none of them fails, in order: idle, start, address, pointer and data
(42_bus_engine.md, sections 2 to 5; R346). -/
def waitsOf : Instr → List BusWait
  | .write _ _ p => [.idle, .mms, .tms, .btxPointer] ++ List.replicate p.length .btxData
  | .read _ _ n =>
    if n = 0#8 then [.idle, .mms, .tms, .btxPointer]
    else [.idle, .mms, .tms, .btxPointer, .mms, .rms] ++ List.replicate n.toNat .brx
  | .detect as => (candidates as).flatMap fun _ => [.idle, .mms, .tms]
  | _ => []

/-- The `k` polls after the next `n` decide nothing for a wait: they show neither its condition nor, where it watches
`af`, the acknowledge failure (R166). -/
def State.undecided (s : State) (done : Poll → Bool) (nackEn : Bool) (n k : Nat) : Bool :=
  (List.range k).all fun j => !(done (s.pollAhead (n + j)) || (nackEn && (s.pollAhead (n + j)).af))

/-- A bus wait whose first poll is the one after the next `n` ends at its poll `k`, counted from 0 and below the budget
`T_BUS`: with its condition when `acked`, else with the acknowledge failure (R166, R167, R186). -/
def State.waitEndsAt (s : State) (w : BusWait) (n k : Nat) (acked : Bool) : Bool :=
  decide (k < s.params.tBus) && s.undecided w.done w.nackEn n k &&
    if acked then w.done (s.pollAhead (n + k))
    else !w.done (s.pollAhead (n + k)) && w.nackEn && (s.pollAhead (n + k)).af

/-- The polls of waits that end at these polls, each counted from 0. -/
def pollsOf (ks : List Nat) : Nat := (ks.map fun k => k + 1).sum

/-- A list of waits each of which ends `done`, at the polls `ks`, the first of all polls being the one after the next
`n`. -/
def State.servedFrom (s : State) : Nat → List BusWait → List Nat → Bool
  | _, [], [] => true
  | n, w :: ws, k :: ks => s.waitEndsAt w n k true && s.servedFrom (n + (k + 1)) ws ks
  | _, _, _ => false

/-- How a probe that meets no expiry goes: the polls at which its three waits end, each counted from 0, and whether the
address was acknowledged. -/
structure ProbeEnd where
  idle : Nat
  start : Nat
  address : Nat
  acked : Bool
  deriving DecidableEq, Repr

/-- The polls of such a probe. -/
def ProbeEnd.polls (e : ProbeEnd) : Nat := pollsOf [e.idle, e.start, e.address]

/-- Probes that go so, one after another, the first of all polls being the one after the next `n` (R181, R266). -/
def State.probedFrom (s : State) : Nat → List ProbeEnd → Bool
  | _, [] => true
  | n, e :: es =>
    s.servedFrom n [.idle, .mms] [e.idle, e.start] &&
      s.waitEndsAt .tms (n + pollsOf [e.idle, e.start]) e.address e.acked && s.probedFrom (n + e.polls) es

/-- Bytes that come at the polls `ks` of their waits, each counted from 0 and below the budget `T_RX` (R120). -/
def State.rxComesFrom (s : State) : Nat → List Nat → Bool
  | _, [] => true
  | n, k :: ks =>
    decide (k < s.params.tRx) && s.undecided (fun f => f.rxReady) false n k && (s.pollAhead (n + k)).rxReady &&
      s.rxComesFrom (n + (k + 1)) ks

/-- The next `n` polls show a transport that accepts a byte. -/
def State.txReadyFor (s : State) (n : Nat) : Prop := ∀ k, k < n → (s.pollAhead k).txReady = true

/-- The events of the next `n` polls. -/
def State.pollEvents (s : State) (n : Nat) : List Event := (List.range n).map fun k => Event.poll (s.pollAhead k)

/-- The state after `n` polls of a wait that leave `k` in the countdown: a wait writes nothing else (R166). -/
def State.waited (s : State) (n k : Nat) : State :=
  { s with polls := s.polls.advance n, trace := (s.pollEvents n).reverse ++ s.trace, toCnt := k }

/-! ## What the host has still to read -/

/-- The bytes of the response that Respond has still to send: the whole response before its first byte, nothing outside
Respond (R93, R151 to R153). None where the machine would stop at a byte of the payload that holds no value. -/
def State.pendingResponse (s : State) : Option (List Byte) :=
  if s.st = .respond then
    match (beginRespond s).ph with
    | .txLen => (s.buf.readRange 0 s.resLen.toNat).map fun p => s.resLen :: p
    | .txData => s.buf.readRange s.idx.toNat (s.resLen.toNat - s.idx.toNat)
    | _ => some [0x00#8]
  else some []

/-! ## What a trace holds -/

/-- The actions of a list of events, without the polls (R9, R189). -/
def actions (es : List Event) : List Event :=
  es.filter fun e => match e with | .poll _ => false | _ => true

/-- The records of the polls of a list of events. -/
def pollRecords (es : List Event) : List Poll :=
  es.filterMap fun e => match e with | .poll f => some f | _ => none

/-- The bytes of the `TxPut` actions of a list of events: what the host reads. -/
def sentBytes (es : List Event) : List Byte :=
  es.filterMap fun e => match e with | .txPut b => some b | _ => none

/-- The addresses that a list of events puts on the bus. -/
def addressed (es : List Event) : List (Addr7 × Direction) :=
  es.filterMap fun e => match e with | .busAddr a d => some (a, d) | _ => none

/-- An action on the bus controller (R34). -/
def Event.isBusAction : Event → Bool
  | .busStart => true
  | .busStop => true
  | .busAddr _ _ => true
  | .busSend _ => true
  | .busRecv _ => true
  | .busClearAF => true
  | .busAck _ => true
  | _ => false

/-- The actions of one probe that ended with an acknowledge (`S AW P`) or without one (`S AW CAF P`) (R189). -/
def probeActions (a : Byte) (present : Bool) : List Event :=
  if present then [.busStart, .busAddr (addr7 a) .write, .busStop]
  else [.busStart, .busAddr (addr7 a) .write, .busClearAF, .busStop]

/-- The actions of the probes of a list of candidates with the acknowledges they met. -/
def probesActions : List (Byte × Bool) → List Event
  | [] => []
  | (a, present) :: rest => probeActions a present ++ probesActions rest

/-- What a sequence has done when its wait number `n`, counted from 0, sees no end: of the actions `acts`, one before each
wait but the first, those before that wait, and a stop where a start was among them (R182, R189). -/
def cutShort (acts : List Event) (n : Nat) : List Event := if n = 0 then [] else acts.take n ++ [.busStop]

/-- The candidates that acknowledged, in order (R265). -/
def acknowledged (probed : List (Byte × Bool)) : List Byte := (probed.filter fun p => p.2).map fun p => p.1

/-! ## Promises of the block -/

/-- The event just before an action is a poll that shows a condition. -/
def afterPoll (cond : Poll → Bool) : List Event → Bool
  | .poll f :: _ => cond f
  | _ => false

/-- A trace, newest event first, in which `RxTake` directly follows a poll with `rx_ready`, `TxPut` one with
`tx_ready` and `BusRecv` one with `ev_brx` (R32, R33, R34, R297). -/
def portsKept : List Event → Bool
  | [] => true
  | .rxTake _ :: es => afterPoll (fun f => f.rxReady) es && portsKept es
  | .txPut _ :: es => afterPoll (fun f => f.txReady) es && portsKept es
  | .busRecv _ :: es => afterPoll (fun f => f.evBrx) es && portsKept es
  | _ :: es => portsKept es

/-- A trace, newest event first, in which a stop has been requested since the last start that follows the last `Init`: a
reset in mid-command abandons a start without a stop, and `Init` begins anew (R183, R321, R324). -/
def busReleased : List Event → Bool
  | [] => true
  | .init :: _ => true
  | .busStop :: _ => true
  | .busStart :: _ => false
  | _ :: es => busReleased es

/-- The acknowledge mode that a trace, newest event first, leaves in the controller, none before the first `Init` (R37,
R43). DESIGN CHOICE, unsafe (log entry 22): a reset in a running machine leaves no mark in the trace, so between it and
the next `Init`, where R43 leaves the mode unspecified, this goes on answering the mode from before the reset. -/
def ackModeOf : List Event → Option AckMode
  | [] => none
  | .init :: _ => some .current
  | .busAck m :: _ => some m
  | _ :: es => ackModeOf es

/-! ## Classes and bounds -/

/-- The edges of R220, with the two waits that can take more than one step: the identifier wait that is not bounded,
and Respond (R129, R150). -/
def edge : DispState → DispState → Bool
  | .startup, .receive => true
  | .receive, .execute => true
  | .receive, .respond => true
  | .receive, .receive => true
  | .execute, .respond => true
  | .respond, .receive => true
  | .respond, .respond => true
  | _, _ => false

/-- The commands that Receive hands to Execute (R100, R127). -/
def recognized : Instr → Bool
  | .write _ _ _ => true
  | .read _ _ _ => true
  | .detect _ => true
  | .echo _ => true
  | _ => false

/-- The failure classes each command can meet in Execute, and (u) for an unrecognized identifier (R283). -/
def mayFailWith : Instr → FailKind → Bool
  | .write _ _ _, k => k == .busBusy || k == .busSelect || k == .ackFailure || k == .transfer
  | .read _ _ _, k => k == .busBusy || k == .busSelect || k == .ackFailure || k == .transfer
  | .detect _, k => k == .busBusy || k == .busSelect
  | .echo _, _ => false
  | _, k => k == .unrecognizedId

/-- The bound of R346 on the bounded waits of Execute. -/
def waitBound : Instr → Nat
  | .write _ _ p => 4 + p.length
  | .read _ _ n => if n = 0#8 then 4 else 6 + n.toNat
  | .detect as => 3 * (candidates as).length
  | _ => 0

/-! ## The invariant -/

/-- What holds of every state that a run reaches, resets in the middle of a command among its events. -/
structure Inv (s : State) : Prop where
  /-- The buffer is in its canonical form (R61). -/
  bufWf : s.buf.wf = true
  /-- The countdown fits its register (R30, R78). -/
  countdown : s.toCnt < 2 ^ s.params.wTo
  /-- The ports are used only when they are ready (R297). -/
  ports : portsKept s.trace = true
  /-- From `Init` on every start has been followed by a stop (R183); before it a reset may have left one without
  (R321). -/
  released : s.st = .startup ∨ busReleased s.trace = true
  /-- From `Init` on the acknowledge mode rests at `AckCurrent` (R37, R179). -/
  acked : s.st = .startup ∨ ackModeOf s.trace = some .current
  /-- In Execute the registers hold a complete frame of a recognized command (R40, R127). -/
  held : s.st = .execute → ∃ i : Instr, i.wf = true ∧ recognized i = true ∧ s.heldFrame = some (encode i)
  /-- In Respond the bytes of an `Ok` payload have been written (R64). -/
  result : s.st = .respond → s.resOk = true → ∀ k, k < s.resLen.toNat → (s.buf.read k).isSome = true
  /-- In Respond the phases of a payload are those of an `Ok` result (R151). -/
  tagged : s.st = .respond → s.ph = .txLen ∨ s.ph = .txData → s.resOk = true
  /-- In Respond the phase of the failure byte is that of a failure (R151). -/
  failed : s.st = .respond → s.ph = .txFail → s.resOk = false
  /-- In Respond `idx` is a position of the payload (R29, R78). -/
  placed : s.st = .respond → s.ph = .txData → s.idx.toNat ≤ s.resLen.toNat

/-- Two states that only stale contents tell apart (R44): they agree on the dispatcher state, the parameters, the
environment and the trace, in Execute on the held frame, and in Respond on the pending result and on how far it has
been sent. -/
structure SameView (s t : State) : Prop where
  st : s.st = t.st
  params : s.params = t.params
  polls : s.polls = t.polls
  rx : s.rx = t.rx
  busRx : s.busRx = t.busRx
  trace : s.trace = t.trace
  held : s.st = .execute → s.heldFrame = t.heldFrame
  tag : s.st = .respond → s.resOk = t.resOk
  begun : s.st = .respond → s.ph.isTx = t.ph.isTx ∧ (s.ph.isTx = true → s.ph = t.ph)
  position : s.st = .respond → s.ph = .txData → s.idx = t.idx
  payload : s.st = .respond → s.resOk = true →
    s.resLen = t.resLen ∧ ∀ k, k < s.resLen.toNat → s.buf.read k = t.buf.read k

end Sys2Proof.Machine
end

