-- ==== Sys2Proof/Certificates/Slice0/Obligations.lean ====
section
/-! DEFINITION. The statements for the provers. Each docstring names the rule of spec/ or the sentence it formalises. -/

open Sys2Proof Sys2Proof.Machine

/-! ## Encoding -/

/-- Decoding the frame of a well-formed instruction, whatever bytes follow it, gives the instruction and those bytes
back (30_encoding.md, sections 1 and 5). -/
def Obligations.DecodeOfEncode : Prop :=
  ∀ (i : Instr) (rest : List Byte), i.wf = true → decode (encode i ++ rest) = .ok (i, rest)

/-- Whatever the decoder reads is the frame of the instruction it answers, and that instruction is well formed
(30_encoding.md, sections 1 and 5). -/
def Obligations.EncodeOfDecode : Prop :=
  ∀ (bs : List Byte) (i : Instr) (rest : List Byte),
    decode bs = .ok (i, rest) → i.wf = true ∧ encode i ++ rest = bs

/-- The decoder takes exactly the bytes of one frame: 4 + N for WRITE, 4 for READ, 2 + M for DETECT, 2 + N for ECHO, 1
for an unrecognized identifier; and it rejects every frame that is cut short (30_encoding.md, section 5). -/
def Obligations.FrameLengths : Prop :=
  (∀ (bs : List Byte) (i : Instr) (rest : List Byte),
    decode bs = .ok (i, rest) → bs.length = i.frameLength + rest.length) ∧
  (∀ (i : Instr) (j : Nat), i.wf = true → j < i.frameLength → ∃ e, decode ((encode i).take j) = .error e)

/-- Each of the 256 identifier bytes selects exactly one row of the opcode table (30_encoding.md, sections 4 and 7). -/
def Obligations.IdentifierRowsPartition : Prop :=
  ∀ x : Byte, ∃ r ∈ opcodeRows, r.selects x = true ∧ ∀ q ∈ opcodeRows, q.selects x = true → q = r

/-- A row of the opcode table selects the identifier byte of an instruction exactly when it is the instruction's own
row (30_encoding.md, sections 4 and 7). -/
def Obligations.RowSelectsOwnIdentifier : Prop :=
  ∀ (i : Instr) (r : OpcodeRow), r ∈ opcodeRows → (r.selects i.idByte = true ↔ r.mnemonic = i.mnemonic)

/-- Words written out from the formats of 30_encoding.md decode to the instructions they stand for. -/
def Obligations.SpecWordsDecode : Prop :=
  decode [0x00#8, 0x50#8, 0x10#8, 0x02#8, 0xAA#8, 0xBB#8] = .ok (.write 0x50#8 0x10#8 [0xAA#8, 0xBB#8], []) ∧
  decode [0x01#8, 0x50#8, 0x10#8, 0x02#8] = .ok (.read 0x50#8 0x10#8 0x02#8, []) ∧
  decode [0x02#8, 0x02#8, 0x50#8, 0x68#8] = .ok (.detect [0x50#8, 0x68#8], []) ∧
  decode [0x03#8, 0x03#8, 0x01#8, 0x02#8, 0x03#8] = .ok (.echo [0x01#8, 0x02#8, 0x03#8], []) ∧
  decode [0x07#8, 0x03#8, 0x00#8] = .ok (.unrec04 3#2, [0x03#8, 0x00#8]) ∧
  decode [0xBB#8] = .ok (.unrec80 0x3B#7, [])

/-- R96: the count byte is an unsigned number as it stands, with no scaling and no bias. The decoder takes that many
payload bytes, none for 0, and READ keeps it. -/
def Obligations.CountByteIsUnsigned : Prop :=
  (∀ (a r n : Byte) (bs : List Byte), n.toNat ≤ bs.length →
    decode (0x00#8 :: a :: r :: n :: bs) = .ok (.write a r (bs.take n.toNat), bs.drop n.toNat)) ∧
  (∀ (n : Byte) (bs : List Byte), n.toNat ≤ bs.length →
    decode (0x02#8 :: n :: bs) = .ok (.detect (bs.take n.toNat), bs.drop n.toNat) ∧
    decode (0x03#8 :: n :: bs) = .ok (.echo (bs.take n.toNat), bs.drop n.toNat)) ∧
  (∀ (a r n : Byte) (bs : List Byte), decode (0x01#8 :: a :: r :: n :: bs) = .ok (.read a r n, bs)) ∧
  ∀ p : List Byte, payloadFits p = true → (countByte p).toNat = p.length

/-- The byte put on the bus is the address byte shifted left by one, its bit 7 falling off, with direction bit 0 for
write and 1 for read. The direction bit is the spec's general knowledge (log entry 12), the treatment of bit 7 its
decision D10 (log entry 13). -/
def Obligations.AddressByteOnTheBus : Prop :=
  (∀ a : Byte, addressByte (addr7 a) .write = a <<< 1) ∧
  (∀ a : Byte, addressByte (addr7 a) .read = a <<< 1 ||| 0x01#8) ∧
  (∀ a : Byte, addr7 (a ||| 0x80#8) = addr7 a) ∧
  addressByte (addr7 0x50#8) .write = 0xA0#8 ∧ addressByte (addr7 0xD0#8) .read = 0xA1#8

/-- R98: with no address listed the candidates are 0x03, 0x04, ..., 0x77, in ascending order, 117 of them, and these are
the addresses a DETECT puts on the bus: all of them when it succeeds, an initial segment of them when it is cut short. -/
def Obligations.DefaultRangeIsAscending : Prop :=
  candidates [] = (List.range 117).map (fun k => BitVec.ofNat 8 (0x03 + k)) ∧
  (candidates [])[116]? = some 0x77#8 ∧
  ∀ s t : State, exec (.detect []) s = .next t →
    let range := (List.range 117).map fun k => (BitVec.ofNat 7 (0x03 + k), Direction.write)
    addressed (s.eventsSince t) <+: range ∧ (t.resOk = true → addressed (s.eventsSince t) = range)

/-! ## The buffer -/

/-- A byte read after a write to its index is the byte written, every other index reads as before, and the canonical
form is kept by a write at an index of the buffer (20_memory.md, section 2). -/
def Obligations.BufferReadAfterWrite : Prop :=
  ∀ (m : Memory) (a : Nat) (v : Byte),
    (m.write a v).read a = some v ∧
    (∀ b, b ≠ a → (m.write a v).read b = m.read b) ∧
    (m.wf = true → a < bufLen → (m.write a v).wf = true)

/-- Two canonical buffers that read alike at every index are the same data (20_memory.md, section 2). -/
def Obligations.BufferIsItsReads : Prop :=
  ∀ m n : Memory, m.wf = true → n.wf = true → (∀ a, m.read a = n.read a) → m = n

/-! ## The timeout arbiter -/

/-- A wait ends at the first poll that decides it, the awaited condition before the acknowledge failure, either before
the expiry; it makes exactly the polls up to there, leaves `T - (k - 1)` in the countdown at poll `k` and 0 on expiry,
and changes nothing else. Each bus wait is such a wait with the budget `T_BUS`, for the condition and with the failure
class that its row of the table of R167 gives it; the acknowledge failure is watched in the two address waits and in no
other (42_bus_engine.md, section 1; the spec's decisions D4, D5, D6, D15 and D34, log entry 13). -/
def Obligations.WaitEndsAtFirstDecidingPoll : Prop :=
  (∀ (done : Poll → Bool) (nackEn : Bool) (T n : Nat) (s : State),
    (n < T → (∀ j, j < n → (done (s.pollAhead j) || (nackEn && (s.pollAhead j).af)) = false) →
      (done (s.pollAhead n) = true → wait done nackEn T s = (.done, s.waited (n + 1) (T - n))) ∧
      (done (s.pollAhead n) = false → nackEn = true → (s.pollAhead n).af = true →
        wait done nackEn T s = (.nack, s.waited (n + 1) (T - n)))) ∧
    ((∀ j, j < T → (done (s.pollAhead j) || (nackEn && (s.pollAhead j).af)) = false) →
      wait done nackEn T s = (.expired, s.waited T 0))) ∧
  ∀ row ∈ ([
      (.idle, (fun f => !f.busBusy), false, .busBusy),
      (.mms, (fun f => f.evMms), false, .busSelect),
      (.tms, (fun f => f.evTms), true, .busSelect),
      (.rms, (fun f => f.evRms), true, .busSelect),
      (.btxPointer, (fun f => f.evBtx), false, .transfer),
      (.btxData, (fun f => f.evBtx), false, .transfer),
      (.brx, (fun f => f.evBrx), false, .transfer)] : List (BusWait × (Poll → Bool) × Bool × FailKind)),
    let (w, done, nackEn, kind) := row
    w.expiryKind = kind ∧
    (∀ f : Poll, w.done f = done f) ∧ w.nackEn = nackEn ∧
    ∀ (s : State) (n : Nat),
      (n < s.params.tBus → (∀ j, j < n → (done (s.pollAhead j) || (nackEn && (s.pollAhead j).af)) = false) →
        (done (s.pollAhead n) = true → busWait w s = (.done, s.waited (n + 1) (s.params.tBus - n))) ∧
        (done (s.pollAhead n) = false → nackEn = true → (s.pollAhead n).af = true →
          busWait w s = (.nack, s.waited (n + 1) (s.params.tBus - n)))) ∧
      ((∀ j, j < s.params.tBus → (done (s.pollAhead j) || (nackEn && (s.pollAhead j).af)) = false) →
        busWait w s = (.expired, s.waited s.params.tBus 0))

/-- `W_TO` is the least width whose register holds both budgets, and both budgets are at least 1 (00_scope.md,
section 3). -/
def Obligations.CountdownWidthIsLeast : Prop :=
  ∀ p : Params, 1 ≤ p.tRx ∧ 1 ≤ p.tBus ∧ max p.tRx p.tBus < 2 ^ p.wTo ∧
    ∀ w, max p.tRx p.tBus < 2 ^ w → p.wTo ≤ w

/-! ## Results of the commands -/

/-- WRITE when every wait ends, each at some poll below its budget `T_BUS`: the actions are start, write address,
pointer, the payload bytes in order, stop; the result is `Ok` with the one payload byte N; nothing else changes
(42_bus_engine.md, sections 1 to 3 and 6; 43_dispatcher.md, section 2). -/
def Obligations.WriteCompletes : Prop :=
  ∀ (a r : Byte) (p : List Byte) (ks : List Nat) (s : State), payloadFits p = true →
    s.servedFrom 0 (waitsOf (.write a r p)) ks = true →
    ∃ es : List Event,
      exec (.write a r p) s = .next { s with
        st := .respond, ph := .exWdata, idx := countByte p, toCnt := s.params.tBus - ks.getLastD 0,
        buf := s.buf.write 0 (countByte p), resLen := 1#8, resOk := true,
        polls := s.polls.advance (pollsOf ks), trace := es.reverse ++ s.trace } ∧
      actions es = [Event.busStart, .busAddr (addr7 a) .write, .busSend r] ++ p.map Event.busSend ++ [Event.busStop] ∧
      pollRecords es = (List.range (pollsOf ks)).map s.pollAhead

/-- READ of at least one byte when every wait ends, each at some poll below its budget `T_BUS`: the bytes received stand
in the buffer in order and are the result; acknowledge is turned off and the stop requested before the last byte is read,
and the acknowledge mode is restored after it (42_bus_engine.md, sections 1, 4 and 6; 43_dispatcher.md, section 2). -/
def Obligations.ReadCompletes : Prop :=
  ∀ (a r n : Byte) (ks : List Nat) (s : State), n ≠ 0#8 → s.servedFrom 0 (waitsOf (.read a r n)) ks = true →
    ∃ es : List Event,
      exec (.read a r n) s = .next { s with
        st := .respond, ph := .exRdata, idx := n, toCnt := s.params.tBus - ks.getLastD 0,
        buf := s.buf.writeRange 0 (s.busBytes n.toNat), resLen := n, resOk := true,
        polls := s.polls.advance (pollsOf ks), busRx := s.busRx.advance n.toNat, trace := es.reverse ++ s.trace } ∧
      actions es =
        [Event.busStart, .busAddr (addr7 a) .write, .busSend r, .busStart, .busAddr (addr7 a) .read] ++
        (s.busBytes (n.toNat - 1)).map Event.busRecv ++
        [Event.busAck .none, .busStop, .busRecv (s.busAhead (n.toNat - 1)), .busAck .current] ∧
      pollRecords es = (List.range (pollsOf ks)).map s.pollAhead

/-- READ of no byte when every wait ends, each at some poll below its budget `T_BUS`: the pointer write and a stop, no
receive phase, an empty result (42_bus_engine.md, section 4; the stop is the spec's decision D16, log entry 13). -/
def Obligations.ReadOfNothingCompletes : Prop :=
  ∀ (a r : Byte) (ks : List Nat) (s : State), s.servedFrom 0 (waitsOf (.read a r 0#8)) ks = true →
    ∃ es : List Event,
      exec (.read a r 0#8) s = .next { s with
        st := .respond, ph := .exReg, toCnt := s.params.tBus - ks.getLastD 0, resLen := 0#8, resOk := true,
        polls := s.polls.advance (pollsOf ks), trace := es.reverse ++ s.trace } ∧
      actions es = [Event.busStart, .busAddr (addr7 a) .write, .busSend r, .busStop] ∧
      pollRecords es = (List.range (pollsOf ks)).map s.pollAhead

/-- DETECT when no wait of a probe expires, each ending at some poll below its budget `T_BUS`, the third with the
acknowledge or with its failure: every candidate is probed in order, those that acknowledge are retained in order, and
they are the result (44_device_scan.md; 42_bus_engine.md, sections 1 and 6). -/
def Obligations.DetectCompletes : Prop :=
  ∀ (as : List Byte) (ends : List ProbeEnd) (s : State), payloadFits as = true →
    ends.length = (candidates as).length → s.probedFrom 0 ends = true →
    let probed := (candidates as).zip (ends.map fun e => e.acked)
    let polls := (ends.map fun e => e.polls).sum
    ∃ es : List Event,
      exec (.detect as) s = .next { s with
        st := .respond, ph := .exAddrW, toCnt := s.params.tBus - (ends.map fun e => e.address).getLastD 0,
        scanIdx := (if as = [] then s.scanIdx else countByte as),
        scanAddr := (candidates as).getLastD s.scanAddr,
        outCnt := countByte (acknowledged probed),
        buf := s.buf.writeRange 0 (acknowledged probed), resLen := countByte (acknowledged probed), resOk := true,
        polls := s.polls.advance polls, trace := es.reverse ++ s.trace } ∧
      actions es = probesActions probed ∧
      pollRecords es = (List.range polls).map s.pollAhead

/-- ECHO in Execute: the payload already in the buffer is the result; no poll, no action, no other change
(43_dispatcher.md, section 2). -/
def Obligations.EchoCompletes : Prop :=
  ∀ (p : List Byte) (s : State), payloadFits p = true →
    exec (.echo p) s = .next { s with ph := .exLocal, resLen := countByte p, resOk := true, st := .respond }

/-- R227: ECHO always succeeds and answers its input payload unchanged: with the payload in the buffer, Execute writes
`ph`, `res_len` and `res_ok`, makes no poll and no bus action, and the response is the request with its identifier byte
removed. -/
def Obligations.EchoAnswersItsRequest : Prop :=
  ∀ (p : List Byte) (s : State), payloadFits p = true → s.buf.readRange 0 p.length = some p →
    ∃ t : State, exec (.echo p) s = .next t ∧
      t = { s with ph := .exLocal, resLen := countByte p, resOk := true, st := .respond } ∧
      t.pendingResponse = some ((encode (.echo p)).drop 1)

/-- Every unrecognized identifier raises the failure of class (u) and does nothing else: no poll, no action, no byte
taken (40_frame_codec_rx.md, section 3; the spec's decision D9 and, in Execute, the choice R223 leaves: log entries 11
and 13). -/
def Obligations.UnrecognizedFails : Prop :=
  ∀ (i : Instr) (s : State), recognized i = false →
    exec i s = .next { s with resOk := false, failKind := some .unrecognizedId, st := .respond }

/-- A term of `Instr` whose payload no count byte can announce is refused by name (30_encoding.md, section 1; the
refusal is the model's, log entry 16). -/
def Obligations.IllFormedIsRefused : Prop :=
  ∀ (i : Instr) (s : State), i.wf = false → exec i s = .refused .illFormed

/-! ## What the bus sees on every path -/

/-- Whatever the environment answers, a WRITE ends in Respond with one of the action traces of 42_bus_engine.md section
7, and its result and failure class are those of that trace. That `S AW P` is the trace of an expired address wait and
`S AW D(r) P` that of an expired pointer wait are the spec's own decisions D12 and D13, that N = 0 sends no data byte its
decision D19 (log entry 13). -/
def Obligations.WriteTraces : Prop :=
  ∀ (a r : Byte) (p : List Byte) (s : State), payloadFits p = true →
    ∃ (t : State) (es : List Event), exec (.write a r p) s = .next t ∧ t.st = .respond ∧
      t.trace = es.reverse ++ s.trace ∧
      ((t.resOk = true ∧ t.resLen = 1#8 ∧ t.buf = s.buf.write 0 (countByte p) ∧
          actions es = [Event.busStart, .busAddr (addr7 a) .write, .busSend r] ++ p.map Event.busSend ++ [Event.busStop]) ∨
       (t.resOk = false ∧ t.buf = s.buf ∧ t.resLen = s.resLen ∧
          ((t.failKind = some .busBusy ∧ actions es = []) ∨
           (t.failKind = some .busSelect ∧ actions es = [Event.busStart, .busStop]) ∨
           (t.failKind = some .ackFailure ∧
              actions es = [Event.busStart, .busAddr (addr7 a) .write, .busClearAF, .busStop]) ∨
           (t.failKind = some .busSelect ∧ actions es = [Event.busStart, .busAddr (addr7 a) .write, .busStop]) ∨
           (∃ i, i ≤ p.length ∧ t.failKind = some .transfer ∧
              actions es = [Event.busStart, .busAddr (addr7 a) .write, .busSend r] ++
                (p.take i).map Event.busSend ++ [Event.busStop]))))

/-- Whatever the environment answers, a READ ends in Respond with one of the action traces of 42_bus_engine.md section
7, and its result and failure class are those of that trace; the bytes received before a failure stand in the buffer
and are not the result. The traces of an expired address, pointer or repeated-start wait (D12 to D14), of a read address
without acknowledge (D15), of N = 0 (D16) and of the receive phase (D17, D18) are the spec's own decisions (log entry
13). -/
def Obligations.ReadTraces : Prop :=
  ∀ (a r n : Byte) (s : State),
    ∃ (t : State) (es : List Event), exec (.read a r n) s = .next t ∧ t.st = .respond ∧
      t.trace = es.reverse ++ s.trace ∧
      ((t.resOk = true ∧ t.resLen = n ∧ t.buf = s.buf.writeRange 0 (s.busBytes n.toNat) ∧
          actions es =
            if n = 0#8 then [Event.busStart, .busAddr (addr7 a) .write, .busSend r, .busStop]
            else
              [Event.busStart, .busAddr (addr7 a) .write, .busSend r, .busStart, .busAddr (addr7 a) .read] ++
              (s.busBytes (n.toNat - 1)).map Event.busRecv ++
              [Event.busAck .none, .busStop, .busRecv (s.busAhead (n.toNat - 1)), .busAck .current]) ∨
       (t.resOk = false ∧ t.resLen = s.resLen ∧
          ((t.buf = s.buf ∧
             ((t.failKind = some .busBusy ∧ actions es = []) ∨
              (t.failKind = some .busSelect ∧ actions es = [Event.busStart, .busStop]) ∨
              (t.failKind = some .ackFailure ∧
                 actions es = [Event.busStart, .busAddr (addr7 a) .write, .busClearAF, .busStop]) ∨
              (t.failKind = some .busSelect ∧ actions es = [Event.busStart, .busAddr (addr7 a) .write, .busStop]) ∨
              (t.failKind = some .transfer ∧
                 actions es = [Event.busStart, .busAddr (addr7 a) .write, .busSend r, .busStop]) ∨
              (n ≠ 0#8 ∧ t.failKind = some .busSelect ∧
                 actions es = [Event.busStart, .busAddr (addr7 a) .write, .busSend r, .busStart, .busStop]) ∨
              (n ≠ 0#8 ∧ t.failKind = some .ackFailure ∧
                 actions es = [Event.busStart, .busAddr (addr7 a) .write, .busSend r,
                   .busStart, .busAddr (addr7 a) .read, .busClearAF, .busStop]) ∨
              (n ≠ 0#8 ∧ t.failKind = some .busSelect ∧
                 actions es = [Event.busStart, .busAddr (addr7 a) .write, .busSend r,
                   .busStart, .busAddr (addr7 a) .read, .busStop]))) ∨
           (∃ i, i < n.toNat ∧ t.failKind = some .transfer ∧ t.buf = s.buf.writeRange 0 (s.busBytes i) ∧
              actions es =
                [Event.busStart, .busAddr (addr7 a) .write, .busSend r, .busStart, .busAddr (addr7 a) .read] ++
                (s.busBytes i).map Event.busRecv ++
                (if i + 1 = n.toNat then [Event.busAck .none, .busStop, .busStop, .busAck .current]
                 else [Event.busStop, .busAck .current])))))

/-- Whatever the environment answers, a DETECT probes the candidates in order; those that acknowledge
are retained, those that do not are passed over, and the first step that times out fails the whole command, with
nothing probed after it. The response is the retained candidates in order, or the one byte 0x00 (44_device_scan.md;
42_bus_engine.md, section 7: the actions of the aborted probe, none on an idle expiry, `S P` and `S AW P` on the others,
rest on the spec's decisions D12 and D20, log entry 13). -/
def Obligations.DetectTraces : Prop :=
  ∀ (as : List Byte) (s : State), payloadFits as = true →
    ∃ (t : State) (es : List Event) (acks : List Bool), exec (.detect as) s = .next t ∧ t.st = .respond ∧
      t.trace = es.reverse ++ s.trace ∧
      t.pendingResponse = some (if t.resOk then
        countByte (acknowledged ((candidates as).zip acks)) :: acknowledged ((candidates as).zip acks) else [0x00#8]) ∧
      ((t.resOk = true ∧ acks.length = (candidates as).length ∧
          actions es = probesActions ((candidates as).zip acks) ∧
          t.buf = s.buf.writeRange 0 (acknowledged ((candidates as).zip acks)) ∧
          t.resLen.toNat = (acknowledged ((candidates as).zip acks)).length ∧
          (acknowledged ((candidates as).zip acks)).Sublist (candidates as)) ∨
       (t.resOk = false ∧ t.resLen = s.resLen ∧
          ∃ (a : Byte) (rest : List Byte), (candidates as).drop acks.length = a :: rest ∧
            ((t.failKind = some .busBusy ∧ actions es = probesActions ((candidates as).zip acks)) ∨
             (t.failKind = some .busSelect ∧
                actions es = probesActions ((candidates as).zip acks) ++ [Event.busStart, .busStop]) ∨
             (t.failKind = some .busSelect ∧
                actions es = probesActions ((candidates as).zip acks) ++
                  [Event.busStart, .busAddr (addr7 a) .write, .busStop]))))

/-- `T_BUS` is the budget of every wait. A bus that stays busy is left alone: no start, no stop and no other action, in
every command that uses it. Whichever wait of a WRITE, a READ or a probe of a DETECT shows no end for `T_BUS` polls, those
before it having ended, the command fails after exactly those polls with the class of that wait, its phase in `ph` and the
count of the bytes confirmed or received in `idx`; what it did up to there stays done, a stop follows, and where bytes were
awaited the acknowledge mode is restored (42_bus_engine.md, sections 1 to 7; for the probe the spec's conflict C2 and
decision D20, for the other waits decisions D12 to D14, D17, D18 and D34, log entry 13). -/
def Obligations.ExpiredWaitFailsTheCommand : Prop :=
  (∀ (i : Instr) (s : State),
    i.wf = true → (∃ a r p, i = .write a r p) ∨ (∃ a r n, i = .read a r n) ∨ (∃ as, i = .detect as) →
    (∀ k, k < s.params.tBus → (s.pollAhead k).busBusy = true) →
    ∃ t : State, exec i s = .next t ∧ t.st = .respond ∧ t.resOk = false ∧ t.failKind = some .busBusy ∧
      t.trace = (s.pollEvents s.params.tBus).reverse ++ s.trace ∧ t.toCnt = 0 ∧ t.buf = s.buf) ∧
  (∀ (a r : Byte) (p : List Byte) (w : BusWait) (ks : List Nat) (s : State), payloadFits p = true →
    s.servedFrom 0 ((waitsOf (.write a r p)).take ks.length) ks = true → (waitsOf (.write a r p))[ks.length]? = some w →
    s.undecided w.done w.nackEn (pollsOf ks) s.params.tBus = true →
    ∃ es : List Event,
      exec (.write a r p) s = .next { s with
        st := .respond
        ph := (([.exIdle, .exStart, .exAddrW, .exReg] : List Phase)[ks.length]?.getD .exWdata)
        idx := (if ks.length < 4 then s.idx else BitVec.ofNat 8 (ks.length - 4))
        toCnt := 0, resOk := false, failKind := some w.expiryKind
        polls := s.polls.advance (pollsOf ks + s.params.tBus), trace := es.reverse ++ s.trace } ∧
      actions es = cutShort ([Event.busStart, .busAddr (addr7 a) .write, .busSend r] ++ p.map Event.busSend) ks.length ∧
      pollRecords es = (List.range (pollsOf ks + s.params.tBus)).map s.pollAhead) ∧
  (∀ (a r n : Byte) (w : BusWait) (ks : List Nat) (s : State),
    s.servedFrom 0 ((waitsOf (.read a r n)).take ks.length) ks = true → (waitsOf (.read a r n))[ks.length]? = some w →
    s.undecided w.done w.nackEn (pollsOf ks) s.params.tBus = true →
    let got := ks.length - 6
    ∃ es : List Event,
      exec (.read a r n) s = .next { s with
        st := .respond
        ph := (([.exIdle, .exStart, .exAddrW, .exReg, .exRestart, .exAddrR] : List Phase)[ks.length]?.getD .exRdata)
        idx := (if ks.length < 6 then s.idx else BitVec.ofNat 8 got)
        buf := s.buf.writeRange 0 (s.busBytes got)
        toCnt := 0, resOk := false, failKind := some w.expiryKind, busRx := s.busRx.advance got
        polls := s.polls.advance (pollsOf ks + s.params.tBus), trace := es.reverse ++ s.trace } ∧
      (let sent := [Event.busStart, .busAddr (addr7 a) .write, .busSend r, .busStart, .busAddr (addr7 a) .read]
       actions es =
        if ks.length < 6 then cutShort sent ks.length
        else sent ++ (s.busBytes got).map Event.busRecv ++
          (if got + 1 = n.toNat then [.busAck .none, .busStop] else []) ++ [.busStop, .busAck .current]) ∧
      pollRecords es = (List.range (pollsOf ks + s.params.tBus)).map s.pollAhead) ∧
  (∀ (as : List Byte) (ends : List ProbeEnd) (a : Byte) (w : BusWait) (ks : List Nat) (s : State),
    payloadFits as = true → (candidates as)[ends.length]? = some a → s.probedFrom 0 ends = true →
    let probed := (candidates as).zip (ends.map fun e => e.acked)
    let before := (ends.map fun e => e.polls).sum
    let polls := before + pollsOf ks + s.params.tBus
    s.servedFrom before ([.idle, .mms, .tms].take ks.length) ks = true →
    ([.idle, .mms, .tms] : List BusWait)[ks.length]? = some w →
    s.undecided w.done w.nackEn (before + pollsOf ks) s.params.tBus = true →
    ∃ es : List Event,
      exec (.detect as) s = .next { s with
        st := .respond
        ph := (([.exIdle, .exStart] : List Phase)[ks.length]?.getD .exAddrW)
        scanIdx := (if as = [] then s.scanIdx else BitVec.ofNat 8 ends.length)
        scanAddr := a, outCnt := countByte (acknowledged probed)
        buf := s.buf.writeRange 0 (acknowledged probed)
        toCnt := 0, resOk := false, failKind := some w.expiryKind
        polls := s.polls.advance polls, trace := es.reverse ++ s.trace } ∧
      actions es = probesActions probed ++ cutShort [Event.busStart, .busAddr (addr7 a) .write] ks.length ∧
      pollRecords es = (List.range polls).map s.pollAhead)

/-- A device that does not acknowledge its address, at whichever poll below `T_BUS` the failure shows: the flag is
cleared, then the stop requested, and nothing else is sent; WRITE and READ fail with class (d), and so does a READ of at
least one byte whose repeated, read-direction address is not acknowledged (42_bus_engine.md, sections 1, 2 and 4; that the
failure is watched at the repeated address is the spec's decision D15, log entry 13). -/
def Obligations.AbsentDeviceFailsTransfer : Prop :=
  (∀ (i : Instr) (a : Byte) (e : ProbeEnd) (s : State),
    i.wf = true → (∃ r p, i = .write a r p) ∨ (∃ r n, i = .read a r n) →
    e.acked = false → s.probedFrom 0 [e] = true →
    ∃ es : List Event,
      exec i s = .next { s with
        st := .respond, ph := .exAddrW, toCnt := s.params.tBus - e.address, resOk := false,
        failKind := some .ackFailure,
        polls := s.polls.advance e.polls, trace := es.reverse ++ s.trace } ∧
      actions es = [Event.busStart, .busAddr (addr7 a) .write, .busClearAF, .busStop] ∧
      pollRecords es = (List.range e.polls).map s.pollAhead) ∧
  (∀ (a r n : Byte) (ks : List Nat) (k : Nat) (s : State), n ≠ 0#8 →
    s.servedFrom 0 [.idle, .mms, .tms, .btxPointer, .mms] ks = true →
    k < s.params.tBus →
    (∀ j, j < k → (s.pollAhead (pollsOf ks + j)).evRms = false ∧ (s.pollAhead (pollsOf ks + j)).af = false) →
    (s.pollAhead (pollsOf ks + k)).evRms = false → (s.pollAhead (pollsOf ks + k)).af = true →
    ∃ es : List Event,
      exec (.read a r n) s = .next { s with
        st := .respond, ph := .exAddrR, toCnt := s.params.tBus - k, resOk := false,
        failKind := some .ackFailure,
        polls := s.polls.advance (pollsOf ks + (k + 1)), trace := es.reverse ++ s.trace } ∧
      actions es = [Event.busStart, .busAddr (addr7 a) .write, .busSend r, .busStart, .busAddr (addr7 a) .read,
        .busClearAF, .busStop] ∧
      pollRecords es = (List.range (pollsOf ks + (k + 1))).map s.pollAhead)

/-! ## Frames, classes and bounds of Execute -/

/-- Every well-formed instruction answers a next state in Respond, whatever the state, and leaves the command
registers, the parameters and the transport's bytes as they are (10_state.md, section 7). That the six unrecognized rows
answer a next state in Execute is the model's choice (log entry 11: R223 would let a model fault there). -/
def Obligations.ExecKeepsCommandRegisters : Prop :=
  ∀ (i : Instr) (s : State), i.wf = true →
    ∃ t : State, exec i s = .next t ∧ t.st = .respond ∧ t.cmdId = s.cmdId ∧ t.devAddr = s.devAddr ∧
      t.regPtr = s.regPtr ∧ t.count = s.count ∧ t.params = s.params ∧ t.rx = s.rx ∧
      t.polls = s.polls.advance (pollCount (s.eventsSince t))

/-- What each command may change of the buffer and of the index and scan registers: WRITE the byte at index 0, and
that only when it succeeds; READ the bytes below N; DETECT the bytes below the number retained; ECHO and an
unrecognized identifier nothing. Every other index reads as before (20_memory.md, section 2; 10_state.md, section
7). -/
def Obligations.ExecFrames : Prop :=
  (∀ (a r : Byte) (p : List Byte) (s t : State), exec (.write a r p) s = .next t →
    (∀ k, (t.resOk = true → k ≠ 0) → t.buf.read k = s.buf.read k) ∧
    t.scanIdx = s.scanIdx ∧ t.scanAddr = s.scanAddr ∧ t.outCnt = s.outCnt ∧ t.busRx = s.busRx) ∧
  (∀ (a r n : Byte) (s t : State), exec (.read a r n) s = .next t →
    (∀ k, n.toNat ≤ k → t.buf.read k = s.buf.read k) ∧
    t.scanIdx = s.scanIdx ∧ t.scanAddr = s.scanAddr ∧ t.outCnt = s.outCnt) ∧
  (∀ (as : List Byte) (s t : State), exec (.detect as) s = .next t →
    (∀ k, t.outCnt.toNat ≤ k → t.buf.read k = s.buf.read k) ∧
    t.idx = s.idx ∧ t.busRx = s.busRx ∧ (as = [] → t.scanIdx = s.scanIdx)) ∧
  (∀ (i : Instr) (s t : State), (∃ p, i = .echo p) ∨ recognized i = false → exec i s = .next t →
    t.buf = s.buf ∧ t.idx = s.idx ∧ t.scanIdx = s.scanIdx ∧ t.scanAddr = s.scanAddr ∧ t.outCnt = s.outCnt ∧
    t.busRx = s.busRx ∧ t.toCnt = s.toCnt ∧ t.trace = s.trace)

/-- An instruction that fails does so with a class that 60_exceptions.md section 1 allows it: never ECHO, and never
DETECT for a missing acknowledge. -/
def Obligations.FailureClassesOfCommands : Prop :=
  ∀ (i : Instr) (s t : State), exec i s = .next t → t.resOk = false →
    ∃ k : FailKind, t.failKind = some k ∧ mayFailWith i k = true

/-- Execute makes at most the polls of the table of 70_reset_and_hazards.md section 4: (4 + N), (6 + N) or 4, and 3 a
candidate, times `T_BUS`; none for ECHO and for an unrecognized identifier. -/
def Obligations.ExecPollBounds : Prop :=
  ∀ (i : Instr) (s t : State), exec i s = .next t →
    pollCount (s.eventsSince t) ≤ waitBound i * s.params.tBus

/-! ## Fetch and step -/

/-- The command registers loaded with a well-formed instruction hold its frame: what Receive leaves is what Execute
fetches (20_memory.md, section 2; the fetch from the registers is the model's, log entry 10). -/
def Obligations.HeldFrameIsEncoding : Prop :=
  ∀ (i : Instr) (s : State), i.wf = true → (s.holdInstr i).heldFrame = some (encode i)

/-- A step in Execute runs the instruction that the held frame decodes to, and does nothing around it; a table word put
where the step fetches is the instruction the next step runs (43_dispatcher.md, section 1; log entry 10). -/
def Obligations.StepRunsTheHeldInstruction : Prop :=
  (∀ (s : State) (bs rest : List Byte) (i : Instr),
    s.st = .execute → s.heldFrame = some bs → decode bs = .ok (i, rest) → step s = exec i s) ∧
  (∀ (s : State) (nbits w : Nat) (i : Instr), decodeTableWord nbits w = some i →
    step (s.withFetchWord nbits w) = exec i (s.withFetchWord nbits w))

/-! ## The steps of R8 -/

/-- A step of the machine `microCore` is exactly one poll, one action on a port, one register update that touches no
port and draws no answer, or one read of a written byte of the buffer, which changes nothing; only a read of a byte that
holds no value stops it (00_scope.md, sections 4 and 5; how such a step is written down and that fault are the model's,
log entries 1 and 6). -/
def Obligations.MicroStepIsOneOperation : Prop :=
  ∀ m : Micro,
    (∀ n : Micro, microStep m = .next n →
      n.now = m.now.polled ∨
      (n.now = m.now.rxTaken ∨ n.now = m.now.busReceived ∨ ∃ c : PortAction, n.now = m.now.log c.event) ∨
      (∃ u : Update, n.now = u.apply m.now ∧ n.now.trace = m.now.trace ∧ n.now.polls = m.now.polls ∧
        n.now.rx = m.now.rx ∧ n.now.busRx = m.now.busRx) ∨
      (n.now = m.now ∧ ∃ (i : Nat) (b : Byte), m.now.bufLoad i = .ok b)) ∧
    (∀ r : Fault, microStep m = .fault r → ∃ i : Nat, m.now.bufLoad i = .error r) ∧
    ∀ r : Refusal, microStep m ≠ .refused r

/-- The steps of R8 make up the pass of `step`. At every state there is a place at which the block can stand, but for
one in Execute with a phase of Respond, which no run reaches. From a place
that fits its state, some number of its steps, at least one, lead exactly to the state that `step` answers, at a place
that fits it, the pass ending there and not before; a reset at any of the states between leaves what
`State.resetDuring` says. Where `step` is a fault the steps of R8 end in it too, except that a command held with an
unwritten payload byte, which no run reaches, may end before that byte is read (00_scope.md, sections 4 and 5;
70_reset_and_hazards.md, section 1; log entries 1, 6 and 18). -/
def Obligations.MicroStepsMakeTheStep : Prop :=
  (∀ s : State, s.st ≠ .execute → ∃ pl : Place, pl.fits s = true) ∧
  (∀ s : State, s.ph.isTx = false → Place.dispatch.fits s = true) ∧
  (∀ (m : Micro) (pl : Place) (t : State), m.place = some pl → pl.fits m.now = true → step m.now = .next t →
    ∃ n : Nat, 0 < n ∧
      (∃ (m' : Micro) (pl' : Place), microCore.run n m = .next m' ∧ m'.now = t ∧ m'.place = some pl' ∧
        pl'.fits t = true) ∧
      ∀ j, j < n → ∃ m' : Micro, microCore.run j m = .next m' ∧ (0 < j → m'.place = none) ∧
        m'.now.assertReset = m.now.resetDuring t (m.now.eventsSince m'.now).length) ∧
  (∀ (m : Micro) (pl : Place) (r : Fault), m.place = some pl → pl.fits m.now = true → step m.now = .fault r →
    (∃ n : Nat, microCore.run n m = .fault r) ∨
    (m.now.st = .execute ∧ m.now.heldFrame = none ∧
      ∃ (n : Nat) (m' : Micro), microCore.run n m = .next m' ∧ m'.place = some .dispatch ∧ m'.now.st = .respond))

/-! ## Receive -/

/-- A recognized frame whose bytes all come, each at some poll below its budget `T_RX`, the identifier of an unbounded
wait at its next poll: Receive takes exactly its bytes, loads them into the command registers and the buffer, and goes to
Execute with the frame held; nothing else changes (40_frame_codec_rx.md, sections 1 and 2; that a poll of the unbounded
wait without a byte is a step of its own is the model's, log entry 17). -/
def Obligations.ReceiveLoadsFrame : Prop :=
  ∀ (i : Instr) (ks : List Nat) (s : State), s.st = .receive → i.wf = true → recognized i = true →
    ks.length = i.frameLength → s.rxComesFrom 0 ks = true →
    (s.params.idWaitBounded = false → ks.head? = some 0) →
    s.rxBytes i.frameLength = encode i →
    ∃ es : List Event,
      step s = .next { s.holdInstr i with
        st := .execute
        ph := (match i with | .read _ _ _ => .rxCount | _ => .rxData)
        idx := (match i with
          | .write _ _ p => countByte p
          | .detect as => countByte as
          | .echo p => countByte p
          | _ => s.idx)
        toCnt := s.params.tRx - ks.getLastD 0
        polls := s.polls.advance (pollsOf ks)
        rx := s.rx.advance i.frameLength
        trace := es.reverse ++ s.trace
        failKind := none } ∧
      actions es = (encode i).map Event.rxTake ∧
      pollRecords es = (List.range (pollsOf ks)).map s.pollAhead

/-- A recognized frame of which only the first bytes come, each at some poll below its budget `T_RX`, and no byte in the
`T_RX` polls after them: those bytes are taken and no other, no bus action is made, and Respond is entered with a
failure of class (a) (40_frame_codec_rx.md, section 3). -/
def Obligations.FrameCutShortFails : Prop :=
  ∀ (i : Instr) (ks : List Nat) (s : State), s.st = .receive → i.wf = true → recognized i = true →
    1 ≤ ks.length → ks.length < i.frameLength → s.rxComesFrom 0 ks = true →
    (s.params.idWaitBounded = false → ks.head? = some 0) →
    s.rxBytes ks.length = (encode i).take ks.length →
    s.undecided (fun f => f.rxReady) false (pollsOf ks) s.params.tRx = true →
    ∃ (t : State) (es : List Event), step s = .next t ∧ t.st = .respond ∧ t.resOk = false ∧
      t.failKind = some .framing ∧ t.toCnt = 0 ∧ t.resLen = s.resLen ∧
      t.trace = es.reverse ++ s.trace ∧ actions es = ((encode i).take ks.length).map Event.rxTake ∧
      pollRecords es = (List.range (pollsOf ks + s.params.tRx)).map s.pollAhead

/-- A host that is silent for `T_RX` polls while the identifier wait is bounded: the cycle fails with class (a) and no
byte is taken (40_frame_codec_rx.md, section 3; the default setting of the parameter, log entry 4). -/
def Obligations.SilentHostExpiresIdentifierWait : Prop :=
  ∀ s : State, s.st = .receive → s.params.idWaitBounded = true →
    (∀ k, k < s.params.tRx → (s.pollAhead k).rxReady = false) →
    step s = .next { s.waited s.params.tRx 0 with
      ph := .rxId, resOk := false, failKind := some .framing, st := .respond }

/-- A poll without a byte while the identifier wait is not bounded: the block stays in Receive, with no action and no
countdown (40_frame_codec_rx.md, section 3; the other setting of the parameter, log entries 4 and 17). -/
def Obligations.SilentHostIsAwaited : Prop :=
  ∀ s : State, s.st = .receive → s.params.idWaitBounded = false → (s.pollAhead 0).rxReady = false →
    step s = .next { s.waited 1 s.toCnt with ph := .rxId, failKind := none }

/-- An unrecognized identifier byte, at whichever poll below `T_RX` it comes, in an unbounded wait at its next poll: it
alone is taken, `cmd_id` holds it, and the step does what the instruction of its row does (40_frame_codec_rx.md, sections 1
and 3; decision D9, log entry 13; that a poll of the unbounded wait without a byte is a step of its own is the model's, log
entry 17). -/
def Obligations.ReceiveRejectsIdentifier : Prop :=
  ∀ (i : Instr) (k : Nat) (s : State), s.st = .receive → recognized i = false →
    s.rxComesFrom 0 [k] = true → (s.params.idWaitBounded = false → k = 0) → s.rxAhead 0 = i.idByte →
    step s = exec i { s with
      ph := .rxId, cmdId := i.idByte, failKind := none,
      toCnt := (if s.params.idWaitBounded then s.params.tRx - k else s.toCnt),
      polls := s.polls.advance (k + 1), rx := s.rx.advance 1,
      trace := .rxTake i.idByte :: ((s.pollEvents (k + 1)).reverse ++ s.trace) }

/-- A step in Receive takes bytes and does nothing else: no bus action and no byte to the host; and it makes at most 259
times `T_RX` polls (40_frame_codec_rx.md; 43_dispatcher.md, section 3). -/
def Obligations.ReceiveOnlyTakesBytes : Prop :=
  ∀ s t : State, s.st = .receive → step s = .next t →
    (∀ e ∈ s.eventsSince t, (∃ x, e = .rxTake x) ∨ ∃ f, e = .poll f) ∧
    t.trace = (s.eventsSince t).reverse ++ s.trace ∧
    pollCount (s.eventsSince t) ≤ longestFrame * s.params.tRx

/-! ## Respond -/

/-- The response a command leaves behind, whatever the environment answers: on success `0x01, N` for WRITE, the count and
the bus's bytes for READ, a count and that many of the candidates in their order for DETECT (`DetectTraces` says which),
the request's count and payload for ECHO whose payload stands in the buffer; on failure, and for an unrecognized
identifier, the one byte 0x00 (30_encoding.md, section 2; 43_dispatcher.md, section 3). -/
def Obligations.ResponsesOfCommands : Prop :=
  (∀ (a r : Byte) (p : List Byte) (s t : State), exec (.write a r p) s = .next t →
    t.pendingResponse = some (if t.resOk then [0x01#8, countByte p] else [0x00#8])) ∧
  (∀ (a r n : Byte) (s t : State), exec (.read a r n) s = .next t →
    t.pendingResponse = some (if t.resOk then n :: s.busBytes n.toNat else [0x00#8])) ∧
  (∀ (as : List Byte) (s t : State), exec (.detect as) s = .next t →
    ∃ found : List Byte, found.Sublist (candidates as) ∧
      t.pendingResponse = some (if t.resOk then countByte found :: found else [0x00#8])) ∧
  (∀ (p : List Byte) (s t : State), exec (.echo p) s = .next t → s.buf.readRange 0 p.length = some p →
    t.pendingResponse = some (countByte p :: p)) ∧
  (∀ (i : Instr) (s t : State), recognized i = false → s.ph.isTx = false → exec i s = .next t →
    t.pendingResponse = some [0x00#8])

/-- Whatever pace the transport keeps, a step in Respond sends the next bytes of the pending response and no others,
leaves the rest pending, and changes neither the result nor the buffer; Receive is entered with nothing pending
(41_frame_codec_tx.md, sections 1 and 2). -/
def Obligations.RespondSendsThePendingResponse : Prop :=
  ∀ s t : State, Inv s → s.st = .respond → step s = .next t →
    t.resOk = s.resOk ∧ t.resLen = s.resLen ∧ t.buf = s.buf ∧
    ∃ rest : List Byte, t.pendingResponse = some rest ∧ (t.st = .receive → rest = []) ∧
      s.pendingResponse = some (sentBytes (s.eventsSince t) ++ rest)

/-- With the transport ready at every poll, an `Ok` result of length L is sent as L, buf[0], ..., buf[L-1], in that
order, and Receive follows, whether or not the wait for L has begun; and from any position of the payload, waited at or
not, the bytes from there on are sent (41_frame_codec_tx.md, section 2; the number of steps is the model's, log entry
17). -/
def Obligations.RespondSendsPayload : Prop :=
  (∀ (s : State) (p : List Byte), s.st = .respond → (beginRespond s).ph = .txLen →
    s.buf.readRange 0 s.resLen.toNat = some p → s.txReadyFor (1 + s.resLen.toNat) →
    ∃ es : List Event,
      Host.Core.run Sys2Proof.core (2 + s.resLen.toNat) s = .next { s with
        st := .receive, ph := .txData, idx := s.resLen,
        polls := s.polls.advance (1 + s.resLen.toNat), trace := es.reverse ++ s.trace } ∧
      actions es = (s.resLen :: p).map Event.txPut) ∧
  (∀ (s : State) (p : List Byte), s.st = .respond → s.ph = .txData → s.idx.toNat + p.length = s.resLen.toNat →
    s.buf.readRange s.idx.toNat p.length = some p → s.txReadyFor p.length →
    ∃ es : List Event,
      Host.Core.run Sys2Proof.core (p.length + 1) s = .next { s with
        st := .receive, idx := s.resLen,
        polls := s.polls.advance p.length, trace := es.reverse ++ s.trace } ∧
      actions es = p.map Event.txPut)

/-- R153: with the transport ready, a failure is sent as the one byte 0x00, whatever `res_len` and the buffer hold, and
Receive follows; the same when the wait for the transport has already begun. -/
def Obligations.RespondSendsFailureByte : Prop :=
  ∀ s : State, s.st = .respond → (beginRespond s).ph = .txFail → (s.pollAhead 0).txReady = true →
    step s = .next { s with
      st := .receive, ph := .txFail, polls := s.polls.advance 1,
      trace := .txPut 0x00#8 :: .poll (s.pollAhead 0) :: s.trace }

/-- A transport that is not ready is waited for, without a countdown and without a failure; and at the first poll that
shows it ready, after however many that did not, the byte the serializer stands at is put: the length, the byte `buf[idx]`
of the payload, or the failure byte (41_frame_codec_tx.md, sections 1 and 2; decision D8, log entry 13; one poll a step,
log entry 17). -/
def Obligations.RespondWaitsForTransport : Prop :=
  (∀ s : State, Inv s → s.st = .respond → (s.pollAhead 0).txReady = false →
    ¬ (s.ph = .txData ∧ s.idx = s.resLen) →
    step s = .next { s with
      ph := (if s.ph.isTx then s.ph else if s.resOk then .txLen else .txFail),
      polls := s.polls.advance 1, trace := .poll (s.pollAhead 0) :: s.trace }) ∧
  (∀ s : State, Inv s → s.st = .respond → (s.pollAhead 0).txReady = true →
    ¬ (s.ph = .txData ∧ s.idx = s.resLen) →
    ∃ (b : Byte) (rest : List Byte), s.pendingResponse = some (b :: rest) ∧
      step s = .next { s with
        st := (if (beginRespond s).ph = .txFail then .receive else .respond)
        ph := (if (beginRespond s).ph = .txFail then .txFail else .txData)
        idx := (match (beginRespond s).ph with | .txLen => 0#8 | .txData => s.idx + 1#8 | _ => s.idx)
        polls := s.polls.advance 1
        trace := .txPut b :: .poll (s.pollAhead 0) :: s.trace }) ∧
  (∀ (s : State) (n : Nat), Inv s → s.st = .respond → (∀ k, k < n → (s.pollAhead k).txReady = false) →
    (s.pollAhead n).txReady = true → ¬ (s.ph = .txData ∧ s.idx = s.resLen) →
    ∃ (t : State) (b : Byte) (rest : List Byte), s.pendingResponse = some (b :: rest) ∧
      Host.Core.run Sys2Proof.core (n + 1) s = .next t ∧ t.pendingResponse = some rest ∧
      t.trace = .txPut b :: .poll (s.pollAhead n) :: ((s.pollEvents n).reverse ++ s.trace))

/-- A payload byte that nothing has written, or an index the buffer does not have, stops the serializer by name; so
does a held frame with such a byte stop Execute (10_state.md, section 8: such a byte holds no value; log entry 6). -/
def Obligations.UnwrittenBufferByteFaults : Prop :=
  (∀ s : State, s.st = .respond → s.ph = .txData → s.idx ≠ s.resLen → s.idx ≠ 255#8 → s.buf.read s.idx.toNat = none →
    step s = .fault .bufUnwritten) ∧
  (∀ s : State, s.st = .respond → s.ph = .txData → s.idx ≠ s.resLen → s.idx = 255#8 →
    step s = .fault .bufOutOfRange) ∧
  (∀ s : State, s.st = .execute → s.heldFrame = none → step s = .fault .bufUnwritten)

/-! ## The dispatcher -/

/-- The transitions of `st`, each with its condition; a step that stays where it is belongs to one of the two waits
without a bound or to the response in progress; no step returns to Startup, and the machine never stops (43_dispatcher.md,
section 1). The two edges of a state to itself and their clauses are there by the size of the model's steps (log entries
1 and 17), the reset asserted in any state by log entry 18. -/
def Obligations.TransitionsOfTheDispatcher : Prop :=
  State.reset.st = .startup ∧ (∀ s : State, s.assertReset.st = .startup) ∧
  (∀ s : State, Inv s → ∃ t : State, step s = .next t) ∧
  ∀ s t : State, step s = .next t →
    edge s.st t.st = true ∧
    (s.st = .startup → t.st = .receive ∧ t.trace = .init :: s.trace) ∧
    (s.st = .receive → t.st = .execute →
      ∃ i : Instr, i.wf = true ∧ recognized i = true ∧ t.heldFrame = some (encode i) ∧
        actions (s.eventsSince t) = (encode i).map Event.rxTake) ∧
    (s.st = .receive → t.st = .respond →
      t.resOk = false ∧ (t.failKind = some .framing ∨ t.failKind = some .unrecognizedId) ∧
        t.pendingResponse = some [0x00#8]) ∧
    (s.st = .receive → t.st = .receive →
      s.params.idWaitBounded = false ∧ (s.pollAhead 0).rxReady = false ∧
      t.trace = .poll (s.pollAhead 0) :: s.trace) ∧
    (s.st = .execute → t.st = .respond) ∧
    (s.st = .respond → t.st = .receive → s.pendingResponse = some (sentBytes (s.eventsSince t)))

/-- Each state has its own actions: a step performs `Init` in Startup, takes bytes in Receive, acts on the bus in Execute
and sends bytes in Respond, and performs no action of another state (20_memory.md, section 5). -/
def Obligations.EachStateHasItsActions : Prop :=
  ∀ s t : State, step s = .next t →
    ∀ e ∈ actions (s.eventsSince t),
      match s.st with
      | .startup => e = .init
      | .receive => ∃ x, e = .rxTake x
      | .execute => e.isBusAction = true
      | .respond => ∃ x, e = .txPut x

/-- After reset `st` is Startup and `ph` is SU_INIT; the first step performs `Init`, that one action, and enters Receive;
a reset asserted in any state gives the same and performs nothing (70_reset_and_hazards.md, section 1; log entries 5,
6 and 18 for what the spec leaves open). -/
def Obligations.ResetSequence : Prop :=
  State.reset.st = .startup ∧ State.reset.ph = .suInit ∧
  step State.reset = .next { State.reset with st := .receive, trace := [.init] } ∧
  ∀ s : State, s.assertReset.st = .startup ∧ s.assertReset.ph = .suInit ∧ s.assertReset.trace = s.trace ∧
    step s.assertReset = .next { s.assertReset with st := .receive, trace := .init :: s.trace }

/-- A reset in the middle of a step abandons it without a cleanup action: what was done stays done, the environment goes
on from there; with nothing done it is a reset of the old state, with everything done a reset of the new one; and the
invariant holds after it, so every claim from the invariant covers the machine from there on (70_reset_and_hazards.md,
section 1; log entry 18). -/
def Obligations.ResetAbandonsTheStep : Prop :=
  ∀ s t : State, step s = .next t →
    s.resetDuring t 0 = s.assertReset ∧
    s.resetDuring t (s.eventsSince t).length = t.assertReset ∧
    ∀ k, (s.resetDuring t k).st = .startup ∧ (s.resetDuring t k).trace <:+ t.trace ∧
      s.trace <:+ (s.resetDuring t k).trace ∧ (Inv s → Inv (s.resetDuring t k))

/-- Which state may write what: the command registers only in Receive, the scan registers, `res_len` and the received
bus bytes only in Execute, the buffer, `res_ok` and the countdown only in those two, the parameters never
(10_state.md, section 7). -/
def Obligations.RegisterWriters : Prop :=
  ∀ s t : State, step s = .next t →
    t.params = s.params ∧
    (s.st ≠ .receive →
      t.cmdId = s.cmdId ∧ t.devAddr = s.devAddr ∧ t.regPtr = s.regPtr ∧ t.count = s.count ∧ t.rx = s.rx) ∧
    (s.st ≠ .execute →
      t.scanIdx = s.scanIdx ∧ t.scanAddr = s.scanAddr ∧ t.outCnt = s.outCnt ∧ t.resLen = s.resLen ∧
      t.busRx = s.busRx) ∧
    (s.st = .startup ∨ s.st = .respond → t.buf = s.buf ∧ t.resOk = s.resOk ∧ t.toCnt = s.toCnt)

/-! ## Invariants and whole-machine claims -/

/-- The invariant holds after reset, and after a reset asserted between two steps (log entry 18). -/
def Obligations.ResetSatisfiesInvariant : Prop := Inv State.reset ∧ ∀ s : State, Inv s → Inv s.assertReset

/-- Every step keeps the invariant: the buffer's canonical form, the countdown's width, the port discipline, the bus
released since `Init`, the resting acknowledge mode, and the consistency of the held frame, of the pending result and of
the serializer's phase with the result's tag, both ways. -/
def Obligations.StepKeepsInvariant : Prop :=
  ∀ s t : State, Inv s → step s = .next t → Inv t

/-- From a state of the invariant the machine never stops: there is no halt state and no condition is fatal
(43_dispatcher.md, section 3; 60_exceptions.md, section 5). -/
def Obligations.MachineNeverStops : Prop :=
  ∀ s : State, Inv s → ∃ t : State, step s = .next t

/-- From every state, reached or not: a step uses each port only when a poll has just shown it ready, requests a stop for
every start it requests, and restores the acknowledge mode (60_exceptions.md, section 8; 42_bus_engine.md, sections 4
and 6). -/
def Obligations.StepKeepsBusPromises : Prop :=
  ∀ s t : State, step s = .next t →
    (portsKept s.trace = true → portsKept t.trace = true) ∧
    (busReleased s.trace = true → busReleased t.trace = true) ∧
    (ackModeOf s.trace = some .current → ackModeOf t.trace = some .current)

/-- Stale contents are never observable: from two states that agree on everything but stale register and buffer
contents, the steps agree again, action for action (10_state.md, section 8). -/
def Obligations.StaleContentsUnobservable : Prop :=
  ∀ s t s' : State, Inv s → Inv t → SameView s t → step s = .next s' →
    ∃ t' : State, step t = .next t' ∧ SameView s' t'

/-- With a bounded identifier wait, every command cycle is in Respond after at most two steps, at most 259 times `T_RX`
and 765 times `T_BUS` polls (43_dispatcher.md, section 3). -/
def Obligations.CycleReachesRespond : Prop :=
  ∀ s : State, Inv s → s.st = .receive → s.params.idWaitBounded = true →
    ∃ (k : Nat) (t : State), k ≤ 2 ∧ Host.Core.run Sys2Proof.core k s = .next t ∧ t.st = .respond ∧
      t.polls.drawn ≤ s.polls.drawn + 259 * s.params.tRx + 765 * s.params.tBus

/-- ECHO is an identity (43_dispatcher.md, section 2). Its Execute sets the result alone and always succeeds; what the
host is then sent, at whatever pace, is the request without its identifier byte; and when the bytes come within their
budgets and the response goes at the first poll of each wait, nothing else is done and the block is in Receive again
(the number of steps is the model's, log entries 1 and 17). -/
def Obligations.EchoReturnsItsPayload : Prop :=
  ∀ (p : List Byte) (ks : List Nat) (s : State), payloadFits p = true →
    exec (.echo p) s = .next { s with ph := .exLocal, resLen := countByte p, resOk := true, st := .respond } ∧
    (s.st = .execute → s.heldFrame = some (encode (.echo p)) →
      ∃ t : State, step s = .next t ∧ t.trace = s.trace ∧ t.pendingResponse = some ((encode (.echo p)).drop 1)) ∧
    (s.st = .receive → ks.length = 2 + p.length → s.rxComesFrom 0 ks = true →
      (s.params.idWaitBounded = false → ks.head? = some 0) → s.rxBytes ks.length = encode (.echo p) →
      (∀ k, k < 1 + p.length → (s.pollAhead (pollsOf ks + k)).txReady = true) →
      ∃ (t : State) (es : List Event), Host.Core.run Sys2Proof.core (4 + p.length) s = .next t ∧ t.st = .receive ∧
        t.resOk = true ∧ t.trace = es.reverse ++ s.trace ∧
        actions es = (encode (.echo p)).map Event.rxTake ++ ((encode (.echo p)).drop 1).map Event.txPut)

/-- A READ whose bytes come and whose bus waits end within their budgets, the response going at the first poll of each
wait: the host reads the count byte and then the bytes that the bus delivered, in order (43_dispatcher.md, section 3; the
number of steps is the model's, log entries 1 and 17). -/
def Obligations.ReadReturnsBusBytes : Prop :=
  ∀ (a r n : Byte) (ks js : List Nat) (s : State), s.st = .receive → n ≠ 0#8 →
    ks.length = 4 → s.rxComesFrom 0 ks = true → (s.params.idWaitBounded = false → ks.head? = some 0) →
    s.rxBytes 4 = encode (.read a r n) → s.servedFrom (pollsOf ks) (waitsOf (.read a r n)) js = true →
    (∀ k, k < 1 + n.toNat → (s.pollAhead (pollsOf ks + pollsOf js + k)).txReady = true) →
    ∃ (t : State) (es : List Event), Host.Core.run Sys2Proof.core (4 + n.toNat) s = .next t ∧ t.st = .receive ∧
      t.trace = es.reverse ++ s.trace ∧ sentBytes es = n :: s.busBytes n.toNat

/-- A WRITE whose bytes come and whose bus waits end within their budgets, the response going at the first poll of each
wait: the host reads 0x01, N (43_dispatcher.md, section 3; the number of steps is the model's, log entries 1 and 17). -/
def Obligations.WriteReturnsItsCount : Prop :=
  ∀ (a r : Byte) (p : List Byte) (ks js : List Nat) (s : State), s.st = .receive → payloadFits p = true →
    ks.length = 4 + p.length → s.rxComesFrom 0 ks = true → (s.params.idWaitBounded = false → ks.head? = some 0) →
    s.rxBytes ks.length = encode (.write a r p) → s.servedFrom (pollsOf ks) (waitsOf (.write a r p)) js = true →
    (∀ k, k < 2 → (s.pollAhead (pollsOf ks + pollsOf js + k)).txReady = true) →
    ∃ (t : State) (es : List Event), Host.Core.run Sys2Proof.core 5 s = .next t ∧ t.st = .receive ∧
      t.trace = es.reverse ++ s.trace ∧ sentBytes es = [0x01#8, countByte p]
end

