-- ==== Sys2Proof/Laws/State.lean ====
section
/-! SUPPORT. One lemma per field per update of the state, so that no later proof unfolds a record update. -/

namespace Sys2Proof.Machine

/-! ### `setSt` -/

@[simp] theorem State.setSt_st (s : State) (v : DispState) : (s.setSt v).st = v := rfl
@[simp] theorem State.setSt_ph (s : State) (v : DispState) : (s.setSt v).ph = s.ph := rfl
@[simp] theorem State.setSt_cmdId (s : State) (v : DispState) : (s.setSt v).cmdId = s.cmdId := rfl
@[simp] theorem State.setSt_devAddr (s : State) (v : DispState) : (s.setSt v).devAddr = s.devAddr := rfl
@[simp] theorem State.setSt_regPtr (s : State) (v : DispState) : (s.setSt v).regPtr = s.regPtr := rfl
@[simp] theorem State.setSt_count (s : State) (v : DispState) : (s.setSt v).count = s.count := rfl
@[simp] theorem State.setSt_buf (s : State) (v : DispState) : (s.setSt v).buf = s.buf := rfl
@[simp] theorem State.setSt_resOk (s : State) (v : DispState) : (s.setSt v).resOk = s.resOk := rfl
@[simp] theorem State.setSt_resLen (s : State) (v : DispState) : (s.setSt v).resLen = s.resLen := rfl
@[simp] theorem State.setSt_idx (s : State) (v : DispState) : (s.setSt v).idx = s.idx := rfl
@[simp] theorem State.setSt_scanIdx (s : State) (v : DispState) : (s.setSt v).scanIdx = s.scanIdx := rfl
@[simp] theorem State.setSt_scanAddr (s : State) (v : DispState) : (s.setSt v).scanAddr = s.scanAddr := rfl
@[simp] theorem State.setSt_outCnt (s : State) (v : DispState) : (s.setSt v).outCnt = s.outCnt := rfl
@[simp] theorem State.setSt_toCnt (s : State) (v : DispState) : (s.setSt v).toCnt = s.toCnt := rfl
@[simp] theorem State.setSt_polls (s : State) (v : DispState) : (s.setSt v).polls = s.polls := rfl
@[simp] theorem State.setSt_rx (s : State) (v : DispState) : (s.setSt v).rx = s.rx := rfl
@[simp] theorem State.setSt_busRx (s : State) (v : DispState) : (s.setSt v).busRx = s.busRx := rfl
@[simp] theorem State.setSt_failKind (s : State) (v : DispState) : (s.setSt v).failKind = s.failKind := rfl
@[simp] theorem State.setSt_params (s : State) (v : DispState) : (s.setSt v).params = s.params := rfl
@[simp] theorem State.setSt_trace (s : State) (v : DispState) : (s.setSt v).trace = s.trace := rfl

/-! ### `setPh` -/

@[simp] theorem State.setPh_st (s : State) (v : Phase) : (s.setPh v).st = s.st := rfl
@[simp] theorem State.setPh_ph (s : State) (v : Phase) : (s.setPh v).ph = v := rfl
@[simp] theorem State.setPh_cmdId (s : State) (v : Phase) : (s.setPh v).cmdId = s.cmdId := rfl
@[simp] theorem State.setPh_devAddr (s : State) (v : Phase) : (s.setPh v).devAddr = s.devAddr := rfl
@[simp] theorem State.setPh_regPtr (s : State) (v : Phase) : (s.setPh v).regPtr = s.regPtr := rfl
@[simp] theorem State.setPh_count (s : State) (v : Phase) : (s.setPh v).count = s.count := rfl
@[simp] theorem State.setPh_buf (s : State) (v : Phase) : (s.setPh v).buf = s.buf := rfl
@[simp] theorem State.setPh_resOk (s : State) (v : Phase) : (s.setPh v).resOk = s.resOk := rfl
@[simp] theorem State.setPh_resLen (s : State) (v : Phase) : (s.setPh v).resLen = s.resLen := rfl
@[simp] theorem State.setPh_idx (s : State) (v : Phase) : (s.setPh v).idx = s.idx := rfl
@[simp] theorem State.setPh_scanIdx (s : State) (v : Phase) : (s.setPh v).scanIdx = s.scanIdx := rfl
@[simp] theorem State.setPh_scanAddr (s : State) (v : Phase) : (s.setPh v).scanAddr = s.scanAddr := rfl
@[simp] theorem State.setPh_outCnt (s : State) (v : Phase) : (s.setPh v).outCnt = s.outCnt := rfl
@[simp] theorem State.setPh_toCnt (s : State) (v : Phase) : (s.setPh v).toCnt = s.toCnt := rfl
@[simp] theorem State.setPh_polls (s : State) (v : Phase) : (s.setPh v).polls = s.polls := rfl
@[simp] theorem State.setPh_rx (s : State) (v : Phase) : (s.setPh v).rx = s.rx := rfl
@[simp] theorem State.setPh_busRx (s : State) (v : Phase) : (s.setPh v).busRx = s.busRx := rfl
@[simp] theorem State.setPh_failKind (s : State) (v : Phase) : (s.setPh v).failKind = s.failKind := rfl
@[simp] theorem State.setPh_params (s : State) (v : Phase) : (s.setPh v).params = s.params := rfl
@[simp] theorem State.setPh_trace (s : State) (v : Phase) : (s.setPh v).trace = s.trace := rfl

/-! ### `setCmdId` -/

@[simp] theorem State.setCmdId_st (s : State) (v : Byte) : (s.setCmdId v).st = s.st := rfl
@[simp] theorem State.setCmdId_ph (s : State) (v : Byte) : (s.setCmdId v).ph = s.ph := rfl
@[simp] theorem State.setCmdId_cmdId (s : State) (v : Byte) : (s.setCmdId v).cmdId = v := rfl
@[simp] theorem State.setCmdId_devAddr (s : State) (v : Byte) : (s.setCmdId v).devAddr = s.devAddr := rfl
@[simp] theorem State.setCmdId_regPtr (s : State) (v : Byte) : (s.setCmdId v).regPtr = s.regPtr := rfl
@[simp] theorem State.setCmdId_count (s : State) (v : Byte) : (s.setCmdId v).count = s.count := rfl
@[simp] theorem State.setCmdId_buf (s : State) (v : Byte) : (s.setCmdId v).buf = s.buf := rfl
@[simp] theorem State.setCmdId_resOk (s : State) (v : Byte) : (s.setCmdId v).resOk = s.resOk := rfl
@[simp] theorem State.setCmdId_resLen (s : State) (v : Byte) : (s.setCmdId v).resLen = s.resLen := rfl
@[simp] theorem State.setCmdId_idx (s : State) (v : Byte) : (s.setCmdId v).idx = s.idx := rfl
@[simp] theorem State.setCmdId_scanIdx (s : State) (v : Byte) : (s.setCmdId v).scanIdx = s.scanIdx := rfl
@[simp] theorem State.setCmdId_scanAddr (s : State) (v : Byte) : (s.setCmdId v).scanAddr = s.scanAddr := rfl
@[simp] theorem State.setCmdId_outCnt (s : State) (v : Byte) : (s.setCmdId v).outCnt = s.outCnt := rfl
@[simp] theorem State.setCmdId_toCnt (s : State) (v : Byte) : (s.setCmdId v).toCnt = s.toCnt := rfl
@[simp] theorem State.setCmdId_polls (s : State) (v : Byte) : (s.setCmdId v).polls = s.polls := rfl
@[simp] theorem State.setCmdId_rx (s : State) (v : Byte) : (s.setCmdId v).rx = s.rx := rfl
@[simp] theorem State.setCmdId_busRx (s : State) (v : Byte) : (s.setCmdId v).busRx = s.busRx := rfl
@[simp] theorem State.setCmdId_failKind (s : State) (v : Byte) : (s.setCmdId v).failKind = s.failKind := rfl
@[simp] theorem State.setCmdId_params (s : State) (v : Byte) : (s.setCmdId v).params = s.params := rfl
@[simp] theorem State.setCmdId_trace (s : State) (v : Byte) : (s.setCmdId v).trace = s.trace := rfl

/-! ### `setDevAddr` -/

@[simp] theorem State.setDevAddr_st (s : State) (v : Byte) : (s.setDevAddr v).st = s.st := rfl
@[simp] theorem State.setDevAddr_ph (s : State) (v : Byte) : (s.setDevAddr v).ph = s.ph := rfl
@[simp] theorem State.setDevAddr_cmdId (s : State) (v : Byte) : (s.setDevAddr v).cmdId = s.cmdId := rfl
@[simp] theorem State.setDevAddr_devAddr (s : State) (v : Byte) : (s.setDevAddr v).devAddr = v := rfl
@[simp] theorem State.setDevAddr_regPtr (s : State) (v : Byte) : (s.setDevAddr v).regPtr = s.regPtr := rfl
@[simp] theorem State.setDevAddr_count (s : State) (v : Byte) : (s.setDevAddr v).count = s.count := rfl
@[simp] theorem State.setDevAddr_buf (s : State) (v : Byte) : (s.setDevAddr v).buf = s.buf := rfl
@[simp] theorem State.setDevAddr_resOk (s : State) (v : Byte) : (s.setDevAddr v).resOk = s.resOk := rfl
@[simp] theorem State.setDevAddr_resLen (s : State) (v : Byte) : (s.setDevAddr v).resLen = s.resLen := rfl
@[simp] theorem State.setDevAddr_idx (s : State) (v : Byte) : (s.setDevAddr v).idx = s.idx := rfl
@[simp] theorem State.setDevAddr_scanIdx (s : State) (v : Byte) : (s.setDevAddr v).scanIdx = s.scanIdx := rfl
@[simp] theorem State.setDevAddr_scanAddr (s : State) (v : Byte) : (s.setDevAddr v).scanAddr = s.scanAddr := rfl
@[simp] theorem State.setDevAddr_outCnt (s : State) (v : Byte) : (s.setDevAddr v).outCnt = s.outCnt := rfl
@[simp] theorem State.setDevAddr_toCnt (s : State) (v : Byte) : (s.setDevAddr v).toCnt = s.toCnt := rfl
@[simp] theorem State.setDevAddr_polls (s : State) (v : Byte) : (s.setDevAddr v).polls = s.polls := rfl
@[simp] theorem State.setDevAddr_rx (s : State) (v : Byte) : (s.setDevAddr v).rx = s.rx := rfl
@[simp] theorem State.setDevAddr_busRx (s : State) (v : Byte) : (s.setDevAddr v).busRx = s.busRx := rfl
@[simp] theorem State.setDevAddr_failKind (s : State) (v : Byte) : (s.setDevAddr v).failKind = s.failKind := rfl
@[simp] theorem State.setDevAddr_params (s : State) (v : Byte) : (s.setDevAddr v).params = s.params := rfl
@[simp] theorem State.setDevAddr_trace (s : State) (v : Byte) : (s.setDevAddr v).trace = s.trace := rfl

/-! ### `setRegPtr` -/

@[simp] theorem State.setRegPtr_st (s : State) (v : Byte) : (s.setRegPtr v).st = s.st := rfl
@[simp] theorem State.setRegPtr_ph (s : State) (v : Byte) : (s.setRegPtr v).ph = s.ph := rfl
@[simp] theorem State.setRegPtr_cmdId (s : State) (v : Byte) : (s.setRegPtr v).cmdId = s.cmdId := rfl
@[simp] theorem State.setRegPtr_devAddr (s : State) (v : Byte) : (s.setRegPtr v).devAddr = s.devAddr := rfl
@[simp] theorem State.setRegPtr_regPtr (s : State) (v : Byte) : (s.setRegPtr v).regPtr = v := rfl
@[simp] theorem State.setRegPtr_count (s : State) (v : Byte) : (s.setRegPtr v).count = s.count := rfl
@[simp] theorem State.setRegPtr_buf (s : State) (v : Byte) : (s.setRegPtr v).buf = s.buf := rfl
@[simp] theorem State.setRegPtr_resOk (s : State) (v : Byte) : (s.setRegPtr v).resOk = s.resOk := rfl
@[simp] theorem State.setRegPtr_resLen (s : State) (v : Byte) : (s.setRegPtr v).resLen = s.resLen := rfl
@[simp] theorem State.setRegPtr_idx (s : State) (v : Byte) : (s.setRegPtr v).idx = s.idx := rfl
@[simp] theorem State.setRegPtr_scanIdx (s : State) (v : Byte) : (s.setRegPtr v).scanIdx = s.scanIdx := rfl
@[simp] theorem State.setRegPtr_scanAddr (s : State) (v : Byte) : (s.setRegPtr v).scanAddr = s.scanAddr := rfl
@[simp] theorem State.setRegPtr_outCnt (s : State) (v : Byte) : (s.setRegPtr v).outCnt = s.outCnt := rfl
@[simp] theorem State.setRegPtr_toCnt (s : State) (v : Byte) : (s.setRegPtr v).toCnt = s.toCnt := rfl
@[simp] theorem State.setRegPtr_polls (s : State) (v : Byte) : (s.setRegPtr v).polls = s.polls := rfl
@[simp] theorem State.setRegPtr_rx (s : State) (v : Byte) : (s.setRegPtr v).rx = s.rx := rfl
@[simp] theorem State.setRegPtr_busRx (s : State) (v : Byte) : (s.setRegPtr v).busRx = s.busRx := rfl
@[simp] theorem State.setRegPtr_failKind (s : State) (v : Byte) : (s.setRegPtr v).failKind = s.failKind := rfl
@[simp] theorem State.setRegPtr_params (s : State) (v : Byte) : (s.setRegPtr v).params = s.params := rfl
@[simp] theorem State.setRegPtr_trace (s : State) (v : Byte) : (s.setRegPtr v).trace = s.trace := rfl

/-! ### `setCount` -/

@[simp] theorem State.setCount_st (s : State) (v : Byte) : (s.setCount v).st = s.st := rfl
@[simp] theorem State.setCount_ph (s : State) (v : Byte) : (s.setCount v).ph = s.ph := rfl
@[simp] theorem State.setCount_cmdId (s : State) (v : Byte) : (s.setCount v).cmdId = s.cmdId := rfl
@[simp] theorem State.setCount_devAddr (s : State) (v : Byte) : (s.setCount v).devAddr = s.devAddr := rfl
@[simp] theorem State.setCount_regPtr (s : State) (v : Byte) : (s.setCount v).regPtr = s.regPtr := rfl
@[simp] theorem State.setCount_count (s : State) (v : Byte) : (s.setCount v).count = v := rfl
@[simp] theorem State.setCount_buf (s : State) (v : Byte) : (s.setCount v).buf = s.buf := rfl
@[simp] theorem State.setCount_resOk (s : State) (v : Byte) : (s.setCount v).resOk = s.resOk := rfl
@[simp] theorem State.setCount_resLen (s : State) (v : Byte) : (s.setCount v).resLen = s.resLen := rfl
@[simp] theorem State.setCount_idx (s : State) (v : Byte) : (s.setCount v).idx = s.idx := rfl
@[simp] theorem State.setCount_scanIdx (s : State) (v : Byte) : (s.setCount v).scanIdx = s.scanIdx := rfl
@[simp] theorem State.setCount_scanAddr (s : State) (v : Byte) : (s.setCount v).scanAddr = s.scanAddr := rfl
@[simp] theorem State.setCount_outCnt (s : State) (v : Byte) : (s.setCount v).outCnt = s.outCnt := rfl
@[simp] theorem State.setCount_toCnt (s : State) (v : Byte) : (s.setCount v).toCnt = s.toCnt := rfl
@[simp] theorem State.setCount_polls (s : State) (v : Byte) : (s.setCount v).polls = s.polls := rfl
@[simp] theorem State.setCount_rx (s : State) (v : Byte) : (s.setCount v).rx = s.rx := rfl
@[simp] theorem State.setCount_busRx (s : State) (v : Byte) : (s.setCount v).busRx = s.busRx := rfl
@[simp] theorem State.setCount_failKind (s : State) (v : Byte) : (s.setCount v).failKind = s.failKind := rfl
@[simp] theorem State.setCount_params (s : State) (v : Byte) : (s.setCount v).params = s.params := rfl
@[simp] theorem State.setCount_trace (s : State) (v : Byte) : (s.setCount v).trace = s.trace := rfl

/-! ### `setBuf` -/

@[simp] theorem State.setBuf_st (s : State) (v : Memory) : (s.setBuf v).st = s.st := rfl
@[simp] theorem State.setBuf_ph (s : State) (v : Memory) : (s.setBuf v).ph = s.ph := rfl
@[simp] theorem State.setBuf_cmdId (s : State) (v : Memory) : (s.setBuf v).cmdId = s.cmdId := rfl
@[simp] theorem State.setBuf_devAddr (s : State) (v : Memory) : (s.setBuf v).devAddr = s.devAddr := rfl
@[simp] theorem State.setBuf_regPtr (s : State) (v : Memory) : (s.setBuf v).regPtr = s.regPtr := rfl
@[simp] theorem State.setBuf_count (s : State) (v : Memory) : (s.setBuf v).count = s.count := rfl
@[simp] theorem State.setBuf_buf (s : State) (v : Memory) : (s.setBuf v).buf = v := rfl
@[simp] theorem State.setBuf_resOk (s : State) (v : Memory) : (s.setBuf v).resOk = s.resOk := rfl
@[simp] theorem State.setBuf_resLen (s : State) (v : Memory) : (s.setBuf v).resLen = s.resLen := rfl
@[simp] theorem State.setBuf_idx (s : State) (v : Memory) : (s.setBuf v).idx = s.idx := rfl
@[simp] theorem State.setBuf_scanIdx (s : State) (v : Memory) : (s.setBuf v).scanIdx = s.scanIdx := rfl
@[simp] theorem State.setBuf_scanAddr (s : State) (v : Memory) : (s.setBuf v).scanAddr = s.scanAddr := rfl
@[simp] theorem State.setBuf_outCnt (s : State) (v : Memory) : (s.setBuf v).outCnt = s.outCnt := rfl
@[simp] theorem State.setBuf_toCnt (s : State) (v : Memory) : (s.setBuf v).toCnt = s.toCnt := rfl
@[simp] theorem State.setBuf_polls (s : State) (v : Memory) : (s.setBuf v).polls = s.polls := rfl
@[simp] theorem State.setBuf_rx (s : State) (v : Memory) : (s.setBuf v).rx = s.rx := rfl
@[simp] theorem State.setBuf_busRx (s : State) (v : Memory) : (s.setBuf v).busRx = s.busRx := rfl
@[simp] theorem State.setBuf_failKind (s : State) (v : Memory) : (s.setBuf v).failKind = s.failKind := rfl
@[simp] theorem State.setBuf_params (s : State) (v : Memory) : (s.setBuf v).params = s.params := rfl
@[simp] theorem State.setBuf_trace (s : State) (v : Memory) : (s.setBuf v).trace = s.trace := rfl

/-! ### `setResOk` -/

@[simp] theorem State.setResOk_st (s : State) (v : Bool) : (s.setResOk v).st = s.st := rfl
@[simp] theorem State.setResOk_ph (s : State) (v : Bool) : (s.setResOk v).ph = s.ph := rfl
@[simp] theorem State.setResOk_cmdId (s : State) (v : Bool) : (s.setResOk v).cmdId = s.cmdId := rfl
@[simp] theorem State.setResOk_devAddr (s : State) (v : Bool) : (s.setResOk v).devAddr = s.devAddr := rfl
@[simp] theorem State.setResOk_regPtr (s : State) (v : Bool) : (s.setResOk v).regPtr = s.regPtr := rfl
@[simp] theorem State.setResOk_count (s : State) (v : Bool) : (s.setResOk v).count = s.count := rfl
@[simp] theorem State.setResOk_buf (s : State) (v : Bool) : (s.setResOk v).buf = s.buf := rfl
@[simp] theorem State.setResOk_resOk (s : State) (v : Bool) : (s.setResOk v).resOk = v := rfl
@[simp] theorem State.setResOk_resLen (s : State) (v : Bool) : (s.setResOk v).resLen = s.resLen := rfl
@[simp] theorem State.setResOk_idx (s : State) (v : Bool) : (s.setResOk v).idx = s.idx := rfl
@[simp] theorem State.setResOk_scanIdx (s : State) (v : Bool) : (s.setResOk v).scanIdx = s.scanIdx := rfl
@[simp] theorem State.setResOk_scanAddr (s : State) (v : Bool) : (s.setResOk v).scanAddr = s.scanAddr := rfl
@[simp] theorem State.setResOk_outCnt (s : State) (v : Bool) : (s.setResOk v).outCnt = s.outCnt := rfl
@[simp] theorem State.setResOk_toCnt (s : State) (v : Bool) : (s.setResOk v).toCnt = s.toCnt := rfl
@[simp] theorem State.setResOk_polls (s : State) (v : Bool) : (s.setResOk v).polls = s.polls := rfl
@[simp] theorem State.setResOk_rx (s : State) (v : Bool) : (s.setResOk v).rx = s.rx := rfl
@[simp] theorem State.setResOk_busRx (s : State) (v : Bool) : (s.setResOk v).busRx = s.busRx := rfl
@[simp] theorem State.setResOk_failKind (s : State) (v : Bool) : (s.setResOk v).failKind = s.failKind := rfl
@[simp] theorem State.setResOk_params (s : State) (v : Bool) : (s.setResOk v).params = s.params := rfl
@[simp] theorem State.setResOk_trace (s : State) (v : Bool) : (s.setResOk v).trace = s.trace := rfl

/-! ### `setResLen` -/

@[simp] theorem State.setResLen_st (s : State) (v : Byte) : (s.setResLen v).st = s.st := rfl
@[simp] theorem State.setResLen_ph (s : State) (v : Byte) : (s.setResLen v).ph = s.ph := rfl
@[simp] theorem State.setResLen_cmdId (s : State) (v : Byte) : (s.setResLen v).cmdId = s.cmdId := rfl
@[simp] theorem State.setResLen_devAddr (s : State) (v : Byte) : (s.setResLen v).devAddr = s.devAddr := rfl
@[simp] theorem State.setResLen_regPtr (s : State) (v : Byte) : (s.setResLen v).regPtr = s.regPtr := rfl
@[simp] theorem State.setResLen_count (s : State) (v : Byte) : (s.setResLen v).count = s.count := rfl
@[simp] theorem State.setResLen_buf (s : State) (v : Byte) : (s.setResLen v).buf = s.buf := rfl
@[simp] theorem State.setResLen_resOk (s : State) (v : Byte) : (s.setResLen v).resOk = s.resOk := rfl
@[simp] theorem State.setResLen_resLen (s : State) (v : Byte) : (s.setResLen v).resLen = v := rfl
@[simp] theorem State.setResLen_idx (s : State) (v : Byte) : (s.setResLen v).idx = s.idx := rfl
@[simp] theorem State.setResLen_scanIdx (s : State) (v : Byte) : (s.setResLen v).scanIdx = s.scanIdx := rfl
@[simp] theorem State.setResLen_scanAddr (s : State) (v : Byte) : (s.setResLen v).scanAddr = s.scanAddr := rfl
@[simp] theorem State.setResLen_outCnt (s : State) (v : Byte) : (s.setResLen v).outCnt = s.outCnt := rfl
@[simp] theorem State.setResLen_toCnt (s : State) (v : Byte) : (s.setResLen v).toCnt = s.toCnt := rfl
@[simp] theorem State.setResLen_polls (s : State) (v : Byte) : (s.setResLen v).polls = s.polls := rfl
@[simp] theorem State.setResLen_rx (s : State) (v : Byte) : (s.setResLen v).rx = s.rx := rfl
@[simp] theorem State.setResLen_busRx (s : State) (v : Byte) : (s.setResLen v).busRx = s.busRx := rfl
@[simp] theorem State.setResLen_failKind (s : State) (v : Byte) : (s.setResLen v).failKind = s.failKind := rfl
@[simp] theorem State.setResLen_params (s : State) (v : Byte) : (s.setResLen v).params = s.params := rfl
@[simp] theorem State.setResLen_trace (s : State) (v : Byte) : (s.setResLen v).trace = s.trace := rfl

/-! ### `setIdx` -/

@[simp] theorem State.setIdx_st (s : State) (v : Byte) : (s.setIdx v).st = s.st := rfl
@[simp] theorem State.setIdx_ph (s : State) (v : Byte) : (s.setIdx v).ph = s.ph := rfl
@[simp] theorem State.setIdx_cmdId (s : State) (v : Byte) : (s.setIdx v).cmdId = s.cmdId := rfl
@[simp] theorem State.setIdx_devAddr (s : State) (v : Byte) : (s.setIdx v).devAddr = s.devAddr := rfl
@[simp] theorem State.setIdx_regPtr (s : State) (v : Byte) : (s.setIdx v).regPtr = s.regPtr := rfl
@[simp] theorem State.setIdx_count (s : State) (v : Byte) : (s.setIdx v).count = s.count := rfl
@[simp] theorem State.setIdx_buf (s : State) (v : Byte) : (s.setIdx v).buf = s.buf := rfl
@[simp] theorem State.setIdx_resOk (s : State) (v : Byte) : (s.setIdx v).resOk = s.resOk := rfl
@[simp] theorem State.setIdx_resLen (s : State) (v : Byte) : (s.setIdx v).resLen = s.resLen := rfl
@[simp] theorem State.setIdx_idx (s : State) (v : Byte) : (s.setIdx v).idx = v := rfl
@[simp] theorem State.setIdx_scanIdx (s : State) (v : Byte) : (s.setIdx v).scanIdx = s.scanIdx := rfl
@[simp] theorem State.setIdx_scanAddr (s : State) (v : Byte) : (s.setIdx v).scanAddr = s.scanAddr := rfl
@[simp] theorem State.setIdx_outCnt (s : State) (v : Byte) : (s.setIdx v).outCnt = s.outCnt := rfl
@[simp] theorem State.setIdx_toCnt (s : State) (v : Byte) : (s.setIdx v).toCnt = s.toCnt := rfl
@[simp] theorem State.setIdx_polls (s : State) (v : Byte) : (s.setIdx v).polls = s.polls := rfl
@[simp] theorem State.setIdx_rx (s : State) (v : Byte) : (s.setIdx v).rx = s.rx := rfl
@[simp] theorem State.setIdx_busRx (s : State) (v : Byte) : (s.setIdx v).busRx = s.busRx := rfl
@[simp] theorem State.setIdx_failKind (s : State) (v : Byte) : (s.setIdx v).failKind = s.failKind := rfl
@[simp] theorem State.setIdx_params (s : State) (v : Byte) : (s.setIdx v).params = s.params := rfl
@[simp] theorem State.setIdx_trace (s : State) (v : Byte) : (s.setIdx v).trace = s.trace := rfl

/-! ### `setScanIdx` -/

@[simp] theorem State.setScanIdx_st (s : State) (v : Byte) : (s.setScanIdx v).st = s.st := rfl
@[simp] theorem State.setScanIdx_ph (s : State) (v : Byte) : (s.setScanIdx v).ph = s.ph := rfl
@[simp] theorem State.setScanIdx_cmdId (s : State) (v : Byte) : (s.setScanIdx v).cmdId = s.cmdId := rfl
@[simp] theorem State.setScanIdx_devAddr (s : State) (v : Byte) : (s.setScanIdx v).devAddr = s.devAddr := rfl
@[simp] theorem State.setScanIdx_regPtr (s : State) (v : Byte) : (s.setScanIdx v).regPtr = s.regPtr := rfl
@[simp] theorem State.setScanIdx_count (s : State) (v : Byte) : (s.setScanIdx v).count = s.count := rfl
@[simp] theorem State.setScanIdx_buf (s : State) (v : Byte) : (s.setScanIdx v).buf = s.buf := rfl
@[simp] theorem State.setScanIdx_resOk (s : State) (v : Byte) : (s.setScanIdx v).resOk = s.resOk := rfl
@[simp] theorem State.setScanIdx_resLen (s : State) (v : Byte) : (s.setScanIdx v).resLen = s.resLen := rfl
@[simp] theorem State.setScanIdx_idx (s : State) (v : Byte) : (s.setScanIdx v).idx = s.idx := rfl
@[simp] theorem State.setScanIdx_scanIdx (s : State) (v : Byte) : (s.setScanIdx v).scanIdx = v := rfl
@[simp] theorem State.setScanIdx_scanAddr (s : State) (v : Byte) : (s.setScanIdx v).scanAddr = s.scanAddr := rfl
@[simp] theorem State.setScanIdx_outCnt (s : State) (v : Byte) : (s.setScanIdx v).outCnt = s.outCnt := rfl
@[simp] theorem State.setScanIdx_toCnt (s : State) (v : Byte) : (s.setScanIdx v).toCnt = s.toCnt := rfl
@[simp] theorem State.setScanIdx_polls (s : State) (v : Byte) : (s.setScanIdx v).polls = s.polls := rfl
@[simp] theorem State.setScanIdx_rx (s : State) (v : Byte) : (s.setScanIdx v).rx = s.rx := rfl
@[simp] theorem State.setScanIdx_busRx (s : State) (v : Byte) : (s.setScanIdx v).busRx = s.busRx := rfl
@[simp] theorem State.setScanIdx_failKind (s : State) (v : Byte) : (s.setScanIdx v).failKind = s.failKind := rfl
@[simp] theorem State.setScanIdx_params (s : State) (v : Byte) : (s.setScanIdx v).params = s.params := rfl
@[simp] theorem State.setScanIdx_trace (s : State) (v : Byte) : (s.setScanIdx v).trace = s.trace := rfl

/-! ### `setScanAddr` -/

@[simp] theorem State.setScanAddr_st (s : State) (v : Byte) : (s.setScanAddr v).st = s.st := rfl
@[simp] theorem State.setScanAddr_ph (s : State) (v : Byte) : (s.setScanAddr v).ph = s.ph := rfl
@[simp] theorem State.setScanAddr_cmdId (s : State) (v : Byte) : (s.setScanAddr v).cmdId = s.cmdId := rfl
@[simp] theorem State.setScanAddr_devAddr (s : State) (v : Byte) : (s.setScanAddr v).devAddr = s.devAddr := rfl
@[simp] theorem State.setScanAddr_regPtr (s : State) (v : Byte) : (s.setScanAddr v).regPtr = s.regPtr := rfl
@[simp] theorem State.setScanAddr_count (s : State) (v : Byte) : (s.setScanAddr v).count = s.count := rfl
@[simp] theorem State.setScanAddr_buf (s : State) (v : Byte) : (s.setScanAddr v).buf = s.buf := rfl
@[simp] theorem State.setScanAddr_resOk (s : State) (v : Byte) : (s.setScanAddr v).resOk = s.resOk := rfl
@[simp] theorem State.setScanAddr_resLen (s : State) (v : Byte) : (s.setScanAddr v).resLen = s.resLen := rfl
@[simp] theorem State.setScanAddr_idx (s : State) (v : Byte) : (s.setScanAddr v).idx = s.idx := rfl
@[simp] theorem State.setScanAddr_scanIdx (s : State) (v : Byte) : (s.setScanAddr v).scanIdx = s.scanIdx := rfl
@[simp] theorem State.setScanAddr_scanAddr (s : State) (v : Byte) : (s.setScanAddr v).scanAddr = v := rfl
@[simp] theorem State.setScanAddr_outCnt (s : State) (v : Byte) : (s.setScanAddr v).outCnt = s.outCnt := rfl
@[simp] theorem State.setScanAddr_toCnt (s : State) (v : Byte) : (s.setScanAddr v).toCnt = s.toCnt := rfl
@[simp] theorem State.setScanAddr_polls (s : State) (v : Byte) : (s.setScanAddr v).polls = s.polls := rfl
@[simp] theorem State.setScanAddr_rx (s : State) (v : Byte) : (s.setScanAddr v).rx = s.rx := rfl
@[simp] theorem State.setScanAddr_busRx (s : State) (v : Byte) : (s.setScanAddr v).busRx = s.busRx := rfl
@[simp] theorem State.setScanAddr_failKind (s : State) (v : Byte) : (s.setScanAddr v).failKind = s.failKind := rfl
@[simp] theorem State.setScanAddr_params (s : State) (v : Byte) : (s.setScanAddr v).params = s.params := rfl
@[simp] theorem State.setScanAddr_trace (s : State) (v : Byte) : (s.setScanAddr v).trace = s.trace := rfl

/-! ### `setOutCnt` -/

@[simp] theorem State.setOutCnt_st (s : State) (v : Byte) : (s.setOutCnt v).st = s.st := rfl
@[simp] theorem State.setOutCnt_ph (s : State) (v : Byte) : (s.setOutCnt v).ph = s.ph := rfl
@[simp] theorem State.setOutCnt_cmdId (s : State) (v : Byte) : (s.setOutCnt v).cmdId = s.cmdId := rfl
@[simp] theorem State.setOutCnt_devAddr (s : State) (v : Byte) : (s.setOutCnt v).devAddr = s.devAddr := rfl
@[simp] theorem State.setOutCnt_regPtr (s : State) (v : Byte) : (s.setOutCnt v).regPtr = s.regPtr := rfl
@[simp] theorem State.setOutCnt_count (s : State) (v : Byte) : (s.setOutCnt v).count = s.count := rfl
@[simp] theorem State.setOutCnt_buf (s : State) (v : Byte) : (s.setOutCnt v).buf = s.buf := rfl
@[simp] theorem State.setOutCnt_resOk (s : State) (v : Byte) : (s.setOutCnt v).resOk = s.resOk := rfl
@[simp] theorem State.setOutCnt_resLen (s : State) (v : Byte) : (s.setOutCnt v).resLen = s.resLen := rfl
@[simp] theorem State.setOutCnt_idx (s : State) (v : Byte) : (s.setOutCnt v).idx = s.idx := rfl
@[simp] theorem State.setOutCnt_scanIdx (s : State) (v : Byte) : (s.setOutCnt v).scanIdx = s.scanIdx := rfl
@[simp] theorem State.setOutCnt_scanAddr (s : State) (v : Byte) : (s.setOutCnt v).scanAddr = s.scanAddr := rfl
@[simp] theorem State.setOutCnt_outCnt (s : State) (v : Byte) : (s.setOutCnt v).outCnt = v := rfl
@[simp] theorem State.setOutCnt_toCnt (s : State) (v : Byte) : (s.setOutCnt v).toCnt = s.toCnt := rfl
@[simp] theorem State.setOutCnt_polls (s : State) (v : Byte) : (s.setOutCnt v).polls = s.polls := rfl
@[simp] theorem State.setOutCnt_rx (s : State) (v : Byte) : (s.setOutCnt v).rx = s.rx := rfl
@[simp] theorem State.setOutCnt_busRx (s : State) (v : Byte) : (s.setOutCnt v).busRx = s.busRx := rfl
@[simp] theorem State.setOutCnt_failKind (s : State) (v : Byte) : (s.setOutCnt v).failKind = s.failKind := rfl
@[simp] theorem State.setOutCnt_params (s : State) (v : Byte) : (s.setOutCnt v).params = s.params := rfl
@[simp] theorem State.setOutCnt_trace (s : State) (v : Byte) : (s.setOutCnt v).trace = s.trace := rfl

/-! ### `setToCnt` -/

@[simp] theorem State.setToCnt_st (s : State) (v : Nat) : (s.setToCnt v).st = s.st := rfl
@[simp] theorem State.setToCnt_ph (s : State) (v : Nat) : (s.setToCnt v).ph = s.ph := rfl
@[simp] theorem State.setToCnt_cmdId (s : State) (v : Nat) : (s.setToCnt v).cmdId = s.cmdId := rfl
@[simp] theorem State.setToCnt_devAddr (s : State) (v : Nat) : (s.setToCnt v).devAddr = s.devAddr := rfl
@[simp] theorem State.setToCnt_regPtr (s : State) (v : Nat) : (s.setToCnt v).regPtr = s.regPtr := rfl
@[simp] theorem State.setToCnt_count (s : State) (v : Nat) : (s.setToCnt v).count = s.count := rfl
@[simp] theorem State.setToCnt_buf (s : State) (v : Nat) : (s.setToCnt v).buf = s.buf := rfl
@[simp] theorem State.setToCnt_resOk (s : State) (v : Nat) : (s.setToCnt v).resOk = s.resOk := rfl
@[simp] theorem State.setToCnt_resLen (s : State) (v : Nat) : (s.setToCnt v).resLen = s.resLen := rfl
@[simp] theorem State.setToCnt_idx (s : State) (v : Nat) : (s.setToCnt v).idx = s.idx := rfl
@[simp] theorem State.setToCnt_scanIdx (s : State) (v : Nat) : (s.setToCnt v).scanIdx = s.scanIdx := rfl
@[simp] theorem State.setToCnt_scanAddr (s : State) (v : Nat) : (s.setToCnt v).scanAddr = s.scanAddr := rfl
@[simp] theorem State.setToCnt_outCnt (s : State) (v : Nat) : (s.setToCnt v).outCnt = s.outCnt := rfl
@[simp] theorem State.setToCnt_toCnt (s : State) (v : Nat) : (s.setToCnt v).toCnt = v := rfl
@[simp] theorem State.setToCnt_polls (s : State) (v : Nat) : (s.setToCnt v).polls = s.polls := rfl
@[simp] theorem State.setToCnt_rx (s : State) (v : Nat) : (s.setToCnt v).rx = s.rx := rfl
@[simp] theorem State.setToCnt_busRx (s : State) (v : Nat) : (s.setToCnt v).busRx = s.busRx := rfl
@[simp] theorem State.setToCnt_failKind (s : State) (v : Nat) : (s.setToCnt v).failKind = s.failKind := rfl
@[simp] theorem State.setToCnt_params (s : State) (v : Nat) : (s.setToCnt v).params = s.params := rfl
@[simp] theorem State.setToCnt_trace (s : State) (v : Nat) : (s.setToCnt v).trace = s.trace := rfl

/-! ### `setPolls` -/

@[simp] theorem State.setPolls_st (s : State) (v : Feed Poll) : (s.setPolls v).st = s.st := rfl
@[simp] theorem State.setPolls_ph (s : State) (v : Feed Poll) : (s.setPolls v).ph = s.ph := rfl
@[simp] theorem State.setPolls_cmdId (s : State) (v : Feed Poll) : (s.setPolls v).cmdId = s.cmdId := rfl
@[simp] theorem State.setPolls_devAddr (s : State) (v : Feed Poll) : (s.setPolls v).devAddr = s.devAddr := rfl
@[simp] theorem State.setPolls_regPtr (s : State) (v : Feed Poll) : (s.setPolls v).regPtr = s.regPtr := rfl
@[simp] theorem State.setPolls_count (s : State) (v : Feed Poll) : (s.setPolls v).count = s.count := rfl
@[simp] theorem State.setPolls_buf (s : State) (v : Feed Poll) : (s.setPolls v).buf = s.buf := rfl
@[simp] theorem State.setPolls_resOk (s : State) (v : Feed Poll) : (s.setPolls v).resOk = s.resOk := rfl
@[simp] theorem State.setPolls_resLen (s : State) (v : Feed Poll) : (s.setPolls v).resLen = s.resLen := rfl
@[simp] theorem State.setPolls_idx (s : State) (v : Feed Poll) : (s.setPolls v).idx = s.idx := rfl
@[simp] theorem State.setPolls_scanIdx (s : State) (v : Feed Poll) : (s.setPolls v).scanIdx = s.scanIdx := rfl
@[simp] theorem State.setPolls_scanAddr (s : State) (v : Feed Poll) : (s.setPolls v).scanAddr = s.scanAddr := rfl
@[simp] theorem State.setPolls_outCnt (s : State) (v : Feed Poll) : (s.setPolls v).outCnt = s.outCnt := rfl
@[simp] theorem State.setPolls_toCnt (s : State) (v : Feed Poll) : (s.setPolls v).toCnt = s.toCnt := rfl
@[simp] theorem State.setPolls_polls (s : State) (v : Feed Poll) : (s.setPolls v).polls = v := rfl
@[simp] theorem State.setPolls_rx (s : State) (v : Feed Poll) : (s.setPolls v).rx = s.rx := rfl
@[simp] theorem State.setPolls_busRx (s : State) (v : Feed Poll) : (s.setPolls v).busRx = s.busRx := rfl
@[simp] theorem State.setPolls_failKind (s : State) (v : Feed Poll) : (s.setPolls v).failKind = s.failKind := rfl
@[simp] theorem State.setPolls_params (s : State) (v : Feed Poll) : (s.setPolls v).params = s.params := rfl
@[simp] theorem State.setPolls_trace (s : State) (v : Feed Poll) : (s.setPolls v).trace = s.trace := rfl

/-! ### `setRx` -/

@[simp] theorem State.setRx_st (s : State) (v : Feed Byte) : (s.setRx v).st = s.st := rfl
@[simp] theorem State.setRx_ph (s : State) (v : Feed Byte) : (s.setRx v).ph = s.ph := rfl
@[simp] theorem State.setRx_cmdId (s : State) (v : Feed Byte) : (s.setRx v).cmdId = s.cmdId := rfl
@[simp] theorem State.setRx_devAddr (s : State) (v : Feed Byte) : (s.setRx v).devAddr = s.devAddr := rfl
@[simp] theorem State.setRx_regPtr (s : State) (v : Feed Byte) : (s.setRx v).regPtr = s.regPtr := rfl
@[simp] theorem State.setRx_count (s : State) (v : Feed Byte) : (s.setRx v).count = s.count := rfl
@[simp] theorem State.setRx_buf (s : State) (v : Feed Byte) : (s.setRx v).buf = s.buf := rfl
@[simp] theorem State.setRx_resOk (s : State) (v : Feed Byte) : (s.setRx v).resOk = s.resOk := rfl
@[simp] theorem State.setRx_resLen (s : State) (v : Feed Byte) : (s.setRx v).resLen = s.resLen := rfl
@[simp] theorem State.setRx_idx (s : State) (v : Feed Byte) : (s.setRx v).idx = s.idx := rfl
@[simp] theorem State.setRx_scanIdx (s : State) (v : Feed Byte) : (s.setRx v).scanIdx = s.scanIdx := rfl
@[simp] theorem State.setRx_scanAddr (s : State) (v : Feed Byte) : (s.setRx v).scanAddr = s.scanAddr := rfl
@[simp] theorem State.setRx_outCnt (s : State) (v : Feed Byte) : (s.setRx v).outCnt = s.outCnt := rfl
@[simp] theorem State.setRx_toCnt (s : State) (v : Feed Byte) : (s.setRx v).toCnt = s.toCnt := rfl
@[simp] theorem State.setRx_polls (s : State) (v : Feed Byte) : (s.setRx v).polls = s.polls := rfl
@[simp] theorem State.setRx_rx (s : State) (v : Feed Byte) : (s.setRx v).rx = v := rfl
@[simp] theorem State.setRx_busRx (s : State) (v : Feed Byte) : (s.setRx v).busRx = s.busRx := rfl
@[simp] theorem State.setRx_failKind (s : State) (v : Feed Byte) : (s.setRx v).failKind = s.failKind := rfl
@[simp] theorem State.setRx_params (s : State) (v : Feed Byte) : (s.setRx v).params = s.params := rfl
@[simp] theorem State.setRx_trace (s : State) (v : Feed Byte) : (s.setRx v).trace = s.trace := rfl

/-! ### `setBusRx` -/

@[simp] theorem State.setBusRx_st (s : State) (v : Feed Byte) : (s.setBusRx v).st = s.st := rfl
@[simp] theorem State.setBusRx_ph (s : State) (v : Feed Byte) : (s.setBusRx v).ph = s.ph := rfl
@[simp] theorem State.setBusRx_cmdId (s : State) (v : Feed Byte) : (s.setBusRx v).cmdId = s.cmdId := rfl
@[simp] theorem State.setBusRx_devAddr (s : State) (v : Feed Byte) : (s.setBusRx v).devAddr = s.devAddr := rfl
@[simp] theorem State.setBusRx_regPtr (s : State) (v : Feed Byte) : (s.setBusRx v).regPtr = s.regPtr := rfl
@[simp] theorem State.setBusRx_count (s : State) (v : Feed Byte) : (s.setBusRx v).count = s.count := rfl
@[simp] theorem State.setBusRx_buf (s : State) (v : Feed Byte) : (s.setBusRx v).buf = s.buf := rfl
@[simp] theorem State.setBusRx_resOk (s : State) (v : Feed Byte) : (s.setBusRx v).resOk = s.resOk := rfl
@[simp] theorem State.setBusRx_resLen (s : State) (v : Feed Byte) : (s.setBusRx v).resLen = s.resLen := rfl
@[simp] theorem State.setBusRx_idx (s : State) (v : Feed Byte) : (s.setBusRx v).idx = s.idx := rfl
@[simp] theorem State.setBusRx_scanIdx (s : State) (v : Feed Byte) : (s.setBusRx v).scanIdx = s.scanIdx := rfl
@[simp] theorem State.setBusRx_scanAddr (s : State) (v : Feed Byte) : (s.setBusRx v).scanAddr = s.scanAddr := rfl
@[simp] theorem State.setBusRx_outCnt (s : State) (v : Feed Byte) : (s.setBusRx v).outCnt = s.outCnt := rfl
@[simp] theorem State.setBusRx_toCnt (s : State) (v : Feed Byte) : (s.setBusRx v).toCnt = s.toCnt := rfl
@[simp] theorem State.setBusRx_polls (s : State) (v : Feed Byte) : (s.setBusRx v).polls = s.polls := rfl
@[simp] theorem State.setBusRx_rx (s : State) (v : Feed Byte) : (s.setBusRx v).rx = s.rx := rfl
@[simp] theorem State.setBusRx_busRx (s : State) (v : Feed Byte) : (s.setBusRx v).busRx = v := rfl
@[simp] theorem State.setBusRx_failKind (s : State) (v : Feed Byte) : (s.setBusRx v).failKind = s.failKind := rfl
@[simp] theorem State.setBusRx_params (s : State) (v : Feed Byte) : (s.setBusRx v).params = s.params := rfl
@[simp] theorem State.setBusRx_trace (s : State) (v : Feed Byte) : (s.setBusRx v).trace = s.trace := rfl

/-! ### `setFailKind` -/

@[simp] theorem State.setFailKind_st (s : State) (v : Option FailKind) : (s.setFailKind v).st = s.st := rfl
@[simp] theorem State.setFailKind_ph (s : State) (v : Option FailKind) : (s.setFailKind v).ph = s.ph := rfl
@[simp] theorem State.setFailKind_cmdId (s : State) (v : Option FailKind) : (s.setFailKind v).cmdId = s.cmdId := rfl
@[simp] theorem State.setFailKind_devAddr (s : State) (v : Option FailKind) : (s.setFailKind v).devAddr = s.devAddr := rfl
@[simp] theorem State.setFailKind_regPtr (s : State) (v : Option FailKind) : (s.setFailKind v).regPtr = s.regPtr := rfl
@[simp] theorem State.setFailKind_count (s : State) (v : Option FailKind) : (s.setFailKind v).count = s.count := rfl
@[simp] theorem State.setFailKind_buf (s : State) (v : Option FailKind) : (s.setFailKind v).buf = s.buf := rfl
@[simp] theorem State.setFailKind_resOk (s : State) (v : Option FailKind) : (s.setFailKind v).resOk = s.resOk := rfl
@[simp] theorem State.setFailKind_resLen (s : State) (v : Option FailKind) : (s.setFailKind v).resLen = s.resLen := rfl
@[simp] theorem State.setFailKind_idx (s : State) (v : Option FailKind) : (s.setFailKind v).idx = s.idx := rfl
@[simp] theorem State.setFailKind_scanIdx (s : State) (v : Option FailKind) : (s.setFailKind v).scanIdx = s.scanIdx := rfl
@[simp] theorem State.setFailKind_scanAddr (s : State) (v : Option FailKind) : (s.setFailKind v).scanAddr = s.scanAddr := rfl
@[simp] theorem State.setFailKind_outCnt (s : State) (v : Option FailKind) : (s.setFailKind v).outCnt = s.outCnt := rfl
@[simp] theorem State.setFailKind_toCnt (s : State) (v : Option FailKind) : (s.setFailKind v).toCnt = s.toCnt := rfl
@[simp] theorem State.setFailKind_polls (s : State) (v : Option FailKind) : (s.setFailKind v).polls = s.polls := rfl
@[simp] theorem State.setFailKind_rx (s : State) (v : Option FailKind) : (s.setFailKind v).rx = s.rx := rfl
@[simp] theorem State.setFailKind_busRx (s : State) (v : Option FailKind) : (s.setFailKind v).busRx = s.busRx := rfl
@[simp] theorem State.setFailKind_failKind (s : State) (v : Option FailKind) : (s.setFailKind v).failKind = v := rfl
@[simp] theorem State.setFailKind_params (s : State) (v : Option FailKind) : (s.setFailKind v).params = s.params := rfl
@[simp] theorem State.setFailKind_trace (s : State) (v : Option FailKind) : (s.setFailKind v).trace = s.trace := rfl

/-! ### `log` -/

@[simp] theorem State.log_st (s : State) (e : Event) : (s.log e).st = s.st := rfl
@[simp] theorem State.log_ph (s : State) (e : Event) : (s.log e).ph = s.ph := rfl
@[simp] theorem State.log_cmdId (s : State) (e : Event) : (s.log e).cmdId = s.cmdId := rfl
@[simp] theorem State.log_devAddr (s : State) (e : Event) : (s.log e).devAddr = s.devAddr := rfl
@[simp] theorem State.log_regPtr (s : State) (e : Event) : (s.log e).regPtr = s.regPtr := rfl
@[simp] theorem State.log_count (s : State) (e : Event) : (s.log e).count = s.count := rfl
@[simp] theorem State.log_buf (s : State) (e : Event) : (s.log e).buf = s.buf := rfl
@[simp] theorem State.log_resOk (s : State) (e : Event) : (s.log e).resOk = s.resOk := rfl
@[simp] theorem State.log_resLen (s : State) (e : Event) : (s.log e).resLen = s.resLen := rfl
@[simp] theorem State.log_idx (s : State) (e : Event) : (s.log e).idx = s.idx := rfl
@[simp] theorem State.log_scanIdx (s : State) (e : Event) : (s.log e).scanIdx = s.scanIdx := rfl
@[simp] theorem State.log_scanAddr (s : State) (e : Event) : (s.log e).scanAddr = s.scanAddr := rfl
@[simp] theorem State.log_outCnt (s : State) (e : Event) : (s.log e).outCnt = s.outCnt := rfl
@[simp] theorem State.log_toCnt (s : State) (e : Event) : (s.log e).toCnt = s.toCnt := rfl
@[simp] theorem State.log_polls (s : State) (e : Event) : (s.log e).polls = s.polls := rfl
@[simp] theorem State.log_rx (s : State) (e : Event) : (s.log e).rx = s.rx := rfl
@[simp] theorem State.log_busRx (s : State) (e : Event) : (s.log e).busRx = s.busRx := rfl
@[simp] theorem State.log_failKind (s : State) (e : Event) : (s.log e).failKind = s.failKind := rfl
@[simp] theorem State.log_params (s : State) (e : Event) : (s.log e).params = s.params := rfl
@[simp] theorem State.log_trace (s : State) (e : Event) : (s.log e).trace = e :: s.trace := rfl

/-! ### `polled` -/

@[simp] theorem State.polled_st (s : State) : (s.polled).st = s.st := rfl
@[simp] theorem State.polled_ph (s : State) : (s.polled).ph = s.ph := rfl
@[simp] theorem State.polled_cmdId (s : State) : (s.polled).cmdId = s.cmdId := rfl
@[simp] theorem State.polled_devAddr (s : State) : (s.polled).devAddr = s.devAddr := rfl
@[simp] theorem State.polled_regPtr (s : State) : (s.polled).regPtr = s.regPtr := rfl
@[simp] theorem State.polled_count (s : State) : (s.polled).count = s.count := rfl
@[simp] theorem State.polled_buf (s : State) : (s.polled).buf = s.buf := rfl
@[simp] theorem State.polled_resOk (s : State) : (s.polled).resOk = s.resOk := rfl
@[simp] theorem State.polled_resLen (s : State) : (s.polled).resLen = s.resLen := rfl
@[simp] theorem State.polled_idx (s : State) : (s.polled).idx = s.idx := rfl
@[simp] theorem State.polled_scanIdx (s : State) : (s.polled).scanIdx = s.scanIdx := rfl
@[simp] theorem State.polled_scanAddr (s : State) : (s.polled).scanAddr = s.scanAddr := rfl
@[simp] theorem State.polled_outCnt (s : State) : (s.polled).outCnt = s.outCnt := rfl
@[simp] theorem State.polled_toCnt (s : State) : (s.polled).toCnt = s.toCnt := rfl
@[simp] theorem State.polled_params (s : State) : (s.polled).params = s.params := rfl
@[simp] theorem State.polled_polls (s : State) : (s.polled).polls = s.polls.rest := rfl
@[simp] theorem State.polled_rx (s : State) : (s.polled).rx = s.rx := rfl
@[simp] theorem State.polled_busRx (s : State) : (s.polled).busRx = s.busRx := rfl
@[simp] theorem State.polled_trace (s : State) : (s.polled).trace = .poll s.pollAnswer :: s.trace := rfl
@[simp] theorem State.polled_failKind (s : State) : (s.polled).failKind = s.failKind := rfl

/-! ### `rxTaken` -/

@[simp] theorem State.rxTaken_st (s : State) : (s.rxTaken).st = s.st := rfl
@[simp] theorem State.rxTaken_ph (s : State) : (s.rxTaken).ph = s.ph := rfl
@[simp] theorem State.rxTaken_cmdId (s : State) : (s.rxTaken).cmdId = s.cmdId := rfl
@[simp] theorem State.rxTaken_devAddr (s : State) : (s.rxTaken).devAddr = s.devAddr := rfl
@[simp] theorem State.rxTaken_regPtr (s : State) : (s.rxTaken).regPtr = s.regPtr := rfl
@[simp] theorem State.rxTaken_count (s : State) : (s.rxTaken).count = s.count := rfl
@[simp] theorem State.rxTaken_buf (s : State) : (s.rxTaken).buf = s.buf := rfl
@[simp] theorem State.rxTaken_resOk (s : State) : (s.rxTaken).resOk = s.resOk := rfl
@[simp] theorem State.rxTaken_resLen (s : State) : (s.rxTaken).resLen = s.resLen := rfl
@[simp] theorem State.rxTaken_idx (s : State) : (s.rxTaken).idx = s.idx := rfl
@[simp] theorem State.rxTaken_scanIdx (s : State) : (s.rxTaken).scanIdx = s.scanIdx := rfl
@[simp] theorem State.rxTaken_scanAddr (s : State) : (s.rxTaken).scanAddr = s.scanAddr := rfl
@[simp] theorem State.rxTaken_outCnt (s : State) : (s.rxTaken).outCnt = s.outCnt := rfl
@[simp] theorem State.rxTaken_toCnt (s : State) : (s.rxTaken).toCnt = s.toCnt := rfl
@[simp] theorem State.rxTaken_params (s : State) : (s.rxTaken).params = s.params := rfl
@[simp] theorem State.rxTaken_polls (s : State) : (s.rxTaken).polls = s.polls := rfl
@[simp] theorem State.rxTaken_rx (s : State) : (s.rxTaken).rx = s.rx.rest := rfl
@[simp] theorem State.rxTaken_busRx (s : State) : (s.rxTaken).busRx = s.busRx := rfl
@[simp] theorem State.rxTaken_trace (s : State) : (s.rxTaken).trace = .rxTake s.rxAnswer :: s.trace := rfl
@[simp] theorem State.rxTaken_failKind (s : State) : (s.rxTaken).failKind = s.failKind := rfl

/-! ### `busReceived` -/

@[simp] theorem State.busReceived_st (s : State) : (s.busReceived).st = s.st := rfl
@[simp] theorem State.busReceived_ph (s : State) : (s.busReceived).ph = s.ph := rfl
@[simp] theorem State.busReceived_cmdId (s : State) : (s.busReceived).cmdId = s.cmdId := rfl
@[simp] theorem State.busReceived_devAddr (s : State) : (s.busReceived).devAddr = s.devAddr := rfl
@[simp] theorem State.busReceived_regPtr (s : State) : (s.busReceived).regPtr = s.regPtr := rfl
@[simp] theorem State.busReceived_count (s : State) : (s.busReceived).count = s.count := rfl
@[simp] theorem State.busReceived_buf (s : State) : (s.busReceived).buf = s.buf := rfl
@[simp] theorem State.busReceived_resOk (s : State) : (s.busReceived).resOk = s.resOk := rfl
@[simp] theorem State.busReceived_resLen (s : State) : (s.busReceived).resLen = s.resLen := rfl
@[simp] theorem State.busReceived_idx (s : State) : (s.busReceived).idx = s.idx := rfl
@[simp] theorem State.busReceived_scanIdx (s : State) : (s.busReceived).scanIdx = s.scanIdx := rfl
@[simp] theorem State.busReceived_scanAddr (s : State) : (s.busReceived).scanAddr = s.scanAddr := rfl
@[simp] theorem State.busReceived_outCnt (s : State) : (s.busReceived).outCnt = s.outCnt := rfl
@[simp] theorem State.busReceived_toCnt (s : State) : (s.busReceived).toCnt = s.toCnt := rfl
@[simp] theorem State.busReceived_params (s : State) : (s.busReceived).params = s.params := rfl
@[simp] theorem State.busReceived_polls (s : State) : (s.busReceived).polls = s.polls := rfl
@[simp] theorem State.busReceived_rx (s : State) : (s.busReceived).rx = s.rx := rfl
@[simp] theorem State.busReceived_busRx (s : State) : (s.busReceived).busRx = s.busRx.rest := rfl
@[simp] theorem State.busReceived_trace (s : State) : (s.busReceived).trace = .busRecv s.busAnswer :: s.trace := rfl
@[simp] theorem State.busReceived_failKind (s : State) : (s.busReceived).failKind = s.failKind := rfl

/-! ### `raiseFailure` -/

@[simp] theorem State.raiseFailure_st (s : State) (k : FailKind) : (s.raiseFailure k).st = .respond := rfl
@[simp] theorem State.raiseFailure_ph (s : State) (k : FailKind) : (s.raiseFailure k).ph = s.ph := rfl
@[simp] theorem State.raiseFailure_cmdId (s : State) (k : FailKind) : (s.raiseFailure k).cmdId = s.cmdId := rfl
@[simp] theorem State.raiseFailure_devAddr (s : State) (k : FailKind) : (s.raiseFailure k).devAddr = s.devAddr := rfl
@[simp] theorem State.raiseFailure_regPtr (s : State) (k : FailKind) : (s.raiseFailure k).regPtr = s.regPtr := rfl
@[simp] theorem State.raiseFailure_count (s : State) (k : FailKind) : (s.raiseFailure k).count = s.count := rfl
@[simp] theorem State.raiseFailure_buf (s : State) (k : FailKind) : (s.raiseFailure k).buf = s.buf := rfl
@[simp] theorem State.raiseFailure_resOk (s : State) (k : FailKind) : (s.raiseFailure k).resOk = false := rfl
@[simp] theorem State.raiseFailure_resLen (s : State) (k : FailKind) : (s.raiseFailure k).resLen = s.resLen := rfl
@[simp] theorem State.raiseFailure_idx (s : State) (k : FailKind) : (s.raiseFailure k).idx = s.idx := rfl
@[simp] theorem State.raiseFailure_scanIdx (s : State) (k : FailKind) : (s.raiseFailure k).scanIdx = s.scanIdx := rfl
@[simp] theorem State.raiseFailure_scanAddr (s : State) (k : FailKind) : (s.raiseFailure k).scanAddr = s.scanAddr := rfl
@[simp] theorem State.raiseFailure_outCnt (s : State) (k : FailKind) : (s.raiseFailure k).outCnt = s.outCnt := rfl
@[simp] theorem State.raiseFailure_toCnt (s : State) (k : FailKind) : (s.raiseFailure k).toCnt = s.toCnt := rfl
@[simp] theorem State.raiseFailure_params (s : State) (k : FailKind) : (s.raiseFailure k).params = s.params := rfl
@[simp] theorem State.raiseFailure_polls (s : State) (k : FailKind) : (s.raiseFailure k).polls = s.polls := rfl
@[simp] theorem State.raiseFailure_rx (s : State) (k : FailKind) : (s.raiseFailure k).rx = s.rx := rfl
@[simp] theorem State.raiseFailure_busRx (s : State) (k : FailKind) : (s.raiseFailure k).busRx = s.busRx := rfl
@[simp] theorem State.raiseFailure_trace (s : State) (k : FailKind) : (s.raiseFailure k).trace = s.trace := rfl
@[simp] theorem State.raiseFailure_failKind (s : State) (k : FailKind) : (s.raiseFailure k).failKind = some k := rfl

/-! ### `succeed` -/

@[simp] theorem State.succeed_st (s : State) (n : Byte) : (s.succeed n).st = .respond := rfl
@[simp] theorem State.succeed_ph (s : State) (n : Byte) : (s.succeed n).ph = s.ph := rfl
@[simp] theorem State.succeed_cmdId (s : State) (n : Byte) : (s.succeed n).cmdId = s.cmdId := rfl
@[simp] theorem State.succeed_devAddr (s : State) (n : Byte) : (s.succeed n).devAddr = s.devAddr := rfl
@[simp] theorem State.succeed_regPtr (s : State) (n : Byte) : (s.succeed n).regPtr = s.regPtr := rfl
@[simp] theorem State.succeed_count (s : State) (n : Byte) : (s.succeed n).count = s.count := rfl
@[simp] theorem State.succeed_buf (s : State) (n : Byte) : (s.succeed n).buf = s.buf := rfl
@[simp] theorem State.succeed_resOk (s : State) (n : Byte) : (s.succeed n).resOk = true := rfl
@[simp] theorem State.succeed_resLen (s : State) (n : Byte) : (s.succeed n).resLen = n := rfl
@[simp] theorem State.succeed_idx (s : State) (n : Byte) : (s.succeed n).idx = s.idx := rfl
@[simp] theorem State.succeed_scanIdx (s : State) (n : Byte) : (s.succeed n).scanIdx = s.scanIdx := rfl
@[simp] theorem State.succeed_scanAddr (s : State) (n : Byte) : (s.succeed n).scanAddr = s.scanAddr := rfl
@[simp] theorem State.succeed_outCnt (s : State) (n : Byte) : (s.succeed n).outCnt = s.outCnt := rfl
@[simp] theorem State.succeed_toCnt (s : State) (n : Byte) : (s.succeed n).toCnt = s.toCnt := rfl
@[simp] theorem State.succeed_params (s : State) (n : Byte) : (s.succeed n).params = s.params := rfl
@[simp] theorem State.succeed_polls (s : State) (n : Byte) : (s.succeed n).polls = s.polls := rfl
@[simp] theorem State.succeed_rx (s : State) (n : Byte) : (s.succeed n).rx = s.rx := rfl
@[simp] theorem State.succeed_busRx (s : State) (n : Byte) : (s.succeed n).busRx = s.busRx := rfl
@[simp] theorem State.succeed_trace (s : State) (n : Byte) : (s.succeed n).trace = s.trace := rfl
@[simp] theorem State.succeed_failKind (s : State) (n : Byte) : (s.succeed n).failKind = s.failKind := rfl

/-! ### `returnToReceive` -/

@[simp] theorem State.returnToReceive_st (s : State) : (s.returnToReceive).st = .receive := rfl
@[simp] theorem State.returnToReceive_ph (s : State) : (s.returnToReceive).ph = s.ph := rfl
@[simp] theorem State.returnToReceive_cmdId (s : State) : (s.returnToReceive).cmdId = s.cmdId := rfl
@[simp] theorem State.returnToReceive_devAddr (s : State) : (s.returnToReceive).devAddr = s.devAddr := rfl
@[simp] theorem State.returnToReceive_regPtr (s : State) : (s.returnToReceive).regPtr = s.regPtr := rfl
@[simp] theorem State.returnToReceive_count (s : State) : (s.returnToReceive).count = s.count := rfl
@[simp] theorem State.returnToReceive_buf (s : State) : (s.returnToReceive).buf = s.buf := rfl
@[simp] theorem State.returnToReceive_resOk (s : State) : (s.returnToReceive).resOk = s.resOk := rfl
@[simp] theorem State.returnToReceive_resLen (s : State) : (s.returnToReceive).resLen = s.resLen := rfl
@[simp] theorem State.returnToReceive_idx (s : State) : (s.returnToReceive).idx = s.idx := rfl
@[simp] theorem State.returnToReceive_scanIdx (s : State) : (s.returnToReceive).scanIdx = s.scanIdx := rfl
@[simp] theorem State.returnToReceive_scanAddr (s : State) : (s.returnToReceive).scanAddr = s.scanAddr := rfl
@[simp] theorem State.returnToReceive_outCnt (s : State) : (s.returnToReceive).outCnt = s.outCnt := rfl
@[simp] theorem State.returnToReceive_toCnt (s : State) : (s.returnToReceive).toCnt = s.toCnt := rfl
@[simp] theorem State.returnToReceive_params (s : State) : (s.returnToReceive).params = s.params := rfl
@[simp] theorem State.returnToReceive_polls (s : State) : (s.returnToReceive).polls = s.polls := rfl
@[simp] theorem State.returnToReceive_rx (s : State) : (s.returnToReceive).rx = s.rx := rfl
@[simp] theorem State.returnToReceive_busRx (s : State) : (s.returnToReceive).busRx = s.busRx := rfl
@[simp] theorem State.returnToReceive_trace (s : State) : (s.returnToReceive).trace = s.trace := rfl
@[simp] theorem State.returnToReceive_failKind (s : State) : (s.returnToReceive).failKind = s.failKind := rfl

/-! ### `bufStore` -/

@[simp] theorem State.bufStore_st (s : State) (i : Nat) (v : Byte) : (s.bufStore i v).st = s.st := by unfold State.bufStore; split <;> rfl
@[simp] theorem State.bufStore_ph (s : State) (i : Nat) (v : Byte) : (s.bufStore i v).ph = s.ph := by unfold State.bufStore; split <;> rfl
@[simp] theorem State.bufStore_cmdId (s : State) (i : Nat) (v : Byte) : (s.bufStore i v).cmdId = s.cmdId := by unfold State.bufStore; split <;> rfl
@[simp] theorem State.bufStore_devAddr (s : State) (i : Nat) (v : Byte) : (s.bufStore i v).devAddr = s.devAddr := by unfold State.bufStore; split <;> rfl
@[simp] theorem State.bufStore_regPtr (s : State) (i : Nat) (v : Byte) : (s.bufStore i v).regPtr = s.regPtr := by unfold State.bufStore; split <;> rfl
@[simp] theorem State.bufStore_count (s : State) (i : Nat) (v : Byte) : (s.bufStore i v).count = s.count := by unfold State.bufStore; split <;> rfl
@[simp] theorem State.bufStore_buf (s : State) (i : Nat) (v : Byte) : (s.bufStore i v).buf = if i < bufLen then s.buf.write i v else s.buf := by unfold State.bufStore; split <;> rfl
@[simp] theorem State.bufStore_resOk (s : State) (i : Nat) (v : Byte) : (s.bufStore i v).resOk = s.resOk := by unfold State.bufStore; split <;> rfl
@[simp] theorem State.bufStore_resLen (s : State) (i : Nat) (v : Byte) : (s.bufStore i v).resLen = s.resLen := by unfold State.bufStore; split <;> rfl
@[simp] theorem State.bufStore_idx (s : State) (i : Nat) (v : Byte) : (s.bufStore i v).idx = s.idx := by unfold State.bufStore; split <;> rfl
@[simp] theorem State.bufStore_scanIdx (s : State) (i : Nat) (v : Byte) : (s.bufStore i v).scanIdx = s.scanIdx := by unfold State.bufStore; split <;> rfl
@[simp] theorem State.bufStore_scanAddr (s : State) (i : Nat) (v : Byte) : (s.bufStore i v).scanAddr = s.scanAddr := by unfold State.bufStore; split <;> rfl
@[simp] theorem State.bufStore_outCnt (s : State) (i : Nat) (v : Byte) : (s.bufStore i v).outCnt = s.outCnt := by unfold State.bufStore; split <;> rfl
@[simp] theorem State.bufStore_toCnt (s : State) (i : Nat) (v : Byte) : (s.bufStore i v).toCnt = s.toCnt := by unfold State.bufStore; split <;> rfl
@[simp] theorem State.bufStore_params (s : State) (i : Nat) (v : Byte) : (s.bufStore i v).params = s.params := by unfold State.bufStore; split <;> rfl
@[simp] theorem State.bufStore_polls (s : State) (i : Nat) (v : Byte) : (s.bufStore i v).polls = s.polls := by unfold State.bufStore; split <;> rfl
@[simp] theorem State.bufStore_rx (s : State) (i : Nat) (v : Byte) : (s.bufStore i v).rx = s.rx := by unfold State.bufStore; split <;> rfl
@[simp] theorem State.bufStore_busRx (s : State) (i : Nat) (v : Byte) : (s.bufStore i v).busRx = s.busRx := by unfold State.bufStore; split <;> rfl
@[simp] theorem State.bufStore_trace (s : State) (i : Nat) (v : Byte) : (s.bufStore i v).trace = s.trace := by unfold State.bufStore; split <;> rfl
@[simp] theorem State.bufStore_failKind (s : State) (i : Nat) (v : Byte) : (s.bufStore i v).failKind = s.failKind := by unfold State.bufStore; split <;> rfl

/-! ### `waited` -/

@[simp] theorem State.waited_st (s : State) (n k : Nat) : (s.waited n k).st = s.st := rfl
@[simp] theorem State.waited_ph (s : State) (n k : Nat) : (s.waited n k).ph = s.ph := rfl
@[simp] theorem State.waited_cmdId (s : State) (n k : Nat) : (s.waited n k).cmdId = s.cmdId := rfl
@[simp] theorem State.waited_devAddr (s : State) (n k : Nat) : (s.waited n k).devAddr = s.devAddr := rfl
@[simp] theorem State.waited_regPtr (s : State) (n k : Nat) : (s.waited n k).regPtr = s.regPtr := rfl
@[simp] theorem State.waited_count (s : State) (n k : Nat) : (s.waited n k).count = s.count := rfl
@[simp] theorem State.waited_buf (s : State) (n k : Nat) : (s.waited n k).buf = s.buf := rfl
@[simp] theorem State.waited_resOk (s : State) (n k : Nat) : (s.waited n k).resOk = s.resOk := rfl
@[simp] theorem State.waited_resLen (s : State) (n k : Nat) : (s.waited n k).resLen = s.resLen := rfl
@[simp] theorem State.waited_idx (s : State) (n k : Nat) : (s.waited n k).idx = s.idx := rfl
@[simp] theorem State.waited_scanIdx (s : State) (n k : Nat) : (s.waited n k).scanIdx = s.scanIdx := rfl
@[simp] theorem State.waited_scanAddr (s : State) (n k : Nat) : (s.waited n k).scanAddr = s.scanAddr := rfl
@[simp] theorem State.waited_outCnt (s : State) (n k : Nat) : (s.waited n k).outCnt = s.outCnt := rfl
@[simp] theorem State.waited_params (s : State) (n k : Nat) : (s.waited n k).params = s.params := rfl
@[simp] theorem State.waited_rx (s : State) (n k : Nat) : (s.waited n k).rx = s.rx := rfl
@[simp] theorem State.waited_busRx (s : State) (n k : Nat) : (s.waited n k).busRx = s.busRx := rfl
@[simp] theorem State.waited_failKind (s : State) (n k : Nat) : (s.waited n k).failKind = s.failKind := rfl
@[simp] theorem State.waited_toCnt (s : State) (n k : Nat) : (s.waited n k).toCnt = k := rfl
@[simp] theorem State.waited_polls (s : State) (n k : Nat) : (s.waited n k).polls = s.polls.advance n := rfl
@[simp] theorem State.waited_trace (s : State) (n k : Nat) :
    (s.waited n k).trace = (s.pollEvents n).reverse ++ s.trace := rfl

end Sys2Proof.Machine
end

