-- ==== Sys2Proof/Laws/Memory.lean ====
section
/-! SUPPORT. The buffer: what a read after writes gives, and that every operation keeps the canonical form. -/

namespace Sys2Proof.Machine

theorem Memory.read_write_same (m : Memory) (a : Nat) (v : Byte) : (m.write a v).read a = some v := by
  induction m with
  | nil => simp [Memory.write, Memory.read]
  | cons c m ih =>
    obtain ⟨b, w⟩ := c
    simp only [Memory.write]
    split
    · simp [Memory.read]
    · split
      · simp [Memory.read]
      · rename_i _ hab
        simpa [Memory.read, hab] using ih

theorem Memory.read_write_ne (m : Memory) {a b : Nat} (v : Byte) (h : b ≠ a) :
    (m.write a v).read b = m.read b := by
  induction m with
  | nil => simp [Memory.write, Memory.read, h]
  | cons c m ih =>
    obtain ⟨k, w⟩ := c
    simp only [Memory.write]
    split
    · simp [Memory.read, h]
    · split
      · rename_i _ hak
        subst hak
        simp [Memory.read, h]
      · simp [Memory.read, ih]

theorem Memory.risesFrom_write (m : Memory) (lo a : Nat) (v : Byte) (hm : m.risesFrom lo = true) (hlo : lo ≤ a)
    (ha : a < bufLen) : (m.write a v).risesFrom lo = true := by
  induction m generalizing lo with
  | nil => simp [Memory.write, Memory.risesFrom, hlo, ha]
  | cons c m ih =>
    obtain ⟨b, w⟩ := c
    simp only [Memory.risesFrom, Bool.and_eq_true, decide_eq_true_eq] at hm
    obtain ⟨⟨h1, h2⟩, h3⟩ := hm
    simp only [Memory.write]
    split
    · simp [Memory.risesFrom, hlo, ha, h2, h3]; omega
    · split
      · rename_i _ hab
        subst hab
        simp [Memory.risesFrom, hlo, ha, h3]
      · simp [Memory.risesFrom, h1, h2]
        exact ih (b + 1) h3 (by omega)

/-- A write at an index of the buffer keeps the canonical form. -/
theorem Memory.write_wf (m : Memory) (a : Nat) (v : Byte) (hm : m.wf = true) (ha : a < bufLen) :
    (m.write a v).wf = true := Memory.risesFrom_write m 0 a v hm (Nat.zero_le a) ha

theorem State.bufStore_wf (s : State) (i : Nat) (v : Byte) (h : s.buf.wf = true) :
    (s.bufStore i v).buf.wf = true := by
  rw [State.bufStore_buf]
  split
  · exact Memory.write_wf _ _ _ h ‹_›
  · exact h

theorem Memory.writeRange_wf (m : Memory) (a : Nat) (bs : List Byte) (hm : m.wf = true) (ha : a + bs.length ≤ bufLen) :
    (m.writeRange a bs).wf = true := by
  induction bs generalizing m a with
  | nil => exact hm
  | cons b bs ih =>
    simp only [List.length_cons] at ha
    exact ih _ _ (Memory.write_wf _ _ _ hm (by omega)) (by omega)

/-- Outside the written range a read gives what it gave before. -/
theorem Memory.read_writeRange_outside (m : Memory) (a : Nat) (bs : List Byte) (k : Nat)
    (h : k < a ∨ a + bs.length ≤ k) : (m.writeRange a bs).read k = m.read k := by
  induction bs generalizing m a with
  | nil => rfl
  | cons b bs ih =>
    simp only [List.length_cons] at h
    simp only [Memory.writeRange]
    rw [ih _ _ (by omega), Memory.read_write_ne _ _ (by omega)]

/-- Inside the written range a read gives the byte written there. -/
theorem Memory.read_writeRange_inside (m : Memory) (a : Nat) (bs : List Byte) (k : Nat) (h : k < bs.length) :
    (m.writeRange a bs).read (a + k) = some bs[k] := by
  induction bs generalizing m a k with
  | nil => simp at h
  | cons b bs ih =>
    simp only [Memory.writeRange]
    cases k with
    | zero =>
      rw [Memory.read_writeRange_outside _ _ _ _ (by omega), Nat.add_zero, Memory.read_write_same]
      rfl
    | succ k =>
      have := ih (m.write a b) (a + 1) k (by simpa using h)
      rw [show a + (k + 1) = a + 1 + k by omega, this]
      rfl

/-- A written list followed by one more byte is one longer list. -/
theorem Memory.writeRange_append_one (m : Memory) (a : Nat) (bs : List Byte) (b : Byte) :
    m.writeRange a (bs ++ [b]) = (m.writeRange a bs).write (a + bs.length) b := by
  induction bs generalizing m a with
  | nil => rfl
  | cons c cs ih =>
    simp only [List.cons_append, Memory.writeRange, ih, List.length_cons]
    congr 1
    omega

/-- A range of bytes is read exactly when each of its bytes is. -/
theorem Memory.readRange_eq_some (m : Memory) (a n : Nat) (bs : List Byte) :
    m.readRange a n = some bs ↔ bs.length = n ∧ ∀ k, (h : k < bs.length) → m.read (a + k) = some bs[k] := by
  induction n generalizing a bs with
  | zero =>
    cases bs with
    | nil => simp [Memory.readRange]
    | cons b bs => simp [Memory.readRange]
  | succ n ih =>
    simp only [Memory.readRange]
    constructor
    · intro h
      split at h
      · rename_i b cs hb hcs
        cases h
        obtain ⟨hl, hr⟩ := (ih _ _).1 hcs
        refine ⟨by simp [hl], fun k hk => ?_⟩
        cases k with
        | zero => simpa using hb
        | succ k =>
          have := hr k (by simpa using hk)
          rw [show a + (k + 1) = a + 1 + k by omega, this]
          rfl
      · cases h
    · rintro ⟨hl, hr⟩
      cases bs with
      | nil => simp at hl
      | cons b cs =>
        have h0 := hr 0 (by simp)
        have hcs : m.readRange (a + 1) n = some cs := (ih _ _).2 ⟨by simpa using hl, fun k hk => by
          have := hr (k + 1) (by simpa using hk)
          rw [show a + 1 + k = a + (k + 1) by omega, this]
          rfl⟩
        simp only [Nat.add_zero, List.getElem_cons_zero] at h0
        rw [h0, hcs]

theorem Memory.readRange_writeRange (m : Memory) (a : Nat) (bs : List Byte) :
    (m.writeRange a bs).readRange a bs.length = some bs :=
  (Memory.readRange_eq_some _ _ _ _).2 ⟨rfl, fun k hk => Memory.read_writeRange_inside m a bs k hk⟩

theorem Memory.readRange_isSome_read (m : Memory) (n : Nat) (bs : List Byte) (h : m.readRange 0 n = some bs) (k : Nat)
    (hk : k < n) : (m.read k).isSome = true := by
  obtain ⟨hl, hr⟩ := (Memory.readRange_eq_some _ _ _ _).1 h
  have := hr k (by omega)
  simp only [Nat.zero_add] at this
  simp [this]

end Sys2Proof.Machine
end

