-- ==== Sys2Proof/Laws/Trace.lean ====
section
/-! SUPPORT. What happened between two states: the events in order, and the answers drawn for them. -/

namespace Sys2Proof.Machine

@[simp] theorem Feed.advance_zero {α : Type} (f : Feed α) : f.advance 0 = f := by
  simp [Feed.advance]

@[simp] theorem Feed.advance_advance {α : Type} (f : Feed α) (m n : Nat) :
    (f.advance m).advance n = f.advance (m + n) := by
  simp [Feed.advance, Nat.add_assoc]

theorem Feed.rest_eq_advance {α : Type} (f : Feed α) : f.rest = f.advance 1 := by
  simp [Feed.rest, Feed.advance]

@[simp] theorem Feed.advance_drawn {α : Type} (f : Feed α) (n : Nat) : (f.advance n).drawn = f.drawn + n := rfl

theorem State.pollAnswer_eq (s : State) : s.pollAnswer = s.pollAhead 0 := by
  simp [State.pollAnswer, State.pollAhead]

theorem State.rxAnswer_eq (s : State) : s.rxAnswer = s.rxAhead 0 := by
  simp [State.rxAnswer, State.rxAhead]

theorem State.busAnswer_eq (s : State) : s.busAnswer = s.busAhead 0 := by
  simp [State.busAnswer, State.busAhead]

/-- Answers ahead of a state whose feed has been advanced are answers further ahead. -/
theorem State.pollAhead_of_advance {s t : State} {n : Nat} (h : t.polls = s.polls.advance n) (k : Nat) :
    t.pollAhead k = s.pollAhead (n + k) := by
  simp [State.pollAhead, h]

theorem State.rxAhead_of_advance {s t : State} {n : Nat} (h : t.rx = s.rx.advance n) (k : Nat) :
    t.rxAhead k = s.rxAhead (n + k) := by
  simp [State.rxAhead, h]

theorem State.busAhead_of_advance {s t : State} {n : Nat} (h : t.busRx = s.busRx.advance n) (k : Nat) :
    t.busAhead k = s.busAhead (n + k) := by
  simp [State.busAhead, h]

theorem range_map_add {α : Type} (f : Nat → α) (m n : Nat) :
    (List.range (m + n)).map f = (List.range m).map f ++ (List.range n).map fun k => f (m + k) := by
  rw [List.range_add]; simp [Function.comp_def]

@[simp] theorem pollCount_nil : pollCount [] = 0 := rfl
@[simp] theorem rxCountOf_nil : rxCountOf [] = 0 := rfl
@[simp] theorem busRecvCount_nil : busRecvCount [] = 0 := rfl
@[simp] theorem pollCount_append (es fs : List Event) : pollCount (es ++ fs) = pollCount es + pollCount fs := by
  simp [pollCount]
@[simp] theorem rxCountOf_append (es fs : List Event) : rxCountOf (es ++ fs) = rxCountOf es + rxCountOf fs := by
  simp [rxCountOf]
@[simp] theorem busRecvCount_append (es fs : List Event) :
    busRecvCount (es ++ fs) = busRecvCount es + busRecvCount fs := by
  simp [busRecvCount]
/-- The polls of one event. -/
def Event.polls : Event → Nat
  | .poll _ => 1
  | _ => 0

theorem pollCount_cons (e : Event) (es : List Event) : pollCount (e :: es) = e.polls + pollCount es := by
  cases e <;> simp [pollCount, Event.polls, Nat.add_comm]

@[simp] theorem actions_nil : actions [] = [] := rfl
@[simp] theorem actions_append (es fs : List Event) : actions (es ++ fs) = actions es ++ actions fs := by
  simp [actions]
@[simp] theorem pollRecords_nil : pollRecords [] = [] := rfl
@[simp] theorem pollRecords_append (es fs : List Event) :
    pollRecords (es ++ fs) = pollRecords es ++ pollRecords fs := by
  simp [pollRecords]
@[simp] theorem sentBytes_nil : sentBytes [] = [] := rfl
@[simp] theorem sentBytes_append (es fs : List Event) : sentBytes (es ++ fs) = sentBytes es ++ sentBytes fs := by
  simp [sentBytes]

theorem pollRecords_length (es : List Event) : (pollRecords es).length = pollCount es := by
  induction es with
  | nil => rfl
  | cons e es ih =>
    have h1 : pollRecords (e :: es) = pollRecords [e] ++ pollRecords es := pollRecords_append [e] es
    have h2 : pollCount (e :: es) = pollCount [e] + pollCount es := pollCount_append [e] es
    rw [h1, h2, List.length_append, ih]
    congr 1
    cases e <;> rfl

@[simp] theorem pollEvents_length (s : State) (n : Nat) : (s.pollEvents n).length = n := by
  simp [State.pollEvents]

@[simp] theorem actions_pollEvents (s : State) (n : Nat) : actions (s.pollEvents n) = [] := by
  simp [actions, State.pollEvents]

@[simp] theorem pollRecords_pollEvents (s : State) (n : Nat) :
    pollRecords (s.pollEvents n) = (List.range n).map s.pollAhead := by
  induction n with
  | zero => rfl
  | succ n ih =>
    simp only [State.pollEvents] at ih ⊢
    rw [List.range_succ, List.map_append, pollRecords_append, ih, List.map_append]
    rfl

@[simp] theorem pollCount_pollEvents (s : State) (n : Nat) : pollCount (s.pollEvents n) = n := by
  rw [← pollRecords_length, pollRecords_pollEvents]; simp

@[simp] theorem rxCountOf_pollEvents (s : State) (n : Nat) : rxCountOf (s.pollEvents n) = 0 := by
  simp [rxCountOf, State.pollEvents]

@[simp] theorem busRecvCount_pollEvents (s : State) (n : Nat) : busRecvCount (s.pollEvents n) = 0 := by
  simp [busRecvCount, State.pollEvents]

@[simp] theorem sentBytes_pollEvents (s : State) (n : Nat) : sentBytes (s.pollEvents n) = [] := by
  simp [sentBytes, State.pollEvents]

/-- The events `es`, oldest first, happened between `s` and `t`, and the environment answered them in order. -/
structure Ran (s t : State) (es : List Event) : Prop where
  trace : t.trace = es.reverse ++ s.trace
  polls : t.polls = s.polls.advance (pollCount es)
  rx : t.rx = s.rx.advance (rxCountOf es)
  busRx : t.busRx = s.busRx.advance (busRecvCount es)

theorem Ran.refl (s : State) : Ran s s [] := by
  constructor <;> simp

theorem Ran.trans {s t u : State} {es fs : List Event} (h : Ran s t es) (k : Ran t u fs) : Ran s u (es ++ fs) := by
  constructor
  · simp [k.trace, h.trace]
  · simp [k.polls, h.polls]
  · simp [k.rx, h.rx]
  · simp [k.busRx, h.busRx]

/-- Register updates are no events. -/
theorem Ran.of_eq {s t u : State} {es : List Event} (h : Ran s t es) (h1 : u.trace = t.trace) (h2 : u.polls = t.polls)
    (h3 : u.rx = t.rx) (h4 : u.busRx = t.busRx) : Ran s u es := by
  constructor
  · rw [h1, h.trace]
  · rw [h2, h.polls]
  · rw [h3, h.rx]
  · rw [h4, h.busRx]

theorem Ran.polled (s : State) : Ran s s.polled [.poll s.pollAnswer] := by
  constructor <;> simp [Feed.rest_eq_advance, pollCount, rxCountOf, busRecvCount]

theorem Ran.rxTaken (s : State) : Ran s s.rxTaken [.rxTake s.rxAnswer] := by
  constructor <;> simp [Feed.rest_eq_advance, pollCount, rxCountOf, busRecvCount]

theorem Ran.busReceived (s : State) : Ran s s.busReceived [.busRecv s.busAnswer] := by
  constructor <;> simp [Feed.rest_eq_advance, pollCount, rxCountOf, busRecvCount]

/-- An action that returns no byte draws no answer. -/
theorem Ran.log (s : State) (e : Event) (h1 : pollCount [e] = 0) (h2 : rxCountOf [e] = 0)
    (h3 : busRecvCount [e] = 0) : Ran s (s.log e) [e] := by
  constructor <;> simp [h1, h2, h3]

theorem Ran.waited (s : State) (n k : Nat) : Ran s (s.waited n k) (s.pollEvents n) := by
  constructor <;> simp [State.waited]

/-- What happened is what `eventsSince` reads off the trace. -/
theorem Ran.eventsSince {s t : State} {es : List Event} (h : Ran s t es) : s.eventsSince t = es := by
  simp [State.eventsSince, h.trace]

end Sys2Proof.Machine
end

