-- ==== Sys2Proof/Laws/Wait.lean ====
section
/-! SUPPORT. The timeout arbiter: everything a wait can do. -/

namespace Sys2Proof.Machine

theorem State.polled_pollAhead (s : State) (c j : Nat) : (s.polled.setToCnt c).pollAhead j = s.pollAhead (j + 1) := by
  rw [State.pollAhead_of_advance (s := s) (n := 1) (by simp [Feed.rest_eq_advance]), Nat.add_comm]

theorem State.polled_waited (s : State) (c n k : Nat) : (s.polled.setToCnt c).waited n k = s.waited (n + 1) k := by
  have hp : (s.polled.setToCnt c).pollEvents n = (List.range n).map fun j => Event.poll (s.pollAhead (j + 1)) := by
    simp only [State.pollEvents, State.polled_pollAhead]
  have hq : s.pollEvents (n + 1) = Event.poll s.pollAnswer ::
      (List.range n).map fun j => Event.poll (s.pollAhead (j + 1)) := by
    simp [State.pollEvents, List.range_succ_eq_map, State.pollAnswer_eq, Function.comp_def]
  simp only [State.waited, hp, hq]
  simp [State.polled, State.setToCnt, State.setPolls, State.log, Feed.rest_eq_advance, Nat.add_comm]

theorem State.polled_eq_waited (s : State) : s.polled = s.waited 1 s.toCnt := by
  simp [State.waited, State.polled, State.setPolls, State.log, Feed.rest_eq_advance, State.pollEvents,
    State.pollAnswer_eq]

/-- Whether a poll record decides a wait. -/
def decides (done : Poll → Bool) (nackEn : Bool) (f : Poll) : Bool := done f || (nackEn && f.af)

/-- Everything the loop of a wait can do (R165, R166). -/
theorem waitLoop_cases (done : Poll → Bool) (nackEn : Bool) (T : Nat) (s : State) (hT : s.toCnt = T) :
    (∃ n, n < T ∧ (∀ j, j < n → decides done nackEn (s.pollAhead j) = false) ∧ done (s.pollAhead n) = true ∧
      waitLoop done nackEn T s = (.done, s.waited (n + 1) (T - n))) ∨
    (∃ n, n < T ∧ (∀ j, j < n → decides done nackEn (s.pollAhead j) = false) ∧ done (s.pollAhead n) = false ∧
      nackEn = true ∧ (s.pollAhead n).af = true ∧
      waitLoop done nackEn T s = (.nack, s.waited (n + 1) (T - n))) ∨
    ((∀ j, j < T → decides done nackEn (s.pollAhead j) = false) ∧
      waitLoop done nackEn T s = (.expired, s.waited T 0)) := by
  induction T generalizing s with
  | zero =>
    refine .inr (.inr ⟨by omega, ?_⟩)
    cases s
    cases hT
    simp [waitLoop, State.waited, State.pollEvents]
  | succ k ih =>
    simp only [waitLoop]
    by_cases hd : done s.pollAnswer = true
    · refine .inl ⟨0, by omega, by omega, by rwa [← State.pollAnswer_eq], ?_⟩
      simp [hd, State.polled_eq_waited, hT]
    · by_cases hn : (nackEn && s.pollAnswer.af) = true
      · have hn' := hn
        simp only [Bool.and_eq_true] at hn'
        refine .inr (.inl ⟨0, by omega, by omega, ?_, hn'.1, ?_, ?_⟩)
        · rw [← State.pollAnswer_eq]; simpa using hd
        · rw [← State.pollAnswer_eq]; exact hn'.2
        · rw [if_neg hd, if_pos hn]
          simp [State.polled_eq_waited, hT]
      · have h0 : decides done nackEn (s.pollAhead 0) = false := by
          rw [← State.pollAnswer_eq]; simpa [decides] using ⟨by simpa using hd, by simpa using hn⟩
        rw [if_neg hd, if_neg hn]
        have hstep : ∀ n, (∀ j, j < n → decides done nackEn ((s.polled.setToCnt k).pollAhead j) = false) →
            ∀ j, j < n + 1 → decides done nackEn (s.pollAhead j) = false := by
          intro n h j hj
          cases j with
          | zero => exact h0
          | succ j => rw [← State.polled_pollAhead s k]; exact h j (by omega)
        obtain ⟨n, hn, hj, hd', he⟩ | ⟨n, hn, hj, hd', hne, haf, he⟩ | ⟨hj, he⟩ := ih (s.polled.setToCnt k) rfl
        · refine .inl ⟨n + 1, by omega, hstep n hj, by rwa [State.polled_pollAhead] at hd', ?_⟩
          rw [he, State.polled_waited]; congr 2; omega
        · refine .inr (.inl ⟨n + 1, by omega, hstep n hj, by rwa [State.polled_pollAhead] at hd', hne,
            by rwa [State.polled_pollAhead] at haf, ?_⟩)
          rw [he, State.polled_waited]; congr 2; omega
        · refine .inr (.inr ⟨hstep k hj, ?_⟩)
          rw [he, State.polled_waited]

@[simp] theorem State.setToCnt_pollAhead (s : State) (c j : Nat) : (s.setToCnt c).pollAhead j = s.pollAhead j := rfl

@[simp] theorem State.setToCnt_waited (s : State) (c n k : Nat) : (s.setToCnt c).waited n k = s.waited n k := rfl

/-- Everything a wait can do (R165, R166): it ends at the first poll that decides it, or expires. -/
theorem wait_cases (done : Poll → Bool) (nackEn : Bool) (T : Nat) (s : State) :
    (∃ n, n < T ∧ (∀ j, j < n → decides done nackEn (s.pollAhead j) = false) ∧ done (s.pollAhead n) = true ∧
      wait done nackEn T s = (.done, s.waited (n + 1) (T - n))) ∨
    (∃ n, n < T ∧ (∀ j, j < n → decides done nackEn (s.pollAhead j) = false) ∧ done (s.pollAhead n) = false ∧
      nackEn = true ∧ (s.pollAhead n).af = true ∧
      wait done nackEn T s = (.nack, s.waited (n + 1) (T - n))) ∨
    ((∀ j, j < T → decides done nackEn (s.pollAhead j) = false) ∧
      wait done nackEn T s = (.expired, s.waited T 0)) := by
  simpa [wait] using waitLoop_cases done nackEn T (s.setToCnt T) rfl

theorem Params.tBus_pos (p : Params) : 1 ≤ p.tBus := Nat.succ_pos _

theorem Params.tRx_pos (p : Params) : 1 ≤ p.tRx := Nat.succ_pos _

/-- Everything a bus wait that does not watch `af` can do. -/
theorem awaitOr_cases (w : BusWait) (hw : w.nackEn = false) (c : State → State) (s : State) :
    (∃ n, n < s.params.tBus ∧ w.done (s.pollAhead n) = true ∧
      awaitOr w c s = (.ok, s.waited (n + 1) (s.params.tBus - n))) ∨
    ((∀ j, j < s.params.tBus → w.done (s.pollAhead j) = false) ∧
      awaitOr w c s = (.timeout w.expiryKind, c (s.waited s.params.tBus 0))) := by
  rcases wait_cases w.done w.nackEn s.params.tBus s with ⟨n, hn, _, hd, he⟩ | ⟨n, _, _, _, hne, _, _⟩ | ⟨hj, he⟩
  · exact .inl ⟨n, hn, hd, by simp [awaitOr, busWait, he]⟩
  · simp [hw] at hne
  · exact .inr ⟨fun j hj' => by simpa [decides, hw] using hj j hj', by simp [awaitOr, busWait, he]⟩

end Sys2Proof.Machine
end

