-- ==== Sys2Proof/Laws/Engine.lean ====
section
/-! SUPPORT. bus_engine: what each sequence can do, as the events it made, its outcome, and the registers it left
alone. -/

namespace Sys2Proof.Machine

/-- A run of engine events from `s` to `t`: what happened, that the ports were used as promised, and that nothing but
`ph`, `idx`, `buf`, the countdown and the bus side of the environment was touched. -/
structure EngineRun (s t : State) (es : List Event) : Prop extends Ran s t es where
  st : t.st = s.st
  cmdId : t.cmdId = s.cmdId
  devAddr : t.devAddr = s.devAddr
  regPtr : t.regPtr = s.regPtr
  count : t.count = s.count
  resOk : t.resOk = s.resOk
  resLen : t.resLen = s.resLen
  scanIdx : t.scanIdx = s.scanIdx
  scanAddr : t.scanAddr = s.scanAddr
  outCnt : t.outCnt = s.outCnt
  params : t.params = s.params
  failKind : t.failKind = s.failKind
  noTake : rxCountOf es = 0
  countdown : t.toCnt ≤ max s.toCnt s.params.tBus
  safe : ∀ tr, portsKept tr = true → portsKept (es.reverse ++ tr) = true

theorem EngineRun.refl (s : State) : EngineRun s s [] :=
  ⟨Ran.refl s, rfl, rfl, rfl, rfl, rfl, rfl, rfl, rfl, rfl, rfl, rfl, rfl, rfl, by omega, fun _ h => h⟩

theorem EngineRun.trans {s t u : State} {es fs : List Event} (h : EngineRun s t es) (k : EngineRun t u fs) :
    EngineRun s u (es ++ fs) where
  toRan := h.toRan.trans k.toRan
  st := k.st.trans h.st
  cmdId := k.cmdId.trans h.cmdId
  devAddr := k.devAddr.trans h.devAddr
  regPtr := k.regPtr.trans h.regPtr
  count := k.count.trans h.count
  resOk := k.resOk.trans h.resOk
  resLen := k.resLen.trans h.resLen
  scanIdx := k.scanIdx.trans h.scanIdx
  scanAddr := k.scanAddr.trans h.scanAddr
  outCnt := k.outCnt.trans h.outCnt
  params := k.params.trans h.params
  failKind := k.failKind.trans h.failKind
  noTake := by simp [h.noTake, k.noTake]
  countdown := by have h1 := h.countdown; have h2 := k.countdown; rw [h.params] at h2; omega
  safe := fun tr htr => by
    rw [List.reverse_append, List.append_assoc]; exact k.safe _ (h.safe tr htr)

theorem portsKept_pollEvents (s : State) (n : Nat) (tr : List Event) (h : portsKept tr = true) :
    portsKept ((s.pollEvents n).reverse ++ tr) = true := by
  induction n with
  | zero => exact h
  | succ n ih => simpa [State.pollEvents, List.range_succ, portsKept] using ih

theorem EngineRun.waited (s : State) (n k : Nat) (hk : k ≤ s.params.tBus) :
    EngineRun s (s.waited n k) (s.pollEvents n) :=
  ⟨Ran.waited s n k, rfl, rfl, rfl, rfl, rfl, rfl, rfl, rfl, rfl, rfl, rfl, rfl, by simp, by simp [State.waited]; omega,
    portsKept_pollEvents s n⟩

/-- The bus actions that return no byte. -/
def plainAction : Event → Bool
  | .busStart => true
  | .busStop => true
  | .busAddr _ _ => true
  | .busSend _ => true
  | .busClearAF => true
  | .busAck _ => true
  | _ => false

theorem EngineRun.log (s : State) (e : Event) (h : plainAction e = true) : EngineRun s (s.log e) [e] := by
  cases e <;> simp only [plainAction, Bool.false_eq_true] at h <;>
  exact ⟨Ran.log s _ rfl rfl rfl, rfl, rfl, rfl, rfl, rfl, rfl, rfl, rfl, rfl, rfl, rfl, rfl, rfl,
    by simp, fun tr htr => by simpa [portsKept] using htr⟩

theorem EngineRun.setPh (s : State) (p : Phase) : EngineRun s (s.setPh p) [] :=
  ⟨(Ran.refl s).of_eq rfl rfl rfl rfl, rfl, rfl, rfl, rfl, rfl, rfl, rfl, rfl, rfl, rfl, rfl, rfl, rfl, by simp,
    fun _ h => h⟩

theorem EngineRun.setIdx (s : State) (v : Byte) : EngineRun s (s.setIdx v) [] :=
  ⟨(Ran.refl s).of_eq rfl rfl rfl rfl, rfl, rfl, rfl, rfl, rfl, rfl, rfl, rfl, rfl, rfl, rfl, rfl, rfl, by simp,
    fun _ h => h⟩


/-- The data registers that only the payload loops of the engine write. -/
def SameData (s t : State) : Prop := t.buf = s.buf ∧ t.idx = s.idx ∧ t.busRx = s.busRx

theorem SameData.trans {s t u : State} (h : SameData s t) (k : SameData t u) : SameData s u :=
  ⟨k.1.trans h.1, k.2.1.trans h.2.1, k.2.2.trans h.2.2⟩

/-- Everything `IdleWait` can do (R169). -/
theorem idleWait_cases (s : State) :
    ∃ t es, EngineRun s t es ∧ SameData s t ∧ t.ph = .exIdle ∧ pollCount es ≤ s.params.tBus ∧ actions es = [] ∧
      (idleWait s = (EngineOutcome.ok, t) ∨ idleWait s = (EngineOutcome.timeout .busBusy, t)) := by
  have h0 := EngineRun.setPh s .exIdle
  rcases awaitOr_cases .idle rfl id (s.setPh .exIdle) with ⟨n, hn, _, he⟩ | ⟨_, he⟩
  · refine ⟨_, _, h0.trans (EngineRun.waited (s.setPh .exIdle) (n + 1) (s.params.tBus - n) (Nat.sub_le _ _)),
      ⟨rfl, rfl, rfl⟩, rfl, ?_, by simp, .inl he⟩
    simp at hn ⊢; omega
  · exact ⟨_, _, h0.trans (EngineRun.waited (s.setPh .exIdle) s.params.tBus 0 (Nat.zero_le _)),
      ⟨rfl, rfl, rfl⟩, rfl, by simp, by simp, .inr he⟩

/-- Everything `Start(p)` can do (R170). -/
theorem startCondition_cases (p : Phase) (s : State) :
    ∃ t es, EngineRun s t es ∧ SameData s t ∧ t.ph = p ∧ pollCount es ≤ s.params.tBus ∧
      ((startCondition p s = (EngineOutcome.ok, t) ∧ actions es = [Event.busStart]) ∨
       (startCondition p s = (EngineOutcome.timeout .busSelect, t) ∧ actions es = [Event.busStart, .busStop])) := by
  have h0 : EngineRun s ((s.setPh p).log .busStart) [.busStart] :=
    (EngineRun.setPh s p).trans (EngineRun.log (s.setPh p) .busStart rfl)
  rcases awaitOr_cases .mms rfl (fun t => t.log .busStop) ((s.setPh p).log .busStart) with ⟨n, hn, _, he⟩ | ⟨_, he⟩
  · refine ⟨_, _, h0.trans (EngineRun.waited _ (n + 1) (s.params.tBus - n) (Nat.sub_le _ _)), ⟨rfl, rfl, rfl⟩, rfl,
      ?_, .inl ⟨he, by simp [actions, State.pollEvents]⟩⟩
    simp [pollCount_cons, Event.polls] at hn ⊢; omega
  · refine ⟨_, _, (h0.trans (EngineRun.waited _ s.params.tBus 0 (Nat.zero_le _))).trans
      (EngineRun.log (((s.setPh p).log .busStart).waited s.params.tBus 0) .busStop rfl),
      ⟨rfl, rfl, rfl⟩, rfl, ?_, .inr ⟨he, by simp [actions, State.pollEvents]⟩⟩
    simp [pollCount_cons, Event.polls]

@[simp] theorem Direction.addressWait_expiryKind (d : Direction) : d.addressWait.expiryKind = .busSelect := by
  cases d <;> rfl

/-- Everything `Address(a, d)` can do (R171 to R173). -/
theorem address_cases (a : Byte) (d : Direction) (s : State) :
    ∃ t es, EngineRun s t es ∧ SameData s t ∧ t.ph = d.phase ∧ pollCount es ≤ s.params.tBus ∧
      ((address a d s = (EngineOutcome.ok, t) ∧ actions es = [Event.busAddr (addr7 a) d]) ∨
       (address a d s = (EngineOutcome.nack, t) ∧ actions es = [Event.busAddr (addr7 a) d, .busClearAF, .busStop]) ∨
       (address a d s = (EngineOutcome.timeout .busSelect, t) ∧ actions es = [Event.busAddr (addr7 a) d, .busStop])) := by
  let s0 := (s.setPh d.phase).log (.busAddr (addr7 a) d)
  have h0 : EngineRun s s0 [.busAddr (addr7 a) d] :=
    (EngineRun.setPh s d.phase).trans (EngineRun.log (s.setPh d.phase) _ rfl)
  have hA : address a d s = (match wait d.addressWait.done d.addressWait.nackEn s.params.tBus s0 with
      | (.done, t) => (.ok, t)
      | (.nack, t) => (.nack, (t.log .busClearAF).log .busStop)
      | (.expired, t) => (.timeout d.addressWait.expiryKind, t.log .busStop)) := rfl
  rcases wait_cases d.addressWait.done d.addressWait.nackEn s.params.tBus s0 with
    ⟨n, hn, _, _, he⟩ | ⟨n, hn, _, _, _, _, he⟩ | ⟨_, he⟩
  · refine ⟨s0.waited (n + 1) (s.params.tBus - n), _, h0.trans (EngineRun.waited s0 (n + 1) _ (Nat.sub_le _ _)),
      ⟨rfl, rfl, rfl⟩, rfl, ?_, .inl ⟨?_, by simp [actions, State.pollEvents]⟩⟩
    · simp [pollCount_cons, Event.polls] at hn ⊢; omega
    · rw [hA, he]
  · let s1 := s0.waited (n + 1) (s.params.tBus - n)
    refine ⟨(s1.log .busClearAF).log .busStop, _, ((h0.trans (EngineRun.waited s0 (n + 1) _ (Nat.sub_le _ _))).trans
      (EngineRun.log s1 .busClearAF rfl)).trans (EngineRun.log (s1.log .busClearAF) .busStop rfl), ⟨rfl, rfl, rfl⟩, rfl,
      ?_, .inr (.inl ⟨?_, by simp [actions, State.pollEvents]⟩)⟩
    · simp [pollCount_cons, Event.polls] at hn ⊢; omega
    · rw [hA, he]
  · let s1 := s0.waited s.params.tBus 0
    refine ⟨s1.log .busStop, _, (h0.trans (EngineRun.waited s0 s.params.tBus 0 (Nat.zero_le _))).trans
      (EngineRun.log s1 .busStop rfl), ⟨rfl, rfl, rfl⟩, rfl, ?_, .inr (.inr ⟨?_, by simp [actions, State.pollEvents]⟩)⟩
    · simp [pollCount_cons, Event.polls]
    · rw [hA, he]; simp [s1]

@[simp] theorem andThen_ok (s : State) (k : State → EngineResult) : andThen (.ok, s) k = k s := rfl
@[simp] theorem andThen_nack (s : State) (k : State → EngineResult) : andThen (.nack, s) k = (.nack, s) := rfl
@[simp] theorem andThen_timeout (f : FailKind) (s : State) (k : State → EngineResult) :
    andThen (.timeout f, s) k = (.timeout f, s) := rfl

/-- Everything the address phase can do (R174, R189). -/
theorem addrPhase_cases (a : Byte) (s : State) :
    ∃ t es, EngineRun s t es ∧ SameData s t ∧ t.ph.isTx = false ∧ pollCount es ≤ 3 * s.params.tBus ∧
      ((addrPhase a s = (EngineOutcome.ok, t) ∧ t.ph = .exAddrW ∧ actions es = [Event.busStart, .busAddr (addr7 a) .write]) ∨
       (addrPhase a s = (EngineOutcome.nack, t) ∧ actions es = [Event.busStart, .busAddr (addr7 a) .write, .busClearAF, .busStop]) ∨
       (addrPhase a s = (EngineOutcome.timeout .busBusy, t) ∧ actions es = []) ∨
       (addrPhase a s = (EngineOutcome.timeout .busSelect, t) ∧
          (actions es = [Event.busStart, .busStop] ∨ actions es = [Event.busStart, .busAddr (addr7 a) .write, .busStop]))) := by
  obtain ⟨t1, e1, r1, d1, p1, c1, a1, h1 | h1⟩ := idleWait_cases s
  swap
  · exact ⟨t1, e1, r1, d1, by simp [p1, Phase.isTx], by omega, .inr (.inr (.inl ⟨by simp [addrPhase, h1], a1⟩))⟩
  obtain ⟨t2, e2, r2, d2, p2, c2, ⟨h2, a2⟩ | ⟨h2, a2⟩⟩ := startCondition_cases .exStart t1
  swap
  · refine ⟨t2, _, r1.trans r2, d1.trans d2, by simp [p2, Phase.isTx], ?_, .inr (.inr (.inr ⟨by simp [addrPhase, h1, h2], .inl ?_⟩))⟩
    · rw [r1.params] at c2; simp; omega
    · simp [a1, a2]
  obtain ⟨t3, e3, r3, d3, p3, c3, h3⟩ := address_cases a .write t2
  have hc : pollCount (e1 ++ e2 ++ e3) ≤ 3 * s.params.tBus := by
    rw [r2.params, r1.params] at c3; rw [r1.params] at c2; simp; omega
  refine ⟨t3, _, (r1.trans r2).trans r3, (d1.trans d2).trans d3, by simp [p3, Phase.isTx, Direction.phase], hc, ?_⟩
  rcases h3 with ⟨h3, a3⟩ | ⟨h3, a3⟩ | ⟨h3, a3⟩
  · exact .inl ⟨by simp [addrPhase, h1, h2, h3], p3, by simp [a1, a2, a3]⟩
  · exact .inr (.inl ⟨by simp [addrPhase, h1, h2, h3], by simp [a1, a2, a3]⟩)
  · exact .inr (.inr (.inr ⟨by simp [addrPhase, h1, h2, h3], .inr (by simp [a1, a2, a3])⟩))

/-- Everything one sent byte can do (R175, R176). -/
theorem sendByte_cases (w : BusWait) (hw : w.nackEn = false) (b : Byte) (s : State) :
    ∃ t es, EngineRun s t es ∧ SameData s t ∧ t.ph = s.ph ∧ pollCount es ≤ s.params.tBus ∧
      ((sendByte w b s = (EngineOutcome.ok, t) ∧ actions es = [Event.busSend b]) ∨
       (sendByte w b s = (EngineOutcome.timeout w.expiryKind, t) ∧ actions es = [Event.busSend b, .busStop])) := by
  have h0 : EngineRun s (s.log (.busSend b)) [.busSend b] := EngineRun.log _ _ rfl
  rcases awaitOr_cases w hw (fun t => t.log .busStop) (s.log (.busSend b)) with ⟨n, hn, _, he⟩ | ⟨_, he⟩
  · refine ⟨_, _, h0.trans (EngineRun.waited _ (n + 1) (s.params.tBus - n) (Nat.sub_le _ _)), ⟨rfl, rfl, rfl⟩, rfl,
      ?_, .inl ⟨he, by simp [actions, State.pollEvents]⟩⟩
    simp [pollCount_cons, Event.polls] at hn ⊢; omega
  · refine ⟨_, _, (h0.trans (EngineRun.waited _ s.params.tBus 0 (Nat.zero_le _))).trans
      (EngineRun.log ((s.log (.busSend b)).waited s.params.tBus 0) .busStop rfl),
      ⟨rfl, rfl, rfl⟩, rfl, ?_, .inr ⟨he, by simp [actions, State.pollEvents]⟩⟩
    simp [pollCount_cons, Event.polls]

/-- Everything the address phase and the pointer byte can do, as a WRITE and a READ begin (R174, R176, R189). -/
theorem pointerPhase_cases (a r : Byte) (s : State) :
    ∃ t es, EngineRun s t es ∧ SameData s t ∧ t.ph.isTx = false ∧ pollCount es ≤ 4 * s.params.tBus ∧
      ((andThen (addrPhase a s) (sendPointer r) = (EngineOutcome.ok, t) ∧ t.ph = .exReg ∧
          actions es = [Event.busStart, .busAddr (addr7 a) .write, .busSend r]) ∨
       (andThen (addrPhase a s) (sendPointer r) = (EngineOutcome.nack, t) ∧
          actions es = [Event.busStart, .busAddr (addr7 a) .write, .busClearAF, .busStop]) ∨
       (andThen (addrPhase a s) (sendPointer r) = (EngineOutcome.timeout .busBusy, t) ∧ actions es = []) ∨
       (andThen (addrPhase a s) (sendPointer r) = (EngineOutcome.timeout .busSelect, t) ∧
          (actions es = [Event.busStart, .busStop] ∨ actions es = [Event.busStart, .busAddr (addr7 a) .write, .busStop])) ∨
       (andThen (addrPhase a s) (sendPointer r) = (EngineOutcome.timeout .transfer, t) ∧
          actions es = [Event.busStart, .busAddr (addr7 a) .write, .busSend r, .busStop])) := by
  obtain ⟨t1, e1, r1, d1, p1, c1, h1⟩ := addrPhase_cases a s
  rcases h1 with ⟨h1, _, a1⟩ | ⟨h1, a1⟩ | ⟨h1, a1⟩ | ⟨h1, a1⟩
  · have r1' := r1.trans (EngineRun.setPh t1 .exReg)
    obtain ⟨t2, e2, r2, d2, p2, c2, h2⟩ := sendByte_cases .btxPointer rfl r (t1.setPh .exReg)
    have hc : pollCount (e1 ++ [] ++ e2) ≤ 4 * s.params.tBus := by
      rw [r1'.params] at c2; simp; omega
    refine ⟨t2, _, r1'.trans r2, d1.trans d2, by simp [p2, Phase.isTx], hc, ?_⟩
    rcases h2 with ⟨h2, a2⟩ | ⟨h2, a2⟩
    · exact .inl ⟨by simp [h1, sendPointer, h2], by simp [p2], by simp [a1, a2]⟩
    · exact .inr (.inr (.inr (.inr ⟨by simp [h1, sendPointer, h2, BusWait.expiryKind], by simp [a1, a2]⟩)))
  · exact ⟨t1, e1, r1, d1, p1, by omega, .inr (.inl ⟨by simp [h1], a1⟩)⟩
  · exact ⟨t1, e1, r1, d1, p1, by omega, .inr (.inr (.inl ⟨by simp [h1], a1⟩))⟩
  · exact ⟨t1, e1, r1, d1, p1, by omega, .inr (.inr (.inr (.inl ⟨by simp [h1], a1⟩)))⟩

/-- Everything the payload loop of a WRITE can do (R175). -/
theorem sendPayload_cases (bs : List Byte) (s : State) :
    ∃ t es, EngineRun s t es ∧ t.buf = s.buf ∧ t.busRx = s.busRx ∧ t.ph = s.ph ∧
      pollCount es ≤ bs.length * s.params.tBus ∧
      ((sendPayload bs s = (EngineOutcome.ok, t) ∧ t.idx = s.idx + BitVec.ofNat 8 bs.length ∧ actions es = bs.map Event.busSend) ∨
       (∃ i, i < bs.length ∧ sendPayload bs s = (EngineOutcome.timeout .transfer, t) ∧ t.idx = s.idx + BitVec.ofNat 8 i ∧
          actions es = (bs.take (i + 1)).map Event.busSend ++ [Event.busStop])) := by
  induction bs generalizing s with
  | nil => exact ⟨s, [], EngineRun.refl s, rfl, rfl, rfl, by simp, .inl ⟨rfl, by simp, rfl⟩⟩
  | cons b bs ih =>
    obtain ⟨t1, e1, r1, d1, p1, c1, ⟨h1, a1⟩ | ⟨h1, a1⟩⟩ := sendByte_cases .btxData rfl b s
    · have r1' := r1.trans (EngineRun.setIdx t1 (t1.idx + 1#8))
      obtain ⟨t2, e2, r2, b2, x2, p2, c2, h2⟩ := ih (t1.setIdx (t1.idx + 1#8))
      have hi : ∀ k, (t1.setIdx (t1.idx + 1#8)).idx + BitVec.ofNat 8 k = s.idx + BitVec.ofNat 8 (k + 1) := by
        intro k; simp [d1.2.1, BitVec.ofNat_add, BitVec.add_assoc, BitVec.add_comm 1#8]
      refine ⟨t2, _, r1'.trans r2, by simp [b2, d1.1], by simp [x2, d1.2.2], by simp [p2, p1], ?_, ?_⟩
      · rw [r1'.params] at c2; simp [Nat.add_mul] at c2 ⊢; omega
      · rcases h2 with ⟨h2, i2, a2⟩ | ⟨i, hi', h2, i2, a2⟩
        · exact .inl ⟨by simp [sendPayload, h1, h2], by rw [i2, hi, List.length_cons], by simp [a1, a2]⟩
        · exact .inr ⟨i + 1, by simpa using hi', by simp [sendPayload, h1, h2], by rw [i2, hi], by simp [a1, a2]⟩
    · refine ⟨t1, e1, r1, d1.1, d1.2.2, p1, by simp [Nat.add_mul]; omega, .inr ⟨0, by simp, ?_, ?_, ?_⟩⟩
      · simp [sendPayload, h1, BusWait.expiryKind]
      · simp [d1.2.1]
      · simp [a1]

end Sys2Proof.Machine
end

