-- ==== Sys2Proof/Laws/EngineRead.lean ====
section
/-! SUPPORT. bus_engine and device_scan: the repeated start and the receive loop of a READ, and the probes. -/

namespace Sys2Proof.Machine

/-! ## READ -/

/-- Everything the repeated start of a READ can do (R174, R177). -/
theorem reAddrPhase_cases (a : Byte) (s : State) :
    ∃ t es, EngineRun s t es ∧ SameData s t ∧ t.ph.isTx = false ∧ pollCount es ≤ 2 * s.params.tBus ∧
      ((reAddrPhase a s = (EngineOutcome.ok, t) ∧ actions es = [Event.busStart, .busAddr (addr7 a) .read]) ∨
       (reAddrPhase a s = (EngineOutcome.nack, t) ∧ actions es = [Event.busStart, .busAddr (addr7 a) .read, .busClearAF, .busStop]) ∨
       (reAddrPhase a s = (EngineOutcome.timeout .busSelect, t) ∧
          (actions es = [Event.busStart, .busStop] ∨ actions es = [Event.busStart, .busAddr (addr7 a) .read, .busStop]))) := by
  obtain ⟨t1, e1, r1, d1, p1, c1, ⟨h1, a1⟩ | ⟨h1, a1⟩⟩ := startCondition_cases .exRestart s
  swap
  · exact ⟨t1, e1, r1, d1, by simp [p1, Phase.isTx], by omega, .inr (.inr ⟨by simp [reAddrPhase, h1], .inl a1⟩)⟩
  obtain ⟨t2, e2, r2, d2, p2, c2, h2⟩ := address_cases a .read t1
  have hc : pollCount (e1 ++ e2) ≤ 2 * s.params.tBus := by
    rw [r1.params] at c2; simp; omega
  refine ⟨t2, _, r1.trans r2, d1.trans d2, by simp [p2, Phase.isTx, Direction.phase], hc, ?_⟩
  rcases h2 with ⟨h2, a2⟩ | ⟨h2, a2⟩ | ⟨h2, a2⟩
  · exact .inl ⟨by simp [reAddrPhase, h1, h2], by simp [a1, a2]⟩
  · exact .inr (.inl ⟨by simp [reAddrPhase, h1, h2], by simp [a1, a2]⟩)
  · exact .inr (.inr ⟨by simp [reAddrPhase, h1, h2], .inr (by simp [a1, a2])⟩)

/-- The acknowledge-off and the stop before the last byte, and nothing before any other (R177, R178). -/
theorem prepareByte_run (last : Bool) (s : State) :
    ∃ es, EngineRun s (prepareByte last s) es ∧ SameData s (prepareByte last s) ∧ (prepareByte last s).ph = s.ph ∧
      pollCount es = 0 ∧ actions es = if last then [Event.busAck .none, .busStop] else [] := by
  cases last
  · exact ⟨[], EngineRun.refl s, ⟨rfl, rfl, rfl⟩, rfl, rfl, rfl⟩
  · exact ⟨_, (EngineRun.log s (.busAck .none) rfl).trans (EngineRun.log (s.log (.busAck .none)) .busStop rfl),
      ⟨rfl, rfl, rfl⟩, rfl, rfl, rfl⟩

/-- A completed `W_BRX` and the byte received after it, the port being used right after its poll (R34, R177). -/
theorem EngineRun.received (s : State) (n : Nat) (k : Nat) (hk : k ≤ s.params.tBus)
    (h : (s.pollAhead n).evBrx = true) (hi : s.idx.toNat < bufLen) :
    EngineRun s (recvByte (s.waited (n + 1) k)) (s.pollEvents (n + 1) ++ [Event.busRecv (s.busAhead 0)]) ∧
      (recvByte (s.waited (n + 1) k)).buf = s.buf.write s.idx.toNat (s.busAhead 0) ∧
      (recvByte (s.waited (n + 1) k)).idx = s.idx + 1#8 ∧
      (recvByte (s.waited (n + 1) k)).busRx = s.busRx.advance 1 ∧
      (recvByte (s.waited (n + 1) k)).ph = s.ph := by
  have hb : (s.waited (n + 1) k).busAnswer = s.busAhead 0 := State.busAnswer_eq _
  have hs : recvByte (s.waited (n + 1) k) =
      ((s.waited (n + 1) k).busReceived.setBuf (s.buf.write s.idx.toNat (s.busAhead 0))).setIdx (s.idx + 1#8) := by
    rw [recvByte, hb, State.bufStore, if_pos (show (s.waited (n + 1) k).idx.toNat < bufLen from hi)]
    rfl
  have hr : Ran s (recvByte (s.waited (n + 1) k)) (s.pollEvents (n + 1) ++ [.busRecv (s.busAhead 0)]) := by
    rw [hs, ← hb]
    exact ((Ran.waited s (n + 1) k).trans (Ran.busReceived _)).of_eq rfl rfl rfl rfl
  have hp : ∀ tr, portsKept tr = true →
      portsKept ((s.pollEvents (n + 1) ++ [Event.busRecv (s.busAhead 0)]).reverse ++ tr) = true := by
    intro tr htr
    simp only [State.pollEvents, List.range_succ, List.map_append, List.map_cons, List.map_nil, List.reverse_append,
      List.reverse_cons, List.reverse_nil, List.nil_append, List.cons_append, portsKept, afterPoll, h,
      Bool.true_and]
    exact portsKept_pollEvents s n tr htr
  rw [hs] at hr ⊢
  refine ⟨⟨hr, by simp, by simp, by simp, by simp, by simp, by simp, by simp, by simp, by simp, by simp, by simp,
    by simp, by rw [rxCountOf_append, rxCountOf_pollEvents]; rfl, ?_, hp⟩, by simp, by simp, ?_, by simp⟩
  · simp; omega
  · simp [Feed.rest_eq_advance, State.waited]

theorem State.busBytes_succ {s t : State} (h : t.busRx = s.busRx.advance 1) (k : Nat) :
    s.busBytes (k + 1) = s.busAhead 0 :: t.busBytes k := by
  simp [State.busBytes, List.range_succ_eq_map, State.busAhead_of_advance h, Function.comp_def, Nat.add_comm]

/-- Everything the receive loop of a READ can do (R177 to R179). -/
theorem recvPayload_cases (k : Nat) (s : State) (hi : s.idx.toNat + (k + 1) ≤ bufLen) :
    ∃ t es, EngineRun s t es ∧ t.ph = s.ph ∧ pollCount es ≤ (k + 1) * s.params.tBus ∧
      ((recvPayload (k + 1) s = (EngineOutcome.ok, t) ∧ t.buf = s.buf.writeRange s.idx.toNat (s.busBytes (k + 1)) ∧
          t.idx = s.idx + BitVec.ofNat 8 (k + 1) ∧
          actions es = (s.busBytes k).map Event.busRecv ++
            [Event.busAck .none, .busStop, .busRecv (s.busAhead k), .busAck .current]) ∨
       (∃ i, i < k + 1 ∧ recvPayload (k + 1) s = (EngineOutcome.timeout .transfer, t) ∧
          t.buf = s.buf.writeRange s.idx.toNat (s.busBytes i) ∧ t.idx = s.idx + BitVec.ofNat 8 i ∧
          actions es = (s.busBytes i).map Event.busRecv ++
            (if i = k then [Event.busAck .none, .busStop, .busStop, .busAck .current] else [Event.busStop, .busAck .current])))
    := by
  induction k generalizing s with
  | zero =>
    obtain ⟨e0, r0, d0, p0, c0, a0⟩ := prepareByte_run true s
    rcases awaitOr_cases .brx rfl (fun t => (t.log .busStop).log (.busAck .current)) (prepareByte true s) with
      ⟨n, hn, hd, he⟩ | ⟨_, he⟩
    · obtain ⟨r1, b1, i1, x1, p1⟩ := EngineRun.received (prepareByte true s) n ((prepareByte true s).params.tBus - n)
        (Nat.sub_le _ _) hd (by rw [d0.2.1]; omega)
      refine ⟨_, _, (r0.trans r1).trans (EngineRun.log _ (.busAck .current) rfl), by simp [p1, p0], ?_,
        .inl ⟨by simp [recvPayload, he], ?_, ?_, ?_⟩⟩
      · rw [r0.params] at hn; simp [pollCount_cons, Event.polls, c0]; omega
      · simp [b1, d0.1, d0.2.1, State.busBytes, State.busAhead, d0.2.2, Memory.writeRange]
      · simp [i1, d0.2.1]
      · rw [actions_append, actions_append, actions_append, a0, actions_pollEvents]
        simp [actions, State.busBytes, State.busAhead, d0.2.2]
    · have r1 := (EngineRun.waited (prepareByte true s) (prepareByte true s).params.tBus 0 (Nat.zero_le _)).trans
        ((EngineRun.log _ .busStop rfl).trans (EngineRun.log _ (.busAck .current) rfl))
      refine ⟨_, _, r0.trans r1, p0, ?_, .inr ⟨0, by omega, ?_, d0.1, by simp [d0.2.1], ?_⟩⟩
      · simp [pollCount_cons, Event.polls, c0, r0.params]
      · simp [recvPayload, he, BusWait.expiryKind]
      · rw [actions_append, actions_append, a0, actions_pollEvents]
        simp [actions, State.busBytes]
  | succ k ih =>
    rcases awaitOr_cases .brx rfl (fun t => (t.log .busStop).log (.busAck .current)) s with ⟨n, hn, hd, he⟩ | ⟨_, he⟩
    · obtain ⟨r1, b1, i1, x1, p1⟩ := EngineRun.received s n (s.params.tBus - n) (Nat.sub_le _ _) hd (by omega)
      have hi1 : (recvByte (s.waited (n + 1) (s.params.tBus - n))).idx.toNat = s.idx.toNat + 1 := by
        rw [i1, BitVec.toNat_add]
        have : bufLen = 255 := rfl
        simp; omega
      have hrec : recvPayload (k + 1 + 1) s = recvPayload (k + 1) (recvByte (s.waited (n + 1) (s.params.tBus - n))) := by
        rw [recvPayload]
        simp [prepareByte, he]
      obtain ⟨t, es, r2, p2, c2, h2⟩ := ih (recvByte (s.waited (n + 1) (s.params.tBus - n))) (by omega)
      have hx : ∀ j, (recvByte (s.waited (n + 1) (s.params.tBus - n))).idx + BitVec.ofNat 8 j =
          s.idx + BitVec.ofNat 8 (j + 1) := by
        intro j; rw [i1]; simp [BitVec.ofNat_add, BitVec.add_assoc, BitVec.add_comm 1#8]
      refine ⟨t, _, r1.trans r2, p2.trans p1, ?_, ?_⟩
      · rw [r1.params] at c2
        rw [Nat.succ_mul]
        simp [pollCount_cons, Event.polls] at c2 ⊢; omega
      · rcases h2 with ⟨h2, b2, i2, a2⟩ | ⟨i, hik, h2, b2, i2, a2⟩
        · refine .inl ⟨hrec.trans h2, ?_, by rw [i2, hx], ?_⟩
          · rw [b2, hi1, b1, State.busBytes_succ x1 (k + 1)]; rfl
          · rw [actions_append, a2, actions_append, actions_pollEvents, State.busBytes_succ x1 k,
              State.busAhead_of_advance x1, Nat.add_comm 1 k]
            simp [actions]
        · refine .inr ⟨i + 1, by omega, hrec.trans h2, ?_, by rw [i2, hx], ?_⟩
          · rw [b2, hi1, b1, State.busBytes_succ x1 i]; rfl
          · rw [actions_append, a2, actions_append, actions_pollEvents, State.busBytes_succ x1 i]
            simp [actions]
    · have r1 := (EngineRun.waited s s.params.tBus 0 (Nat.zero_le _)).trans
        ((EngineRun.log _ .busStop rfl).trans (EngineRun.log _ (.busAck .current) rfl))
      refine ⟨_, _, r1, rfl, ?_, .inr ⟨0, by omega, ?_, rfl, by simp, ?_⟩⟩
      · rw [Nat.succ_mul]; simp [pollCount_cons, Event.polls]
      · rw [recvPayload]
        simp [prepareByte, he, BusWait.expiryKind]
      · simp [actions, State.busBytes, State.pollEvents]

/-! ## The probe -/

/-- Everything one probe can do (R181, R189). -/
theorem probe_cases (a : Byte) (s : State) :
    ∃ t es, EngineRun s t es ∧ SameData s t ∧ t.ph.isTx = false ∧ pollCount es ≤ 3 * s.params.tBus ∧
      ((probe a s = (EngineOutcome.ok, t) ∧ actions es = probeActions a true) ∨
       (probe a s = (EngineOutcome.nack, t) ∧ actions es = probeActions a false) ∨
       (probe a s = (EngineOutcome.timeout .busBusy, t) ∧ actions es = []) ∨
       (probe a s = (EngineOutcome.timeout .busSelect, t) ∧
          (actions es = [Event.busStart, .busStop] ∨ actions es = [Event.busStart, .busAddr (addr7 a) .write, .busStop]))) := by
  obtain ⟨t, es, r, d, p, c, h⟩ := addrPhase_cases a s
  rcases h with ⟨h, _, ha⟩ | ⟨h, ha⟩ | ⟨h, ha⟩ | ⟨h, ha⟩
  · refine ⟨_, _, r.trans (EngineRun.log t .busStop rfl), d, p, ?_, .inl ⟨by simp [probe, h], ?_⟩⟩
    · simp [pollCount_cons, Event.polls]; exact c
    · rw [actions_append, ha]; rfl
  · exact ⟨t, es, r, d, p, c, .inr (.inl ⟨by simp [probe, h], ha⟩)⟩
  · exact ⟨t, es, r, d, p, c, .inr (.inr (.inl ⟨by simp [probe, h], ha⟩))⟩
  · exact ⟨t, es, r, d, p, c, .inr (.inr (.inr ⟨by simp [probe, h], ha⟩))⟩

end Sys2Proof.Machine
end

