-- ==== Sys2Proof/Laws/Scan.lean ====
section
/-! SUPPORT. device_scan: what the scan loop can do. -/

namespace Sys2Proof.Machine

/-- A run of scan events from `s` to `t`: what happened, that the ports were used as promised, and which registers a
scan leaves alone. -/
structure ScanRun (s t : State) (es : List Event) : Prop extends Ran s t es where
  st : t.st = s.st
  cmdId : t.cmdId = s.cmdId
  devAddr : t.devAddr = s.devAddr
  regPtr : t.regPtr = s.regPtr
  count : t.count = s.count
  resOk : t.resOk = s.resOk
  resLen : t.resLen = s.resLen
  idx : t.idx = s.idx
  params : t.params = s.params
  failKind : t.failKind = s.failKind
  noTake : rxCountOf es = 0
  busKept : t.busRx = s.busRx
  countdown : t.toCnt ≤ max s.toCnt s.params.tBus
  safe : ∀ tr, portsKept tr = true → portsKept (es.reverse ++ tr) = true

theorem ScanRun.refl (s : State) : ScanRun s s [] :=
  ⟨Ran.refl s, rfl, rfl, rfl, rfl, rfl, rfl, rfl, rfl, rfl, rfl, rfl, rfl, by omega, fun _ h => h⟩

theorem ScanRun.trans {s t u : State} {es fs : List Event} (h : ScanRun s t es) (k : ScanRun t u fs) :
    ScanRun s u (es ++ fs) where
  toRan := h.toRan.trans k.toRan
  st := k.st.trans h.st
  cmdId := k.cmdId.trans h.cmdId
  devAddr := k.devAddr.trans h.devAddr
  regPtr := k.regPtr.trans h.regPtr
  count := k.count.trans h.count
  resOk := k.resOk.trans h.resOk
  resLen := k.resLen.trans h.resLen
  idx := k.idx.trans h.idx
  params := k.params.trans h.params
  failKind := k.failKind.trans h.failKind
  noTake := by simp [h.noTake, k.noTake]
  busKept := k.busKept.trans h.busKept
  countdown := by have h1 := h.countdown; have h2 := k.countdown; rw [h.params] at h2; omega
  safe := fun tr htr => by
    rw [List.reverse_append, List.append_assoc]; exact k.safe _ (h.safe tr htr)

theorem EngineRun.scan {s t : State} {es : List Event} (h : EngineRun s t es) (d : SameData s t) : ScanRun s t es :=
  ⟨h.toRan, h.st, h.cmdId, h.devAddr, h.regPtr, h.count, h.resOk, h.resLen, d.2.1, h.params, h.failKind, h.noTake,
    d.2.2, h.countdown, h.safe⟩

theorem ScanRun.setScanAddr (s : State) (a : Byte) : ScanRun s (s.setScanAddr a) [] :=
  ⟨(Ran.refl s).of_eq rfl rfl rfl rfl, rfl, rfl, rfl, rfl, rfl, rfl, rfl, rfl, rfl, rfl, rfl, rfl, by simp,
    fun _ h => h⟩

theorem ScanRun.setScanIdx (s : State) (v : Byte) : ScanRun s (s.setScanIdx v) [] :=
  ⟨(Ran.refl s).of_eq rfl rfl rfl rfl, rfl, rfl, rfl, rfl, rfl, rfl, rfl, rfl, rfl, rfl, rfl, rfl, by simp,
    fun _ h => h⟩

theorem ScanRun.setOutCnt (s : State) (v : Byte) : ScanRun s (s.setOutCnt v) [] :=
  ⟨(Ran.refl s).of_eq rfl rfl rfl rfl, rfl, rfl, rfl, rfl, rfl, rfl, rfl, rfl, rfl, rfl, rfl, rfl, by simp,
    fun _ h => h⟩

theorem ScanRun.setBuf (s : State) (m : Memory) : ScanRun s (s.setBuf m) [] :=
  ⟨(Ran.refl s).of_eq rfl rfl rfl rfl, rfl, rfl, rfl, rfl, rfl, rfl, rfl, rfl, rfl, rfl, rfl, rfl, by simp,
    fun _ h => h⟩

theorem ScanRun.advance (listed : Bool) (s : State) : ScanRun s (advance listed s) [] := by
  cases listed
  · exact ScanRun.refl s
  · exact ScanRun.setScanIdx s _

@[simp] theorem advance_buf (listed : Bool) (s : State) : (advance listed s).buf = s.buf := by cases listed <;> rfl
@[simp] theorem advance_outCnt (listed : Bool) (s : State) : (advance listed s).outCnt = s.outCnt := by
  cases listed <;> rfl
@[simp] theorem advance_scanAddr (listed : Bool) (s : State) : (advance listed s).scanAddr = s.scanAddr := by
  cases listed <;> rfl
@[simp] theorem advance_ph (listed : Bool) (s : State) : (advance listed s).ph = s.ph := by cases listed <;> rfl
theorem advance_scanIdx (listed : Bool) (s : State) :
    (advance listed s).scanIdx = if listed then s.scanIdx + 1#8 else s.scanIdx := by cases listed <;> rfl

theorem retain_eq (s : State) (h : s.outCnt.toNat < bufLen) :
    retain s = (s.setBuf (s.buf.write s.outCnt.toNat s.scanAddr)).setOutCnt (s.outCnt + 1#8) := by
  simp [retain, State.bufStore, h, State.setOutCnt, State.setBuf]

theorem ScanRun.retain (s : State) (h : s.outCnt.toNat < bufLen) : ScanRun s (retain s) [] := by
  rw [retain_eq s h]; exact (ScanRun.setBuf s _).trans (ScanRun.setOutCnt _ _)

theorem acknowledged_cons (a : Byte) (b : Bool) (l : List (Byte × Bool)) :
    acknowledged ((a, b) :: l) = if b then a :: acknowledged l else acknowledged l := by
  cases b <;> simp [acknowledged]

theorem acknowledged_length_le (l : List (Byte × Bool)) : (acknowledged l).length ≤ l.length := by
  simp [acknowledged, List.length_filter_le]

/-- The candidates that acknowledged, in the order in which they were probed. -/
theorem acknowledged_sublist (as : List Byte) (acks : List Bool) : (acknowledged (as.zip acks)).Sublist as := by
  induction as generalizing acks with
  | nil => simp [acknowledged]
  | cons a as ih =>
    cases acks with
    | nil => simp [acknowledged]
    | cons b acks =>
      rw [List.zip_cons_cons, acknowledged_cons]
      cases b
      · exact (ih acks).cons a
      · exact (ih acks).cons_cons a

/-- Everything the scan loop can do (R260, R264): it probes in order up to the end or to the first timeout. -/
theorem scanLoop_cases (listed : Bool) (as : List Byte) (s : State) (hl : s.outCnt.toNat + as.length ≤ bufLen) :
    ∃ t es acks, ScanRun s t es ∧ (as ≠ [] → t.ph.isTx = false) ∧ pollCount es ≤ 3 * as.length * s.params.tBus ∧
      t.buf = s.buf.writeRange s.outCnt.toNat (acknowledged (as.zip acks)) ∧
      t.outCnt = s.outCnt + BitVec.ofNat 8 (acknowledged (as.zip acks)).length ∧
      (listed = false → t.scanIdx = s.scanIdx) ∧
      ((scanLoop listed as s = (EngineOutcome.ok, t) ∧ acks.length = as.length ∧ actions es = probesActions (as.zip acks)) ∨
       (∃ a rest, as.drop acks.length = a :: rest ∧
          ((scanLoop listed as s = (EngineOutcome.timeout .busBusy, t) ∧ actions es = probesActions (as.zip acks)) ∨
           (scanLoop listed as s = (EngineOutcome.timeout .busSelect, t) ∧
             (actions es = probesActions (as.zip acks) ++ [Event.busStart, .busStop] ∨
              actions es = probesActions (as.zip acks) ++ [Event.busStart, .busAddr (addr7 a) .write, .busStop]))))) := by
  induction as generalizing s with
  | nil =>
    exact ⟨s, [], [], ScanRun.refl s, by simp, by simp, rfl, by simp [acknowledged], fun _ => rfl,
      .inl ⟨rfl, rfl, rfl⟩⟩
  | cons a as ih =>
    simp only [List.length_cons] at hl
    obtain ⟨t1, e1, r1, d1, p1, c1, h1⟩ := probe_cases a (s.setScanAddr a)
    have q1 : ScanRun s t1 e1 := (ScanRun.setScanAddr s a).trans (r1.scan d1)
    rcases h1 with ⟨h1, a1⟩ | ⟨h1, a1⟩ | ⟨h1, a1⟩ | ⟨h1, a1⟩
    · have ho : t1.outCnt.toNat < bufLen := by rw [r1.outCnt]; simp; omega
      have q2 := (q1.trans (ScanRun.retain t1 ho)).trans (ScanRun.advance listed (retain t1))
      have ho2 : (advance listed (retain t1)).outCnt = s.outCnt + 1#8 := by
        rw [advance_outCnt, retain_eq t1 ho]; simp [r1.outCnt]
      have ho3 : (advance listed (retain t1)).outCnt.toNat = s.outCnt.toNat + 1 := by
        have : bufLen = 255 := rfl
        rw [ho2, BitVec.toNat_add]; simp; omega
      have hb2 : (advance listed (retain t1)).buf = s.buf.write s.outCnt.toNat a := by
        rw [advance_buf, retain_eq t1 ho]; simp [r1.outCnt, r1.scanAddr, d1.1]
      obtain ⟨t, es, acks, q, p, c, b, o, i, h⟩ := ih (advance listed (retain t1)) (by omega)
      have hloop : scanLoop listed (a :: as) s = scanLoop listed as (advance listed (retain t1)) := by
        rw [scanLoop, h1]
      refine ⟨t, _, true :: acks, q2.trans q, ?_, ?_, ?_, ?_, ?_, ?_⟩
      · intro _
        cases as with
        | nil =>
          rcases h with ⟨h, _⟩ | ⟨a, rest, h, _⟩
          · simp only [scanLoop, Prod.mk.injEq, true_and] at h
            rw [← h, advance_ph, retain_eq t1 ho]; simpa using p1
          · simp at h
        | cons x xs => exact p (by simp)
      · rw [q2.params] at c
        simp only [State.setScanAddr_params] at c1
        simp only [pollCount_append, pollCount_nil, List.length_cons, Nat.mul_add, Nat.add_mul] at c ⊢
        omega
      · rw [b, ho3, hb2, List.zip_cons_cons, acknowledged_cons]; rfl
      · rw [o, ho2, List.zip_cons_cons, acknowledged_cons]
        simp [BitVec.ofNat_add, BitVec.add_assoc, BitVec.add_comm 1#8]
      · intro hf
        rw [i hf, advance_scanIdx, hf, retain_eq t1 ho]; simp [r1.scanIdx]
      · rw [hloop]
        rcases h with ⟨h, hk, ha⟩ | ⟨x, rest, hd, ⟨h, ha⟩ | ⟨h, ha | ha⟩⟩
        · exact .inl ⟨h, by simp [hk], by simp [a1, ha, probesActions]⟩
        · exact .inr ⟨x, rest, by simpa using hd, .inl ⟨h, by simp [a1, ha, probesActions]⟩⟩
        · exact .inr ⟨x, rest, by simpa using hd, .inr ⟨h, .inl (by simp [a1, ha, probesActions])⟩⟩
        · exact .inr ⟨x, rest, by simpa using hd, .inr ⟨h, .inr (by simp [a1, ha, probesActions])⟩⟩
    · have q2 := q1.trans (ScanRun.advance listed t1)
      have ho2 : (advance listed t1).outCnt = s.outCnt := by rw [advance_outCnt, r1.outCnt]; rfl
      have hb2 : (advance listed t1).buf = s.buf := by rw [advance_buf, d1.1]; rfl
      obtain ⟨t, es, acks, q, p, c, b, o, i, h⟩ := ih (advance listed t1) (by rw [ho2]; omega)
      have hloop : scanLoop listed (a :: as) s = scanLoop listed as (advance listed t1) := by
        rw [scanLoop, h1]
      refine ⟨t, _, false :: acks, q2.trans q, ?_, ?_, ?_, ?_, ?_, ?_⟩
      · intro _
        cases as with
        | nil =>
          rcases h with ⟨h, _⟩ | ⟨a, rest, h, _⟩
          · simp only [scanLoop, Prod.mk.injEq, true_and] at h
            rw [← h, advance_ph]; exact p1
          · simp at h
        | cons x xs => exact p (by simp)
      · rw [q2.params] at c
        simp only [State.setScanAddr_params] at c1
        simp only [pollCount_append, pollCount_nil, List.length_cons, Nat.mul_add, Nat.add_mul] at c ⊢
        omega
      · rw [b, ho2, hb2, List.zip_cons_cons, acknowledged_cons]; rfl
      · rw [o, ho2, List.zip_cons_cons, acknowledged_cons]; rfl
      · intro hf
        rw [i hf, advance_scanIdx, hf]; simp [r1.scanIdx]
      · rw [hloop]
        rcases h with ⟨h, hk, ha⟩ | ⟨x, rest, hd, ⟨h, ha⟩ | ⟨h, ha | ha⟩⟩
        · exact .inl ⟨h, by simp [hk], by simp [a1, ha, probesActions]⟩
        · exact .inr ⟨x, rest, by simpa using hd, .inl ⟨h, by simp [a1, ha, probesActions]⟩⟩
        · exact .inr ⟨x, rest, by simpa using hd, .inr ⟨h, .inl (by simp [a1, ha, probesActions])⟩⟩
        · exact .inr ⟨x, rest, by simpa using hd, .inr ⟨h, .inr (by simp [a1, ha, probesActions])⟩⟩
    all_goals
      refine ⟨t1, e1, [], q1, fun _ => p1, ?_, ?_, ?_, ?_, .inr ⟨a, as, rfl, ?_⟩⟩
      · simp only [State.setScanAddr_params, List.length_cons, Nat.mul_add, Nat.add_mul] at c1 ⊢; omega
      · rw [d1.1]; rfl
      · rw [r1.outCnt]; simp [acknowledged]
      · intro _; rw [r1.scanIdx]; rfl
    · exact .inl ⟨by rw [scanLoop, h1], a1⟩
    · exact .inr ⟨by rw [scanLoop, h1], a1⟩

end Sys2Proof.Machine
end

