-- ==== Sys2Proof/Laws/Transactions.lean ====
section
/-! SUPPORT. What a whole engine sequence or scan can do, as `execWrite`, `execRead` and `execDetect` call it. -/

namespace Sys2Proof.Machine

theorem andThen_assoc (r : EngineResult) (f g : State → EngineResult) :
    andThen (andThen r f) g = andThen r fun s => andThen (f s) g := by
  obtain ⟨o, s⟩ := r
  cases o <;> rfl

/-- Everything `TxnWrite` can do (R175, R176, R189). -/
theorem txnWrite_cases (a r : Byte) (p : List Byte) (s : State) :
    ∃ t es, EngineRun s t es ∧ t.buf = s.buf ∧ t.busRx = s.busRx ∧ t.ph.isTx = false ∧
      pollCount es ≤ (4 + p.length) * s.params.tBus ∧
      ((txnWrite a r p s = (EngineOutcome.ok, t) ∧
          actions es = [Event.busStart, .busAddr (addr7 a) .write, .busSend r] ++ p.map Event.busSend ++ [Event.busStop]) ∨
       (txnWrite a r p s = (EngineOutcome.nack, t) ∧
          actions es = [Event.busStart, .busAddr (addr7 a) .write, .busClearAF, .busStop]) ∨
       (txnWrite a r p s = (EngineOutcome.timeout .busBusy, t) ∧ actions es = []) ∨
       (txnWrite a r p s = (EngineOutcome.timeout .busSelect, t) ∧
          (actions es = [Event.busStart, .busStop] ∨ actions es = [Event.busStart, .busAddr (addr7 a) .write, .busStop])) ∨
       (∃ i, i ≤ p.length ∧ txnWrite a r p s = (EngineOutcome.timeout .transfer, t) ∧
          actions es = [Event.busStart, .busAddr (addr7 a) .write, .busSend r] ++ (p.take i).map Event.busSend ++
            [Event.busStop])) := by
  obtain ⟨t1, e1, r1, d1, p1, c1, h⟩ := pointerPhase_cases a r s
  have hs : txnWrite a r p s = andThen (andThen (addrPhase a s) (sendPointer r)) fun s2 =>
      andThen (sendPayload p ((s2.setPh .exWdata).setIdx 0#8)) fun s3 => (.ok, s3.log .busStop) := by
    rw [andThen_assoc]; rfl
  have hc : pollCount e1 ≤ (4 + p.length) * s.params.tBus := by rw [Nat.add_mul]; omega
  rcases h with ⟨h, _, ha⟩ | ⟨h, ha⟩ | ⟨h, ha⟩ | ⟨h, ha⟩ | ⟨h, ha⟩
  · have q1 := (r1.trans (EngineRun.setPh t1 .exWdata)).trans (EngineRun.setIdx (t1.setPh .exWdata) 0#8)
    obtain ⟨t2, e2, r2, b2, x2, p2, c2, h2⟩ := sendPayload_cases p ((t1.setPh .exWdata).setIdx 0#8)
    rw [q1.params] at c2
    rcases h2 with ⟨h2, _, a2⟩ | ⟨i, hi, h2, _, a2⟩
    · refine ⟨_, _, (q1.trans r2).trans (EngineRun.log t2 .busStop rfl), by simp [b2, d1.1], by simp [x2, d1.2.2],
        by simp [p2, Phase.isTx], ?_, .inl ⟨by simp [hs, h, h2], ?_⟩⟩
      · rw [Nat.add_mul]; simp [pollCount_cons, Event.polls]; omega
      · rw [actions_append, actions_append, a2, actions_append, actions_append, ha]; simp [actions]
    · refine ⟨_, _, q1.trans r2, by simp [b2, d1.1], by simp [x2, d1.2.2], by simp [p2, Phase.isTx], ?_,
        .inr (.inr (.inr (.inr ⟨i + 1, by omega, by simp [hs, h, h2], ?_⟩)))⟩
      · rw [Nat.add_mul]; simp; omega
      · rw [actions_append, a2, actions_append, actions_append, ha]; simp
  · exact ⟨t1, e1, r1, d1.1, d1.2.2, p1, hc, .inr (.inl ⟨by simp [hs, h], ha⟩)⟩
  · exact ⟨t1, e1, r1, d1.1, d1.2.2, p1, hc, .inr (.inr (.inl ⟨by simp [hs, h], ha⟩))⟩
  · exact ⟨t1, e1, r1, d1.1, d1.2.2, p1, hc, .inr (.inr (.inr (.inl ⟨by simp [hs, h], ha⟩)))⟩
  · exact ⟨t1, e1, r1, d1.1, d1.2.2, p1, hc,
      .inr (.inr (.inr (.inr ⟨0, Nat.zero_le _, by simp [hs, h], by simpa using ha⟩)))⟩

/-- The actions of a READ up to its pointer byte, and up to its repeated start. -/
abbrev pointerActions (a r : Byte) : List Event := [.busStart, .busAddr (addr7 a) .write, .busSend r]

/-- Everything `TxnRead` can do (R177 to R180, R189). -/
theorem txnRead_cases (a r n : Byte) (s : State) :
    ∃ t es, EngineRun s t es ∧ t.ph.isTx = false ∧
      pollCount es ≤ (if n = 0#8 then 4 else 6 + n.toNat) * s.params.tBus ∧
      ((txnRead a r n s = (EngineOutcome.ok, t) ∧ t.buf = s.buf.writeRange 0 (s.busBytes n.toNat) ∧
          ((n = 0#8 ∧ actions es = pointerActions a r ++ [Event.busStop]) ∨
           (n ≠ 0#8 ∧ actions es = pointerActions a r ++ [Event.busStart, .busAddr (addr7 a) .read] ++
              (s.busBytes (n.toNat - 1)).map Event.busRecv ++
              [Event.busAck .none, .busStop, .busRecv (s.busAhead (n.toNat - 1)), .busAck .current]))) ∨
       (t.buf = s.buf ∧
          ((txnRead a r n s = (EngineOutcome.nack, t) ∧
              (actions es = [Event.busStart, .busAddr (addr7 a) .write, .busClearAF, .busStop] ∨
               n ≠ 0#8 ∧ actions es =
                 pointerActions a r ++ [Event.busStart, .busAddr (addr7 a) .read, .busClearAF, .busStop])) ∨
           (txnRead a r n s = (EngineOutcome.timeout .busBusy, t) ∧ actions es = []) ∨
           (txnRead a r n s = (EngineOutcome.timeout .busSelect, t) ∧
              (actions es = [Event.busStart, .busStop] ∨ actions es = [Event.busStart, .busAddr (addr7 a) .write, .busStop] ∨
               n ≠ 0#8 ∧ actions es = pointerActions a r ++ [Event.busStart, .busStop] ∨
               n ≠ 0#8 ∧ actions es = pointerActions a r ++ [Event.busStart, .busAddr (addr7 a) .read, .busStop])) ∨
           (txnRead a r n s = (EngineOutcome.timeout .transfer, t) ∧ actions es = pointerActions a r ++ [Event.busStop]))) ∨
       (∃ i, i < n.toNat ∧ txnRead a r n s = (EngineOutcome.timeout .transfer, t) ∧
          t.buf = s.buf.writeRange 0 (s.busBytes i) ∧
          actions es = pointerActions a r ++ [Event.busStart, .busAddr (addr7 a) .read] ++
            (s.busBytes i).map Event.busRecv ++
            (if i + 1 = n.toNat then [Event.busAck .none, .busStop, .busStop, .busAck .current]
             else [Event.busStop, .busAck .current]))) := by
  obtain ⟨t1, e1, r1, d1, p1, c1, h⟩ := pointerPhase_cases a r s
  have hs : txnRead a r n s = andThen (andThen (addrPhase a s) (sendPointer r)) fun s2 =>
      if n = 0#8 then (.ok, s2.log .busStop)
      else andThen (reAddrPhase a s2) fun s3 => recvPayload n.toNat ((s3.setPh .exRdata).setIdx 0#8) := by
    rw [andThen_assoc]; rfl
  have hc : pollCount e1 ≤ (if n = 0#8 then 4 else 6 + n.toNat) * s.params.tBus := by
    split
    · exact c1
    · rw [Nat.add_mul]; omega
  rcases h with ⟨h, _, ha⟩ | ⟨h, ha⟩ | ⟨h, ha⟩ | ⟨h, ha⟩ | ⟨h, ha⟩
  · by_cases hn : n = 0#8
    · refine ⟨_, _, r1.trans (EngineRun.log t1 .busStop rfl), p1, ?_,
        .inl ⟨by rw [hs, h, andThen_ok, if_pos hn], ?_, .inl ⟨hn, ?_⟩⟩⟩
      · rw [pollCount_append]; exact hc
      · subst hn; exact d1.1
      · rw [actions_append, ha]; simp [actions]
    · obtain ⟨t2, e2, r2, d2, p2, c2, h2⟩ := reAddrPhase_cases a t1
      rw [r1.params] at c2
      have hc2 : pollCount (e1 ++ e2) ≤ (if n = 0#8 then 4 else 6 + n.toNat) * s.params.tBus := by
        rw [if_neg hn, Nat.add_mul]; simp; omega
      have q2 := r1.trans r2
      rcases h2 with ⟨h2, a2⟩ | ⟨h2, a2⟩ | ⟨h2, a2⟩
      · have q3 := (q2.trans (EngineRun.setPh t2 .exRdata)).trans (EngineRun.setIdx (t2.setPh .exRdata) 0#8)
        obtain ⟨k, hk⟩ : ∃ k, n.toNat = k + 1 := by
          refine ⟨n.toNat - 1, ?_⟩
          have : n.toNat ≠ 0 := fun h => hn (by simpa [BitVec.toNat_eq] using h)
          omega
        have hx : ((t2.setPh .exRdata).setIdx 0#8).busRx = s.busRx := d2.2.2.trans d1.2.2
        have ha' : ∀ j, ((t2.setPh .exRdata).setIdx 0#8).busAhead j = s.busAhead j := fun j =>
          congrArg (fun f : Feed Byte => (f.advance j).next Config.busByte) hx
        have hb : ∀ j, ((t2.setPh .exRdata).setIdx 0#8).busBytes j = s.busBytes j := fun j =>
          List.map_congr_left fun j _ => ha' j
        obtain ⟨t3, e3, r3, p3, c3, h3⟩ := recvPayload_cases k ((t2.setPh .exRdata).setIdx 0#8) (by
          have : bufLen = 255 := rfl
          simp; omega)
        have hr : txnRead a r n s = recvPayload (k + 1) ((t2.setPh .exRdata).setIdx 0#8) := by
          simp [hs, h, hn, h2, hk]
        have hph : t3.ph.isTx = false := by rw [p3]; rfl
        have hc3 : pollCount (e1 ++ e2 ++ [] ++ [] ++ e3) ≤ (if n = 0#8 then 4 else 6 + n.toNat) * s.params.tBus := by
          rw [q3.params] at c3
          rw [if_neg hn, hk, Nat.add_mul]; simp; omega
        have hbuf : ((t2.setPh .exRdata).setIdx 0#8).buf = s.buf := d2.1.trans d1.1
        rcases h3 with ⟨h3, b3, _, a3⟩ | ⟨i, hi, h3, b3, _, a3⟩
        · refine ⟨t3, _, q3.trans r3, hph, hc3, .inl ⟨hr.trans h3, ?_, .inr ⟨hn, ?_⟩⟩⟩
          · rw [b3, hbuf, hb, hk]; rfl
          · rw [actions_append, actions_append, actions_append, actions_append, ha, a2, a3, hb, hk,
              ha']
            simp
        · refine ⟨t3, _, q3.trans r3, hph, hc3, .inr (.inr ⟨i, by omega, hr.trans h3, ?_, ?_⟩)⟩
          · rw [b3, hbuf, hb]; rfl
          · rw [actions_append, actions_append, actions_append, actions_append, ha, a2, a3, hb, hk]
            simp
      · exact ⟨t2, _, q2, p2, hc2, .inr (.inl ⟨d2.1.trans d1.1, .inl ⟨by simp [hs, h, hn, h2],
          .inr ⟨hn, by simp [ha, a2]⟩⟩⟩)⟩
      · refine ⟨t2, _, q2, p2, hc2, .inr (.inl ⟨d2.1.trans d1.1, .inr (.inr (.inl ⟨by simp [hs, h, hn, h2], ?_⟩))⟩)⟩
        rcases a2 with a2 | a2
        · exact .inr (.inr (.inl ⟨hn, by simp [ha, a2]⟩))
        · exact .inr (.inr (.inr ⟨hn, by simp [ha, a2]⟩))
  · exact ⟨t1, e1, r1, p1, hc, .inr (.inl ⟨d1.1, .inl ⟨by simp [hs, h], .inl ha⟩⟩)⟩
  · exact ⟨t1, e1, r1, p1, hc, .inr (.inl ⟨d1.1, .inr (.inl ⟨by simp [hs, h], ha⟩)⟩)⟩
  · exact ⟨t1, e1, r1, p1, hc, .inr (.inl ⟨d1.1, .inr (.inr (.inl ⟨by simp [hs, h],
      ha.elim .inl fun x => .inr (.inl x)⟩))⟩)⟩
  · exact ⟨t1, e1, r1, p1, hc, .inr (.inl ⟨d1.1, .inr (.inr (.inr ⟨by simp [hs, h], ha⟩))⟩)⟩

theorem candidates_length_le (as : List Byte) (h : payloadFits as = true) :
    1 ≤ (candidates as).length ∧ (candidates as).length ≤ bufLen := by
  cases as with
  | nil => decide
  | cons a as => exact ⟨by simp [candidates], of_decide_eq_true h⟩

/-- Everything the scan of a DETECT can do (R260, R264). -/
theorem scanAll_cases (as : List Byte) (s : State) (h : payloadFits as = true) :
    ∃ t es acks, ScanRun s t es ∧ t.ph.isTx = false ∧
      pollCount es ≤ 3 * (candidates as).length * s.params.tBus ∧
      t.buf = s.buf.writeRange 0 (acknowledged ((candidates as).zip acks)) ∧
      t.outCnt = BitVec.ofNat 8 (acknowledged ((candidates as).zip acks)).length ∧
      (as = [] → t.scanIdx = s.scanIdx) ∧
      ((scanAll as (s.setOutCnt 0#8) = (EngineOutcome.ok, t) ∧ acks.length = (candidates as).length ∧
          actions es = probesActions ((candidates as).zip acks)) ∨
       (∃ a rest, (candidates as).drop acks.length = a :: rest ∧
          ((scanAll as (s.setOutCnt 0#8) = (EngineOutcome.timeout .busBusy, t) ∧
              actions es = probesActions ((candidates as).zip acks)) ∨
           (scanAll as (s.setOutCnt 0#8) = (EngineOutcome.timeout .busSelect, t) ∧
             (actions es = probesActions ((candidates as).zip acks) ++ [Event.busStart, .busStop] ∨
              actions es = probesActions ((candidates as).zip acks) ++
                [Event.busStart, .busAddr (addr7 a) .write, .busStop]))))) := by
  obtain ⟨hl1, hl2⟩ := candidates_length_le as h
  have hne : candidates as ≠ [] := fun h => by simp [h] at hl1
  have q0 := ScanRun.setOutCnt s 0#8
  cases as with
  | nil =>
    obtain ⟨t, es, acks, q, p, c, b, o, i, hc⟩ :=
      scanLoop_cases false (candidates []) (s.setOutCnt 0#8) (by simpa using hl2)
    exact ⟨t, es, acks, q0.trans q, p hne, c, b, by simpa using o, fun _ => i rfl, hc⟩
  | cons x xs =>
    have q1 := q0.trans (ScanRun.setScanIdx (s.setOutCnt 0#8) 0#8)
    obtain ⟨t, es, acks, q, p, c, b, o, i, hc⟩ :=
      scanLoop_cases true (candidates (x :: xs)) ((s.setOutCnt 0#8).setScanIdx 0#8) (by simpa using hl2)
    exact ⟨t, es, acks, q1.trans q, p hne, c, b, by simpa using o, by simp, hc⟩

end Sys2Proof.Machine
end

