-- ==== Sys2Proof/Laws/Served.lean ====
section
/-! SUPPORT. The engine when every wait ends below its budget: which actions it makes and what it leaves. -/

namespace Sys2Proof.Machine

/-! ## Waits that end, and waits that do not -/

/-- The countdown after waits that end at these polls, from a countdown `c` (R186). -/
def countdownAfter (T : Nat) : Nat → List Nat → Nat
  | c, [] => c
  | _, k :: ks => countdownAfter T (T - k) ks

theorem countdownAfter_append (T c : Nat) (js ks : List Nat) :
    countdownAfter T c (js ++ ks) = countdownAfter T (countdownAfter T c js) ks := by
  induction js generalizing c with
  | nil => rfl
  | cons j js ih => exact ih (T - j)

/-- After at least one wait only the last counts. -/
theorem countdownAfter_eq (T c : Nat) (ks : List Nat) (h : ks ≠ []) : countdownAfter T c ks = T - ks.getLastD 0 := by
  induction ks generalizing c with
  | nil => cases h rfl
  | cons k ks ih =>
    cases ks with
    | nil => rfl
    | cons j js => exact ih (T - k) (by simp)

@[simp] theorem pollsOf_nil : pollsOf [] = 0 := rfl
@[simp] theorem pollsOf_cons (k : Nat) (ks : List Nat) : pollsOf (k :: ks) = (k + 1) + pollsOf ks := rfl
@[simp] theorem pollsOf_append (js ks : List Nat) : pollsOf (js ++ ks) = pollsOf js + pollsOf ks := by
  simp [pollsOf]

theorem State.undecided_iff (s : State) (done : Poll → Bool) (nackEn : Bool) (n k : Nat) :
    s.undecided done nackEn n k = true ↔ ∀ j, j < k → decides done nackEn (s.pollAhead (n + j)) = false := by
  simp [State.undecided, decides, imp_iff_not_or]

/-- What a list of waits asks of the polls is the same from a state some polls later. -/
theorem State.undecided_of_advance {s t : State} {m : Nat} (h : t.polls = s.polls.advance m) (done : Poll → Bool)
    (nackEn : Bool) (n k : Nat) : t.undecided done nackEn n k = s.undecided done nackEn (m + n) k := by
  simp only [State.undecided, State.pollAhead_of_advance h, Nat.add_assoc]

theorem State.waitEndsAt_of_advance {s t : State} {m : Nat} (h : t.polls = s.polls.advance m)
    (hp : t.params = s.params) (w : BusWait) (n k : Nat) (acked : Bool) :
    t.waitEndsAt w n k acked = s.waitEndsAt w (m + n) k acked := by
  simp only [State.waitEndsAt, State.undecided_of_advance h, State.pollAhead_of_advance h, hp, Nat.add_assoc]

theorem State.servedFrom_of_advance {s t : State} {m : Nat} (h : t.polls = s.polls.advance m)
    (hp : t.params = s.params) (n : Nat) (ws : List BusWait) (ks : List Nat) :
    t.servedFrom n ws ks = s.servedFrom (m + n) ws ks := by
  induction ws generalizing n ks with
  | nil => cases ks <;> rfl
  | cons w ws ih =>
    cases ks with
    | nil => rfl
    | cons k ks => simp only [State.servedFrom, State.waitEndsAt_of_advance h hp, ih, Nat.add_assoc]

theorem State.servedFrom_length {s : State} {n : Nat} {ws : List BusWait} {ks : List Nat}
    (h : s.servedFrom n ws ks = true) : ks.length = ws.length := by
  induction ws generalizing n ks with
  | nil => cases ks with
    | nil => rfl
    | cons k ks => cases h
  | cons w ws ih => cases ks with
    | nil => cases h
    | cons k ks =>
      simp only [State.servedFrom, Bool.and_eq_true] at h
      simp [ih h.2]

/-- Two lists of waits, one after the other. -/
theorem State.servedFrom_split {s : State} {n : Nat} {vs ws : List BusWait} {ks : List Nat}
    (h : s.servedFrom n (vs ++ ws) ks = true) :
    ∃ js ls, ks = js ++ ls ∧ s.servedFrom n vs js = true ∧ s.servedFrom (n + pollsOf js) ws ls = true := by
  induction vs generalizing n ks with
  | nil => exact ⟨[], ks, rfl, rfl, h⟩
  | cons v vs ih =>
    cases ks with
    | nil => cases h
    | cons k ks =>
      simp only [List.cons_append, State.servedFrom, Bool.and_eq_true] at h
      obtain ⟨js, ls, rfl, h1, h2⟩ := ih h.2
      exact ⟨k :: js, ls, rfl, by simp [State.servedFrom, h.1, h1], by rwa [pollsOf_cons, ← Nat.add_assoc]⟩

/-- A bus wait that ends at its poll `k` (R165, R166). -/
theorem busWait_ends {w : BusWait} {s : State} {k : Nat} {acked : Bool} (h : s.waitEndsAt w 0 k acked = true) :
    busWait w s = (if acked then .done else .nack, s.waited (k + 1) (s.params.tBus - k)) := by
  simp only [State.waitEndsAt, Bool.and_eq_true, decide_eq_true_eq, State.undecided_iff, Nat.zero_add] at h
  obtain ⟨⟨hk, hu⟩, he⟩ := h
  have hd : decides w.done w.nackEn (s.pollAhead k) = true := by
    cases acked <;> simp_all [decides]
  have key : ∀ n, n < s.params.tBus → (∀ j, j < n → decides w.done w.nackEn (s.pollAhead j) = false) →
      decides w.done w.nackEn (s.pollAhead n) = true → n = k := by
    intro n _ h1 h2
    rcases Nat.lt_trichotomy n k with h | h | h
    · rw [hu n h] at h2; cases h2
    · exact h
    · rw [h1 k h] at hd; cases hd
  rcases wait_cases w.done w.nackEn s.params.tBus s with ⟨n, hn, hj, hd', e⟩ | ⟨n, hn, hj, hd', hne, haf, e⟩ | ⟨hj, _⟩
  · obtain rfl := key n hn hj (by simp [decides, hd'])
    cases acked
    · simp [hd'] at he
    · exact e
  · obtain rfl := key n hn hj (by simp [decides, hne, haf])
    cases acked
    · exact e
    · simp [hd'] at he
  · rw [hj k hk] at hd; cases hd

/-- A bus wait that no poll of its budget decides (R166). -/
theorem busWait_expires {w : BusWait} {s : State} (h : s.undecided w.done w.nackEn 0 s.params.tBus = true) :
    busWait w s = (.expired, s.waited s.params.tBus 0) := by
  simp only [State.undecided_iff, Nat.zero_add] at h
  rcases wait_cases w.done w.nackEn s.params.tBus s with ⟨n, hn, _, hd, _⟩ | ⟨n, hn, _, _, hne, haf, _⟩ | ⟨_, e⟩
  · have := h n hn; simp [decides, hd] at this
  · have := h n hn; simp [decides, hne, haf] at this
  · exact e

theorem awaitOr_ends {w : BusWait} {s : State} {k : Nat} (c : State → State) (h : s.waitEndsAt w 0 k true = true) :
    awaitOr w c s = (.ok, s.waited (k + 1) (s.params.tBus - k)) := by
  simp [awaitOr, busWait_ends h]

/-! ## Sequences that are served -/

/-- A run of the engine whose waits ended at the polls `ks`: it stands as `EngineRun`, with these actions and these poll
records. -/
structure ServedRun (s t : State) (ks : List Nat) (acts : List Event) : Prop where
  run : ∃ es, EngineRun s t es ∧ actions es = acts ∧ pollRecords es = (List.range (pollsOf ks)).map s.pollAhead
  toCnt : t.toCnt = countdownAfter s.params.tBus s.toCnt ks
  polls : t.polls = s.polls.advance (pollsOf ks)

theorem ServedRun.params {s t : State} {ks : List Nat} {as : List Event} (h : ServedRun s t ks as) :
    t.params = s.params := by
  obtain ⟨_, r, _, _⟩ := h.run
  exact r.params

theorem ServedRun.trans {s t u : State} {js ks : List Nat} {as bs : List Event} (h : ServedRun s t js as)
    (k : ServedRun t u ks bs) : ServedRun s u (js ++ ks) (as ++ bs) := by
  obtain ⟨es, r1, a1, p1⟩ := h.run
  obtain ⟨fs, r2, a2, p2⟩ := k.run
  refine ⟨⟨es ++ fs, r1.trans r2, by rw [actions_append, a1, a2], ?_⟩, ?_, ?_⟩
  · rw [pollRecords_append, p1, p2, pollsOf_append, range_map_add]
    congr 1
    exact List.map_congr_left fun j _ => State.pollAhead_of_advance h.polls j
  · rw [k.toCnt, h.toCnt, h.params, countdownAfter_append]
  · rw [k.polls, h.polls]; simp

/-- Register updates and actions make no poll. -/
theorem ServedRun.of_run {s t : State} {es : List Event} (h : EngineRun s t es) (hp : pollRecords es = [])
    (hc : t.toCnt = s.toCnt) : ServedRun s t [] (actions es) :=
  ⟨⟨es, h, rfl, hp⟩, hc, by rw [h.polls, ← pollRecords_length, hp]; rfl⟩

theorem ServedRun.setPh (s : State) (p : Phase) : ServedRun s (s.setPh p) [] [] :=
  .of_run (EngineRun.setPh s p) rfl rfl

theorem ServedRun.setIdx (s : State) (v : Byte) : ServedRun s (s.setIdx v) [] [] :=
  .of_run (EngineRun.setIdx s v) rfl rfl

theorem ServedRun.log (s : State) (e : Event) (h : plainAction e = true) : ServedRun s (s.log e) [] [e] := by
  have := ServedRun.of_run (EngineRun.log s e h) (by cases e <;> first | rfl | cases h) rfl
  rwa [show actions [e] = [e] by cases e <;> first | rfl | cases h] at this

theorem ServedRun.waited (s : State) (k : Nat) : ServedRun s (s.waited (k + 1) (s.params.tBus - k)) [k] [] :=
  ⟨⟨_, EngineRun.waited s (k + 1) _ (Nat.sub_le _ _), actions_pollEvents s _, pollRecords_pollEvents s _⟩, rfl, rfl⟩

/-- `IdleWait`. -/
theorem idleWait_served (k : Nat) (s : State) (h : s.waitEndsAt .idle 0 k true = true) :
    ∃ t, idleWait s = (.ok, t) ∧ SameData s t ∧ t.ph = .exIdle ∧ ServedRun s t [k] [] :=
  ⟨(s.setPh .exIdle).waited (k + 1) (s.params.tBus - k), awaitOr_ends (s := s.setPh .exIdle) id h, ⟨rfl, rfl, rfl⟩, rfl,
    (ServedRun.setPh s .exIdle).trans (ServedRun.waited _ k)⟩

/-- `Start(p)`. -/
theorem startCondition_served (p : Phase) (k : Nat) (s : State) (h : s.waitEndsAt .mms 0 k true = true) :
    ∃ t, startCondition p s = (.ok, t) ∧ SameData s t ∧ t.ph = p ∧ ServedRun s t [k] [.busStart] :=
  ⟨((s.setPh p).log .busStart).waited (k + 1) (s.params.tBus - k),
    awaitOr_ends (s := (s.setPh p).log .busStart) _ h, ⟨rfl, rfl, rfl⟩, rfl,
    ((ServedRun.setPh s p).trans (ServedRun.log _ .busStart rfl)).trans (ServedRun.waited _ k)⟩

/-- An address that is acknowledged, or is not. -/
theorem address_served (a : Byte) (d : Direction) (k : Nat) (acked : Bool) (s : State)
    (h : s.waitEndsAt d.addressWait 0 k acked = true) :
    ∃ t, address a d s = (if acked then .ok else .nack, t) ∧ SameData s t ∧ t.ph = d.phase ∧
      ServedRun s t [k] (if acked then [Event.busAddr (addr7 a) d] else [Event.busAddr (addr7 a) d, .busClearAF, .busStop]) := by
  let u := (s.setPh d.phase).log (.busAddr (addr7 a) d)
  have e : busWait d.addressWait u = _ := busWait_ends (s := u) (acked := acked) h
  have r : ServedRun s (u.waited (k + 1) (s.params.tBus - k)) [k] [.busAddr (addr7 a) d] :=
    ((ServedRun.setPh s d.phase).trans (ServedRun.log _ (.busAddr (addr7 a) d) rfl)).trans (ServedRun.waited u k)
  have hA : address a d s = (match busWait d.addressWait u with
      | (.done, t) => (.ok, t)
      | (.nack, t) => (.nack, (t.log .busClearAF).log .busStop)
      | (.expired, t) => (.timeout d.addressWait.expiryKind, t.log .busStop)) := rfl
  rw [hA, e]
  cases acked with
  | true => exact ⟨_, rfl, ⟨rfl, rfl, rfl⟩, rfl, r⟩
  | false => exact ⟨_, rfl, ⟨rfl, rfl, rfl⟩, rfl, (r.trans (ServedRun.log _ .busClearAF rfl)).trans (ServedRun.log _ .busStop rfl)⟩

/-- The address phase of a device that acknowledges, or does not. -/
theorem addrPhase_served (a : Byte) (s : State) (e : ProbeEnd) (h : s.probedFrom 0 [e] = true) :
    ∃ t, addrPhase a s = (if e.acked then .ok else .nack, t) ∧ SameData s t ∧ t.ph = .exAddrW ∧
      ServedRun s t [e.idle, e.start, e.address] (if e.acked then [Event.busStart, .busAddr (addr7 a) .write]
        else [Event.busStart, .busAddr (addr7 a) .write, .busClearAF, .busStop]) := by
  simp only [State.probedFrom, State.servedFrom, Bool.and_true, Bool.and_eq_true, pollsOf_cons, pollsOf_nil,
    Nat.zero_add, Nat.add_zero] at h
  obtain ⟨⟨h1, h2⟩, h3⟩ := h
  obtain ⟨s1, e1, d1, _, r1⟩ := idleWait_served e.idle s h1
  obtain ⟨s2, e2, d2, _, r2⟩ := startCondition_served .exStart e.start s1 (by
    rw [State.waitEndsAt_of_advance r1.polls r1.params]; simpa using h2)
  have r12 := r1.trans r2
  obtain ⟨s3, e3, d3, p3, r3⟩ := address_served a .write e.address e.acked s2 (by
    rw [State.waitEndsAt_of_advance r12.polls r12.params]
    simpa [Direction.addressWait, Nat.add_assoc] using h3)
  refine ⟨s3, by rw [addrPhase, e1, andThen_ok, e2, andThen_ok, e3], (d1.trans d2).trans d3, p3, ?_⟩
  have := r12.trans r3
  cases hk : e.acked <;> simpa [hk] using this

/-- One byte that is confirmed. -/
theorem sendByte_served (w : BusWait) (b : Byte) (k : Nat) (s : State) (h : s.waitEndsAt w 0 k true = true) :
    ∃ t, sendByte w b s = (.ok, t) ∧ SameData s t ∧ t.ph = s.ph ∧ ServedRun s t [k] [.busSend b] :=
  ⟨(s.log (.busSend b)).waited (k + 1) (s.params.tBus - k), awaitOr_ends (s := s.log (.busSend b)) _ h, ⟨rfl, rfl, rfl⟩,
    rfl, (ServedRun.log s (.busSend b) rfl).trans (ServedRun.waited _ k)⟩

/-- A device whose address phase is served. -/
theorem State.probedFrom_of_served {s : State} {k1 k2 k3 : Nat} (h : s.servedFrom 0 [.idle, .mms, .tms] [k1, k2, k3] = true) :
    s.probedFrom 0 [⟨k1, k2, k3, true⟩] = true := by
  simp only [State.servedFrom, Bool.and_true, Bool.and_eq_true] at h
  simp only [State.probedFrom, State.servedFrom, Bool.and_true, Bool.and_eq_true, pollsOf_cons, pollsOf_nil, Nat.add_zero]
  exact ⟨⟨h.1, h.2.1⟩, by simpa [Nat.add_assoc] using h.2.2⟩

theorem State.servedFrom_three {s : State} {n : Nat} {u v w : BusWait} {ks : List Nat}
    (h : s.servedFrom n [u, v, w] ks = true) : ∃ k1 k2 k3, ks = [k1, k2, k3] := by
  have := State.servedFrom_length h
  match ks, this with
  | [a, b, c], _ => exact ⟨a, b, c, rfl⟩

/-- The address phase and the pointer byte. -/
theorem pointerPhase_served (a r : Byte) (ks : List Nat) (s : State)
    (h : s.servedFrom 0 [.idle, .mms, .tms, .btxPointer] ks = true) :
    ∃ t, andThen (addrPhase a s) (sendPointer r) = (.ok, t) ∧ SameData s t ∧ t.ph = .exReg ∧
      ServedRun s t ks (pointerActions a r) := by
  obtain ⟨js, ls, rfl, h1, h2⟩ := State.servedFrom_split (vs := [.idle, .mms, .tms]) (ws := [.btxPointer]) h
  obtain ⟨k1, k2, k3, rfl⟩ := State.servedFrom_three h1
  obtain ⟨t1, e1, d1, _, r1⟩ := addrPhase_served a s _ (State.probedFrom_of_served h1)
  have r1' := r1.trans (ServedRun.setPh t1 .exReg)
  match ls, State.servedFrom_length h2 with
  | [k], _ =>
    simp only [State.servedFrom, Bool.and_true, Nat.zero_add] at h2
    obtain ⟨t2, e2, d2, p2, r2⟩ := sendByte_served .btxPointer r k (t1.setPh .exReg) (by
      rw [State.waitEndsAt_of_advance r1'.polls r1'.params]; simpa using h2)
    exact ⟨t2, by rw [e1]; simp [sendPointer, e2], d1.trans d2, by simp [p2], r1'.trans r2⟩

/-- The payload loop of a WRITE. -/
theorem sendPayload_served (bs : List Byte) (ks : List Nat) (s : State)
    (h : s.servedFrom 0 (List.replicate bs.length .btxData) ks = true) :
    ∃ t, sendPayload bs s = (.ok, t) ∧ t.buf = s.buf ∧ t.busRx = s.busRx ∧ t.ph = s.ph ∧
      t.idx = s.idx + BitVec.ofNat 8 bs.length ∧ ServedRun s t ks (bs.map .busSend) := by
  induction bs generalizing s ks with
  | nil =>
    cases ks with
    | nil => exact ⟨s, rfl, rfl, rfl, rfl, by simp, ServedRun.of_run (EngineRun.refl s) rfl rfl⟩
    | cons k ks => cases h
  | cons b bs ih =>
    cases ks with
    | nil => cases h
    | cons k ks =>
      simp only [List.length_cons, List.replicate_succ, State.servedFrom, Bool.and_eq_true, Nat.zero_add] at h
      obtain ⟨t1, e1, d1, p1, r1⟩ := sendByte_served .btxData b k s h.1
      have r1' := r1.trans (ServedRun.setIdx t1 (t1.idx + 1#8))
      obtain ⟨t2, e2, b2, x2, p2, i2, r2⟩ := ih ks (t1.setIdx (t1.idx + 1#8)) (by
        rw [State.servedFrom_of_advance r1'.polls r1'.params]; simpa using h.2)
      refine ⟨t2, by rw [sendPayload, e1, andThen_ok, e2], by simp [b2, d1.1], by simp [x2, d1.2.2], by simp [p2, p1],
        ?_, r1'.trans r2⟩
      rw [i2]; simp [d1.2.1, BitVec.ofNat_add, BitVec.add_assoc, BitVec.add_comm 1#8]

/-- The repeated start of a READ. -/
theorem reAddrPhase_served (a : Byte) (ks : List Nat) (s : State) (h : s.servedFrom 0 [.mms, .rms] ks = true) :
    ∃ t, reAddrPhase a s = (.ok, t) ∧ SameData s t ∧ t.ph = .exAddrR ∧
      ServedRun s t ks [.busStart, .busAddr (addr7 a) .read] := by
  match ks, State.servedFrom_length h with
  | [k1, k2], _ =>
    simp only [State.servedFrom, Bool.and_true, Bool.and_eq_true, Nat.zero_add] at h
    obtain ⟨s1, e1, d1, _, r1⟩ := startCondition_served .exRestart k1 s h.1
    obtain ⟨s2, e2, d2, p2, r2⟩ := address_served a .read k2 true s1 (by
      rw [State.waitEndsAt_of_advance r1.polls r1.params]; simpa [Direction.addressWait] using h.2)
    exact ⟨s2, by rw [reAddrPhase, e1, andThen_ok, e2]; rfl, d1.trans d2, p2, r1.trans r2⟩

/-- One byte received. -/
theorem recvByte_served (k : Nat) (s : State) (h : s.waitEndsAt .brx 0 k true = true) (hi : s.idx.toNat < bufLen) :
    ServedRun s (recvByte (s.waited (k + 1) (s.params.tBus - k))) [k] [.busRecv (s.busAhead 0)] ∧
      (recvByte (s.waited (k + 1) (s.params.tBus - k))).buf = s.buf.write s.idx.toNat (s.busAhead 0) ∧
      (recvByte (s.waited (k + 1) (s.params.tBus - k))).idx = s.idx + 1#8 ∧
      (recvByte (s.waited (k + 1) (s.params.tBus - k))).busRx = s.busRx.advance 1 ∧
      (recvByte (s.waited (k + 1) (s.params.tBus - k))).ph = s.ph := by
  have hd : (s.pollAhead k).evBrx = true := by
    simp only [State.waitEndsAt, Bool.and_eq_true, Nat.zero_add, if_true] at h
    exact h.2
  obtain ⟨r, b, i, x, p⟩ := EngineRun.received s k (s.params.tBus - k) (Nat.sub_le _ _) hd hi
  refine ⟨⟨⟨_, r, ?_, ?_⟩, ?_, ?_⟩, b, i, x, p⟩
  · rw [actions_append, actions_pollEvents]; rfl
  · rw [pollRecords_append, pollRecords_pollEvents]; simp [pollRecords]
  · simp only [recvByte, State.bufStore]
    split <;> rfl
  · rw [r.polls, pollCount_append, pollCount_pollEvents]; rfl

/-- The receive loop of a READ. -/
theorem recvPayload_served (m : Nat) (ks : List Nat) (s : State) (hi : s.idx.toNat + (m + 1) ≤ bufLen)
    (h : s.servedFrom 0 (List.replicate (m + 1) .brx) ks = true) :
    ∃ t, recvPayload (m + 1) s = (.ok, t) ∧ t.ph = s.ph ∧ t.buf = s.buf.writeRange s.idx.toNat (s.busBytes (m + 1)) ∧
      t.idx = s.idx + BitVec.ofNat 8 (m + 1) ∧ t.busRx = s.busRx.advance (m + 1) ∧
      ServedRun s t ks ((s.busBytes m).map .busRecv ++
        [.busAck .none, .busStop, .busRecv (s.busAhead m), .busAck .current]) := by
  induction m generalizing s ks with
  | zero =>
    match ks, State.servedFrom_length h with
    | [k], _ =>
      simp only [List.replicate_succ, List.replicate_zero, State.servedFrom, Bool.and_true] at h
      let s0 := (s.log (.busAck .none)).log .busStop
      have h0 : s0.waitEndsAt .brx 0 k true = true := h
      have e := awaitOr_ends (fun t => (t.log .busStop).log (.busAck .current)) h0
      have r0 : ServedRun s s0 [] [.busAck .none, .busStop] :=
        (ServedRun.log s (.busAck .none) rfl).trans (ServedRun.log _ .busStop rfl)
      obtain ⟨r1, b1, i1, x1, p1⟩ := recvByte_served k s0 h0 (show s.idx.toNat < bufLen by omega)
      refine ⟨(recvByte (s0.waited (k + 1) (s.params.tBus - k))).log (.busAck .current), ?_, p1, b1, i1, x1,
        (r0.trans r1).trans (ServedRun.log _ (.busAck .current) rfl)⟩
      show andThen (awaitOr .brx (fun t => (t.log .busStop).log (.busAck .current)) s0) _ = _
      rw [e, andThen_ok]; rfl
  | succ m ih =>
    cases ks with
    | nil => cases h
    | cons k ks =>
      rw [List.replicate_succ, State.servedFrom, Bool.and_eq_true] at h
      have e := awaitOr_ends (fun t => (t.log .busStop).log (.busAck .current)) h.1
      obtain ⟨r1, b1, i1, x1, p1⟩ := recvByte_served k s h.1 (by omega)
      generalize hu : recvByte (s.waited (k + 1) (s.params.tBus - k)) = u at b1 i1 x1 p1 r1
      have hi1 : u.idx.toNat = s.idx.toNat + 1 := by
        have : bufLen = 255 := rfl
        rw [i1, BitVec.toNat_add]; simp; omega
      obtain ⟨t, e2, p2, b2, i2, x2, r2⟩ := ih ks u (by omega) (by
        rw [State.servedFrom_of_advance r1.polls r1.params]; simpa using h.2)
      refine ⟨t, ?_, p2.trans p1, ?_, ?_, ?_, ?_⟩
      · rw [recvPayload]
        simp only [prepareByte, Nat.add_one_ne_zero, beq_iff_eq, if_false, e, andThen_ok, hu, e2]
      · rw [b2, hi1, b1, State.busBytes_succ x1 (m + 1)]; rfl
      · rw [i2, i1]; simp [BitVec.ofNat_add, BitVec.add_assoc, BitVec.add_comm 1#8]
      · rw [x2, x1]; simp [Nat.add_comm]
      · have := r1.trans r2
        rw [State.busAhead_of_advance x1, Nat.add_comm 1 m] at this
        rw [State.busBytes_succ x1 m]; exact this

/-! ## Probes -/

/-- A probe that meets no expiry. -/
theorem probe_served (a : Byte) (s : State) (e : ProbeEnd) (h : s.probedFrom 0 [e] = true) :
    ∃ t, probe a s = (if e.acked then .ok else .nack, t) ∧ SameData s t ∧ t.ph = .exAddrW ∧
      ServedRun s t [e.idle, e.start, e.address] (probeActions a e.acked) := by
  obtain ⟨t, e1, d, p, r⟩ := addrPhase_served a s e h
  cases hk : e.acked with
  | true =>
    rw [hk] at e1 r
    exact ⟨t.log .busStop, by simp [probe, e1], d, p, r.trans (ServedRun.log t .busStop rfl)⟩
  | false =>
    rw [hk] at e1 r
    exact ⟨t, by simp [probe, e1], d, p, r⟩

theorem State.probedFrom_of_advance {s t : State} {m : Nat} (h : t.polls = s.polls.advance m)
    (hp : t.params = s.params) (n : Nat) (es : List ProbeEnd) : t.probedFrom n es = s.probedFrom (m + n) es := by
  induction es generalizing n with
  | nil => rfl
  | cons e es ih =>
    simp only [State.probedFrom, State.servedFrom_of_advance h hp, State.waitEndsAt_of_advance h hp, ih, Nat.add_assoc]

/-- The scan loop when no probe meets an expiry. -/
theorem scanLoop_served (listed : Bool) (as : List Byte) (ends : List ProbeEnd) (s : State)
    (hl : s.outCnt.toNat + as.length ≤ bufLen) (hn : ends.length = as.length) (h : s.probedFrom 0 ends = true) :
    let probed := as.zip (ends.map fun e => e.acked)
    let polls := (ends.map fun e => e.polls).sum
    ∃ t es, scanLoop listed as s = (.ok, t) ∧ ScanRun s t es ∧ actions es = probesActions probed ∧
      pollRecords es = (List.range polls).map s.pollAhead ∧
      t.polls = s.polls.advance polls ∧
      t.buf = s.buf.writeRange s.outCnt.toNat (acknowledged probed) ∧
      t.outCnt = s.outCnt + BitVec.ofNat 8 (acknowledged probed).length ∧
      t.scanIdx = (if listed then s.scanIdx + BitVec.ofNat 8 as.length else s.scanIdx) ∧
      t.scanAddr = as.getLastD s.scanAddr ∧
      (as ≠ [] → t.ph = .exAddrW) ∧ t.toCnt = countdownAfter s.params.tBus s.toCnt (ends.map fun e => e.address) := by
  induction as generalizing s ends with
  | nil =>
    match ends, hn with
    | [], _ => exact ⟨s, [], rfl, ScanRun.refl s, rfl, rfl, by simp, rfl, by simp [acknowledged], by simp, rfl, by simp, rfl⟩
  | cons a as ih =>
    match ends, hn with
    | e :: ends, hn =>
    simp only [List.length_cons] at hl hn
    have h0 : s.probedFrom 0 [e] = true ∧ s.probedFrom e.polls ends = true := by
      simp only [State.probedFrom, Bool.and_eq_true, Bool.and_true, Nat.zero_add] at h ⊢
      exact h
    obtain ⟨t1, e1, d1, p1, r1⟩ := probe_served a (s.setScanAddr a) e h0.1
    obtain ⟨f1, q1, a1, pr1⟩ := r1.run
    have Q1 : ScanRun s t1 f1 := (ScanRun.setScanAddr s a).trans (q1.scan d1)
    have ho : t1.outCnt.toNat < bufLen := by rw [q1.outCnt]; simp; omega
    have hbl : bufLen = 255 := rfl
    let u := advance listed (if e.acked then retain t1 else t1)
    have hu : scanLoop listed (a :: as) s = scanLoop listed as u := by
      rw [scanLoop, e1]; cases hb : e.acked <;> simp [u, hb]
    have qu : ScanRun t1 u [] := by
      cases hb : e.acked
      · simp only [u, hb]; exact ScanRun.advance _ _
      · simp only [u, hb]; exact (ScanRun.retain t1 ho).trans (ScanRun.advance _ _)
    have ou : u.outCnt = s.outCnt + BitVec.ofNat 8 (if e.acked then 1 else 0) := by
      cases hb : e.acked
      · simp [u, hb, q1.outCnt]
      · simp [u, hb, q1.outCnt, retain_eq t1 ho]
    have ou' : u.outCnt.toNat = s.outCnt.toNat + (if e.acked then 1 else 0) := by
      rw [ou, BitVec.toNat_add]; split <;> simp <;> omega
    have bu : u.buf = s.buf.writeRange s.outCnt.toNat (if e.acked then [a] else []) := by
      cases hb : e.acked
      · simp [u, hb, d1.1, Memory.writeRange]
      · simp [u, hb, d1.1, retain_eq t1 ho, q1.outCnt, q1.scanAddr, Memory.writeRange]
    have pu : u.ph = .exAddrW := by cases hb : e.acked <;> simp [u, hb, p1, retain_eq t1 ho]
    have tu : u.toCnt = s.params.tBus - e.address := by
      have e' : u.toCnt = t1.toCnt := by cases hb : e.acked <;> cases listed <;> simp [u, hb, retain_eq t1 ho, advance]
      rw [e', r1.toCnt]; rfl
    have su : u.scanAddr = a := by cases hb : e.acked <;> simp [u, hb, q1.scanAddr, retain_eq t1 ho]
    have iu : u.scanIdx = if listed then s.scanIdx + 1#8 else s.scanIdx := by
      cases hb : e.acked <;> simp [u, hb, q1.scanIdx, retain_eq t1 ho, advance_scanIdx]
    have plu : u.polls = s.polls.advance e.polls := by rw [qu.polls, r1.polls]; simp [ProbeEnd.polls]
    have pru : u.params = s.params := by rw [qu.params, q1.params]; rfl
    have pa : ∀ j, u.pollAhead j = s.pollAhead (e.polls + j) := fun j => State.pollAhead_of_advance plu j
    obtain ⟨t, es, e2, q2, a2, pr2, pl2, b2, o2, i2, s2, z2, c2⟩ := ih ends u (by rw [ou']; split <;> omega)
      (by omega) (by rw [State.probedFrom_of_advance plu pru]; exact h0.2)
    have ack : ∀ A, acknowledged ((a :: as).zip (e.acked :: A)) = (if e.acked then [a] else []) ++ acknowledged (as.zip A) := by
      intro A; rw [List.zip_cons_cons, acknowledged_cons]; cases e.acked <;> rfl
    simp only [List.map_cons, ack, List.sum_cons]
    refine ⟨t, f1 ++ [] ++ es, hu.trans e2, (Q1.trans qu).trans q2, ?_, ?_, ?_, ?_, ?_, ?_, ?_, ?_, ?_⟩
    · simp [a1, a2, probesActions]
    · rw [pollRecords_append, pollRecords_append, pr1, pr2, pollRecords_nil, List.append_nil, range_map_add]
      exact congrArg₂ _ rfl (List.map_congr_left fun j _ => pa j)
    · rw [pl2, plu]; simp
    · rw [b2, ou', bu]
      cases e.acked <;> rfl
    · rw [o2, ou]
      cases e.acked <;> simp [BitVec.ofNat_add, BitVec.add_assoc, BitVec.add_comm 1#8]
    · rw [i2, iu]
      cases listed <;> simp [BitVec.ofNat_add, BitVec.add_assoc, BitVec.add_comm 1#8]
    · rw [s2, su]; exact (List.getLastD_cons ..).symm
    · intro _
      cases as with
      | nil => simp only [scanLoop, Prod.mk.injEq, true_and] at e2; subst e2; exact pu
      | cons x xs => exact z2 (by simp)
    · rw [c2, pru, tu]; rfl

end Sys2Proof.Machine
end

