-- ==== Sys2Proof/Laws/Expired.lean ====
section
/-! SUPPORT. The engine when one of its waits sees no end for `T_BUS` polls, those before it having ended: which actions it
makes, what it leaves, and how it fails. -/

namespace Sys2Proof.Machine

/-- A run of the engine whose last wait expired, the waits before it having ended at the polls `ks`. -/
structure ExpiredRun (s t : State) (ks : List Nat) (acts : List Event) : Prop where
  run : ∃ es, EngineRun s t es ∧ actions es = acts ∧
    pollRecords es = (List.range (pollsOf ks + s.params.tBus)).map s.pollAhead
  toCnt : t.toCnt = 0
  polls : t.polls = s.polls.advance (pollsOf ks + s.params.tBus)

theorem ExpiredRun.waited (s : State) : ExpiredRun s (s.waited s.params.tBus 0) [] [] :=
  ⟨⟨_, EngineRun.waited s _ 0 (Nat.zero_le _), actions_pollEvents s _, by rw [pollRecords_pollEvents]; simp⟩, rfl, by simp⟩

/-- Waits that end, and then one that expires. -/
theorem ServedRun.expired {s t u : State} {js ks : List Nat} {as bs : List Event} (h : ServedRun s t js as)
    (k : ExpiredRun t u ks bs) : ExpiredRun s u (js ++ ks) (as ++ bs) := by
  obtain ⟨es, r1, a1, p1⟩ := h.run
  obtain ⟨fs, r2, a2, p2⟩ := k.run
  refine ⟨⟨es ++ fs, r1.trans r2, by rw [actions_append, a1, a2], ?_⟩, k.toCnt, ?_⟩
  · rw [pollRecords_append, p1, p2, h.params, pollsOf_append, Nat.add_assoc, range_map_add (n := pollsOf ks + s.params.tBus)]
    congr 1
    exact List.map_congr_left fun j _ => State.pollAhead_of_advance h.polls j
  · rw [k.polls, h.polls, h.params]; simp [Nat.add_assoc]

/-- The actions after an expiry. -/
theorem ExpiredRun.log {s t : State} {ks : List Nat} {as : List Event} (h : ExpiredRun s t ks as) (e : Event)
    (he : plainAction e = true) : ExpiredRun s (t.log e) ks (as ++ [e]) := by
  obtain ⟨es, r, a, p⟩ := h.run
  refine ⟨⟨es ++ [e], r.trans (EngineRun.log t e he), ?_, ?_⟩, h.toCnt, h.polls⟩
  · rw [actions_append, a]; cases e <;> first | rfl | cases he
  · rw [pollRecords_append, p]; cases e <;> first | cases he; done | simp [pollRecords]

/-- Where two lists of waits follow one another, the wait that expires is of the first, or of the second with the first
served. -/
theorem State.expired_split {s : State} {n : Nat} {vs ws : List BusWait} {ks : List Nat} {w : BusWait}
    (hs : s.servedFrom n ((vs ++ ws).take ks.length) ks = true) (hw : (vs ++ ws)[ks.length]? = some w) :
    (ks.length < vs.length ∧ s.servedFrom n (vs.take ks.length) ks = true ∧ vs[ks.length]? = some w) ∨
    ∃ js ls, ks = js ++ ls ∧ js.length = vs.length ∧ s.servedFrom n vs js = true ∧
      s.servedFrom (n + pollsOf js) (ws.take ls.length) ls = true ∧ ws[ls.length]? = some w := by
  by_cases hk : ks.length < vs.length
  · rw [List.take_append_of_le_length (Nat.le_of_lt hk)] at hs
    rw [List.getElem?_append_left hk] at hw
    exact .inl ⟨hk, hs, hw⟩
  · rw [List.take_append, List.take_of_length_le (by omega)] at hs
    rw [List.getElem?_append_right (by omega)] at hw
    obtain ⟨js, ls, rfl, h1, h2⟩ := State.servedFrom_split hs
    have hj := State.servedFrom_length h1
    rw [show (js ++ ls).length - vs.length = ls.length by rw [List.length_append, hj]; omega] at h2 hw
    exact .inr ⟨js, ls, rfl, hj, h1, h2, hw⟩

theorem awaitOr_expires {w : BusWait} {s : State} (c : State → State)
    (h : s.undecided w.done w.nackEn 0 s.params.tBus = true) :
    awaitOr w c s = (.timeout w.expiryKind, c (s.waited s.params.tBus 0)) := by
  simp only [awaitOr, busWait_expires h]

/-- `IdleWait`. -/
theorem idleWait_expired (s : State) (h : s.undecided BusWait.idle.done BusWait.idle.nackEn 0 s.params.tBus = true) :
    ∃ t, idleWait s = (.timeout .busBusy, t) ∧ SameData s t ∧ t.ph = .exIdle ∧ ExpiredRun s t [] [] :=
  ⟨_, awaitOr_expires (s := s.setPh .exIdle) id h, ⟨rfl, rfl, rfl⟩, rfl, (ServedRun.setPh s .exIdle).expired (.waited _)⟩

/-- `Start(p)`. -/
theorem startCondition_expired (p : Phase) (s : State)
    (h : s.undecided BusWait.mms.done BusWait.mms.nackEn 0 s.params.tBus = true) :
    ∃ t, startCondition p s = (.timeout .busSelect, t) ∧ SameData s t ∧ t.ph = p ∧ ExpiredRun s t [] [.busStart, .busStop] :=
  ⟨_, awaitOr_expires (s := (s.setPh p).log .busStart) (fun t => t.log .busStop) h, ⟨rfl, rfl, rfl⟩, rfl,
    (((ServedRun.setPh s p).trans (ServedRun.log _ .busStart rfl)).expired (.waited _)).log .busStop rfl⟩

/-- `Address(a, d)`. -/
theorem address_expired (a : Byte) (d : Direction) (s : State)
    (h : s.undecided d.addressWait.done d.addressWait.nackEn 0 s.params.tBus = true) :
    ∃ t, address a d s = (.timeout .busSelect, t) ∧ SameData s t ∧ t.ph = d.phase ∧
      ExpiredRun s t [] [.busAddr (addr7 a) d, .busStop] := by
  have e : busWait d.addressWait ((s.setPh d.phase).log (.busAddr (addr7 a) d)) = _ := busWait_expires h
  exact ⟨(((s.setPh d.phase).log (.busAddr (addr7 a) d)).waited s.params.tBus 0).log .busStop,
    by simp only [address, e, Direction.addressWait_expiryKind]; rfl, ⟨rfl, rfl, rfl⟩, rfl,
    (((ServedRun.setPh s d.phase).trans (ServedRun.log _ (.busAddr (addr7 a) d) rfl)).expired (.waited _)).log .busStop rfl⟩

/-- One byte sent. -/
theorem sendByte_expired (w : BusWait) (b : Byte) (s : State) (h : s.undecided w.done w.nackEn 0 s.params.tBus = true) :
    ∃ t, sendByte w b s = (.timeout w.expiryKind, t) ∧ SameData s t ∧ t.ph = s.ph ∧
      ExpiredRun s t [] [.busSend b, .busStop] :=
  ⟨_, awaitOr_expires (s := s.log (.busSend b)) (fun t => t.log .busStop) h, ⟨rfl, rfl, rfl⟩, rfl,
    ((ServedRun.log s (.busSend b) rfl).expired (.waited _)).log .busStop rfl⟩

/-- The address phase. -/
theorem addrPhase_expired (a : Byte) (ks : List Nat) (w : BusWait) (s : State)
    (hs : s.servedFrom 0 (([.idle, .mms, .tms] : List BusWait).take ks.length) ks = true)
    (hw : ([.idle, .mms, .tms] : List BusWait)[ks.length]? = some w)
    (hu : s.undecided w.done w.nackEn (pollsOf ks) s.params.tBus = true) :
    ∃ t, addrPhase a s = (.timeout w.expiryKind, t) ∧ SameData s t ∧
      t.ph = (([.exIdle, .exStart] : List Phase)[ks.length]?.getD .exAddrW) ∧
      ExpiredRun s t ks (cutShort [.busStart, .busAddr (addr7 a) .write] ks.length) := by
  match ks with
  | [] =>
    obtain rfl : BusWait.idle = w := by simpa using hw
    obtain ⟨t, e, d, p, r⟩ := idleWait_expired s hu
    exact ⟨t, by rw [addrPhase, e]; rfl, d, p, r⟩
  | [k1] =>
    obtain rfl : BusWait.mms = w := by simpa using hw
    simp only [List.length_cons, List.length_nil, List.take, State.servedFrom, Bool.and_true] at hs
    obtain ⟨t1, e1, d1, _, r1⟩ := idleWait_served k1 s hs
    obtain ⟨t, e, d, p, r⟩ := startCondition_expired .exStart t1 (by
      rw [State.undecided_of_advance r1.polls, r1.params]; simpa using hu)
    exact ⟨t, by rw [addrPhase, e1, andThen_ok, e]; rfl, d1.trans d, p, r1.expired r⟩
  | [k1, k2] =>
    obtain rfl : BusWait.tms = w := by simpa using hw
    simp only [List.length_cons, List.length_nil, List.take, State.servedFrom, Bool.and_true, Bool.and_eq_true] at hs
    obtain ⟨t1, e1, d1, _, r1⟩ := idleWait_served k1 s hs.1
    obtain ⟨t2, e2, d2, _, r2⟩ := startCondition_served .exStart k2 t1 (by
      rw [State.waitEndsAt_of_advance r1.polls r1.params]; simpa using hs.2)
    have r12 := r1.trans r2
    obtain ⟨t, e, d, p, r⟩ := address_expired a .write t2 (by
      rw [State.undecided_of_advance r12.polls, r12.params]; simpa [Direction.addressWait] using hu)
    exact ⟨t, by rw [addrPhase, e1, andThen_ok, e2, andThen_ok, e]; rfl, (d1.trans d2).trans d, p, r12.expired r⟩
  | _ :: _ :: _ :: _ => simp at hw

/-- The address phase and the pointer byte. -/
theorem pointerPhase_expired (a r : Byte) (ks : List Nat) (w : BusWait) (s : State)
    (hs : s.servedFrom 0 (([.idle, .mms, .tms, .btxPointer] : List BusWait).take ks.length) ks = true)
    (hw : ([.idle, .mms, .tms, .btxPointer] : List BusWait)[ks.length]? = some w)
    (hu : s.undecided w.done w.nackEn (pollsOf ks) s.params.tBus = true) :
    ∃ t, andThen (addrPhase a s) (sendPointer r) = (.timeout w.expiryKind, t) ∧ SameData s t ∧
      t.ph = (([.exIdle, .exStart, .exAddrW] : List Phase)[ks.length]?.getD .exReg) ∧
      ExpiredRun s t ks (cutShort (pointerActions a r) ks.length) := by
  rcases State.expired_split (vs := [.idle, .mms, .tms]) (ws := [.btxPointer]) hs hw with
    ⟨hl, hs, hw⟩ | ⟨js, ls, rfl, _, h1, h2, hw⟩
  · obtain ⟨t, e, d, p, q⟩ := addrPhase_expired a ks w s hs hw hu
    refine ⟨t, by rw [e]; rfl, d, ?_, ?_⟩
    · rw [p]; match ks, hl with | [], _ | [_], _ | [_, _], _ => rfl
    · match ks, hl with | [], _ | [_], _ | [_, _], _ => exact q
  · obtain ⟨k1, k2, k3, rfl⟩ := State.servedFrom_three h1
    obtain rfl : ls = [] := by cases ls with | nil => rfl | cons l ls => simp at hw
    obtain rfl : BusWait.btxPointer = w := by simpa using hw
    obtain ⟨t1, e1, d1, _, r1⟩ := addrPhase_served a s _ (State.probedFrom_of_served h1)
    have r1' := r1.trans (ServedRun.setPh t1 .exReg)
    obtain ⟨t2, e2, d2, p2, r2⟩ := sendByte_expired .btxPointer r (t1.setPh .exReg) (by
      rw [State.undecided_of_advance r1'.polls, r1'.params]; simpa using hu)
    exact ⟨t2, by rw [e1]; simp [sendPointer, e2], d1.trans d2, by simp [p2], r1'.expired r2⟩

/-- The payload loop of a WRITE. -/
theorem sendPayload_expired (bs : List Byte) (ks : List Nat) (s : State) (hl : ks.length < bs.length)
    (hs : s.servedFrom 0 (List.replicate ks.length .btxData) ks = true)
    (hu : s.undecided BusWait.btxData.done BusWait.btxData.nackEn (pollsOf ks) s.params.tBus = true) :
    ∃ t, sendPayload bs s = (.timeout .transfer, t) ∧ t.buf = s.buf ∧ t.busRx = s.busRx ∧ t.ph = s.ph ∧
      t.idx = s.idx + BitVec.ofNat 8 ks.length ∧
      ExpiredRun s t ks ((bs.take (ks.length + 1)).map .busSend ++ [.busStop]) := by
  induction bs generalizing s ks with
  | nil => simp at hl
  | cons b bs ih =>
    cases ks with
    | nil =>
      obtain ⟨t, e, d, p, r⟩ := sendByte_expired .btxData b s hu
      exact ⟨t, by rw [sendPayload, e]; rfl, d.1, d.2.2, p, by simp [d.2.1], by simpa using r⟩
    | cons k ks =>
      simp only [List.length_cons, List.replicate_succ, State.servedFrom, Bool.and_eq_true, Nat.zero_add] at hs hl
      obtain ⟨t1, e1, d1, p1, r1⟩ := sendByte_served .btxData b k s hs.1
      have r1' := r1.trans (ServedRun.setIdx t1 (t1.idx + 1#8))
      obtain ⟨t2, e2, b2, x2, p2, i2, r2⟩ := ih ks (t1.setIdx (t1.idx + 1#8)) (by omega) (by
        rw [State.servedFrom_of_advance r1'.polls r1'.params]; simpa using hs.2) (by
        rw [State.undecided_of_advance r1'.polls, r1'.params]; simpa using hu)
      refine ⟨t2, by rw [sendPayload, e1, andThen_ok, e2], by simp [b2, d1.1], by simp [x2, d1.2.2], by simp [p2, p1],
        ?_, by simpa using r1'.expired r2⟩
      rw [i2]; simp [d1.2.1, BitVec.ofNat_add, BitVec.add_assoc, BitVec.add_comm 1#8]

/-- The repeated start of a READ. -/
theorem reAddrPhase_expired (a : Byte) (ks : List Nat) (w : BusWait) (s : State)
    (hs : s.servedFrom 0 (([.mms, .rms] : List BusWait).take ks.length) ks = true)
    (hw : ([.mms, .rms] : List BusWait)[ks.length]? = some w)
    (hu : s.undecided w.done w.nackEn (pollsOf ks) s.params.tBus = true) :
    ∃ t, reAddrPhase a s = (.timeout w.expiryKind, t) ∧ SameData s t ∧
      t.ph = (if ks = [] then .exRestart else .exAddrR) ∧
      ExpiredRun s t ks (([.busStart, .busAddr (addr7 a) .read] : List Event).take (ks.length + 1) ++ [.busStop]) := by
  match ks with
  | [] =>
    obtain rfl : BusWait.mms = w := by simpa using hw
    obtain ⟨t, e, d, p, r⟩ := startCondition_expired .exRestart s hu
    exact ⟨t, by rw [reAddrPhase, e]; rfl, d, p, r⟩
  | [k] =>
    obtain rfl : BusWait.rms = w := by simpa using hw
    simp only [List.length_cons, List.length_nil, List.take, State.servedFrom, Bool.and_true] at hs
    obtain ⟨t1, e1, d1, _, r1⟩ := startCondition_served .exRestart k s hs
    obtain ⟨t, e, d, p, r⟩ := address_expired a .read t1 (by
      rw [State.undecided_of_advance r1.polls, r1.params]; simpa [Direction.addressWait] using hu)
    exact ⟨t, by rw [reAddrPhase, e1, andThen_ok, e]; rfl, d1.trans d, p, r1.expired r⟩
  | _ :: _ :: _ => simp at hw

/-- The repeated address of a READ that is not acknowledged (R172, decision D15). -/
theorem reAddrPhase_nack (a : Byte) (j k : Nat) (s : State) (h1 : s.waitEndsAt .mms 0 j true = true)
    (h2 : s.waitEndsAt .rms (j + 1) k false = true) :
    ∃ t, reAddrPhase a s = (.nack, t) ∧ SameData s t ∧ t.ph = .exAddrR ∧
      ServedRun s t [j, k] [.busStart, .busAddr (addr7 a) .read, .busClearAF, .busStop] := by
  obtain ⟨t1, e1, d1, _, r1⟩ := startCondition_served .exRestart j s h1
  obtain ⟨t, e, d, p, r⟩ := address_served a .read k false t1 (by
    rw [State.waitEndsAt_of_advance r1.polls r1.params]; simpa [Direction.addressWait] using h2)
  exact ⟨t, by rw [reAddrPhase, e1, andThen_ok, e]; rfl, d1.trans d, p, r1.trans r⟩

/-- The receive loop of a READ. -/
theorem recvPayload_expired (m : Nat) (ks : List Nat) (s : State) (hi : s.idx.toNat + m ≤ bufLen) (hl : ks.length < m)
    (hs : s.servedFrom 0 (List.replicate ks.length .brx) ks = true)
    (hu : s.undecided BusWait.brx.done BusWait.brx.nackEn (pollsOf ks) s.params.tBus = true) :
    ∃ t, recvPayload m s = (.timeout .transfer, t) ∧ t.ph = s.ph ∧
      t.buf = s.buf.writeRange s.idx.toNat (s.busBytes ks.length) ∧
      t.idx = s.idx + BitVec.ofNat 8 ks.length ∧ t.busRx = s.busRx.advance ks.length ∧
      ExpiredRun s t ks ((s.busBytes ks.length).map .busRecv ++
        (if ks.length + 1 = m then [.busAck .none, .busStop] else []) ++ [.busStop, .busAck .current]) := by
  induction m generalizing s ks with
  | zero => omega
  | succ m ih =>
    cases ks with
    | nil =>
      let s0 := prepareByte (m == 0) s
      have h0 : s0.params = s.params ∧ s0.polls = s.polls.advance 0 ∧ SameData s s0 ∧ s0.ph = s.ph ∧
          ServedRun s s0 [] (if 0 + 1 = m + 1 then [.busAck .none, .busStop] else []) := by
        cases m with
        | zero => exact ⟨rfl, by simp [s0, prepareByte], ⟨rfl, rfl, rfl⟩, rfl,
            (ServedRun.log s (.busAck .none) rfl).trans (ServedRun.log _ .busStop rfl)⟩
        | succ m => exact ⟨rfl, by simp [s0, prepareByte], ⟨rfl, rfl, rfl⟩, rfl,
            by simpa [s0, prepareByte] using ServedRun.of_run (EngineRun.refl s) rfl rfl⟩
      obtain ⟨hp, hq, d, ph, r0⟩ := h0
      have e := awaitOr_expires (w := .brx) (s := s0) (fun t => (t.log .busStop).log (.busAck .current)) (by
        rw [State.undecided_of_advance hq, hp]; simpa using hu)
      have r := ((r0.expired (.waited s0)).log .busStop rfl).log (.busAck .current) rfl
      refine ⟨((s0.waited s0.params.tBus 0).log .busStop).log (.busAck .current), ?_, ph, ?_, ?_, ?_, ?_⟩
      · show andThen (awaitOr .brx _ s0) _ = _
        rw [e]; rfl
      · exact d.1
      · simpa using d.2.1
      · simpa using d.2.2
      · simpa [State.busBytes] using r
    | cons k ks =>
      rw [List.length_cons, List.replicate_succ, State.servedFrom, Bool.and_eq_true] at hs
      rw [List.length_cons] at hl
      have e := awaitOr_ends (fun t => (t.log .busStop).log (.busAck .current)) hs.1
      obtain ⟨r1, b1, i1, x1, p1⟩ := recvByte_served k s hs.1 (by omega)
      generalize hv : recvByte (s.waited (k + 1) (s.params.tBus - k)) = u at b1 i1 x1 p1 r1
      have hi1 : u.idx.toNat = s.idx.toNat + 1 := by
        have : bufLen = 255 := rfl
        rw [i1, BitVec.toNat_add]; simp; omega
      obtain ⟨t, e2, p2, b2, i2, x2, r2⟩ := ih ks u (by omega) (by omega) (by
        rw [State.servedFrom_of_advance r1.polls r1.params]; simpa using hs.2) (by
        rw [State.undecided_of_advance r1.polls, r1.params]; simpa using hu)
      have hm : (m == 0) = false := by simp; omega
      refine ⟨t, ?_, p2.trans p1, ?_, ?_, ?_, ?_⟩
      · rw [recvPayload, hm]
        simp only [prepareByte, Bool.false_eq_true, if_false, e, andThen_ok, hv, e2]
      · rw [b2, hi1, b1, List.length_cons, State.busBytes_succ x1]; rfl
      · rw [i2, i1]; simp [BitVec.ofNat_add, BitVec.add_assoc, BitVec.add_comm 1#8]
      · rw [x2, x1]; simp [Nat.add_comm]
      · rw [List.length_cons, State.busBytes_succ x1]; simpa using r1.expired r2

/-! ## The transactions -/

/-- Whichever wait of a WRITE expires (R189). -/
theorem txnWrite_expired (a r : Byte) (p : List Byte) (ks : List Nat) (w : BusWait) (s : State)
    (hs : s.servedFrom 0 ((waitsOf (.write a r p)).take ks.length) ks = true)
    (hw : (waitsOf (.write a r p))[ks.length]? = some w)
    (hu : s.undecided w.done w.nackEn (pollsOf ks) s.params.tBus = true) :
    ∃ t, txnWrite a r p s = (.timeout w.expiryKind, t) ∧ t.buf = s.buf ∧ t.busRx = s.busRx ∧
      t.ph = (([.exIdle, .exStart, .exAddrW, .exReg] : List Phase)[ks.length]?.getD .exWdata) ∧
      t.idx = (if ks.length < 4 then s.idx else BitVec.ofNat 8 (ks.length - 4)) ∧
      ExpiredRun s t ks (cutShort (pointerActions a r ++ p.map .busSend) ks.length) := by
  have ht : txnWrite a r p s = andThen (andThen (addrPhase a s) (sendPointer r)) fun s2 =>
      andThen (sendPayload p ((s2.setPh .exWdata).setIdx 0#8)) fun s3 => (.ok, s3.log .busStop) := by
    rw [andThen_assoc]; rfl
  rcases State.expired_split (vs := [.idle, .mms, .tms, .btxPointer]) (ws := List.replicate p.length .btxData) hs hw with
    ⟨hl, hs, hw⟩ | ⟨js, ls, rfl, hj, h1, h2, hw⟩
  · obtain ⟨t, e, d, q, x⟩ := pointerPhase_expired a r ks w s hs hw hu
    have hl' : ks.length < 4 := hl
    refine ⟨t, by rw [ht, e]; rfl, d.1, d.2.2, ?_, by rw [if_pos hl']; exact d.2.1, ?_⟩
    · rw [q]; match ks, hl with | [], _ | [_], _ | [_, _], _ | [_, _, _], _ => rfl
    · have : cutShort (pointerActions a r ++ p.map .busSend) ks.length = cutShort (pointerActions a r) ks.length := by
        simp only [cutShort, List.take_append_of_le_length (show ks.length ≤ (pointerActions a r).length from Nat.le_of_lt_succ hl')]
      rw [this]; exact x
  · have hl : ls.length < p.length := by simpa using (List.getElem?_eq_some_iff.1 hw).1
    obtain rfl : BusWait.btxData = w := by
      rw [List.getElem?_replicate, if_pos hl] at hw; exact Option.some.inj hw
    obtain ⟨t1, e1, d1, _, r1⟩ := pointerPhase_served a r js s h1
    have r2 := (r1.trans (ServedRun.setPh t1 .exWdata)).trans (ServedRun.setIdx _ 0#8)
    obtain ⟨t, e, b, x, q, i, z⟩ := sendPayload_expired p ls ((t1.setPh .exWdata).setIdx 0#8) hl (by
      rw [State.servedFrom_of_advance r2.polls r2.params]
      rw [List.take_replicate, Nat.min_eq_left (Nat.le_of_lt hl)] at h2
      simpa using h2) (by
      rw [State.undecided_of_advance r2.polls, r2.params]; simpa using hu)
    have hj' : js.length = 4 := hj
    refine ⟨t, by rw [ht, e1, andThen_ok, e]; rfl, by simp [b, d1.1], by simp [x, d1.2.2], ?_, ?_, ?_⟩
    · rw [q, List.length_append, hj', List.getElem?_eq_none (by simp)]; simp
    · rw [i, if_neg (by simp [hj']), List.length_append, hj']; simp
    · have hz := r2.expired z
      simp only [List.append_nil] at hz
      have : cutShort (pointerActions a r ++ p.map .busSend) (js ++ ls).length =
          pointerActions a r ++ ((p.take (ls.length + 1)).map Event.busSend ++ [.busStop]) := by
        rw [cutShort, if_neg (by rw [List.length_append]; omega), List.length_append, hj', show 4 + ls.length = (pointerActions a r).length + (ls.length + 1) by simp; omega,
          List.take_length_add_append, List.map_take, List.append_assoc]
      rw [this]; exact hz

/-- Whichever wait of a READ expires (R189). -/
theorem txnRead_expired (a r n : Byte) (ks : List Nat) (w : BusWait) (s : State)
    (hs : s.servedFrom 0 ((waitsOf (.read a r n)).take ks.length) ks = true)
    (hw : (waitsOf (.read a r n))[ks.length]? = some w)
    (hu : s.undecided w.done w.nackEn (pollsOf ks) s.params.tBus = true) :
    ∃ t, txnRead a r n s = (.timeout w.expiryKind, t) ∧
      t.buf = s.buf.writeRange 0 (s.busBytes (ks.length - 6)) ∧ t.busRx = s.busRx.advance (ks.length - 6) ∧
      t.ph = (([.exIdle, .exStart, .exAddrW, .exReg, .exRestart, .exAddrR] : List Phase)[ks.length]?.getD .exRdata) ∧
      t.idx = (if ks.length < 6 then s.idx else BitVec.ofNat 8 (ks.length - 6)) ∧
      ExpiredRun s t ks (if ks.length < 6 then cutShort (pointerActions a r ++ [.busStart, .busAddr (addr7 a) .read]) ks.length
        else pointerActions a r ++ [.busStart, .busAddr (addr7 a) .read] ++ (s.busBytes (ks.length - 6)).map .busRecv ++
          (if ks.length - 6 + 1 = n.toNat then [.busAck .none, .busStop] else []) ++ [.busStop, .busAck .current]) := by
  have ht : txnRead a r n s = andThen (andThen (addrPhase a s) (sendPointer r)) fun s2 =>
      if n = 0#8 then (.ok, s2.log .busStop)
      else andThen (reAddrPhase a s2) fun s3 => recvPayload n.toNat ((s3.setPh .exRdata).setIdx 0#8) := by
    rw [andThen_assoc]; rfl
  have hsplit : waitsOf (.read a r n) = [.idle, .mms, .tms, .btxPointer] ++
      (if n = 0#8 then [] else [.mms, .rms] ++ List.replicate n.toNat .brx) := by
    by_cases hn : n = 0#8 <;> simp [waitsOf, hn]
  rw [hsplit] at hs hw
  rcases State.expired_split hs hw with ⟨hl, hs, hw⟩ | ⟨js, ls, rfl, hj, h1, h2, hw⟩
  · obtain ⟨t, e, d, q, x⟩ := pointerPhase_expired a r ks w s hs hw hu
    have hl' : ks.length < 4 := hl
    have h6 : ks.length < 6 := by omega
    refine ⟨t, by rw [ht, e]; rfl, ?_, ?_, ?_, by rw [if_pos h6]; exact d.2.1, ?_⟩
    · rw [show ks.length - 6 = 0 by omega]; exact d.1
    · rw [show ks.length - 6 = 0 by omega]; simpa using d.2.2
    · rw [q]; match ks, hl with | [], _ | [_], _ | [_, _], _ | [_, _, _], _ => rfl
    · have : cutShort (pointerActions a r ++ [.busStart, .busAddr (addr7 a) .read]) ks.length = cutShort (pointerActions a r) ks.length := by
        simp only [cutShort, List.take_append_of_le_length (show ks.length ≤ (pointerActions a r).length from Nat.le_of_lt_succ hl')]
      rw [if_pos h6, this]; exact x
  · by_cases hn : n = 0#8
    · simp [hn] at hw
    rw [if_neg hn] at h2 hw
    have hj' : js.length = 4 := hj
    obtain ⟨t1, e1, d1, _, r1⟩ := pointerPhase_served a r js s h1
    rcases State.expired_split (n := 0 + pollsOf js) (by simpa using h2) hw with
      ⟨hl, hs, hw⟩ | ⟨ms, ls, rfl, hm, h2, h3, hw⟩
    · obtain ⟨t, e, d, q, x⟩ := reAddrPhase_expired a ls w t1 (by
        rw [State.servedFrom_of_advance r1.polls r1.params]; simpa using hs) hw (by
        rw [State.undecided_of_advance r1.polls, r1.params]; simpa using hu)
      have hl' : ls.length < 2 := hl
      have hlen : (js ++ ls).length = 4 + ls.length := by rw [List.length_append, hj']
      have h6 : (js ++ ls).length < 6 := by omega
      have h0 : (js ++ ls).length - 6 = 0 := by omega
      have hz := r1.expired x
      refine ⟨t, by rw [ht, e1, andThen_ok, if_neg hn, e]; rfl, ?_, ?_, ?_, ?_, ?_⟩
      · rw [h0]; exact d.1.trans d1.1
      · rw [h0]; simpa using d.2.2.trans d1.2.2
      · rw [q, hlen]; match ls, hl with | [], _ | [_], _ => rfl
      · rw [if_pos h6]; exact d.2.1.trans d1.2.1
      · rw [if_pos h6, cutShort, if_neg (by omega), hlen, show 4 + ls.length = (pointerActions a r).length + (ls.length + 1) by simp; omega,
          List.take_length_add_append, List.append_assoc]
        exact hz
    · have hl : ls.length < n.toNat := by simpa using (List.getElem?_eq_some_iff.1 hw).1
      obtain rfl : BusWait.brx = w := by
        rw [List.getElem?_replicate, if_pos hl] at hw; exact Option.some.inj hw
      obtain ⟨t2, e2, d2, _, r2⟩ := reAddrPhase_served a ms t1 (by
        rw [State.servedFrom_of_advance r1.polls r1.params]; simpa using h2)
      have r3 := ((r1.trans r2).trans (ServedRun.setPh t2 .exRdata)).trans (ServedRun.setIdx _ 0#8)
      obtain ⟨t, e, q, b, i, x, z⟩ := recvPayload_expired n.toNat ls ((t2.setPh .exRdata).setIdx 0#8) (by
        have : bufLen = 255 := rfl
        simp; omega) hl (by
        rw [State.servedFrom_of_advance r3.polls r3.params]
        rw [List.take_replicate, Nat.min_eq_left (Nat.le_of_lt hl)] at h3
        simpa using h3) (by
        rw [State.undecided_of_advance r3.polls, r3.params]; simpa [Nat.add_assoc] using hu)
      have hx : ((t2.setPh .exRdata).setIdx 0#8).busRx = s.busRx := d2.2.2.trans d1.2.2
      have hb : ∀ j, ((t2.setPh .exRdata).setIdx 0#8).busBytes j = s.busBytes j := fun j =>
        List.map_congr_left fun j _ => congrArg (fun f : Feed Byte => (f.advance j).next Config.busByte) hx
      have hm' : ms.length = 2 := hm
      have hlen : (js ++ (ms ++ ls)).length = 6 + ls.length := by simp [hj', hm']; omega
      have h6 : (js ++ (ms ++ ls)).length - 6 = ls.length := by omega
      have hz := r3.expired z
      refine ⟨t, by rw [ht, e1, andThen_ok, if_neg hn, e2, andThen_ok, e]; rfl, ?_, ?_, ?_, ?_, ?_⟩
      · rw [b, hb, h6]; simp [d2.1, d1.1]
      · rw [x, hx, h6]
      · rw [q, hlen, List.getElem?_eq_none (by simp)]; simp
      · rw [i, if_neg (by omega), h6]; simp
      · rw [if_neg (by omega), h6]
        simpa [hb] using hz

/-! ## The scan -/

theorem probe_expired (a : Byte) (ks : List Nat) (w : BusWait) (s : State)
    (hs : s.servedFrom 0 (([.idle, .mms, .tms] : List BusWait).take ks.length) ks = true)
    (hw : ([.idle, .mms, .tms] : List BusWait)[ks.length]? = some w)
    (hu : s.undecided w.done w.nackEn (pollsOf ks) s.params.tBus = true) :
    ∃ t, probe a s = (.timeout w.expiryKind, t) ∧ SameData s t ∧
      t.ph = (([.exIdle, .exStart] : List Phase)[ks.length]?.getD .exAddrW) ∧
      ExpiredRun s t ks (cutShort [.busStart, .busAddr (addr7 a) .write] ks.length) := by
  obtain ⟨t, e, h⟩ := addrPhase_expired a ks w s hs hw hu
  exact ⟨t, by rw [probe, e]; rfl, h⟩

/-- A scan that goes on over more candidates. -/
theorem scanLoop_append (listed : Bool) (as bs : List Byte) (s t : State) (h : scanLoop listed as s = (.ok, t)) :
    scanLoop listed (as ++ bs) s = scanLoop listed bs t := by
  induction as generalizing s with
  | nil => simp only [scanLoop, Prod.mk.injEq, true_and] at h; rw [h]; rfl
  | cons a as ih =>
    rw [List.cons_append, scanLoop]
    rw [scanLoop] at h
    split at h
    · exact ih _ h
    · exact ih _ h
    · cases h

/-- The scan loop when a wait of one probe expires, the probes before it having met no expiry. -/
theorem scanLoop_expired (listed : Bool) (as : List Byte) (a : Byte) (rest : List Byte) (ends : List ProbeEnd)
    (w : BusWait) (ks : List Nat) (s : State)
    (hl : s.outCnt.toNat + as.length ≤ bufLen) (hn : ends.length = as.length) (h : s.probedFrom 0 ends = true)
    (hs : s.servedFrom (ends.map fun e => e.polls).sum ([.idle, .mms, .tms].take ks.length) ks = true)
    (hw : ([.idle, .mms, .tms] : List BusWait)[ks.length]? = some w)
    (hu : s.undecided w.done w.nackEn ((ends.map fun e => e.polls).sum + pollsOf ks) s.params.tBus = true) :
    let probed := as.zip (ends.map fun e => e.acked)
    let polls := (ends.map fun e => e.polls).sum + pollsOf ks + s.params.tBus
    ∃ t es, scanLoop listed (as ++ a :: rest) s = (.timeout w.expiryKind, t) ∧ ScanRun s t es ∧
      actions es = probesActions probed ++ cutShort [.busStart, .busAddr (addr7 a) .write] ks.length ∧
      pollRecords es = (List.range polls).map s.pollAhead ∧ t.polls = s.polls.advance polls ∧
      t.buf = s.buf.writeRange s.outCnt.toNat (acknowledged probed) ∧
      t.outCnt = s.outCnt + BitVec.ofNat 8 (acknowledged probed).length ∧
      t.scanIdx = (if listed then s.scanIdx + BitVec.ofNat 8 as.length else s.scanIdx) ∧ t.scanAddr = a ∧
      t.ph = (([.exIdle, .exStart] : List Phase)[ks.length]?.getD .exAddrW) ∧ t.toCnt = 0 := by
  obtain ⟨t1, es, e1, q1, a1, pr1, pl1, b1, o1, i1, _, _, _⟩ := scanLoop_served listed as ends s hl hn h
  have hp : (t1.setScanAddr a).polls = s.polls.advance (ends.map fun e => e.polls).sum := pl1
  have hq : (t1.setScanAddr a).params = s.params := q1.params
  obtain ⟨t, e, d, p, r⟩ := probe_expired a ks w (t1.setScanAddr a) (by
    rw [State.servedFrom_of_advance hp hq]; exact hs) hw (by
    rw [State.undecided_of_advance hp, hq]; exact hu)
  obtain ⟨fs, q, af, pf⟩ := r.run
  refine ⟨t, es ++ fs, by rw [scanLoop_append _ _ _ _ _ e1, scanLoop, e],
    (q1.trans (ScanRun.setScanAddr t1 a)).trans (q.scan d) |> fun z => by simpa using z, ?_, ?_, ?_, ?_, ?_, ?_, ?_, p, r.toCnt⟩
  · rw [actions_append, a1, af]
  · rw [pollRecords_append, pr1, pf, hq, Nat.add_assoc, range_map_add (n := pollsOf ks + s.params.tBus)]
    congr 1
    exact List.map_congr_left fun j _ => State.pollAhead_of_advance hp j
  · rw [r.polls, hp, hq]; simp [Nat.add_assoc]
  · exact d.1.trans b1
  · exact q.outCnt.trans o1
  · exact q.scanIdx.trans i1
  · exact q.scanAddr

end Sys2Proof.Machine
end

