-- ==== Sys2Proof/Laws/MicroEngine.lean ====
section
/-! SUPPORT. The programs of R8's steps in Execute, run to their end, do what the operations of Machine/ do. -/

namespace Sys2Proof.Machine

theorem Prog.run_bind {α β : Type} (p : Prog α) (q : α → Prog β) (s : State) :
    (p.bind q).run s = match p.run s with
      | .next (a, t) => (q a).run t
      | .fault r => .fault r
      | .refused r => .refused r := by
  induction p generalizing s with
  | ret a => rfl
  | read k ih => exact ih s s
  | poll k ih => exact ih _ _
  | rxTake k ih => exact ih _ _
  | busRecv k ih => exact ih _ _
  | act c k ih => exact ih _
  | update u k ih => exact ih _
  | load i k ih =>
    simp only [Prog.bind, Prog.run]
    cases s.bufLoad i with
    | ok b => exact ih _ _
    | error r => rfl

theorem Prog.run_bind_fault {α β : Type} {p : Prog α} {s : State} {r : Fault} (h : p.run s = .fault r)
    (q : α → Prog β) : (p.bind q).run s = .fault r := by rw [Prog.run_bind, h]

/-- A written byte is read without a change. -/
theorem Prog.run_load {α : Type} {s : State} {i : Nat} {b : Byte} (h : s.bufLoad i = .ok b) (k : Byte → Prog α) :
    (Prog.load i k).run s = (k b).run s := by simp only [Prog.run, h, MicroOp.apply]

theorem State.bufLoad_of_read {s : State} {i : Nat} {b : Byte} (h : s.buf.read i = some b) (hi : i < bufLen) :
    s.bufLoad i = .ok b := by simp [State.bufLoad, hi, h]

/-- The first byte of a range, and the range after it. -/
theorem Memory.readRange_cons {m : Memory} {a : Nat} {b : Byte} {bs : List Byte}
    (h : m.readRange a (b :: bs).length = some (b :: bs)) :
    m.read a = some b ∧ m.readRange (a + 1) bs.length = some bs := by
  simp only [List.length_cons, Memory.readRange] at h
  split at h
  · rename_i c cs hc hcs
    cases h
    exact ⟨hc, hcs⟩
  · cases h

theorem Byte.toNat_succ {v : Byte} (h : v.toNat < 255) : (v + 1#8).toNat = v.toNat + 1 := by
  rw [BitVec.toNat_add]; simp; omega

theorem Prog.run_bind_next {α β : Type} {p : Prog α} {s t : State} {a : α} (h : p.run s = .next (a, t))
    (q : α → Prog β) : (p.bind q).run s = (q a).run t := by rw [Prog.run_bind, h]

/-! ## The timeout arbiter -/

theorem run_waitLoop (done : Poll → Bool) (nackEn : Bool) (k : Nat) (s : State) :
    (waitLoopProg done nackEn k).run s = .next (waitLoop done nackEn k s) := by
  induction k generalizing s with
  | zero => rfl
  | succ k ih =>
    simp only [waitLoopProg, waitLoop, Prog.run, MicroOp.apply]
    split
    · rfl
    · split
      · rfl
      · exact ih _

theorem run_wait (done : Poll → Bool) (nackEn : Bool) (T : Nat) (s : State) :
    (waitProg done nackEn T).run s = .next (wait done nackEn T s) := run_waitLoop done nackEn T _

theorem run_busWait (w : BusWait) (s : State) : (busWaitProg w).run s = .next (busWait w s) := run_wait _ _ _ _

/-! ## bus_engine -/

/-- A sequence and then another: what follows an `Ok` runs from the state it left. -/
theorem run_andThen_of {p q : EngineProg} {s : State} {r : EngineResult} {k : State → EngineResult}
    (hp : p.run s = .next r) (hq : ∀ t, r = (.ok, t) → q.run t = .next (k t)) :
    (andThenProg p q).run s = .next (andThen r k) := by
  obtain ⟨o, t⟩ := r
  rw [andThenProg, Prog.run_bind_next hp]
  cases o with
  | ok => exact hq t rfl
  | nack => rfl
  | timeout kind => rfl

theorem run_andThen {p q : EngineProg} {s : State} {r : EngineResult} {k : State → EngineResult}
    (hp : p.run s = .next r) (hq : ∀ t, q.run t = .next (k t)) : (andThenProg p q).run s = .next (andThen r k) :=
  run_andThen_of hp fun t _ => hq t

theorem run_awaitOr (w : BusWait) (cs : List PortAction) (cleanup : State → State)
    (hc : ∀ (o : EngineOutcome) (t : State), (acting cs (.ret o)).run t = .next (o, cleanup t)) (s : State) :
    (awaitOrProg w cs).run s = .next (awaitOr w cleanup s) := by
  unfold awaitOrProg awaitOr
  have h := run_busWait w s
  generalize busWait w s = r at h ⊢
  obtain ⟨o, t⟩ := r
  rw [Prog.run_bind_next h]
  cases o with
  | done => rfl
  | nack => rfl
  | expired => exact hc _ t

theorem run_idleWait (s : State) : idleWaitProg.run s = .next (idleWait s) :=
  run_awaitOr .idle [] id (fun _ _ => rfl) _

theorem run_start (p : Phase) (s : State) : (startProg p).run s = .next (startCondition p s) :=
  run_awaitOr .mms [.busStop] (fun t => t.log .busStop) (fun _ _ => rfl) _

theorem run_address (a : Byte) (d : Direction) (s : State) : (addressProg a d).run s = .next (address a d s) := by
  have h := run_busWait d.addressWait ((s.setPh d.phase).log (.busAddr (addr7 a) d))
  simp only [addressProg, address, Prog.run, MicroOp.apply, Update.apply, PortAction.event]
  generalize busWait d.addressWait ((s.setPh d.phase).log (.busAddr (addr7 a) d)) = r at h ⊢
  obtain ⟨o, t⟩ := r
  rw [Prog.run_bind_next h]
  cases o <;> rfl

theorem run_addrPhase (a : Byte) (s : State) : (addrPhaseProg a).run s = .next (addrPhase a s) :=
  run_andThen (run_idleWait s) fun t => run_andThen (run_start .exStart t) fun u => run_address a .write u

theorem run_reAddrPhase (a : Byte) (s : State) : (reAddrPhaseProg a).run s = .next (reAddrPhase a s) :=
  run_andThen (run_start .exRestart s) fun t => run_address a .read t

theorem run_sendByte (w : BusWait) (b : Byte) (s : State) : (sendByteProg w b).run s = .next (sendByte w b s) :=
  run_awaitOr w [.busStop] (fun t => t.log .busStop) (fun _ _ => rfl) _

theorem run_sendPointer (r : Byte) (s : State) : (sendPointerProg r).run s = .next (sendPointer r s) :=
  run_sendByte .btxPointer r _

/-- The payload loop sends the bytes that stand in the buffer from `idx` on. -/
theorem run_sendPayload (bs : List Byte) (s : State) (h : s.buf.readRange s.idx.toNat bs.length = some bs)
    (hl : s.idx.toNat + bs.length ≤ bufLen) : (sendPayloadProg bs.length).run s = .next (sendPayload bs s) := by
  induction bs generalizing s with
  | nil => rfl
  | cons b bs ih =>
    have hb : bufLen = 255 := rfl
    obtain ⟨h1, h2⟩ := Memory.readRange_cons h
    simp only [List.length_cons] at hl
    simp only [List.length_cons, sendPayloadProg, Prog.run, State.bufLoad_of_read h1 (by omega), MicroOp.apply]
    refine run_andThen_of (run_sendByte .btxData b s) fun t ht => ?_
    obtain ⟨t', _, _, ⟨d1, d2, _⟩, _, _, ⟨he, _⟩ | ⟨he, _⟩⟩ := sendByte_cases .btxData rfl b s
    · rw [he] at ht
      cases ht
      have hi : (t.setIdx (t.idx + 1#8)).idx.toNat = s.idx.toNat + 1 := by
        rw [State.setIdx_idx, d2]; exact Byte.toNat_succ (by omega)
      exact ih (t.setIdx (t.idx + 1#8)) (by rw [hi, State.setIdx_buf, d1]; exact h2) (by rw [hi]; omega)
    · rw [he] at ht; cases ht

/-- A program that ends, or stops at a byte of the buffer that holds no value. -/
def EndsOrFaults {α : Type} (o : Host.Outcome (α × State) Fault Refusal) : Prop :=
  (∃ r, o = .next r) ∨ o = .fault .bufUnwritten

theorem EndsOrFaults.andThen {p q : EngineProg} {s : State} (hp : EndsOrFaults (p.run s))
    (hq : ∀ t, p.run s = .next (.ok, t) → EndsOrFaults (q.run t)) : EndsOrFaults ((andThenProg p q).run s) := by
  rcases hp with ⟨⟨o, t⟩, hp⟩ | hp
  · rw [andThenProg, Prog.run_bind_next hp]
    cases o with
    | ok => exact hq t hp
    | nack => exact .inl ⟨_, rfl⟩
    | timeout kind => exact .inl ⟨_, rfl⟩
  · exact .inr (Prog.run_bind_fault hp _)

theorem EndsOrFaults.load {α : Type} {i : Nat} {k : Byte → Prog α} {s : State} (hi : i < bufLen)
    (hk : ∀ b, EndsOrFaults ((k b).run s)) : EndsOrFaults ((Prog.load i k).run s) := by
  cases h : s.buf.read i with
  | some b => rw [Prog.run_load (State.bufLoad_of_read h hi)]; exact hk b
  | none => exact .inr (by simp [Prog.run, State.bufLoad, hi, h])

theorem ends_sendPayload (k : Nat) (s : State) (hl : s.idx.toNat + k ≤ bufLen) :
    EndsOrFaults ((sendPayloadProg k).run s) := by
  induction k generalizing s with
  | zero => exact .inl ⟨_, rfl⟩
  | succ k ih =>
    have hb : bufLen = 255 := rfl
    refine EndsOrFaults.load (by omega) fun b => EndsOrFaults.andThen (.inl ⟨_, run_sendByte .btxData b s⟩) fun t ht => ?_
    obtain ⟨t', _, _, ⟨_, d2, _⟩, _, _, ⟨he, _⟩ | ⟨he, _⟩⟩ := sendByte_cases .btxData rfl b s
    · rw [run_sendByte, he] at ht
      cases ht
      refine ih (t.setIdx (t.idx + 1#8)) ?_
      rw [State.setIdx_idx, d2, Byte.toNat_succ (by omega)]; omega
    · rw [run_sendByte, he] at ht; cases ht

theorem pointerPhase_buf {a r : Byte} {s t u : State} (h1 : addrPhase a s = (.ok, t))
    (h2 : sendPointer r t = (.ok, u)) : u.buf = s.buf := by
  have he : andThen (addrPhase a s) (sendPointer r) = (.ok, u) := by rw [h1]; exact h2
  obtain ⟨v, _, _, ⟨d, _, _⟩, _, _, ⟨h, _⟩ | ⟨h, _⟩ | ⟨h, _⟩ | ⟨h, _⟩ | ⟨h, _⟩⟩ := pointerPhase_cases a r s <;>
    rw [he] at h <;> cases h
  exact d

/-- `TxnWrite` sends the payload that stands in the buffer. -/
theorem run_txnWrite (a r n : Byte) (p : List Byte) (s : State) (h : s.buf.readRange 0 n.toNat = some p) :
    (txnWriteProg a r n).run s = .next (txnWrite a r p s) := by
  have hn : p.length = n.toNat := ((Memory.readRange_eq_some _ _ _ _).1 h).1
  refine run_andThen_of (run_addrPhase a s) fun t ht => run_andThen_of (run_sendPointer r t) fun u hu =>
    run_andThen ?_ fun _ => rfl
  rw [← hn] at h ⊢
  refine run_sendPayload p ((u.setPh .exWdata).setIdx 0#8) ?_ ?_
  · have := pointerPhase_buf ht hu
    simpa [this] using h
  · have := n.isLt
    have hb : bufLen = 255 := rfl
    simp; omega

theorem ends_txnWrite (a r n : Byte) (s : State) : EndsOrFaults ((txnWriteProg a r n).run s) := by
  refine EndsOrFaults.andThen (.inl ⟨_, run_addrPhase a s⟩) fun t _ =>
    EndsOrFaults.andThen (.inl ⟨_, run_sendPointer r t⟩) fun u _ =>
    EndsOrFaults.andThen ?_ fun v _ => .inl ⟨_, rfl⟩
  refine ends_sendPayload n.toNat ((u.setPh .exWdata).setIdx 0#8) ?_
  have := n.isLt
  have hb : bufLen = 255 := rfl
  simp; omega

theorem run_prepareByte (last : Bool) (p : EngineProg) (s : State) :
    (prepareByteProg last p).run s = p.run (prepareByte last s) := by cases last <;> rfl

theorem run_recvByte (p : EngineProg) (s : State) : (recvByteProg p).run s = p.run (recvByte s) := rfl

theorem run_recvPayload (k : Nat) (s : State) : (recvPayloadProg k).run s = .next (recvPayload k s) := by
  induction k generalizing s with
  | zero => rfl
  | succ k ih =>
    refine run_andThen ?_ fun t => ih (recvByte t)
    rw [run_prepareByte]
    exact run_awaitOr .brx [.busStop, .busAck .current] _ (fun _ _ => rfl) _

theorem run_txnRead (a r n : Byte) (s : State) : (txnReadProg a r n).run s = .next (txnRead a r n s) := by
  refine run_andThen (run_addrPhase a s) fun t => run_andThen (run_sendPointer r t) fun u => ?_
  split
  · rfl
  · exact run_andThen (run_reAddrPhase a u) fun v => run_recvPayload n.toNat _

theorem run_probe (a : Byte) (s : State) : (probeProg a).run s = .next (probe a s) :=
  run_andThen (run_addrPhase a s) fun _ => rfl

/-! ## The commands -/

theorem run_failure (kind : FailKind) (s : State) : (failureProg kind).run s = .next ((), s.raiseFailure kind) := rfl

theorem run_success (len : Byte) (s : State) : (successProg len).run s = .next ((), s.succeed len) := rfl

theorem run_concludeTxn {p : EngineProg} {s : State} {r : EngineResult} (hp : p.run s = .next r) {onOk : Prog Unit}
    {f : State → State} (hk : ∀ t, onOk.run t = .next ((), f t)) :
    (concludeTxnProg onOk p).run s = .next ((), concludeTxn f r) := by
  obtain ⟨o, t⟩ := r
  rw [concludeTxnProg, Prog.run_bind_next hp]
  cases o with
  | ok => exact hk t
  | nack => rfl
  | timeout kind => rfl

theorem run_retain (p : EngineProg) (s : State) : (retainProg p).run s = p.run (retain s) := by
  simp only [retainProg, Prog.run, MicroOp.apply, Update.apply, retain]
  congr 2
  unfold State.bufStore
  split <;> rfl

theorem run_candidate {a : Byte} {rest : EngineProg} {s : State} {k : State → EngineResult}
    (h1 : ∀ t, probe a (s.setScanAddr a) = (.ok, t) → rest.run (retain t) = .next (k (retain t)))
    (h2 : ∀ t, probe a (s.setScanAddr a) = (.nack, t) → rest.run t = .next (k t)) :
    (candidateProg a rest).run s = .next (match probe a (s.setScanAddr a) with
      | (.ok, t) => k (retain t)
      | (.nack, t) => k t
      | (.timeout kind, t) => (.timeout kind, t)) := by
  simp only [candidateProg, Prog.run, MicroOp.apply, Update.apply]
  have h := run_probe a (s.setScanAddr a)
  generalize probe a (s.setScanAddr a) = r at h h1 h2 ⊢
  obtain ⟨o, t⟩ := r
  rw [Prog.run_bind_next h]
  cases o with
  | ok => simp only [run_retain]; exact h1 t rfl
  | nack => exact h2 t rfl
  | timeout kind => rfl

theorem run_scanRange (as : List Byte) (s : State) : (scanRangeProg as).run s = .next (scanLoop false as s) := by
  induction as generalizing s with
  | nil => rfl
  | cons a as ih => exact run_candidate (fun t _ => ih (retain t)) fun t _ => ih t

/-- What a probe leaves of the scan's registers and the buffer. -/
theorem probe_frame {a : Byte} {s t : State} {o : EngineOutcome} (h : probe a (s.setScanAddr a) = (o, t)) :
    t.buf = s.buf ∧ t.scanIdx = s.scanIdx ∧ t.outCnt = s.outCnt ∧ t.scanAddr = a := by
  obtain ⟨u, es, q, d, _, _, h1⟩ := probe_cases a (s.setScanAddr a)
  have hu : t = u := by
    rcases h1 with ⟨h1, _⟩ | ⟨h1, _⟩ | ⟨h1, _⟩ | ⟨h1, _⟩ <;> rw [h] at h1 <;> exact (Prod.mk.inj h1).2
  subst hu
  exact ⟨d.1, q.scanIdx, q.outCnt, q.scanAddr⟩

/-- The scan of an explicit list probes the bytes that stand in the buffer from `scan_idx` on; what it retains below them
overwrites none that is still to be read (R263). -/
theorem run_scanList (as : List Byte) (s : State) (h : s.buf.readRange s.scanIdx.toNat as.length = some as)
    (ho : s.outCnt.toNat ≤ s.scanIdx.toNat) (hl : s.scanIdx.toNat + as.length ≤ bufLen) :
    (scanListProg as.length).run s = .next (scanLoop true as s) := by
  induction as generalizing s with
  | nil => rfl
  | cons a as ih =>
    have hb : bufLen = 255 := rfl
    obtain ⟨h1, h2⟩ := Memory.readRange_cons h
    simp only [List.length_cons] at hl
    simp only [List.length_cons, scanListProg, Prog.run, State.bufLoad_of_read h1 (by omega), MicroOp.apply]
    have hi : (s.scanIdx + 1#8).toNat = s.scanIdx.toNat + 1 := Byte.toNat_succ (by omega)
    refine run_candidate (k := fun t => scanLoop true as (advance true t)) (fun t ht => ?_) fun t ht => ?_
    · obtain ⟨f1, f2, f3, _⟩ := probe_frame ht
      have hr := retain_eq t (by rw [f3]; omega)
      refine ih (advance true (retain t)) ?_ ?_ ?_
      · rw [advance_scanIdx, hr]
        simp only [if_true, State.setOutCnt_scanIdx, State.setBuf_scanIdx, f2, hi, advance_buf, State.setOutCnt_buf,
          State.setBuf_buf, f1, f3]
        refine (Memory.readRange_eq_some _ _ _ _).2 ⟨rfl, fun k hk => ?_⟩
        rw [Memory.read_write_ne _ _ (by omega)]
        exact ((Memory.readRange_eq_some _ _ _ _).1 h2).2 k hk
      · rw [advance_scanIdx, advance_outCnt, hr]
        simp only [if_true, State.setOutCnt_scanIdx, State.setBuf_scanIdx, f2, hi, State.setOutCnt_outCnt, f3]
        rw [Byte.toNat_succ (by omega)]; omega
      · rw [advance_scanIdx, hr]
        simp only [if_true, State.setOutCnt_scanIdx, State.setBuf_scanIdx, f2, hi]; omega
    · obtain ⟨f1, f2, f3, _⟩ := probe_frame ht
      refine ih (advance true t) ?_ ?_ ?_
      · rw [advance_scanIdx]; simp only [if_true, f2, hi, advance_buf, f1]; exact h2
      · rw [advance_scanIdx, advance_outCnt]; simp only [if_true, f2, hi, f3]; omega
      · rw [advance_scanIdx]; simp only [if_true, f2, hi]; omega

theorem ends_candidate {a : Byte} {rest : EngineProg} {s : State}
    (h1 : ∀ t, probe a (s.setScanAddr a) = (.ok, t) → EndsOrFaults (rest.run (retain t)))
    (h2 : ∀ t, probe a (s.setScanAddr a) = (.nack, t) → EndsOrFaults (rest.run t)) :
    EndsOrFaults ((candidateProg a rest).run s) := by
  simp only [candidateProg, Prog.run, MicroOp.apply, Update.apply]
  have h := run_probe a (s.setScanAddr a)
  generalize probe a (s.setScanAddr a) = r at h h1 h2 ⊢
  obtain ⟨o, t⟩ := r
  rw [Prog.run_bind_next h]
  cases o with
  | ok => simp only [run_retain]; exact h1 t rfl
  | nack => exact h2 t rfl
  | timeout kind => exact .inl ⟨_, rfl⟩

theorem ends_scanList (k : Nat) (s : State) (hl : s.scanIdx.toNat + k ≤ bufLen) :
    EndsOrFaults ((scanListProg k).run s) := by
  induction k generalizing s with
  | zero => exact .inl ⟨_, rfl⟩
  | succ k ih =>
    have hb : bufLen = 255 := rfl
    have hi : (s.scanIdx + 1#8).toNat = s.scanIdx.toNat + 1 := Byte.toNat_succ (by omega)
    refine EndsOrFaults.load (by omega) fun a => ends_candidate (fun t ht => ?_) fun t ht => ?_
    · refine ih (advance true (retain t)) ?_
      have hr : (retain t).scanIdx = t.scanIdx := by
        unfold retain State.bufStore; split <;> rfl
      rw [advance_scanIdx, hr, (probe_frame ht).2.1]; simp only [if_true, hi]; omega
    · refine ih (advance true t) ?_
      rw [advance_scanIdx, (probe_frame ht).2.1]; simp only [if_true, hi]; omega

/-- An outcome with the empty result beside its state. -/
def withUnit : Host.Outcome State Fault Refusal → Host.Outcome (Unit × State) Fault Refusal
  | .next t => .next ((), t)
  | .fault r => .fault r
  | .refused r => .refused r

/-! ## Execute -/

theorem payloadFits_of_readRange {s : State} {p : List Byte} (h : s.buf.readRange 0 s.count.toNat = some p) :
    payloadFits p = true ∧ countByte p = s.count ∧ p.length = s.count.toNat := by
  have hn : p.length = s.count.toNat := ((Memory.readRange_eq_some _ _ _ _).1 h).1
  have := s.count.isLt
  refine ⟨?_, ?_, hn⟩
  · have hb : bufLen = 255 := rfl
    simp [payloadFits]; omega
  · simp [countByte, hn]

theorem decodePayload_all (mk : List Byte → Instr) {n : Byte} {p : List Byte} (h : p.length = n.toNat) :
    decodePayload mk n p = .ok (mk p, []) := by
  simp [decodePayload, ← h]

theorem exec_unrecognized (x : Byte) (s : State) :
    exec (decodeUnrecognized x) s = .next (s.raiseFailure .unrecognizedId) := by
  unfold decodeUnrecognized
  repeat' split
  all_goals rfl

/-- `ExecDetect` over the candidates that stand in the buffer (R260). -/
theorem run_detect {s : State} {as : List Byte} (h : s.buf.readRange 0 s.count.toNat = some as) :
    detectProg.run s = .next ((), match scanAll as (s.setOutCnt 0#8) with
      | (.timeout kind, t) => t.raiseFailure kind
      | (_, t) => t.succeed t.outCnt) := by
  have hn : as.length = s.count.toNat := ((Memory.readRange_eq_some _ _ _ _).1 h).1
  have hs : (scanProg s.count).run (s.setOutCnt 0#8) = .next (scanAll as (s.setOutCnt 0#8)) := by
    unfold scanProg
    cases as with
    | nil =>
      rw [if_pos (BitVec.eq_of_toNat_eq (by simpa using hn.symm))]
      exact run_scanRange defaultRange _
    | cons a as =>
      rw [if_neg (fun e => by rw [e] at hn; simp at hn), ← hn]
      rw [← hn] at h
      have := s.count.isLt
      have hb : bufLen = 255 := rfl
      exact run_scanList (a :: as) ((s.setOutCnt 0#8).setScanIdx 0#8) h (Nat.le_refl _) (by simp at hn ⊢; omega)
  simp only [detectProg, Prog.run, MicroOp.apply, Update.apply, State.setOutCnt_count]
  generalize scanAll as (s.setOutCnt 0#8) = r at hs ⊢
  obtain ⟨o, t⟩ := r
  rw [Prog.run_bind_next hs]
  cases o <;> rfl

theorem ends_detect (s : State) :
    detectProg.run s = .fault .bufUnwritten ∨ ∃ t, detectProg.run s = .next ((), t) ∧ t.st = .respond := by
  have hs : EndsOrFaults ((scanProg s.count).run (s.setOutCnt 0#8)) := by
    unfold scanProg
    split
    · exact .inl ⟨_, run_scanRange defaultRange _⟩
    · refine ends_scanList s.count.toNat ((s.setOutCnt 0#8).setScanIdx 0#8) ?_
      have := s.count.isLt
      have hb : bufLen = 255 := rfl
      simp; omega
  simp only [detectProg, Prog.run, MicroOp.apply, Update.apply, State.setOutCnt_count]
  rcases hs with ⟨⟨o, t⟩, hs⟩ | hs
  · right
    rw [Prog.run_bind_next hs]
    cases o <;> exact ⟨_, rfl, rfl⟩
  · exact .inl (Prog.run_bind_fault hs _)

theorem ends_concludeTxn {p : EngineProg} {s : State} (hp : EndsOrFaults (p.run s)) {onOk : Prog Unit}
    {f : State → State} (hk : ∀ t, onOk.run t = .next ((), f t)) (hf : ∀ t, (f t).st = .respond) :
    (concludeTxnProg onOk p).run s = .fault .bufUnwritten ∨
      ∃ t, (concludeTxnProg onOk p).run s = .next ((), t) ∧ t.st = .respond := by
  rcases hp with ⟨r, hp⟩ | hp
  · refine .inr ⟨_, run_concludeTxn hp hk, ?_⟩
    obtain ⟨o, t⟩ := r
    cases o with
    | ok => exact hf t
    | nack => rfl
    | timeout kind => rfl
  · exact .inl (Prog.run_bind_fault hp _)

/-- The commands of Execute over the registers do what `exec` does of the instruction that the held frame decodes to. -/
theorem run_execute {s : State} {bytes : List Byte} (h : s.heldFrame = some bytes) :
    executeProg.run s = withUnit (executeHeld s) := by
  simp only [executeHeld, fetchInstr, h]
  simp only [executeProg, Prog.run]
  unfold State.heldFrame at h
  split at h
  · rename_i hc
    rw [if_pos hc]
    cases hp : s.buf.readRange 0 s.count.toNat with
    | none => rw [hp] at h; cases h
    | some p =>
      rw [hp] at h
      cases h
      obtain ⟨hf, hcb, hl⟩ := payloadFits_of_readRange hp
      have hd : decode (s.cmdId :: s.devAddr :: s.regPtr :: s.count :: p) = .ok (.write s.devAddr s.regPtr p, []) := by
        rw [hc]; exact decodePayload_all _ hl
      rw [hd]
      simp only [writeProg, Prog.run, exec, execWrite, answerIf, hf, if_true, withUnit]
      rw [hcb]
      exact run_concludeTxn (run_txnWrite _ _ _ p s hp) fun _ => rfl
  · rename_i h0
    rw [if_neg h0]
    split at h
    · rename_i hc
      cases h
      rw [if_pos hc]
      have hd : decode [s.cmdId, s.devAddr, s.regPtr, s.count] = .ok (.read s.devAddr s.regPtr s.count, []) := by
        rw [hc]; rfl
      rw [hd]
      exact run_concludeTxn (run_txnRead _ _ _ s) fun _ => rfl
    · rename_i h1
      rw [if_neg h1]
      split at h
      · rename_i hc
        cases hp : s.buf.readRange 0 s.count.toNat with
        | none => rw [hp] at h; cases h
        | some p =>
          rw [hp] at h
          cases h
          obtain ⟨hf, hcb, hl⟩ := payloadFits_of_readRange hp
          by_cases h2 : s.cmdId = 0x02#8
          · rw [if_pos h2]
            have hd : decode (s.cmdId :: s.count :: p) = .ok (.detect p, []) := by
              rw [h2]; exact decodePayload_all _ hl
            rw [hd]
            simp only [exec, execDetect, answerIf, hf, if_true, withUnit]
            exact run_detect hp
          · have h3 := hc.resolve_left h2
            rw [if_neg h2, if_pos h3]
            have hd : decode (s.cmdId :: s.count :: p) = .ok (.echo p, []) := by
              rw [h3]; exact decodePayload_all _ hl
            rw [hd]
            simp only [exec, execEcho, answerIf, hf, if_true, withUnit, hcb]
            rfl
      · rename_i hc
        cases h
        rw [if_neg fun e => hc (.inl e), if_neg fun e => hc (.inr e)]
        simp only [decode, if_neg h0, if_neg h1, if_neg fun e => hc (.inl e), if_neg fun e => hc (.inr e)]
        rw [exec_unrecognized]
        rfl

/-- Of a held frame with an unwritten payload byte the commands of Execute stop at that byte, or end before it. -/
theorem ends_execute {s : State} (h : s.heldFrame = none) :
    executeProg.run s = .fault .bufUnwritten ∨ ∃ t, executeProg.run s = .next ((), t) ∧ t.st = .respond := by
  simp only [executeProg, Prog.run]
  unfold State.heldFrame at h
  split
  · exact ends_concludeTxn (ends_txnWrite _ _ _ s) (f := fun t => (t.bufStore 0 s.count).succeed 1#8) (fun _ => rfl)
      fun _ => rfl
  · rename_i h0
    rw [if_neg h0] at h
    split
    · rename_i h1
      rw [if_pos h1] at h
      cases h
    · split
      · exact ends_detect s
      · split
        · exact .inr ⟨_, rfl, rfl⟩
        · exact .inr ⟨_, rfl, rfl⟩

end Sys2Proof.Machine
end

