-- ==== Sys2Proof/Laws/MicroPass.lean ====
section
/-! SUPPORT. The pass through each dispatcher state, taken in the steps of R8, is what `step` does. -/

namespace Sys2Proof.Machine

/-! ## Receive -/

theorem run_rxByte (s : State) : rxByteProg.run s = .next (rxByte s) := by
  have h := run_wait (fun f => f.rxReady) false s.params.tRx s
  simp only [rxByteProg, rxByte, Prog.run]
  generalize wait (fun f => f.rxReady) false s.params.tRx s = r at h ⊢
  obtain ⟨o, t⟩ := r
  rw [Prog.run_bind_next h]
  cases o <;> rfl

theorem run_rxThen {p q : Prog Bool} {s : State} {r : RxResult} {k : State → RxResult}
    (hp : p.run s = .next r) (hq : ∀ t, q.run t = .next (k t)) : (rxThenProg p q).run s = .next (rxThen r k) := by
  obtain ⟨came, t⟩ := r
  rw [rxThenProg, Prog.run_bind_next hp]
  cases came with
  | true => exact hq t
  | false => rfl

theorem run_rxStore {putProg : Byte → Prog Unit} {put : State → Byte → State}
    (hput : ∀ y t, (putProg y).run t = .next ((), put t y)) (s : State) :
    (rxStoreProg putProg).run s = .next (rxStore put s) := by
  have h := run_rxByte s
  unfold rxStoreProg rxStore
  generalize rxByte s = r at h ⊢
  obtain ⟨o, t⟩ := r
  rw [Prog.run_bind_next h]
  cases o with
  | none => rfl
  | some y => exact Prog.run_bind_next (hput y t) _

theorem run_rxAddr (s : State) : (rxFieldProg .rxAddr .devAddr).run s = .next (rxAddr s) :=
  run_rxStore (put := State.setDevAddr) (fun _ _ => rfl) _

theorem run_rxReg (s : State) : (rxFieldProg .rxReg .regPtr).run s = .next (rxReg s) :=
  run_rxStore (put := State.setRegPtr) (fun _ _ => rfl) _

theorem run_rxCount (s : State) : (rxFieldProg .rxCount .count).run s = .next (rxCount s) :=
  run_rxStore (put := State.setCount) (fun _ _ => rfl) _

theorem run_rxPayloadLoop (k : Nat) (s : State) : (rxPayloadLoopProg k).run s = .next (rxPayloadLoop k s) := by
  induction k generalizing s with
  | zero => rfl
  | succ k ih => exact run_rxThen (run_rxStore (put := putPayloadByte) (fun _ _ => rfl) s) ih

theorem run_rxPayload (s : State) : rxPayloadProg.run s = .next (rxPayload s) := run_rxPayloadLoop _ _

theorem run_rxRead (s : State) : rxReadProg.run s = .next (rxRead s) :=
  run_rxThen (run_rxThen (run_rxAddr s) run_rxReg) run_rxCount

theorem run_rxWrite (s : State) : rxWriteProg.run s = .next (rxWrite s) := run_rxThen (run_rxRead s) run_rxPayload

theorem run_rxDetect (s : State) : rxListedProg.run s = .next (rxDetect s) := run_rxThen (run_rxCount s) run_rxPayload

theorem run_rxEcho (s : State) : rxListedProg.run s = .next (rxEcho s) := run_rxThen (run_rxCount s) run_rxPayload

theorem run_rxFinish {p : Prog Bool} {s : State} {r : RxResult} (hp : p.run s = .next r) :
    (rxFinishProg p).run s = .next ((), rxFinish r) := by
  obtain ⟨whole, t⟩ := r
  rw [rxFinishProg, Prog.run_bind_next hp]
  cases whole <;> rfl

theorem run_parse (x : Byte) (s : State) : (parseProg x).run s = .next ((), parseFrom x s) := by
  simp only [parseProg, parseFrom, Prog.run, MicroOp.apply, Update.apply]
  split
  · exact run_rxFinish (run_rxWrite _)
  split
  · exact run_rxFinish (run_rxRead _)
  split
  · exact run_rxFinish (run_rxDetect _)
  split
  · exact run_rxFinish (run_rxEcho _)
  · rfl

theorem run_thenDispatch {p : Prog Unit} {s t : State} (h : p.run s = .next ((), t)) :
    (thenDispatch p).run s = .next (.dispatch, t) := Prog.run_bind_next h _

/-- One poll of an identifier wait that is not bounded (R129). -/
theorem run_idWait (s : State) : idWaitProg.run s =
    .next (if s.pollAnswer.rxReady then .dispatch else .idWait, receiveUnbounded s) := by
  simp only [idWaitProg, receiveUnbounded, Prog.run, MicroOp.apply]
  split
  · exact run_thenDispatch (run_parse _ _)
  · rfl

/-- The pass of Receive from its entry. -/
theorem run_receive (s : State) : receiveProg.run s =
    .next (if s.params.idWaitBounded || s.pollAnswer.rxReady then .dispatch else .idWait, receive s) := by
  suffices h : ∀ u : State, (if u.params.idWaitBounded then
      thenDispatch (rxByteProg.bind fun o => match o with
        | some x => parseProg x
        | none => failureProg .framing)
      else idWaitProg).run u =
      .next (if u.params.idWaitBounded || u.pollAnswer.rxReady then .dispatch else .idWait,
        if u.params.idWaitBounded then receiveBounded u else receiveUnbounded u) from
    h ((s.setPh .rxId).setFailKind none)
  intro u
  split
  · rename_i hb
    rw [hb]
    refine run_thenDispatch ?_
    have h := run_rxByte u
    unfold receiveBounded
    generalize rxByte u = r at h ⊢
    obtain ⟨o, t⟩ := r
    rw [Prog.run_bind_next h]
    cases o with
    | none => rfl
    | some x => exact run_parse x t
  · rename_i hb
    simp only [Bool.not_eq_true] at hb
    rw [run_idWait, hb, Bool.false_or]

/-! ## Respond -/

theorem respond_begun (s : State) : respond (beginRespond s) = respond s := by
  have h : (beginRespond s).ph.isTx = true := by
    unfold beginRespond
    split
    · assumption
    · cases s.resOk <;> rfl
  have h2 : beginRespond (beginRespond s) = beginRespond s := by
    generalize beginRespond s = t at h
    unfold beginRespond
    exact if_pos h
  unfold respond; rw [h2]

/-- What a pass of Respond does in `step` and in R8's steps: the same next state, at a place that fits it, or the same
fault. -/
def SamePass (o : Host.Outcome (Place × State) Fault Refusal) (o' : Host.Outcome State Fault Refusal) : Prop :=
  (∃ pl t, o = .next (pl, t) ∧ o' = .next t ∧ pl.fits t = true) ∨ ∃ r, o = .fault r ∧ o' = .fault r

theorem run_txLen {s : State} (hs : s.st = .respond) (h : s.ph = .txLen) : SamePass (txLenProg.run s) (respond s) := by
  have hb : beginRespond s = s := by simp [beginRespond, h, Phase.isTx]
  left
  simp only [respond, hb, h, txLenProg, txPollProg, Prog.run, MicroOp.apply, txPoll]
  split
  · exact ⟨_, _, rfl, rfl, by simp [Place.fits, MicroOp.apply, Update.apply, hs]⟩
  · exact ⟨_, _, rfl, rfl, by simp [Place.fits, hs, h]⟩

theorem run_txFail {s : State} (hs : s.st = .respond) (h : s.ph = .txFail) : SamePass (txFailProg.run s) (respond s) := by
  have hb : beginRespond s = s := by simp [beginRespond, h, Phase.isTx]
  left
  simp only [respond, hb, h, txFailProg, txPollProg, Prog.run, MicroOp.apply, txPoll]
  split
  · exact ⟨_, _, rfl, rfl, by simp [Place.fits, MicroOp.apply, Update.apply]⟩
  · exact ⟨_, _, rfl, rfl, by simp [Place.fits, hs, h]⟩

theorem run_txDataWait {s : State} {b : Byte} (hs : s.st = .respond) (h : s.ph = .txData) (hi : s.idx ≠ s.resLen)
    (hb : s.bufLoad s.idx.toNat = .ok b) : SamePass ((txDataWaitProg b).run s) (respond s) := by
  have he : beginRespond s = s := by simp [beginRespond, h, Phase.isTx]
  left
  simp only [respond, he, h, respondData, if_neg hi, hb, txDataWaitProg, txPollProg, Prog.run, MicroOp.apply, txPoll]
  split
  · exact ⟨_, _, rfl, rfl, by simp [Place.fits, MicroOp.apply, Update.apply, hs, h]⟩
  · have hl : s.polled.bufLoad s.idx.toNat = .ok b := hb
    exact ⟨_, _, rfl, rfl, by simp [Place.fits, hs, h, hi, hl]⟩

theorem run_txData {s : State} (hs : s.st = .respond) (h : s.ph = .txData) : SamePass (txDataProg.run s) (respond s) := by
  have he : beginRespond s = s := by simp [beginRespond, h, Phase.isTx]
  by_cases hi : s.idx = s.resLen
  · left
    simp only [respond, he, h, respondData, if_pos hi, txDataProg, Prog.run]
    exact ⟨_, _, rfl, rfl, by simp [Place.fits, MicroOp.apply, Update.apply]⟩
  · cases hb : s.bufLoad s.idx.toNat with
    | ok b =>
      have hr : txDataProg.run s = (txDataWaitProg b).run s := by
        simp only [txDataProg, Prog.run, if_neg hi, hb, MicroOp.apply]
      rw [hr]
      exact run_txDataWait hs h hi hb
    | error r =>
      right
      simp only [respond, he, h, respondData, if_neg hi, hb, txDataProg, Prog.run]
      exact ⟨r, rfl, rfl⟩

/-- A pass of Respond from any place that fits the state. -/
theorem run_respond {pl : Place} {s : State} (hs : s.st = .respond) (hf : pl.fits s = true) :
    SamePass ((placeProg pl).run s) (respond s) := by
  cases pl with
  | dispatch =>
    have ht : s.ph.isTx = false := by simpa [Place.fits, hs] using hf
    have hd : (placeProg .dispatch).run s = respondProg.run s := by simp only [placeProg, dispatchProg, Prog.run, hs]
    rw [hd, ← respond_begun s]
    cases hr : s.resOk with
    | true =>
      have hb : beginRespond s = s.setPh .txLen := by simp [beginRespond, ht, hr]
      have hp : respondProg.run s = txLenProg.run (s.setPh .txLen) := by simp only [respondProg, Prog.run, hr]; rfl
      rw [hb, hp]
      exact run_txLen (by simpa using hs) rfl
    | false =>
      have hb : beginRespond s = s.setPh .txFail := by simp [beginRespond, ht, hr]
      have hp : respondProg.run s = txFailProg.run (s.setPh .txFail) := by simp only [respondProg, Prog.run, hr]; rfl
      rw [hb, hp]
      exact run_txFail (by simpa using hs) rfl
  | idWait => simp [Place.fits, hs] at hf
  | txLen => exact run_txLen hs (by simpa [Place.fits, hs] using hf)
  | txData => exact run_txData hs (by simpa [Place.fits, hs] using hf)
  | txDataWait b =>
    simp only [Place.fits, hs, beq_self_eq_true, Bool.true_and, Bool.and_eq_true, beq_iff_eq, bne_iff_ne] at hf
    obtain ⟨⟨h, hi⟩, hb⟩ := hf
    split at hb
    · rename_i c hc
      simp only [beq_iff_eq] at hb
      subst hb
      exact run_txDataWait hs h hi hc
    · cases hb
  | txFail => exact run_txFail hs (by simpa [Place.fits, hs] using hf)

/-! ## One step of R8 at a time -/

theorem execute_first (s : State) : ∃ o, (thenDispatch executeProg).first s = .inr o := by
  simp only [thenDispatch, executeProg, Prog.bind, Prog.first]
  split
  · exact ⟨_, rfl⟩
  split
  · exact ⟨_, rfl⟩
  split
  · exact ⟨_, rfl⟩
  split
  · exact ⟨_, rfl⟩
  · exact ⟨_, rfl⟩

theorem txData_first (s : State) : ∃ o, txDataProg.first s = .inr o := by
  simp only [txDataProg, Prog.first]
  split
  · exact ⟨_, rfl⟩
  · simp only [Prog.first]
    split <;> exact ⟨_, rfl⟩

/-- Every pass has a first step. -/
theorem place_first (pl : Place) (s : State) : ∃ o, (placeProg pl).first s = .inr o := by
  cases pl with
  | dispatch =>
    simp only [placeProg, dispatchProg, Prog.first]
    split
    · exact ⟨_, rfl⟩
    · exact ⟨_, rfl⟩
    · exact execute_first s
    · simp only [respondProg, Prog.first]; split <;> exact ⟨_, rfl⟩
  | idWait => exact ⟨_, rfl⟩
  | txLen => exact ⟨_, rfl⟩
  | txData => exact txData_first s
  | txDataWait b => exact ⟨_, rfl⟩
  | txFail => exact ⟨_, rfl⟩

/-- There is always a next step (R220). -/
theorem Micro.next_some (m : Micro) : ∃ o, m.next = .inr o := by
  unfold Micro.next; split
  · exact place_first _ _
  · exact ⟨_, rfl⟩

theorem State.bufStore_ports (s : State) (i v) : (s.bufStore i v).trace = s.trace ∧ (s.bufStore i v).polls = s.polls ∧
    (s.bufStore i v).rx = s.rx ∧ (s.bufStore i v).busRx = s.busRx := by
  unfold State.bufStore; split <;> exact ⟨rfl, rfl, rfl, rfl⟩

/-- A register update leaves the trace and the ports alone. -/
theorem Update.apply_ports (u : Update) (s : State) : (u.apply s).trace = s.trace ∧ (u.apply s).polls = s.polls ∧
    (u.apply s).rx = s.rx ∧ (u.apply s).busRx = s.busRx := by
  cases u <;> first | exact State.bufStore_ports _ _ _ | exact ⟨rfl, rfl, rfl, rfl⟩

/-- A step of R8 adds what it did to the trace, draws what it recorded, and keeps the parameters. -/
theorem MicroOp.apply_ran (op : MicroOp) (s : State) :
    ∃ es, Ran s (op.apply s) es ∧ (op.apply s).params = s.params := by
  cases op with
  | poll => exact ⟨_, Ran.polled s, rfl⟩
  | rxTake => exact ⟨_, Ran.rxTaken s, rfl⟩
  | busRecv => exact ⟨_, Ran.busReceived s, rfl⟩
  | memRead i => exact ⟨[], Ran.refl s, rfl⟩
  | act c =>
    exact ⟨_, Ran.log s c.event (by cases c <;> rfl) (by cases c <;> rfl) (by cases c <;> rfl), rfl⟩
  | update u =>
    obtain ⟨a, b, c, d⟩ := Update.apply_ports u s
    refine ⟨[], (Ran.refl s).of_eq a b c d, ?_⟩
    cases u <;> first
      | rfl
      | (simp only [MicroOp.apply, Update.apply]; unfold State.bufStore; split <;> rfl)

/-- What is left of a program in progress is what the machine does next. -/
theorem microStep_of_first {p rest : Prog Place} {s : State} {op : MicroOp}
    (h : p.first s = .inr (.next (op, rest))) : microStep ⟨p, s⟩ = .next ⟨rest, op.apply s⟩ := by
  simp [microStep, Micro.next, h]

/-- From a place the machine does the first step of the pass that begins there (R220). -/
theorem microStep_place {m : Micro} {pl : Place} (h : m.place = some pl) :
    microStep m = microStep ⟨placeProg pl, m.now⟩ := by
  have hp : m.todo.first m.now = .inl pl := by
    unfold Micro.place at h
    cases hf : m.todo.first m.now with
    | inl q => rw [hf] at h; simpa using h
    | inr o => rw [hf] at h; cases h
  obtain ⟨o, ho⟩ := place_first pl m.now
  have h1 : m.next = .inr o := by simp only [Micro.next, hp, ho]
  have h2 : (⟨placeProg pl, m.now⟩ : Micro).next = .inr o := by simp only [Micro.next, ho]
  unfold microStep
  rw [h1, h2]
  rcases o with ⟨op, rest⟩ | r | r <;> rfl

theorem microRun_next {m n : Micro} (h : microStep m = .next n) (k : Nat) :
    microCore.run (k + 1) m = microCore.run k n := by
  have h : microCore.step m = .next n := h
  simp only [Host.Core.run, h]

theorem microRun_congr {m n : Micro} (h : microStep m = microStep n) (k : Nat) :
    microCore.run (k + 1) m = microCore.run (k + 1) n := by
  have h : microCore.step m = microCore.step n := h
  simp only [Host.Core.run, h]

end Sys2Proof.Machine
end

