-- ==== Sys2Proof/Laws/Receive.lean ====
section
/-! SUPPORT. frame_codec_rx: what taking one byte, one field and one payload can do. -/

namespace Sys2Proof.Machine

/-- The only events of a step in Receive. -/
def isRxEvent : Event → Bool
  | .poll _ => true
  | .rxTake _ => true
  | _ => false

/-- A run of receive events from `s` to `t`: what happened, that the ports were used as promised, and which registers
Receive leaves alone. -/
structure RxRun (s t : State) (es : List Event) : Prop extends Ran s t es where
  st : t.st = s.st
  resOk : t.resOk = s.resOk
  resLen : t.resLen = s.resLen
  scanIdx : t.scanIdx = s.scanIdx
  scanAddr : t.scanAddr = s.scanAddr
  outCnt : t.outCnt = s.outCnt
  params : t.params = s.params
  failKind : t.failKind = s.failKind
  busKept : t.busRx = s.busRx
  countdown : t.toCnt ≤ max s.toCnt s.params.tRx
  only : ∀ e ∈ es, isRxEvent e = true
  safe : ∀ tr, portsKept tr = true → portsKept (es.reverse ++ tr) = true

theorem RxRun.refl (s : State) : RxRun s s [] :=
  ⟨Ran.refl s, rfl, rfl, rfl, rfl, rfl, rfl, rfl, rfl, rfl, by omega, by simp, fun _ h => h⟩

theorem RxRun.trans {s t u : State} {es fs : List Event} (h : RxRun s t es) (k : RxRun t u fs) :
    RxRun s u (es ++ fs) where
  toRan := h.toRan.trans k.toRan
  st := k.st.trans h.st
  resOk := k.resOk.trans h.resOk
  resLen := k.resLen.trans h.resLen
  scanIdx := k.scanIdx.trans h.scanIdx
  scanAddr := k.scanAddr.trans h.scanAddr
  outCnt := k.outCnt.trans h.outCnt
  params := k.params.trans h.params
  failKind := k.failKind.trans h.failKind
  busKept := k.busKept.trans h.busKept
  countdown := by have h1 := h.countdown; have h2 := k.countdown; rw [h.params] at h2; omega
  only := fun e he => (List.mem_append.1 he).elim (h.only e) (k.only e)
  safe := fun tr htr => by
    rw [List.reverse_append, List.append_assoc]; exact k.safe _ (h.safe tr htr)

/-- A register that Receive writes, written between its bytes. -/
theorem RxRun.write {s t u : State} {es : List Event} (h : RxRun s t es)
    (hu : u = { t with ph := u.ph, cmdId := u.cmdId, devAddr := u.devAddr, regPtr := u.regPtr, count := u.count,
                       buf := u.buf, idx := u.idx }) : RxRun s u es := by
  rw [hu]
  exact ⟨h.toRan.of_eq rfl rfl rfl rfl, h.st, h.resOk, h.resLen, h.scanIdx, h.scanAddr, h.outCnt, h.params, h.failKind,
    h.busKept, h.countdown, h.only, h.safe⟩

theorem RxRun.waited (s : State) (n k : Nat) (hk : k ≤ s.params.tRx) : RxRun s (s.waited n k) (s.pollEvents n) :=
  ⟨Ran.waited s n k, rfl, rfl, rfl, rfl, rfl, rfl, rfl, rfl, rfl, by simp; omega,
    by simp [State.pollEvents, isRxEvent], portsKept_pollEvents s n⟩

/-- A completed `RxByte` wait and the byte taken after it. -/
theorem RxRun.taken (s : State) (n k : Nat) (hk : k ≤ s.params.tRx) (h : (s.pollAhead n).rxReady = true) :
    RxRun s (s.waited (n + 1) k).rxTaken (s.pollEvents (n + 1) ++ [.rxTake (s.rxAhead 0)]) := by
  have hb : (s.waited (n + 1) k).rxAnswer = s.rxAhead 0 := State.rxAnswer_eq _
  have hr : Ran s (s.waited (n + 1) k).rxTaken (s.pollEvents (n + 1) ++ [.rxTake (s.rxAhead 0)]) := by
    rw [← hb]; exact (Ran.waited s (n + 1) k).trans (Ran.rxTaken _)
  refine ⟨hr, by simp, by simp, by simp, by simp, by simp, by simp, by simp, by simp, by simp, by simp; omega, ?_, ?_⟩
  · intro e he
    simp only [State.pollEvents, List.mem_append, List.mem_map, List.mem_singleton] at he
    rcases he with ⟨_, _, rfl⟩ | rfl <;> rfl
  · intro tr htr
    simp only [State.pollEvents, List.range_succ, List.map_append, List.map_cons, List.map_nil, List.reverse_append,
      List.reverse_cons, List.reverse_nil, List.nil_append, List.cons_append, portsKept, afterPoll, h,
      Bool.true_and]
    exact portsKept_pollEvents s n tr htr

/-- Everything `RxByte` can do (R120). -/
theorem rxByte_cases (s : State) :
    (∃ n, n < s.params.tRx ∧ (s.pollAhead n).rxReady = true ∧
      rxByte s = (some (s.rxAhead 0), (s.waited (n + 1) (s.params.tRx - n)).rxTaken)) ∨
    ((∀ j, j < s.params.tRx → (s.pollAhead j).rxReady = false) ∧
      rxByte s = (none, s.waited s.params.tRx 0)) := by
  rcases wait_cases (fun f => f.rxReady) false s.params.tRx s with ⟨n, hn, _, hd, he⟩ | ⟨n, _, _, _, hne, _, _⟩ | ⟨hj, he⟩
  · refine .inl ⟨n, hn, hd, ?_⟩
    simp only [rxByte, he]
    rw [State.rxAnswer_eq]; rfl
  · cases hne
  · exact .inr ⟨fun j h => by simpa [decides] using hj j h, by simp [rxByte, he]⟩

/-- Everything one field can do (R121): the byte stored, or nothing taken. `put` writes registers of Receive only. -/
theorem rxStore_cases (put : State → Byte → State) (s : State)
    (hput : ∀ (u : State) (y : Byte), put u y = { u with
      devAddr := (put u y).devAddr, regPtr := (put u y).regPtr, count := (put u y).count,
      buf := (put u y).buf, idx := (put u y).idx }) :
    (∃ n, n < s.params.tRx ∧ (s.pollAhead n).rxReady = true ∧
      RxRun s (put (s.waited (n + 1) (s.params.tRx - n)).rxTaken (s.rxAhead 0))
        (s.pollEvents (n + 1) ++ [.rxTake (s.rxAhead 0)]) ∧
      rxStore put s = (true, put (s.waited (n + 1) (s.params.tRx - n)).rxTaken (s.rxAhead 0))) ∨
    ((∀ j, j < s.params.tRx → (s.pollAhead j).rxReady = false) ∧
      RxRun s (s.waited s.params.tRx 0) (s.pollEvents s.params.tRx) ∧
      rxStore put s = (false, s.waited s.params.tRx 0)) := by
  rcases rxByte_cases s with ⟨n, hn, hr, he⟩ | ⟨hj, he⟩
  · refine .inl ⟨n, hn, hr, (RxRun.taken s n (s.params.tRx - n) (Nat.sub_le _ _) hr).write ?_, by simp [rxStore, he]⟩
    rw [hput]
  · exact .inr ⟨hj, RxRun.waited s _ 0 (Nat.zero_le _), by simp [rxStore, he]⟩

theorem State.rxBytes_succ {s t : State} (h : t.rx = s.rx.advance 1) (k : Nat) :
    s.rxBytes (k + 1) = s.rxAhead 0 :: t.rxBytes k := by
  simp [State.rxBytes, List.range_succ_eq_map, State.rxAhead_of_advance h, Function.comp_def, Nat.add_comm]

theorem putPayloadByte_eq (s : State) (y : Byte) (h : s.idx.toNat < bufLen) :
    putPayloadByte s y = (s.setBuf (s.buf.write s.idx.toNat y)).setIdx (s.idx + 1#8) := by
  simp [putPayloadByte, State.bufStore, h, State.setBuf, State.setIdx]

theorem putPayloadByte_frame (s : State) (y : Byte) : putPayloadByte s y = { s with
    devAddr := (putPayloadByte s y).devAddr, regPtr := (putPayloadByte s y).regPtr,
    count := (putPayloadByte s y).count, buf := (putPayloadByte s y).buf, idx := (putPayloadByte s y).idx } := by
  simp only [putPayloadByte, State.bufStore]
  split <;> rfl

/-- The command registers and `ph`, which the payload loop leaves alone. -/
def SameCommand (s t : State) : Prop :=
  t.cmdId = s.cmdId ∧ t.devAddr = s.devAddr ∧ t.regPtr = s.regPtr ∧ t.count = s.count ∧ t.ph = s.ph

theorem SameCommand.trans {s t u : State} (h : SameCommand s t) (k : SameCommand t u) : SameCommand s u :=
  ⟨k.1.trans h.1, k.2.1.trans h.2.1, k.2.2.1.trans h.2.2.1, k.2.2.2.1.trans h.2.2.2.1, k.2.2.2.2.trans h.2.2.2.2⟩

/-- Everything the payload loop of Receive can do (R126): all `k` bytes stored, or the first `i` of them. -/
theorem rxPayloadLoop_cases (k : Nat) (s : State) (hi : s.idx.toNat + k ≤ bufLen) :
    ∃ t es i, RxRun s t es ∧ SameCommand s t ∧ pollCount es ≤ k * s.params.tRx ∧
      t.buf = s.buf.writeRange s.idx.toNat (s.rxBytes i) ∧ t.idx = s.idx + BitVec.ofNat 8 i ∧
      t.rx = s.rx.advance i ∧ actions es = (s.rxBytes i).map .rxTake ∧
      ((rxPayloadLoop k s = (true, t) ∧ i = k) ∨ (rxPayloadLoop k s = (false, t) ∧ i < k)) := by
  induction k generalizing s with
  | zero =>
    exact ⟨s, [], 0, RxRun.refl s, ⟨rfl, rfl, rfl, rfl, rfl⟩, by simp, rfl, by simp, by simp, rfl, .inl ⟨rfl, rfl⟩⟩
  | succ k ih =>
    rcases rxStore_cases putPayloadByte s putPayloadByte_frame with ⟨n, hn, _, r1, h1⟩ | ⟨_, r1, h1⟩
    · have hlt : (s.waited (n + 1) (s.params.tRx - n)).rxTaken.idx.toNat < bufLen := by
        show s.idx.toNat < bufLen; omega
      have he := putPayloadByte_eq (s.waited (n + 1) (s.params.tRx - n)).rxTaken (s.rxAhead 0) hlt
      have h2 : rxPayloadLoop (k + 1) s = rxPayloadLoop k
          (putPayloadByte (s.waited (n + 1) (s.params.tRx - n)).rxTaken (s.rxAhead 0)) := by
        simp only [rxPayloadLoop, h1, rxThen]
      rw [he] at r1 h2
      generalize hu : (((s.waited (n + 1) (s.params.tRx - n)).rxTaken.setBuf
        ((s.waited (n + 1) (s.params.tRx - n)).rxTaken.buf.write
          (BitVec.toNat (s.waited (n + 1) (s.params.tRx - n)).rxTaken.idx) (s.rxAhead 0))).setIdx
            ((s.waited (n + 1) (s.params.tRx - n)).rxTaken.idx + 1#8)) = u at r1 h2
      have hb : u.buf = s.buf.write s.idx.toNat (s.rxAhead 0) := by rw [← hu]; simp
      have hx : u.idx = s.idx + 1#8 := by rw [← hu]; simp
      have hr : u.rx = s.rx.advance 1 := by rw [← hu]; simp [Feed.rest_eq_advance]
      have hc : SameCommand s u := by rw [← hu]; exact ⟨by simp, by simp, by simp, by simp, by simp⟩
      have hx' : u.idx.toNat = s.idx.toNat + 1 := by
        have : bufLen = 255 := rfl
        rw [hx, BitVec.toNat_add]; simp; omega
      obtain ⟨t, es, i, r2, c2, p2, b2, i2, x2, a2, h3⟩ := ih u (by omega)
      refine ⟨t, _, i + 1, r1.trans r2, hc.trans c2, ?_, ?_, ?_, ?_, ?_, ?_⟩
      · rw [r1.params] at p2
        rw [Nat.succ_mul]
        simp [pollCount_cons, Event.polls]; omega
      · rw [b2, hx', hb, State.rxBytes_succ hr]; rfl
      · rw [i2, hx]; simp [BitVec.ofNat_add, BitVec.add_assoc, BitVec.add_comm 1#8]
      · rw [x2, hr]; simp [Nat.add_comm]
      · rw [actions_append, a2, actions_append, actions_pollEvents, State.rxBytes_succ hr]; simp [actions]
      · rcases h3 with ⟨h3, hk⟩ | ⟨h3, hk⟩
        · exact .inl ⟨h2.trans h3, by omega⟩
        · exact .inr ⟨h2.trans h3, by omega⟩
    · refine ⟨_, _, 0, r1, ⟨rfl, rfl, rfl, rfl, rfl⟩, ?_, rfl, by simp, by simp, by simp [State.rxBytes],
        .inr ⟨by simp [rxPayloadLoop, h1, rxThen], by omega⟩⟩
      rw [Nat.succ_mul]; simp

end Sys2Proof.Machine
end

