-- ==== Sys2Proof/Laws/Parse.lean ====
section
/-! SUPPORT. frame_codec_rx: what each field, the payload and each operand sequence can do, and which frame stands in
the registers after it. -/

namespace Sys2Proof.Machine

theorem State.rxBytes_length (s : State) (n : Nat) : (s.rxBytes n).length = n := by simp [State.rxBytes]

theorem State.rxBytes_add {s t : State} {n : Nat} (h : t.rx = s.rx.advance n) (m : Nat) :
    s.rxBytes (n + m) = s.rxBytes n ++ t.rxBytes m := by
  rw [State.rxBytes, State.rxBytes, State.rxBytes, List.range_add, List.map_append, List.map_map]
  congr 1
  exact (List.map_congr_left fun j _ => State.rxAhead_of_advance h j).symm

theorem State.rxBytes_one (s : State) : s.rxBytes 1 = [s.rxAhead 0] := rfl

theorem RxRun.phase (s : State) (p : Phase) : RxRun s (s.setPh p) [] := (RxRun.refl s).write rfl

/-- The events `es` between `s` and `t` take the next `n` bytes, within `b` receive budgets. -/
structure Taken (s t : State) (es : List Event) (n b : Nat) : Prop where
  run : RxRun s t es
  acts : actions es = (s.rxBytes n).map .rxTake
  rx : t.rx = s.rx.advance n
  bound : pollCount es ≤ b * s.params.tRx

theorem Taken.refl (s : State) : Taken s s [] 0 0 := ⟨RxRun.refl s, rfl, by simp, by simp⟩

theorem Taken.trans {s t u es fs n m a b} (h : Taken s t es n a) (k : Taken t u fs m b) : Taken s u (es ++ fs) (n + m) (a + b) := by
  refine ⟨h.run.trans k.run, ?_, by rw [k.rx, h.rx]; simp, ?_⟩
  · rw [actions_append, h.acts, k.acts, State.rxBytes, State.rxBytes, State.rxBytes, range_map_add, List.map_append]
    congr 2
    exact List.map_congr_left fun j _ => State.rxAhead_of_advance h.rx j
  · have h1 := h.bound; have h2 := k.bound; rw [h.run.params] at h2
    rw [pollCount_append, Nat.add_mul]; omega

theorem Taken.phase (s : State) (p : Phase) : Taken s (s.setPh p) [] 0 0 := ⟨RxRun.phase s p, rfl, by simp, by simp⟩

/-- Everything one field can do (R121 to R125): its byte stored, or the budget spent and no byte taken. -/
theorem rxField_cases (ph : Phase) (put : State → Byte → State) (s : State)
    (hput : ∀ (u : State) (y : Byte), put u y = { u with
      devAddr := (put u y).devAddr, regPtr := (put u y).regPtr, count := (put u y).count,
      buf := (put u y).buf, idx := (put u y).idx }) :
    (∃ t es v, Taken s t es 1 1 ∧ rxStore put (s.setPh ph) = (true, t) ∧ t = put v (s.rxAhead 0) ∧
       v.cmdId = s.cmdId ∧ v.devAddr = s.devAddr ∧ v.regPtr = s.regPtr ∧ v.count = s.count ∧ v.buf = s.buf ∧ v.idx = s.idx ∧ v.ph = ph) ∨
    (∃ t es, Taken s t es 0 1 ∧ rxStore put (s.setPh ph) = (false, t) ∧
       t.cmdId = s.cmdId ∧ t.buf = s.buf ∧ t.ph = ph ∧ t.toCnt = 0) := by
  rcases rxStore_cases put (s.setPh ph) hput with ⟨n, hn, _, r, e⟩ | ⟨_, r, e⟩
  · left
    refine ⟨_, _, _, ⟨(RxRun.phase s ph).trans r, ?_, ?_, ?_⟩, e, rfl, rfl, rfl, rfl, rfl, rfl, rfl, rfl⟩
    · rw [List.nil_append, actions_append, actions_pollEvents]; rfl
    · rw [hput]; simp [Feed.rest_eq_advance]
    · simp [pollCount_cons, Event.polls] at hn ⊢; omega
  · right
    refine ⟨_, _, ⟨(RxRun.phase s ph).trans r, ?_, ?_, ?_⟩, e, rfl, rfl, rfl, rfl⟩
    · rw [List.nil_append, actions_pollEvents]; rfl
    · simp
    · simp

/-! ## The frames in the registers -/

theorem State.heldFrame_write {t : State} {p : List Byte} (h0 : t.cmdId = 0#8) (hc : t.count.toNat = p.length) (hb : t.buf.readRange 0 p.length = some p) :
   t.heldFrame = some (encode (.write t.devAddr t.regPtr p)) := by
  have : countByte p = t.count := by unfold countByte; rw [← hc]; simp
  simp [State.heldFrame, h0, hc, hb, encode, Instr.idByte, Instr.operandBytes, this]
theorem State.heldFrame_read {t : State} (h0 : t.cmdId = 1#8) : t.heldFrame = some (encode (.read t.devAddr t.regPtr t.count)) := by
  simp [State.heldFrame, h0, encode, Instr.idByte, Instr.operandBytes]
theorem State.heldFrame_detect {t : State} {p : List Byte} (h0 : t.cmdId = 2#8) (hc : t.count.toNat = p.length) (hb : t.buf.readRange 0 p.length = some p) :
   t.heldFrame = some (encode (.detect p)) := by
  have : countByte p = t.count := by unfold countByte; rw [← hc]; simp
  simp [State.heldFrame, h0, hc, hb, encode, Instr.idByte, Instr.operandBytes, this]
theorem State.heldFrame_echo {t : State} {p : List Byte} (h0 : t.cmdId = 3#8) (hc : t.count.toNat = p.length) (hb : t.buf.readRange 0 p.length = some p) :
   t.heldFrame = some (encode (.echo p)) := by
  have : countByte p = t.count := by unfold countByte; rw [← hc]; simp
  simp [State.heldFrame, h0, hc, hb, encode, Instr.idByte, Instr.operandBytes, this]

/-- Everything `RxPayload` can do (R126). -/
theorem rxPayload_cases (s : State) : ∃ t es n, Taken s t es n s.count.toNat ∧ t.cmdId = s.cmdId ∧ t.devAddr = s.devAddr ∧ t.regPtr = s.regPtr ∧ t.count = s.count ∧
     t.ph = .rxData ∧ t.buf = s.buf.writeRange 0 (s.rxBytes n) ∧ n ≤ s.count.toNat ∧
     ((rxPayload s = (true, t) ∧ n = s.count.toNat ∧ t.buf.readRange 0 n = some (s.rxBytes n)) ∨ rxPayload s = (false, t)) := by
  obtain ⟨t, es, i, r, c, p, b, ix, x, a, h⟩ := rxPayloadLoop_cases s.count.toNat ((s.setPh .rxData).setIdx 0#8) (by simp [bufLen]; omega)
  have q : RxRun s ((s.setPh .rxData).setIdx 0#8) [] := (RxRun.refl s).write rfl
  have hb : t.buf = s.buf.writeRange 0 (s.rxBytes i) := b
  refine ⟨t, _, i, ⟨q.trans r, a, by simpa using x, by simpa using p⟩, c.1, c.2.1, c.2.2.1, c.2.2.2.1, by rw [c.2.2.2.2]; rfl, hb, ?_, ?_⟩
  · rcases h with ⟨_, h⟩ | ⟨_, h⟩ <;> omega
  · rcases h with ⟨h, hi⟩ | ⟨h, hi⟩
    · refine .inl ⟨h, hi, ?_⟩
      rw [hb]
      have := Memory.readRange_writeRange s.buf 0 (s.rxBytes i)
      rwa [State.rxBytes_length] at this
    · exact .inr h

theorem Memory.writeRange_zero_wf (m : Memory) (bs : List Byte) (h : bs.length ≤ 255) (hm : m.wf = true) : (m.writeRange 0 bs).wf = true :=
  Memory.writeRange_wf m 0 bs hm (by simp [bufLen]; omega)

/-- What an operand sequence `r`, run from `u`, leaves: a state that holds the complete frame, or a failure. -/
structure OperandsTaken (u : State) (r : RxResult) (t : State) (es : List Event) (n : Nat) : Prop where
  tk : Taken u t es n 258
  cmd : t.cmdId = u.cmdId
  wf : u.buf.wf = true → t.buf.wf = true
  ph : t.ph.isTx = false
  res : (r = (true, t) ∧ ∃ i : Instr, i.wf = true ∧ recognized i = true ∧ t.heldFrame = some (encode i) ∧ u.cmdId :: u.rxBytes n = encode i) ∨ r = (false, t)

theorem Taken.mono {s t es n a b} (h : Taken s t es n a) (hab : a ≤ b) : Taken s t es n b :=
  ⟨h.run, h.acts, h.rx, Nat.le_trans h.bound (Nat.mul_le_mul_right _ hab)⟩

theorem State.setDevAddr_frame (u : State) (y : Byte) : State.setDevAddr u y = { u with
      devAddr := (State.setDevAddr u y).devAddr, regPtr := (State.setDevAddr u y).regPtr, count := (State.setDevAddr u y).count,
      buf := (State.setDevAddr u y).buf, idx := (State.setDevAddr u y).idx } := rfl
theorem State.setRegPtr_frame (u : State) (y : Byte) : State.setRegPtr u y = { u with
      devAddr := (State.setRegPtr u y).devAddr, regPtr := (State.setRegPtr u y).regPtr, count := (State.setRegPtr u y).count,
      buf := (State.setRegPtr u y).buf, idx := (State.setRegPtr u y).idx } := rfl
theorem State.setCount_frame (u : State) (y : Byte) : State.setCount u y = { u with
      devAddr := (State.setCount u y).devAddr, regPtr := (State.setCount u y).regPtr, count := (State.setCount u y).count,
      buf := (State.setCount u y).buf, idx := (State.setCount u y).idx } := rfl

/-- Everything the three fields of WRITE and READ can do (R122, R123). -/
theorem rxHeader_cases (s : State) :
   (∃ t es, Taken s t es 3 3 ∧ rxThen (rxThen (rxAddr s) rxReg) rxCount = (true, t) ∧ t.cmdId = s.cmdId ∧ t.buf = s.buf ∧ t.ph = .rxCount ∧
      s.rxBytes 3 = [t.devAddr, t.regPtr, t.count]) ∨
   (∃ t es n, Taken s t es n 3 ∧ rxThen (rxThen (rxAddr s) rxReg) rxCount = (false, t) ∧ t.cmdId = s.cmdId ∧ t.buf = s.buf ∧ t.ph.isTx = false) := by
  rcases rxField_cases .rxAddr State.setDevAddr s State.setDevAddr_frame with ⟨t1, e1, v1, T1, h1, E1, c1, d1, r1, n1, b1, i1, p1⟩ | ⟨t1, e1, T1, h1, c1, b1, p1, _⟩
  swap
  · exact .inr ⟨t1, e1, 0, T1.mono (by omega), by simp [rxAddr, h1, rxThen], c1, b1, by rw [p1]; rfl⟩
  rcases rxField_cases .rxReg State.setRegPtr t1 State.setRegPtr_frame with ⟨t2, e2, v2, T2, h2, E2, c2, d2, r2, n2, b2, i2, p2⟩ | ⟨t2, e2, T2, h2, c2, b2, p2, _⟩
  swap
  · exact .inr ⟨t2, _, _, (T1.trans T2).mono (by omega), by simp [rxAddr, h1, rxThen, rxReg, h2], by rw [c2, E1]; exact c1, by rw [b2, E1]; exact b1, by rw [p2]; rfl⟩
  rcases rxField_cases .rxCount State.setCount t2 State.setCount_frame with ⟨t3, e3, v3, T3, h3, E3, c3, d3, r3, n3, b3, i3, p3⟩ | ⟨t3, e3, T3, h3, c3, b3, p3, _⟩
  swap
  · refine .inr ⟨t3, _, _, ((T1.trans T2).trans T3).mono (by omega), by simp [rxAddr, h1, rxThen, rxReg, h2, rxCount, h3], ?_, ?_, by rw [p3]; rfl⟩
    · rw [c3, E2]; simp [c2]; rw [E1]; simp [c1]
    · rw [b3, E2]; simp [b2]; rw [E1]; simp [b1]
  · refine .inl ⟨t3, _, ((T1.trans T2).trans T3), by simp [rxAddr, h1, rxThen, rxReg, h2, rxCount, h3], ?_, ?_, ?_, ?_⟩
    · rw [E3]; simp [c3]; rw [E2]; simp [c2]; rw [E1]; simp [c1]
    · rw [E3]; simp [b3]; rw [E2]; simp [b2]; rw [E1]; simp [b1]
    · rw [E3]; simp [p3]
    · rw [show 3 = 1 + 1 + 1 by rfl, State.rxBytes_add (T1.trans T2).rx 1, State.rxBytes_add T1.rx 1, State.rxBytes_one, State.rxBytes_one, State.rxBytes_one]
      have x1 : t3.devAddr = s.rxAhead 0 := by rw [E3]; simp [d3]; rw [E2]; simp [d2]; rw [E1]; rfl
      have x2 : t3.regPtr = t1.rxAhead 0 := by rw [E3]; simp [r3]; rw [E2]; rfl
      have x3 : t3.count = t2.rxAhead 0 := by rw [E3]; rfl
      rw [x1, x2, x3]; rfl

/-- Everything `RxWrite` can do (R122). -/
theorem rxWrite_cases (u : State) (h0 : u.cmdId = 0#8) : ∃ t es n, OperandsTaken u (rxWrite u) t es n := by
  rcases rxHeader_cases u with ⟨t, es, T, h, c, b, p, hb⟩ | ⟨t, es, n, T, h, c, b, p⟩
  · obtain ⟨t2, e2, n, T2, c2, d2, r2, k2, p2, b2, hn, h2⟩ := rxPayload_cases t
    have hlt := t.count.isLt
    refine ⟨t2, _, _, (T.trans T2).mono (by omega), c2.trans c, fun hw => ?_, by rw [p2]; rfl, ?_⟩
    · rw [b2]; exact Memory.writeRange_zero_wf _ _ (by rw [State.rxBytes_length]; omega) (by rw [b]; exact hw)
    · rcases h2 with ⟨h2, hn2, hr⟩ | h2
      · refine .inl ⟨by rw [rxWrite, h]; exact h2, .write t2.devAddr t2.regPtr (t.rxBytes n), ?_, rfl, ?_, ?_⟩
        · exact decide_eq_true (by rw [State.rxBytes_length, bufLen]; omega)
        · apply State.heldFrame_write
          · rw [c2, c]; exact h0
          · rw [State.rxBytes_length, k2, hn2]
          · rw [State.rxBytes_length]; exact hr
        · rw [State.rxBytes_add T.rx, hb, d2, r2, h0]
          have : countByte (t.rxBytes n) = t.count := by rw [countByte, State.rxBytes_length, hn2]; simp
          simp [encode, Instr.idByte, Instr.operandBytes, this]
      · exact .inr (by rw [rxWrite, h]; exact h2)
  · exact ⟨t, es, n, T.mono (by omega), c, fun hw => by rw [b]; exact hw, p, .inr (by rw [rxWrite, h]; rfl)⟩

/-- Everything `RxRead` can do (R123). -/
theorem rxRead_cases (u : State) (h0 : u.cmdId = 1#8) : ∃ t es n, OperandsTaken u (rxRead u) t es n := by
  rcases rxHeader_cases u with ⟨t, es, T, h, c, b, p, hb⟩ | ⟨t, es, n, T, h, c, b, p⟩
  · refine ⟨t, es, 3, T.mono (by omega), c, fun hw => by rw [b]; exact hw, by rw [p]; rfl, .inl ⟨h, _, rfl, rfl, State.heldFrame_read (by rw [c]; exact h0), ?_⟩⟩
    rw [hb, h0]; rfl
  · exact ⟨t, es, n, T.mono (by omega), c, fun hw => by rw [b]; exact hw, p, .inr h⟩

/-- Everything `RxDetect` and `RxEcho` can do (R124, R125): `mk` makes the instruction of the payload. -/
theorem rxListed_cases (mk : List Byte → Instr) (id : Byte) (u : State) (h0 : u.cmdId = id)
    (held : ∀ (t : State) (p : List Byte), t.cmdId = id → t.count.toNat = p.length → t.buf.readRange 0 p.length = some p → t.heldFrame = some (encode (mk p)))
    (hwf : ∀ p, payloadFits p = true → (mk p).wf = true) (hrec : ∀ p, recognized (mk p) = true)
    (henc : ∀ p, encode (mk p) = id :: countByte p :: p) : ∃ t es n, OperandsTaken u (rxThen (rxCount u) rxPayload) t es n := by
  rcases rxField_cases .rxCount State.setCount u State.setCount_frame with ⟨t, es, v, T, h, E, c, d, r, k, b, i, p⟩ | ⟨t, es, T, h, c, b, p, _⟩
  · have ec : t.cmdId = u.cmdId := by rw [E]; exact c
    have eb : t.buf = u.buf := by rw [E]; exact b
    obtain ⟨t2, e2, n, T2, c2, d2, r2, k2, p2, b2, hn, h2⟩ := rxPayload_cases t
    have hlt := t.count.isLt
    refine ⟨t2, _, _, (T.trans T2).mono (by omega), c2.trans ec, fun hw => ?_, by rw [p2]; rfl, ?_⟩
    · rw [b2]; exact Memory.writeRange_zero_wf _ _ (by rw [State.rxBytes_length]; omega) (by rw [eb]; exact hw)
    · rcases h2 with ⟨h2, hn2, hr⟩ | h2
      · refine .inl ⟨by rw [rxCount, h]; exact h2, mk (t.rxBytes n), ?_, hrec _, ?_, ?_⟩
        · exact hwf _ (decide_eq_true (by rw [State.rxBytes_length, bufLen]; omega))
        · apply held
          · rw [c2, ec]; exact h0
          · rw [State.rxBytes_length, k2, hn2]
          · rw [State.rxBytes_length]; exact hr
        · have : countByte (t.rxBytes n) = t.count := by rw [countByte, State.rxBytes_length, hn2]; simp
          have tc : t.count = u.rxAhead 0 := by rw [E]; rfl
          rw [State.rxBytes_add T.rx, State.rxBytes_one, h0, henc, this, tc]; rfl
      · exact .inr (by rw [rxCount, h]; exact h2)
  · exact ⟨t, es, 0, T.mono (by omega), c, fun hw => by rw [b]; exact hw, by rw [p]; rfl, .inr (by rw [rxCount, h]; rfl)⟩

/-- Everything `RxDetect` can do (R124). -/
theorem rxDetect_cases (u : State) (h0 : u.cmdId = 2#8) : ∃ t es n, OperandsTaken u (rxDetect u) t es n :=
  rxListed_cases .detect 2#8 u h0 (fun _ _ => State.heldFrame_detect) (fun _ h => h) (fun _ => rfl) (fun _ => rfl)

/-- Everything `RxEcho` can do (R125). -/
theorem rxEcho_cases (u : State) (h0 : u.cmdId = 3#8) : ∃ t es n, OperandsTaken u (rxEcho u) t es n :=
  rxListed_cases .echo 3#8 u h0 (fun _ _ => State.heldFrame_echo) (fun _ h => h) (fun _ => rfl) (fun _ => rfl)

end Sys2Proof.Machine
end

