-- ==== Sys2Proof/Laws/PerInstr.lean ====
section
/-! SUPPORT. Statements about every instruction as syntax, one lemma per constructor. -/

namespace Sys2Proof.Laws

/-- The frame of a well-formed instruction has the length of its layout, and the longest frame bounds it (R91, R103). -/
def FrameSize.Statement (i : Instr) : Prop :=
  i.wf = true → (encode i).length = i.frameLength ∧ i.frameLength ≤ longestFrame

theorem FrameSize.write (addr reg : Byte) (payload : List Byte) : FrameSize.Statement (.write addr reg payload) := by
  intro h
  have : payload.length ≤ 255 := of_decide_eq_true h
  exact ⟨by simp [encode, Instr.operandBytes, Instr.frameLength]; omega,
    by simp [Instr.frameLength, longestFrame]; omega⟩

theorem FrameSize.read (addr reg count : Byte) : FrameSize.Statement (.read addr reg count) := fun _ => ⟨rfl, by simp [Instr.frameLength, longestFrame]⟩

theorem FrameSize.detect (addrs : List Byte) : FrameSize.Statement (.detect addrs) := by
  intro h
  have : addrs.length ≤ 255 := of_decide_eq_true h
  exact ⟨by simp [encode, Instr.operandBytes, Instr.frameLength]; omega,
    by simp [Instr.frameLength, longestFrame]; omega⟩

theorem FrameSize.echo (payload : List Byte) : FrameSize.Statement (.echo payload) := by
  intro h
  have : payload.length ≤ 255 := of_decide_eq_true h
  exact ⟨by simp [encode, Instr.operandBytes, Instr.frameLength]; omega,
    by simp [Instr.frameLength, longestFrame]; omega⟩

theorem FrameSize.unrec04 (low : BitVec 2) : FrameSize.Statement (.unrec04 low) := fun _ => ⟨rfl, by simp [Instr.frameLength, longestFrame]⟩

theorem FrameSize.unrec08 (low : BitVec 3) : FrameSize.Statement (.unrec08 low) := fun _ => ⟨rfl, by simp [Instr.frameLength, longestFrame]⟩

theorem FrameSize.unrec10 (low : BitVec 4) : FrameSize.Statement (.unrec10 low) := fun _ => ⟨rfl, by simp [Instr.frameLength, longestFrame]⟩

theorem FrameSize.unrec20 (low : BitVec 5) : FrameSize.Statement (.unrec20 low) := fun _ => ⟨rfl, by simp [Instr.frameLength, longestFrame]⟩

theorem FrameSize.unrec40 (low : BitVec 6) : FrameSize.Statement (.unrec40 low) := fun _ => ⟨rfl, by simp [Instr.frameLength, longestFrame]⟩

theorem FrameSize.unrec80 (low : BitVec 7) : FrameSize.Statement (.unrec80 low) := fun _ => ⟨rfl, by simp [Instr.frameLength, longestFrame]⟩

end Sys2Proof.Laws
end

