-- ==== Sys2Proof/Laws/Run.lean ====
section
/-! SUPPORT. Runs of the core step by step, and equality of states field by field. -/

namespace Sys2Proof.Machine

theorem run_zero (s : State) : Host.Core.run Sys2Proof.core 0 s = .next s := rfl

/-- A run whose first step answers a next state goes on from there. -/
theorem run_next {s t : State} (h : step s = .next t) (k : Nat) :
    Host.Core.run Sys2Proof.core (k + 1) s = Host.Core.run Sys2Proof.core k t := by
  have : Sys2Proof.core.step s = .next t := h
  simp only [Host.Core.run, this]

theorem run_add (m n : Nat) (s t : State) (h : Host.Core.run Sys2Proof.core m s = .next t) :
    Host.Core.run Sys2Proof.core (m + n) s = Host.Core.run Sys2Proof.core n t := by
  induction m generalizing s with
  | zero => rw [run_zero] at h; cases h; rw [Nat.zero_add]
  | succ m ih =>
    rw [Nat.succ_add]
    simp only [Host.Core.run] at h ⊢
    split at h
    · exact ih _ h
    · cases h
    · cases h

/-- Two states that agree on every field are equal. -/
theorem State.eq_of_fields {s t : State} (h1 : s.st = t.st) (h2 : s.ph = t.ph) (h3 : s.cmdId = t.cmdId) (h4 : s.devAddr = t.devAddr)
  (h5 : s.regPtr = t.regPtr) (h6 : s.count = t.count) (h7 : s.buf = t.buf) (h8 : s.resOk = t.resOk) (h9 : s.resLen = t.resLen)
  (h10 : s.idx = t.idx) (h11 : s.scanIdx = t.scanIdx) (h12 : s.scanAddr = t.scanAddr) (h13 : s.outCnt = t.outCnt)
  (h14 : s.toCnt = t.toCnt) (h15 : s.params = t.params) (h16 : s.polls = t.polls) (h17 : s.rx = t.rx) (h18 : s.busRx = t.busRx)
  (h19 : s.trace = t.trace) (h20 : s.failKind = t.failKind) : s = t := by
  cases s; cases t; simp_all

end Sys2Proof.Machine
end

