-- ==== Sys2Proof/Laws/ReceiveServed.lean ====
section
/-! SUPPORT. frame_codec_rx when every byte comes within its budget: which bytes it takes and exactly what it leaves. -/

namespace Sys2Proof.Machine

/-- A byte that comes at poll `k` of its wait. -/
theorem rxByte_comes {s : State} {k : Nat} (h : s.rxComesFrom 0 [k] = true) :
    rxByte s = (some (s.rxAhead 0), (s.waited (k + 1) (s.params.tRx - k)).rxTaken) := by
  simp only [State.rxComesFrom, Bool.and_true, Bool.and_eq_true, decide_eq_true_eq, State.undecided_iff, Nat.zero_add] at h
  obtain ⟨⟨hk, hu⟩, hr⟩ := h
  rcases wait_cases (fun f => f.rxReady) false s.params.tRx s with
    ⟨n, hn, hj, hd, he⟩ | ⟨n, _, _, _, hne, _, _⟩ | ⟨hj, he⟩
  · obtain rfl : n = k := by
      rcases Nat.lt_trichotomy n k with h | h | h
      · have := hu n h; simp [decides, hd] at this
      · exact h
      · have := hj k h; simp [decides, hr] at this
    simp only [rxByte, he]
    rw [State.rxAnswer_eq]; rfl
  · cases hne
  · have := hj k hk; simp [decides, hr] at this

/-- A byte that does not come. -/
theorem rxByte_expires {s : State} (h : s.undecided (fun f => f.rxReady) false 0 s.params.tRx = true) :
    rxByte s = (none, s.waited s.params.tRx 0) := by
  simp only [State.undecided_iff, Nat.zero_add] at h
  rcases rxByte_cases s with ⟨n, hn, hr, _⟩ | ⟨_, he⟩
  · have := h n hn; simp [decides, hr] at this
  · exact he

theorem State.rxComesFrom_of_advance {s t : State} {m : Nat} (h : t.polls = s.polls.advance m)
    (hp : t.params = s.params) (n : Nat) (ks : List Nat) : t.rxComesFrom n ks = s.rxComesFrom (m + n) ks := by
  induction ks generalizing n with
  | nil => rfl
  | cons k ks ih =>
    simp only [State.rxComesFrom, State.undecided_of_advance h, State.pollAhead_of_advance h, hp, ih, Nat.add_assoc]

theorem State.rxComesFrom_append (s : State) (n : Nat) (js ks : List Nat) :
    s.rxComesFrom n (js ++ ks) = (s.rxComesFrom n js && s.rxComesFrom (n + pollsOf js) ks) := by
  induction js generalizing n with
  | nil => simp [State.rxComesFrom]
  | cons j js ih => simp [State.rxComesFrom, ih, Bool.and_assoc, Nat.add_assoc]

/-- Bytes taken between `s` and `t`, coming at the polls `ks` of their waits. -/
structure ServedRx (s t : State) (ks : List Nat) : Prop where
  run : ∃ es, Ran s t es ∧ actions es = (s.rxBytes ks.length).map .rxTake ∧
    pollRecords es = (List.range (pollsOf ks)).map s.pollAhead
  polls : t.polls = s.polls.advance (pollsOf ks)
  rx : t.rx = s.rx.advance ks.length

theorem ServedRx.trans {s t u : State} {js ks : List Nat} (h : ServedRx s t js) (k : ServedRx t u ks) :
    ServedRx s u (js ++ ks) := by
  obtain ⟨es, r1, a1, p1⟩ := h.run
  obtain ⟨fs, r2, a2, p2⟩ := k.run
  refine ⟨⟨es ++ fs, r1.trans r2, ?_, ?_⟩, ?_, ?_⟩
  · rw [actions_append, a1, a2, State.rxBytes, State.rxBytes, State.rxBytes, List.length_append, range_map_add,
      List.map_append]
    congr 2
    exact List.map_congr_left fun j _ => State.rxAhead_of_advance h.rx j
  · rw [pollRecords_append, p1, p2, pollsOf_append, range_map_add]
    congr 1
    exact List.map_congr_left fun j _ => State.pollAhead_of_advance h.polls j
  · rw [k.polls, h.polls]; simp
  · rw [k.rx, h.rx]; simp

theorem ServedRx.taken (s : State) (k c : Nat) : ServedRx s (s.waited (k + 1) c).rxTaken [k] := by
  have hb : (s.waited (k + 1) c).rxAnswer = s.rxAhead 0 := State.rxAnswer_eq _
  refine ⟨⟨s.pollEvents (k + 1) ++ [.rxTake (s.rxAhead 0)], ?_, ?_, ?_⟩, ?_, ?_⟩
  · rw [← hb]; exact (Ran.waited s (k + 1) c).trans (Ran.rxTaken _)
  · rw [actions_append, actions_pollEvents]; rfl
  · rw [pollRecords_append, pollRecords_pollEvents]; simp [pollRecords]
  · simp
  · simp [Feed.rest_eq_advance]

/-- Register updates take no byte. -/
theorem ServedRx.of_eq {s t u : State} {ks : List Nat} (h : ServedRx s t ks) (h1 : u.trace = t.trace)
    (h2 : u.polls = t.polls) (h3 : u.rx = t.rx) (h4 : u.busRx = t.busRx) : ServedRx s u ks := by
  obtain ⟨es, r, a, p⟩ := h.run
  exact ⟨⟨es, r.of_eq h1 h2 h3 h4, a, p⟩, h2.trans h.polls, h3.trans h.rx⟩

theorem ServedRx.refl (s : State) : ServedRx s s [] := ⟨⟨[], Ran.refl s, rfl, rfl⟩, by simp, by simp⟩

theorem ServedRx.setPh (s : State) (p : Phase) : ServedRx s (s.setPh p) [] := (ServedRx.refl s).of_eq rfl rfl rfl rfl

/-- One field: what it puts where, and nothing else. -/
theorem rxField_served (put : State → Byte → State) (s : State) (k : Nat) (h : s.rxComesFrom 0 [k] = true)
    (hput : ∀ u y, (put u y).trace = u.trace ∧ (put u y).polls = u.polls ∧ (put u y).rx = u.rx ∧
      (put u y).busRx = u.busRx) :
    ∃ t, rxStore put s = (true, t) ∧ ServedRx s t [k] ∧
      t = put (s.waited (k + 1) (s.params.tRx - k)).rxTaken (s.rxAhead 0) := by
  refine ⟨_, by simp [rxStore, rxByte_comes h], ?_, rfl⟩
  obtain ⟨a, b, c, d⟩ := hput (s.waited (k + 1) (s.params.tRx - k)).rxTaken (s.rxAhead 0)
  exact (ServedRx.taken s k _).of_eq a b c d

/-- The payload loop. -/
theorem rxPayloadLoop_served (ks : List Nat) (s : State) (hi : s.idx.toNat + ks.length ≤ bufLen)
    (h : s.rxComesFrom 0 ks = true) :
    ∃ t, rxPayloadLoop ks.length s = (true, t) ∧ ServedRx s t ks ∧
      t = { s with
        buf := s.buf.writeRange s.idx.toNat (s.rxBytes ks.length)
        idx := s.idx + BitVec.ofNat 8 ks.length
        toCnt := countdownAfter s.params.tRx s.toCnt ks
        polls := t.polls, rx := t.rx, trace := t.trace } := by
  induction ks generalizing s with
  | nil => exact ⟨s, rfl, ServedRx.refl s, by simp [State.rxBytes, Memory.writeRange, countdownAfter]⟩
  | cons k ks ih =>
    rw [show k :: ks = [k] ++ ks from rfl, State.rxComesFrom_append, Bool.and_eq_true] at h
    simp only [List.length_cons] at hi
    have hlt : s.idx.toNat < bufLen := by omega
    obtain ⟨u, e, P, q⟩ := rxField_served putPayloadByte s k h.1 fun u y => by
      rw [putPayloadByte_frame]; exact ⟨rfl, rfl, rfl, rfl⟩
    rw [putPayloadByte_eq _ _ (show (s.waited (k + 1) (s.params.tRx - k)).rxTaken.idx.toNat < bufLen from hlt)] at q
    have hui : u.idx = s.idx + 1#8 := by rw [q]; simp
    have hui' : u.idx.toNat = s.idx.toNat + 1 := by
      have : bufLen = 255 := rfl
      rw [hui, BitVec.toNat_add]; simp; omega
    have hup : u.params = s.params := by rw [q]; simp
    have hub : u.buf = s.buf.write s.idx.toNat (s.rxAhead 0) := by rw [q]; simp
    have hut : u.toCnt = s.params.tRx - k := by rw [q]; simp
    obtain ⟨t, e2, P2, ht⟩ := ih u (by omega) (by
      rw [State.rxComesFrom_of_advance P.polls hup]; simpa using h.2)
    refine ⟨t, by simp [rxPayloadLoop, e, rxThen, e2], P.trans P2, ?_⟩
    rw [ht]
    apply State.eq_of_fields <;> try rfl
    all_goals try (show _ = _; rw [q]; simp; done)
    · show u.buf.writeRange u.idx.toNat (u.rxBytes ks.length) = _
      rw [hui', hub, List.length_cons, State.rxBytes_succ P.rx]; rfl
    · show u.idx + _ = _
      rw [hui]; simp [BitVec.ofNat_add, BitVec.add_assoc, BitVec.add_comm 1#8]
    · show countdownAfter u.params.tRx u.toCnt ks = _
      rw [hup, hut]; rfl

/-- The three fields of WRITE and READ. -/
theorem rxHeader_served (s : State) (k1 k2 k3 : Nat) (h : s.rxComesFrom 0 [k1, k2, k3] = true) :
    ∃ t, rxThen (rxThen (rxAddr s) rxReg) rxCount = (true, t) ∧ ServedRx s t [k1, k2, k3] ∧
      t = { s with
        ph := .rxCount, devAddr := s.rxAhead 0, regPtr := s.rxAhead 1, count := s.rxAhead 2
        toCnt := s.params.tRx - k3, polls := t.polls, rx := t.rx, trace := t.trace } := by
  rw [show [k1, k2, k3] = [k1] ++ ([k2] ++ [k3]) from rfl, State.rxComesFrom_append, State.rxComesFrom_append,
    Bool.and_eq_true, Bool.and_eq_true] at h
  obtain ⟨h1, h2, h3⟩ := h
  obtain ⟨t1, e1, P1, q1⟩ := rxField_served State.setDevAddr (s.setPh .rxAddr) k1 h1 fun u y => ⟨rfl, rfl, rfl, rfl⟩
  have P1' := ((ServedRx.setPh s .rxAddr).trans P1).trans (ServedRx.setPh t1 .rxReg)
  have f1 : t1.params = s.params := by rw [q1]; rfl
  obtain ⟨t2, e2, P2, q2⟩ := rxField_served State.setRegPtr (t1.setPh .rxReg) k2 (by
    rw [State.rxComesFrom_of_advance P1'.polls (by simpa using f1)]; simpa using h2) fun u y => ⟨rfl, rfl, rfl, rfl⟩
  have P2' := (P1'.trans P2).trans (ServedRx.setPh t2 .rxCount)
  have f2 : t2.params = s.params := by rw [q2]; simpa using f1
  obtain ⟨t3, e3, P3, q3⟩ := rxField_served State.setCount (t2.setPh .rxCount) k3 (by
    rw [State.rxComesFrom_of_advance P2'.polls (by simpa using f2)]; simpa [Nat.add_assoc] using h3) fun u y => ⟨rfl, rfl, rfl, rfl⟩
  refine ⟨t3, by simp [rxAddr, e1, rxThen, rxReg, e2, rxCount, e3], P2'.trans P3, ?_⟩
  have a0 : (s.setPh .rxAddr).rxAhead 0 = s.rxAhead 0 := rfl
  have a1 : (t1.setPh .rxReg).rxAhead 0 = s.rxAhead 1 := State.rxAhead_of_advance P1'.rx 0
  have a2 : (t2.setPh .rxCount).rxAhead 0 = s.rxAhead 2 := State.rxAhead_of_advance P2'.rx 0
  rw [a0] at q1; rw [a1] at q2; rw [a2] at q3
  apply State.eq_of_fields <;> first | rfl | simp [q3, q2, q1]

/-- The count field of DETECT and ECHO. -/
theorem rxCount_served (s : State) (k : Nat) (h : s.rxComesFrom 0 [k] = true) :
    ∃ t, rxCount s = (true, t) ∧ ServedRx s t [k] ∧
      t = { s with
        ph := .rxCount, count := s.rxAhead 0
        toCnt := s.params.tRx - k, polls := t.polls, rx := t.rx, trace := t.trace } := by
  obtain ⟨t, e, P, q⟩ := rxField_served State.setCount (s.setPh .rxCount) k h fun u y => ⟨rfl, rfl, rfl, rfl⟩
  refine ⟨t, e, (ServedRx.setPh s .rxCount).trans P, ?_⟩
  apply State.eq_of_fields <;> first | rfl | simp [q] <;> rfl

/-- The payload. -/
theorem rxPayload_served (s : State) (ks : List Nat) (h : s.rxComesFrom 0 ks = true) (hn : ks.length = s.count.toNat) :
    ∃ t, rxPayload s = (true, t) ∧ ServedRx s t ks ∧
      t = { s with
        ph := .rxData, idx := s.count, buf := s.buf.writeRange 0 (s.rxBytes s.count.toNat)
        toCnt := countdownAfter s.params.tRx s.toCnt ks, polls := t.polls, rx := t.rx, trace := t.trace } := by
  obtain ⟨t, e, P, ht⟩ := rxPayloadLoop_served ks ((s.setPh .rxData).setIdx 0#8) (by simp [bufLen]; omega) (by
    rw [State.rxComesFrom_of_advance (s := s) (m := 0) (by simp) (by simp)]; simpa using h)
  refine ⟨t, by rw [rxPayload, ← hn]; exact e,
    ((ServedRx.refl s).of_eq (u := (s.setPh .rxData).setIdx 0#8) rfl rfl rfl rfl).trans P, ?_⟩
  rw [ht]
  apply State.eq_of_fields <;> simp [hn]
  rfl

end Sys2Proof.Machine
end

