-- ==== Sys2Proof/Laws/Respond.lean ====
section
/-! SUPPORT. frame_codec_tx: everything a step in Respond can do. -/

namespace Sys2Proof.Machine

/-- Everything one poll of `TxByte` can do (R150). -/
theorem txPoll_run (b : Byte) (g : State → State) (s : State)
   (hg : ∀ u, (g u).trace = u.trace ∧ (g u).polls = u.polls ∧ (g u).rx = u.rx ∧ (g u).busRx = u.busRx) :
   ∃ es, Ran s (txPoll b g s) es ∧ (∀ tr, portsKept tr = true → portsKept (es.reverse ++ tr) = true) ∧ (∀ e ∈ es, (∃ f, e = .poll f) ∨ ∃ x, e = .txPut x) := by
  unfold txPoll
  split
  · rename_i h
    obtain ⟨a, b', c, d⟩ := hg (s.polled.log (.txPut b))
    refine ⟨[.poll s.pollAnswer] ++ [.txPut b], ((Ran.polled s).trans (Ran.log _ (.txPut b) rfl rfl rfl)).of_eq a b' c d, ?_, ?_⟩
    · intro tr htr; simp [portsKept, afterPoll, h, htr]
    · simp
  · exact ⟨_, Ran.polled s, fun tr h => by simpa [portsKept] using h, by simp⟩

theorem beginRespond_ran (s : State) : Ran s (beginRespond s) [] := by
  unfold beginRespond; split
  · exact Ran.refl s
  · exact (Ran.refl s).of_eq rfl rfl rfl rfl
theorem beginRespond_eq (s : State) : beginRespond s = { s with ph := if s.ph.isTx then s.ph else if s.resOk then .txLen else .txFail } := by
  unfold beginRespond; split <;> simp [State.setPh, *]

/-- A step in Respond from `s` to `t`: what happened, and what it leaves. -/
structure RespondRun (s t : State) (es : List Event) : Prop where
  run : Ran s t es
  keep : t = { s with st := t.st, ph := t.ph, idx := t.idx, polls := t.polls, trace := t.trace }
  safe : ∀ tr, portsKept tr = true → portsKept (es.reverse ++ tr) = true
  only : ∀ e ∈ es, (∃ f, e = .poll f) ∨ ∃ x, e = .txPut x
  st : t.st = s.st ∨ t.st = .receive
  tag : (s.ph = .txLen ∨ s.ph = .txData → s.resOk = true) → (t.ph = .txLen ∨ t.ph = .txData → t.resOk = true)
  pos : (s.ph = .txData → s.idx.toNat ≤ s.resLen.toNat) → (t.ph = .txData → t.idx.toNat ≤ t.resLen.toNat)
  fail : (s.ph = .txFail → s.resOk = false) → (t.ph = .txFail → t.resOk = false)

theorem txPoll_eq (b : Byte) (g : State → State) (s : State) : txPoll b g s = s.polled ∨ txPoll b g s = g (s.polled.log (.txPut b)) := by
  unfold txPoll; split <;> simp

/-- Everything a step in Respond can do when it answers a next state (R151). -/
theorem respond_cases (s t : State) (h : respond s = .next t) : ∃ es, RespondRun s t es := by
  unfold respond at h
  have hb := beginRespond_eq s
  have hr := beginRespond_ran s
  generalize hu : beginRespond s = u at h hr hb
  simp only at h
  have htag : (s.ph = .txLen ∨ s.ph = .txData → s.resOk = true) → (u.ph = .txLen ∨ u.ph = .txData → u.resOk = true) := by
    intro hh; rw [hb]; simp only; split
    · exact hh
    · split <;> simp_all
  have hpos : (s.ph = .txData → s.idx.toNat ≤ s.resLen.toNat) → (u.ph = .txData → u.idx.toNat ≤ u.resLen.toNat) := by
    intro hh; rw [hb]; simp only; split
    · exact hh
    · split <;> simp
  have hfail : (s.ph = .txFail → s.resOk = false) → (u.ph = .txFail → u.resOk = false) := by
    intro hh; rw [hb]; simp only; split
    · exact hh
    · split <;> simp_all
  split at h
  · rename_i hph
    unfold respondData at h
    split at h
    · cases h
      exact ⟨[], ⟨hr.of_eq rfl rfl rfl rfl, by rw [hb]; rfl, fun _ h => h, by simp, .inr rfl, htag, hpos, hfail⟩⟩
    · rename_i hne
      split at h
      · rename_i b hload
        cases h
        obtain ⟨es, r, sf, on⟩ := txPoll_run b (fun t => t.setIdx (t.idx + 1#8)) u (fun u => ⟨rfl, rfl, rfl, rfl⟩)
        refine ⟨es, by simpa using hr.trans r, ?_, sf, on, ?_, ?_, ?_, ?_⟩ <;>
          rcases txPoll_eq b (fun t => t.setIdx (t.idx + 1#8)) u with e | e <;> rw [e]
        · rw [hb]; rfl
        · rw [hb]; rfl
        · left; rw [hb]; rfl
        · left; rw [hb]; rfl
        · exact htag
        · exact htag
        · exact hpos
        · intro hh _
          have := hpos hh hph
          have hne' : u.idx.toNat ≠ u.resLen.toNat := fun h => hne (BitVec.eq_of_toNat_eq h)
          have hlt := u.resLen.isLt
          simp; omega
        · exact hfail
        · exact hfail
      · cases h
  · rename_i hph
    cases h
    obtain ⟨es, r, sf, on⟩ := txPoll_run u.resLen beginData u (fun u => ⟨rfl, rfl, rfl, rfl⟩)
    refine ⟨es, by simpa using hr.trans r, ?_, sf, on, ?_, ?_, ?_, ?_⟩ <;>
      rcases txPoll_eq u.resLen beginData u with e | e <;> rw [e]
    · rw [hb]; rfl
    · rw [hb]; rfl
    · left; rw [hb]; rfl
    · left; rw [hb]; rfl
    · exact htag
    · intro hh _; exact htag hh (.inl hph)
    · exact hpos
    · intro hh _; simp [beginData]
    · exact hfail
    · intro hh h; simp [beginData] at h
  · rename_i h1 h2
    cases h
    obtain ⟨es, r, sf, on⟩ := txPoll_run 0#8 State.returnToReceive u (fun u => ⟨rfl, rfl, rfl, rfl⟩)
    refine ⟨es, by simpa using hr.trans r, ?_, sf, on, ?_, ?_, ?_, ?_⟩ <;>
      rcases txPoll_eq 0#8 State.returnToReceive u with e | e <;> rw [e]
    · rw [hb]; rfl
    · rw [hb]; rfl
    · left; rw [hb]; rfl
    · right; rfl
    · exact htag
    · exact htag
    · exact hpos
    · exact hpos
    · exact hfail
    · exact hfail

end Sys2Proof.Machine
end

