-- ==== Sys2Proof/Tests/Slice0.lean ====
section
/-! SUPPORT. Tests on fixed values, most of them rows of 95_test_vectors.md, and for every statement with hypotheses a
concrete state and operands that meet them. -/

namespace Sys2Proof.Tests

-- The kernel evaluations wait for one another, so each is elaborated before the next is begun.
set_option Elab.async false

open Sys2Proof.Machine

/-! ## Helpers -/

/-- A poll that shows nothing a wait watches: `[-]`. -/
def quiet : Poll := ⟨false, false, false, false, false, false, false, false, false⟩

/-- A poll that ends every wait with `Done`. -/
def ready : Poll := ⟨true, true, false, true, true, true, true, true, false⟩

/-- Polls that show one event: `[mms]`, `[tms]`, `[rms]`, `[btx]`, `[brx]`. -/
def mms : Poll := { quiet with evMms := true }
def tms : Poll := { quiet with evTms := true }
def rms : Poll := { quiet with evRms := true }
def btx : Poll := { quiet with evBtx := true }
def brx : Poll := { quiet with evBrx := true }

/-- A poll that shows the acknowledge failure and no event: `[af]`. -/
def nacked : Poll := ⟨false, false, false, false, false, false, false, false, true⟩

/-- A poll that shows a busy bus: `[busy]`. -/
def busy : Poll := ⟨false, false, true, false, false, false, false, false, false⟩

/-- A state with chosen coming answers; `T_RX` = 3, `T_BUS` = 2. -/
def world (st : DispState) (polls : List Poll) (rx busRx : List Byte) : State :=
  { State.reset with
    st := st, params := ⟨2, 1, true⟩, polls := ⟨polls, 0⟩, rx := ⟨rx, 0⟩, busRx := ⟨busRx, 0⟩, trace := [.init] }

/-- The same with `RX_ID_WAIT_BOUNDED` = `false`. -/
def patient (s : State) : State := { s with params := ⟨2, 1, false⟩ }

/-- The state in Execute with an instruction held. -/
def holding (i : Instr) (polls : List Poll) (busRx : List Byte) : State :=
  (world .execute polls [] busRx).holdInstr i

/-- A state in Respond with the payload 01 02 03 pending (TX6). -/
def answering (ph : Phase) (idx : Byte) (polls : List Poll) : State :=
  { world .respond polls [] [] with
    ph := ph, idx := idx, resOk := true, resLen := 3#8, buf := [(0, 0x01#8), (1, 0x02#8), (2, 0x03#8)] }

/-- A state in Respond with the failure byte pending (TX2). -/
def failing (ph : Phase) (polls : List Poll) : State := { world .respond polls [] [] with ph := ph, resLen := 5#8 }

/-- An outcome is a next state with a property. -/
def nextHas (o : Host.Outcome State Fault Refusal) (p : State → Bool) : Bool :=
  match o with
  | .next t => p t
  | _ => false

/-- The actions of a run from a state whose trace is `[.init]`, oldest first. -/
def did (t : State) : List Event := (actions t.trace.reverse).drop 1

/-! ## WellFormed: ill-formed terms are refused -/

theorem test_wf_write_256 : (Instr.write 0x50#8 0x10#8 (List.replicate 256 0#8)).wf = false := by decide +kernel
theorem test_wf_detect_256 : (Instr.detect (List.replicate 256 0#8)).wf = false := by decide +kernel
theorem test_wf_echo_256 : (Instr.echo (List.replicate 256 0#8)).wf = false := by decide +kernel

/-! ## Decoding: words written out from 30_encoding.md, sections 1, 4 and 7 -/

/-- R91, vector X1. -/
theorem test_decode_write : decode [0x00#8, 0x50#8, 0x10#8, 0x02#8, 0xAA#8, 0xBB#8] =
    .ok (.write 0x50#8 0x10#8 [0xAA#8, 0xBB#8], []) := by decide
/-- R91, vector X4, with the next frame behind it. -/
theorem test_decode_read : decode [0x01#8, 0x50#8, 0x10#8, 0x03#8, 0x03#8, 0x00#8] =
    .ok (.read 0x50#8 0x10#8 0x03#8, [0x03#8, 0x00#8]) := by decide
/-- R91, vector X8. -/
theorem test_decode_detect : decode [0x02#8, 0x02#8, 0x68#8, 0x50#8] = .ok (.detect [0x68#8, 0x50#8], []) := by decide
/-- R107, vector RX3. -/
theorem test_decode_scan : decode [0x02#8, 0x00#8] = .ok (.scan, []) := by decide
/-- R91, vector X9. -/
theorem test_decode_echo : decode [0x03#8, 0x03#8, 0x01#8, 0x02#8, 0x03#8] =
    .ok (.echo [0x01#8, 0x02#8, 0x03#8], []) := by decide
/-- R108, vector RX12: the identifier alone is the frame. -/
theorem test_decode_unrec04 : decode [0x07#8, 0x03#8, 0x00#8] = .ok (.unrec04 0b11#2, [0x03#8, 0x00#8]) := by decide
theorem test_decode_unrec08 : decode [0b00001101#8] = .ok (.unrec08 0b101#3, []) := by decide
theorem test_decode_unrec10 : decode [0b00011001#8] = .ok (.unrec10 0b1001#4, []) := by decide
/-- R108, vector F8. -/
theorem test_decode_unrec20 : decode [0x2A#8] = .ok (.unrec20 0b01010#5, []) := by decide
theorem test_decode_unrec40 : decode [0b01100001#8] = .ok (.unrec40 0b100001#6, []) := by decide
/-- R108, vector RX11. -/
theorem test_decode_unrec80 : decode [0x80#8] = .ok (.unrec80 0#7, []) := by decide
/-- RX17: a frame cut short is rejected. -/
theorem test_decode_short : decode [0x00#8, 0x50#8, 0x10#8, 0x02#8, 0xAA#8] = .error .missingPayload := by decide
theorem test_decode_header : decode [0x01#8, 0x50#8, 0x10#8] = .error .missingField := by decide
theorem test_decode_nothing : decode [] = .error .noIdentifier := rfl
/-- A table word of 8 bits: the operand bytes above it are zero. -/
theorem test_table_word_write : decodeTableWord 8 0x00 = some (.write 0#8 0#8 []) := by decide +kernel
theorem test_table_word_unrec : decodeTableWord 8 0xC5 = some (.unrec80 0x45#7) := by decide +kernel
theorem test_fetch_word : (State.reset.withFetchWord 8 0x03).heldFrame = some [0x03#8, 0x00#8] := by decide +kernel

/-! ## One step of every instruction -/

/-- X1: the actions, the response's count and the buffer after. -/
theorem test_write_step : nextHas (step (holding (.write 0x50#8 0x10#8 [0xAA#8, 0xBB#8]) [quiet, mms, tms, btx, btx, btx] []))
    (fun t => t.resOk && t.resLen == 1#8 && t.buf == [(0, 0x02#8), (1, 0xBB#8)] &&
      did t == [.busStart, .busAddr 0x50#7 .write, .busSend 0x10#8, .busSend 0xAA#8, .busSend 0xBB#8, .busStop]) = true := by
  decide +kernel
/-- E6: an acknowledge failure at the second poll of the address wait. -/
theorem test_write_nack : nextHas (step (holding (.write 0x50#8 0x10#8 [0xAA#8, 0xBB#8]) [ready, ready, quiet, nacked] []))
    (fun t => !t.resOk && t.ph == .exAddrW && t.toCnt == 1 &&
      did t == [.busStart, .busAddr 0x50#7 .write, .busClearAF, .busStop]) = true := by decide +kernel
/-- E18: two bytes, the acknowledge turned off and the stop requested before the last. -/
theorem test_read_step : nextHas (step (holding (.read 0x50#8 0x10#8 0x02#8) [quiet, mms, tms, btx, mms, rms, brx, brx] [0x11#8, 0x22#8]))
    (fun t => t.resOk && t.resLen == 2#8 && t.buf == [(0, 0x11#8), (1, 0x22#8)] &&
      did t == [.busStart, .busAddr 0x50#7 .write, .busSend 0x10#8, .busStart, .busAddr 0x50#7 .read, .busRecv 0x11#8,
        .busAck .none, .busStop, .busRecv 0x22#8, .busAck .current]) = true := by decide +kernel
/-- E26: the last byte does not come; stop once more, and the acknowledge mode restored. -/
theorem test_read_lost : nextHas (step (holding (.read 0x50#8 0x10#8 0x01#8) (List.replicate 6 ready ++ [quiet, quiet]) []))
    (fun t => !t.resOk && t.failKind == some .transfer && t.idx == 0#8 && t.buf == [] &&
      did t == [.busStart, .busAddr 0x50#7 .write, .busSend 0x10#8, .busStart, .busAddr 0x50#7 .read,
        .busAck .none, .busStop, .busStop, .busAck .current]) = true := by decide +kernel
/-- E21: the repeated address is not acknowledged. -/
theorem test_read_nack : nextHas (step (holding (.read 0x50#8 0x10#8 0x02#8) [quiet, mms, tms, btx, mms, nacked] []))
    (fun t => !t.resOk && t.failKind == some .ackFailure && t.ph == .exAddrR && t.toCnt == 2 && t.buf == [] &&
      did t == [.busStart, .busAddr 0x50#7 .write, .busSend 0x10#8, .busStart, .busAddr 0x50#7 .read, .busClearAF,
        .busStop]) = true := by decide +kernel
/-- X7: list order, compacted in place. -/
theorem test_detect_step : nextHas (step (holding (.detect [0x10#8, 0x50#8, 0x11#8, 0x68#8])
      [quiet, mms, nacked, quiet, mms, tms, quiet, mms, nacked, quiet, mms, tms] []))
    (fun t => t.resOk && t.resLen == 2#8 &&
      t.buf == [(0, 0x50#8), (1, 0x68#8), (2, 0x11#8), (3, 0x68#8)] &&
      addressed (did t) == [(0x10#7, .write), (0x50#7, .write), (0x11#7, .write), (0x68#7, .write)]) = true := by
  decide +kernel
/-- F9: the second probe finds the bus busy; the whole command fails, nothing more is done. -/
theorem test_detect_busy : nextHas (step (holding (.detect [0x50#8, 0x51#8]) [ready, ready, ready, busy, busy] []))
    (fun t => !t.resOk && t.failKind == some .busBusy && t.outCnt == 1#8 && t.scanIdx == 1#8 && t.scanAddr == 0x51#8 &&
      did t == [.busStart, .busAddr 0x50#7 .write, .busStop]) = true := by decide +kernel
/-- X9: no poll, no action. -/
theorem test_echo_step : nextHas (step (holding (.echo [0x01#8, 0x02#8, 0x03#8]) [] []))
    (fun t => t.resOk && t.resLen == 3#8 && t.trace == [.init] && t.pendingResponse == some [3#8, 1#8, 2#8, 3#8]) = true := by
  decide +kernel
/-- F8 and R127, one row of identifiers each. -/
theorem test_unrec04_step : nextHas (step (world .receive [ready] [0x04#8] []))
    (fun t => t.st == .respond && !t.resOk && t.cmdId == 0x04#8 && did t == [.rxTake 0x04#8]) = true := by decide +kernel
theorem test_unrec08_step : nextHas (step (world .receive [ready] [0x0F#8] []))
    (fun t => t.st == .respond && !t.resOk && t.cmdId == 0x0F#8 && did t == [.rxTake 0x0F#8]) = true := by decide +kernel
theorem test_unrec10_step : nextHas (step (world .receive [ready] [0x10#8] []))
    (fun t => t.st == .respond && !t.resOk && t.cmdId == 0x10#8 && did t == [.rxTake 0x10#8]) = true := by decide +kernel
theorem test_unrec20_step : nextHas (step (world .receive [ready] [0x2A#8] []))
    (fun t => t.st == .respond && !t.resOk && t.cmdId == 0x2A#8 && did t == [.rxTake 0x2A#8]) = true := by decide +kernel
theorem test_unrec40_step : nextHas (step (world .receive [ready] [0x40#8] []))
    (fun t => t.st == .respond && !t.resOk && t.cmdId == 0x40#8 && did t == [.rxTake 0x40#8]) = true := by decide +kernel
theorem test_unrec80_step : nextHas (step (world .receive [ready] [0xFF#8] []))
    (fun t => t.st == .respond && !t.resOk && t.cmdId == 0xFF#8 && did t == [.rxTake 0xFF#8]) = true := by decide +kernel

/-! ## Receive and Respond -/

/-- RX17: six bytes announced, five come. -/
theorem test_receive_cut : nextHas (step (world .receive (List.replicate 5 ready ++ [quiet, quiet, quiet])
      [0x00#8, 0x50#8, 0x10#8, 0x02#8, 0xAA#8] []))
    (fun t => t.st == .respond && !t.resOk && t.toCnt == 0 && t.count == 2#8 && t.idx == 1#8 &&
      t.buf == [(0, 0xAA#8)]) = true := by decide +kernel
/-- RX21: the third poll is still in time. -/
theorem test_receive_late : nextHas (step (world .receive [ready, quiet, quiet, ready] [0x03#8, 0x00#8] []))
    (fun t => t.st == .execute && t.cmdId == 3#8 && t.count == 0#8 && t.toCnt == 1) = true := by decide +kernel
/-- TX2: the length and the buffer are not read. -/
theorem test_respond_failure : nextHas (step (failing .rxId [ready]))
    (fun t => t.st == .receive && did t == [.txPut 0x00#8]) = true := by decide +kernel

/-! ## Steps of R8 -/

/-- So many steps of R8 from a point between two passes lead to a configuration with a property. -/
def microHas (k : Nat) (s : State) (p : Micro → Bool) : Bool :=
  match microCore.run k (Micro.between s) with
  | .next m => p m
  | _ => false

/-- R200: after the budget's write, a poll and the register update that follows it, the count is lowered and the wait is
still in progress. -/
theorem test_micro_wait : microHas 4 (world .receive [quiet, quiet, quiet] [] []) (fun m =>
    m.place == none && m.now.st == .receive && m.now.toCnt == 2 && m.now.polls.drawn == 1) = true := by decide +kernel
/-- R150: the poll that shows `tx_ready` and the `TxPut` are two steps. -/
theorem test_micro_txByte :
    microHas 2 (failing .rxId [ready]) (fun m => m.place == none && m.now.trace == [.poll ready, .init]) = true ∧
    microHas 3 (failing .rxId [ready]) (fun m =>
      m.place == none && m.now.trace == [.txPut 0x00#8, .poll ready, .init] && m.now.st == .respond) = true := by
  decide +kernel
/-- R11, R151: `buf[idx]` is read in a step of its own, once before the first poll for it. -/
theorem test_micro_memRead :
    microHas 5 (answering .exLocal 0#8 [ready, quiet]) (fun m => m.place == some .txData && m.now.polls.drawn == 1) = true ∧
    microHas 6 (answering .exLocal 0#8 [ready, quiet]) (fun m => m.place == none && m.now.polls.drawn == 1) = true ∧
    microHas 7 (answering .exLocal 0#8 [ready, quiet]) (fun m =>
      m.place == some (.txDataWait 0x01#8) && m.now.polls.drawn == 2) = true := by decide +kernel
/-- R227: ECHO is four register updates. -/
theorem test_micro_echo :
    microHas 3 (holding (.echo [0x01#8]) [] []) (fun m => m.place == none && m.now.resOk && m.now.st == .execute) = true ∧
    microHas 4 (holding (.echo [0x01#8]) [] []) (fun m => m.place == some .dispatch && m.now.st == .respond) = true := by
  decide +kernel
/-- R321: reset between the start condition and the address byte abandons the command. -/
theorem test_micro_reset : microHas 5 (holding (.write 0x50#8 0x10#8 []) (List.replicate 2 ready) []) (fun m =>
    m.place == none && m.assertReset.place == some .dispatch && m.assertReset.now.st == .startup &&
      did m.assertReset.now == [.busStart]) = true := by
  decide +kernel

/-! ## Witnesses: the hypotheses of the statements are met -/

/-- DecodeOfEncode, HeldFrameIsEncoding, ExecKeepsCommandRegisters: the shortest and the longest payloads. -/
theorem test_wf_bounds : (Instr.write 0x50#8 0x10#8 []).wf = true ∧
    (Instr.write 0xFF#8 0xFF#8 (List.replicate 255 0xFF#8)).wf = true ∧ (Instr.detect []).wf = true ∧
    (Instr.detect (List.replicate 255 0x50#8)).wf = true ∧ (Instr.echo (List.replicate 255 0#8)).wf = true := by
  decide +kernel
/-- FrameLengths, second clause, at both ends of its range. -/
theorem test_FrameLengths_short : (Instr.echo [0x01#8]).wf = true ∧ 0 < (Instr.echo [0x01#8]).frameLength ∧
    2 < (Instr.echo [0x01#8]).frameLength := by decide
/-- RowSelectsOwnIdentifier. -/
theorem test_RowSelects_row : (⟨"READ", 0x01#8, 0xFF#8⟩ : OpcodeRow) ∈ opcodeRows := by decide
/-- DefaultRangeIsAscending: a whole scan, and one cut short. -/
theorem test_DefaultRange_scan :
    nextHas (exec (.detect []) (world .execute ((List.replicate 117 [ready, ready, nacked]).flatten) [] [])) (fun t => t.resOk) = true ∧
    nextHas (exec (.detect []) (world .execute [ready, quiet, quiet] [] [])) (fun t => !t.resOk) = true := by
  decide +kernel
/-- CountByteIsUnsigned: no byte, every byte that is there, and fewer. -/
theorem test_CountByte_bounds : (0x00#8 : Byte).toNat ≤ ([] : List Byte).length ∧
    (0x02#8 : Byte).toNat ≤ [0xAA#8, 0xBB#8].length ∧ (0x01#8 : Byte).toNat ≤ [0xAA#8, 0xBB#8].length ∧
    payloadFits (List.replicate 255 0#8) = true := by decide +kernel
/-- EchoAnswersItsRequest: an empty payload and the payload of vector X9. -/
theorem test_EchoAnswers_held : payloadFits [] = true ∧ (world .execute [] [] []).buf.readRange 0 0 = some [] ∧
    payloadFits [0x01#8, 0x02#8, 0x03#8] = true ∧
    (holding (.echo [0x01#8, 0x02#8, 0x03#8]) [] []).buf.readRange 0 3 = some [0x01#8, 0x02#8, 0x03#8] := by decide
/-- BufferReadAfterWrite: the last index of the buffer. -/
theorem test_Buffer_last : Memory.wf [(0, 0x01#8), (7, 0x02#8)] = true ∧ 254 < bufLen ∧ (254 : Nat) ≠ 0 := by decide
/-- BufferIsItsReads. -/
theorem test_BufferIsItsReads_pair : Memory.wf [(3, 0x01#8)] = true ∧
    Memory.wf ((Memory.write (Memory.write [] 3 0x07#8) 3 0x01#8)) = true ∧
    ∀ a, Memory.read [(3, 0x01#8)] a = ((Memory.write (Memory.write [] 3 0x07#8) 3 0x01#8)).read a :=
  ⟨by decide, by decide, fun _ => rfl⟩
/-- T8, T10: `W_BTX` does not watch `af`, and `W_MMS` does not watch `ev_tms`, at each poll of the budget. -/
theorem test_Wait_columns :
    (busWait .btxData (world .execute [nacked, btx] [] [])).1 = .done ∧
    (busWait .btxPointer (world .execute [nacked, nacked] [] [])).1 = .expired ∧
    (busWait .mms (world .execute [tms, tms] [] [])).1 = .expired ∧
    (busWait .tms (world .execute [rms, tms] [] [])).1 = .done ∧
    (busWait .rms (world .execute [tms, nacked] [] [])).1 = .nack ∧
    (busWait .brx (world .execute [btx, brx] [] [])).1 = .done ∧
    (busWait .idle (world .execute [busy, nacked] [] [])).1 = .done := by decide +kernel
/-- WaitEndsAtFirstDecidingPoll, the clause of the bus waits: for each, its condition, or the acknowledge failure where
it is watched, at the last poll of the budget, and no decision in the whole budget. -/
theorem test_Wait_rows : ∀ x ∈ [(BusWait.idle, busy, quiet), (.mms, tms, mms), (.tms, rms, tms), (.tms, mms, nacked),
      (.rms, tms, rms), (.rms, mms, nacked), (.btxPointer, nacked, btx), (.btxData, brx, btx), (.brx, btx, brx)],
    let s := world .execute [x.2.1, x.2.2] [] []
    1 < s.params.tBus ∧ (x.1.done (s.pollAhead 0) || (x.1.nackEn && (s.pollAhead 0).af)) = false ∧
    (x.1.done (s.pollAhead 1) || (x.1.nackEn && (s.pollAhead 1).af)) = true ∧
    let u := world .execute [x.2.1, x.2.1] [] []
    ∀ j, j < u.params.tBus → (x.1.done (u.pollAhead j) || (x.1.nackEn && (u.pollAhead j).af)) = false := by
  decide +kernel
/-- WaitEndsAtFirstDecidingPoll: done at the first and at the last poll of the budget. -/
theorem test_Wait_done : ∀ n, n = 0 ∨ n = 2 → n < 3 ∧
    let s := world .execute (List.replicate n quiet ++ [ready]) [] []
    (∀ j, j < n → (BusWait.tms.done (s.pollAhead j) || (true && (s.pollAhead j).af)) = false) ∧
    BusWait.tms.done (s.pollAhead n) = true := by
  rintro n (rfl | rfl) <;> decide
/-- WaitEndsAtFirstDecidingPoll: the acknowledge failure, and the expiry. -/
theorem test_Wait_nack_and_expiry : (1 < 3 ∧
    let s := world .execute [quiet, nacked] [] []
    (∀ j, j < 1 → (BusWait.tms.done (s.pollAhead j) || (true && (s.pollAhead j).af)) = false) ∧
    BusWait.tms.done (s.pollAhead 1) = false ∧ (s.pollAhead 1).af = true) ∧
    (∀ j, j < 3 → (BusWait.tms.done ((world .execute [quiet, quiet, quiet] [] []).pollAhead j) ||
      (true && ((world .execute [quiet, quiet, quiet] [] []).pollAhead j).af)) = false) := by decide
/-- WriteCompletes: without data, every wait ended by the last poll of its budget (E2, E12); with data, by the first. -/
theorem test_WriteCompletes_served : payloadFits [] = true ∧ payloadFits [0xAA#8, 0xBB#8] = true ∧
    (world .execute [busy, ready, quiet, ready, quiet, ready, quiet, ready] [] []).servedFrom 0
      (waitsOf (.write 0x50#8 0x10#8 [])) [1, 1, 1, 1] = true ∧
    (world .execute (List.replicate 6 ready) [] []).servedFrom 0
      (waitsOf (.write 0x50#8 0x10#8 [0xAA#8, 0xBB#8])) (List.replicate 6 0) = true := by
  decide
/-- ReadCompletes: one byte, the address and the receive waits ended late; and two bytes. -/
theorem test_ReadCompletes_served : (0x01#8 ≠ 0#8 ∧
    (world .execute [ready, ready, quiet, ready, ready, ready, quiet, ready, quiet, ready] [] []).servedFrom 0
      (waitsOf (.read 0x50#8 0x10#8 0x01#8)) [0, 0, 1, 0, 0, 1, 1] = true) ∧
    (0x02#8 ≠ 0#8 ∧
    (world .execute (List.replicate 8 ready) [] []).servedFrom 0
      (waitsOf (.read 0x50#8 0x10#8 0x02#8)) (List.replicate 8 0) = true) := by decide
/-- ReadOfNothingCompletes. -/
theorem test_ReadOfNothing_served :
    (world .execute [ready, quiet, ready, ready, ready] [] []).servedFrom 0
      (waitsOf (.read 0x50#8 0x10#8 0#8)) [0, 1, 0, 0] = true := by decide
/-- DetectCompletes: a list with a present device that answers late and an absent one. -/
theorem test_DetectCompletes_list : payloadFits [0x50#8, 0x51#8] = true ∧
    [(⟨1, 1, 1, true⟩ : ProbeEnd), ⟨0, 0, 0, false⟩].length = (candidates [0x50#8, 0x51#8]).length ∧
    (world .execute [busy, ready, quiet, ready, quiet, ready, ready, ready, nacked] [] []).probedFrom 0
      [⟨1, 1, 1, true⟩, ⟨0, 0, 0, false⟩] = true := by decide
/-- DetectCompletes: the default range, with no device there. -/
theorem test_DetectCompletes_range : payloadFits [] = true ∧
    (List.replicate 117 (⟨0, 0, 0, false⟩ : ProbeEnd)).length = (candidates []).length ∧
    (world .execute ((List.replicate 117 [ready, ready, nacked]).flatten) [] []).probedFrom 0
      (List.replicate 117 ⟨0, 0, 0, false⟩) = true := by decide +kernel
/-- EchoCompletes, WriteTraces, DetectTraces: a payload that fits. -/
theorem test_payload_fits : payloadFits [] = true ∧ payloadFits (List.replicate 255 0x5A#8) = true := by decide +kernel
/-- UnrecognizedFails, every row. -/
theorem test_UnrecognizedFails_rows : recognized (.unrec04 0#2) = false ∧ recognized (.unrec08 0#3) = false ∧
    recognized (.unrec10 0#4) = false ∧ recognized (.unrec20 0#5) = false ∧ recognized (.unrec40 0#6) = false ∧
    recognized (.unrec80 0#7) = false := by decide
/-- ExpiredWaitFailsTheCommand, first clause. -/
theorem test_ExpiredWait_busy : (Instr.read 0x50#8 0x10#8 0x01#8).wf = true ∧
    (∃ a r n, Instr.read 0x50#8 0x10#8 0x01#8 = .read a r n) ∧
    ∀ k, k < (world .execute [busy, busy] [] []).params.tBus →
      ((world .execute [busy, busy] [] []).pollAhead k).busBusy = true := by
  exact ⟨rfl, ⟨_, _, _, rfl⟩, by decide⟩
/-- ExpiredWaitFailsTheCommand, second clause: the first wait of a WRITE, its pointer byte, and its last byte. -/
theorem test_ExpiredWait_write : payloadFits [0xAA#8, 0xBB#8] = true ∧
    ∀ x ∈ [([], BusWait.idle), ([0, 0, 0], .btxPointer), ([0, 0, 0, 0, 0], .btxData)],
    let i := Instr.write 0x50#8 0x10#8 [0xAA#8, 0xBB#8]
    let s := world .execute (List.replicate x.1.length ready ++ [busy, busy]) [] []
    s.servedFrom 0 ((waitsOf i).take x.1.length) x.1 = true ∧ (waitsOf i)[x.1.length]? = some x.2 ∧
      s.undecided x.2.done x.2.nackEn (pollsOf x.1) s.params.tBus = true := by decide
/-- ExpiredWaitFailsTheCommand, third clause: the first wait of a READ, its repeated address, and its last byte. -/
theorem test_ExpiredWait_read : ∀ x ∈ [([], BusWait.idle), ([0, 0, 0, 0, 0], .rms), ([0, 0, 0, 0, 0, 0], .brx)],
    let i := Instr.read 0x50#8 0x10#8 0x01#8
    let s := world .execute (List.replicate x.1.length ready ++ [busy, busy]) [] []
    s.servedFrom 0 ((waitsOf i).take x.1.length) x.1 = true ∧ (waitsOf i)[x.1.length]? = some x.2 ∧
      s.undecided x.2.done x.2.nackEn (pollsOf x.1) s.params.tBus = true := by decide
/-- ExpiredWaitFailsTheCommand, fourth clause: the address wait of the second probe. -/
theorem test_ExpiredWait_probe : payloadFits [0x50#8, 0x51#8] = true ∧
    (candidates [0x50#8, 0x51#8])[[(⟨0, 0, 0, false⟩ : ProbeEnd)].length]? = some 0x51#8 ∧
    let s := world .execute [ready, ready, nacked, ready, ready, quiet, quiet] [] []
    s.probedFrom 0 [⟨0, 0, 0, false⟩] = true ∧ s.servedFrom 3 (([.idle, .mms, .tms] : List BusWait).take 2) [0, 0] = true ∧
      ([.idle, .mms, .tms] : List BusWait)[2]? = some .tms ∧
      s.undecided BusWait.tms.done BusWait.tms.nackEn (3 + pollsOf [0, 0]) s.params.tBus = true := by decide
/-- AbsentDeviceFailsTransfer: the failure shows at the last poll of the budget (E6). -/
theorem test_AbsentDevice_polls : (Instr.write 0x51#8 0x10#8 [0xAA#8]).wf = true ∧
    (∃ r p, Instr.write 0x51#8 0x10#8 [0xAA#8] = .write 0x51#8 r p) ∧
    (world .execute [ready, ready, quiet, nacked] [] []).probedFrom 0 [⟨0, 0, 1, false⟩] = true := by
  exact ⟨rfl, ⟨_, _, rfl⟩, by decide⟩
/-- AbsentDeviceFailsTransfer, second clause: the repeated address, at the first and the last poll of the budget. -/
theorem test_AbsentDevice_repeated : ∀ k, k = 0 ∨ k = 1 → (0x02#8 : Byte) ≠ 0#8 ∧
    let s := world .execute ([quiet, mms, tms, btx, mms] ++ List.replicate k tms ++ [nacked]) [] []
    s.servedFrom 0 [.idle, .mms, .tms, .btxPointer, .mms] [0, 0, 0, 0, 0] = true ∧ k < s.params.tBus ∧
    (∀ j, j < k → (s.pollAhead (pollsOf [0, 0, 0, 0, 0] + j)).evRms = false ∧
      (s.pollAhead (pollsOf [0, 0, 0, 0, 0] + j)).af = false) ∧
    (s.pollAhead (pollsOf [0, 0, 0, 0, 0] + k)).evRms = false ∧ (s.pollAhead (pollsOf [0, 0, 0, 0, 0] + k)).af = true := by
  rintro k (rfl | rfl) <;> decide
/-- ExecFrames, ExecPollBounds, ResponsesOfCommands: each command answers a next state, with both tags. -/
theorem test_exec_next :
    nextHas (exec (.write 0x50#8 0x10#8 []) (world .execute (List.replicate 4 ready) [] [])) (fun t => t.resOk) = true ∧
    nextHas (exec (.read 0x50#8 0x10#8 0x01#8) (world .execute (List.replicate 7 ready) [] [0x11#8])) (fun t => t.resOk) = true ∧
    nextHas (exec (.detect [0x50#8]) (world .execute (List.replicate 3 ready) [] [])) (fun t => t.resOk) = true ∧
    nextHas (exec (.echo []) (world .execute [] [] [])) (fun t => t.resOk) = true ∧
    nextHas (exec (.unrec40 0#6) (world .execute [] [] [])) (fun t => !t.resOk) = true := by decide +kernel
/-- FailureClassesOfCommands, and the failing side of ResponsesOfCommands. -/
theorem test_exec_fails :
    nextHas (exec (.write 0x50#8 0x10#8 []) (world .execute [busy, busy] [] [])) (fun t => !t.resOk) = true ∧
    nextHas (exec (.read 0x50#8 0x10#8 0x01#8) (world .execute [ready, quiet, quiet] [] [])) (fun t => !t.resOk) = true ∧
    nextHas (exec (.detect [0x50#8]) (world .execute [ready, ready, quiet, quiet] [] [])) (fun t => !t.resOk) = true := by
  decide +kernel
/-- ResponsesOfCommands, ECHO and the unrecognized identifiers. -/
theorem test_Responses_echo : (holding (.echo [0x01#8, 0x02#8]) [] []).buf.readRange 0 2 = some [0x01#8, 0x02#8] ∧
    (world .receive [] [] []).ph.isTx = false := by decide
/-- StepRunsTheHeldInstruction. -/
theorem test_StepRuns_held : (holding (.read 0x50#8 0x10#8 0x02#8) [] []).st = .execute ∧
    (holding (.read 0x50#8 0x10#8 0x02#8) [] []).heldFrame = some [0x01#8, 0x50#8, 0x10#8, 0x02#8] ∧
    decode [0x01#8, 0x50#8, 0x10#8, 0x02#8] = .ok (.read 0x50#8 0x10#8 0x02#8, []) := by decide
/-- ReceiveLoadsFrame, with either setting of the identifier wait: bytes at the first poll and late (RX1, RX21). -/
theorem test_ReceiveLoads_frame : ∀ s, s = world .receive [ready, ready, quiet, quiet, ready, ready, ready, quiet, ready] [0x00#8, 0x50#8, 0x10#8, 0x02#8, 0xAA#8, 0xBB#8] [] ∨
      s = patient (world .receive [ready, ready, quiet, quiet, ready, ready, ready, quiet, ready] [0x00#8, 0x50#8, 0x10#8, 0x02#8, 0xAA#8, 0xBB#8] []) →
    s.st = .receive ∧ [0, 0, 2, 0, 0, 1].length = (Instr.write 0x50#8 0x10#8 [0xAA#8, 0xBB#8]).frameLength ∧
    s.rxComesFrom 0 [0, 0, 2, 0, 0, 1] = true ∧ (s.params.idWaitBounded = false → [0, 0, 2, 0, 0, 1].head? = some 0) ∧
    s.rxBytes (Instr.write 0x50#8 0x10#8 [0xAA#8, 0xBB#8]).frameLength = encode (.write 0x50#8 0x10#8 [0xAA#8, 0xBB#8]) := by
  rintro s (rfl | rfl) <;> decide
/-- FrameCutShortFails, at both ends of its range, with either setting of the identifier wait. -/
theorem test_FrameCutShort_host : ∀ ks, ks = [0] ∨ ks = [0, 2, 1] → 1 ≤ ks.length ∧
    ks.length < (Instr.read 0x50#8 0x10#8 0x02#8).frameLength ∧
    let p := ks.flatMap (fun k => List.replicate k quiet ++ [ready]) ++ [quiet, quiet, quiet]
    ∀ s, s = world .receive p [0x01#8, 0x50#8, 0x10#8] [] ∨ s = patient (world .receive p [0x01#8, 0x50#8, 0x10#8] []) →
    s.st = .receive ∧ s.rxComesFrom 0 ks = true ∧ (s.params.idWaitBounded = false → ks.head? = some 0) ∧
    s.rxBytes ks.length = (encode (.read 0x50#8 0x10#8 0x02#8)).take ks.length ∧
    s.undecided (fun f => f.rxReady) false (pollsOf ks) s.params.tRx = true := by
  rintro ks (rfl | rfl) <;> refine ⟨by decide, by decide, ?_⟩ <;> intro p s hs <;> simp only [p] at hs <;> rcases hs with rfl | rfl <;> decide
/-- SilentHostExpiresIdentifierWait, SilentHostIsAwaited. -/
theorem test_SilentHost_polls :
    (let s := world .receive [quiet, quiet, quiet] [] []
     s.st = .receive ∧ s.params.idWaitBounded = true ∧ ∀ k, k < s.params.tRx → (s.pollAhead k).rxReady = false) ∧
    (let s := patient (world .receive [quiet] [] [])
     s.st = .receive ∧ s.params.idWaitBounded = false ∧ (s.pollAhead 0).rxReady = false) := by decide
/-- ReceiveRejectsIdentifier: at the first and at the last poll of the budget, and in an unbounded wait. -/
theorem test_ReceiveRejects_byte : recognized (.unrec80 0x3B#7) = false ∧ ∀ x ∈ [(0, true), (2, true), (0, false)],
    let w := world .receive (List.replicate x.1 quiet ++ [ready]) [0xBB#8] []
    let s := if x.2 then w else patient w
    s.st = .receive ∧ s.rxComesFrom 0 [x.1] = true ∧ (s.params.idWaitBounded = false → x.1 = 0) ∧
      s.rxAhead 0 = (Instr.unrec80 0x3B#7).idByte := by decide
/-- R127: the identifier at the last poll of its wait is rejected all the same. -/
theorem test_reject_late : nextHas (step (world .receive [quiet, quiet, ready] [0x2A#8] []))
    (fun t => t.st == .respond && t.failKind == some .unrecognizedId && t.toCnt == 1 && t.polls.drawn == 3 &&
      did t == [.rxTake 0x2A#8]) = true := by decide +kernel
/-- ReceiveOnlyTakesBytes and the Receive clauses of TransitionsOfTheDispatcher: a frame, a rejected byte, a poll. -/
theorem test_receive_next :
    nextHas (step (world .receive [ready, ready] [0x03#8, 0x00#8] [])) (fun t => t.st == .execute) = true ∧
    nextHas (step (world .receive [quiet, quiet, quiet] [] [])) (fun t => t.st == .respond) = true ∧
    nextHas (step (patient (world .receive [quiet] [] []))) (fun t => t.st == .receive) = true := by decide +kernel
/-- RespondSendsPayload, first clause: the wait for the length not begun, and begun. -/
theorem test_RespondSends_payload : ∀ ph, ph = .exLocal ∨ ph = .txLen →
    let s := answering ph 0#8 (List.replicate 4 ready)
    s.st = .respond ∧ (beginRespond s).ph = .txLen ∧
    s.buf.readRange 0 s.resLen.toNat = some [0x01#8, 0x02#8, 0x03#8] ∧ s.txReadyFor (1 + s.resLen.toNat) := by
  unfold State.txReadyFor; rintro ph (rfl | rfl) <;> decide
/-- RespondSendsPayload, second clause: from the first byte, from the last, and from the end. -/
theorem test_RespondSends_rest : ∀ x ∈ [(0#8, [0x01#8, 0x02#8, 0x03#8]), (2#8, [0x03#8]), (3#8, [])],
    let s := answering .txData x.1 (List.replicate 3 ready)
    s.st = .respond ∧ s.ph = .txData ∧ s.idx.toNat + x.2.length = s.resLen.toNat ∧
    s.buf.readRange s.idx.toNat x.2.length = some x.2 ∧ s.txReadyFor x.2.length := by
  unfold State.txReadyFor; decide
/-- RespondSendsFailureByte: the wait not begun, and begun. -/
theorem test_RespondSends_failure : ∀ ph, ph = .rxId ∨ ph = .txFail →
    let s := failing ph [ready]
    s.st = .respond ∧ (beginRespond s).ph = .txFail ∧ (s.pollAhead 0).txReady = true := by
  rintro ph (rfl | rfl) <;> decide
/-- UnwrittenBufferByteFaults, its three clauses, at the ends of the index. -/
theorem test_Unwritten_states :
    (let s := { answering .txData 2#8 [] with buf := [(0, 0x01#8)] }
     s.st = .respond ∧ s.ph = .txData ∧ s.idx ≠ s.resLen ∧ s.idx ≠ 255#8 ∧ s.buf.read s.idx.toNat = none) ∧
    (let s := answering .txData 254#8 []
     s.st = .respond ∧ s.ph = .txData ∧ s.idx ≠ s.resLen ∧ s.idx ≠ 255#8 ∧ s.buf.read s.idx.toNat = none) ∧
    (let s := answering .txData 255#8 []
     s.st = .respond ∧ s.ph = .txData ∧ s.idx ≠ s.resLen ∧ s.idx = 255#8) ∧
    (let s := { world .execute [] [] [] with cmdId := 3#8, count := 1#8 }
     s.st = .execute ∧ s.heldFrame = none) := by decide
/-- TransitionsOfTheDispatcher, the other clauses; ResetAbandonsTheStep, RegisterWriters: every state has a step. -/
theorem test_step_next :
    nextHas (step (world .startup [] [] [])) (fun t => t.st == .receive) = true ∧
    nextHas (step (holding (.echo []) [] [])) (fun t => t.st == .respond) = true ∧
    nextHas (step (answering .txData 3#8 [])) (fun t => t.st == .receive) = true ∧
    nextHas (step (answering .txData 1#8 [ready])) (fun t => t.st == .respond) = true := by decide +kernel
/-- MicroStepIsOneOperation, and the clauses of MicroStepsMakeTheStep: a pass that ends, one that faults at the read of
an unwritten byte, and a held frame with such a byte that is not read. -/
theorem test_micro_steps :
    ((Micro.between (world .receive [quiet, quiet, quiet] [] [])).place = some .dispatch ∧
      Place.dispatch.fits (world .receive [quiet, quiet, quiet] [] []) = true ∧
      nextHas (step (world .receive [quiet, quiet, quiet] [] [])) (fun _ => true) = true) ∧
    (let m : Micro := ⟨.ret .txData, { answering .txData 2#8 [] with buf := [(0, 0x01#8)] }⟩
     m.place = some .txData ∧ Place.txData.fits m.now = true ∧ step m.now = .fault .bufUnwritten ∧
       microStep m = .fault .bufUnwritten) ∧
    (let s := { world .execute [] [] [] with cmdId := 3#8, count := 1#8 }
     (Micro.between s).place = some .dispatch ∧ Place.dispatch.fits s = true ∧ step s = .fault .bufUnwritten ∧
       microHas 4 s (fun m => m.place == some .dispatch && m.now.st == .respond) = true) :=
  ⟨by decide +kernel, ⟨rfl, rfl, rfl, rfl⟩, ⟨rfl, rfl, rfl, by decide +kernel⟩⟩
/-- MicroStepsMakeTheStep: every place fits a state that has a next step. -/
theorem test_micro_places :
    Place.idWait.fits { patient (world .receive [quiet] [] []) with ph := .rxId } = true ∧
    Place.txLen.fits (answering .txLen 0#8 [quiet]) = true ∧ Place.txData.fits (answering .txData 3#8 []) = true ∧
    (Place.txDataWait 0x02#8).fits (answering .txData 1#8 [quiet]) = true ∧
    Place.txFail.fits (failing .txFail [quiet]) = true := by decide
/-- StepKeepsBusPromises: a trace that keeps all three. -/
theorem test_promises_kept : let tr := [Event.busStop, .busStart, .rxTake 0x03#8, .poll ready, .init]
    portsKept tr = true ∧ busReleased tr = true ∧ ackModeOf tr = some .current := by decide
/-- The invariant outside Execute and Respond: StepKeepsInvariant, MachineNeverStops, CycleReachesRespond. -/
theorem test_inv_receive : Inv (world .receive [] [] []) ∧ (world .receive [] [] []).st = .receive ∧
    (world .receive [] [] []).params.idWaitBounded = true :=
  ⟨⟨rfl, by decide +kernel, rfl, .inr rfl, .inr rfl, nofun, nofun, nofun, nofun, nofun⟩, rfl, rfl⟩
/-- The invariant in Execute, with a next state: StepKeepsInvariant, ResetAbandonsTheStep, ResetSatisfiesInvariant. -/
theorem test_inv_execute : Inv (holding (.echo [0x01#8]) [] []) ∧
    nextHas (step (holding (.echo [0x01#8]) [] [])) (fun t => t.resOk) = true :=
  ⟨⟨rfl, by decide +kernel, rfl, .inr rfl, .inr rfl, fun _ => ⟨.echo [0x01#8], rfl, rfl, by decide⟩, nofun, nofun, nofun,
    nofun⟩, by decide +kernel⟩
/-- The invariant after a reset that abandons a start without a stop. -/
theorem test_inv_abandoned : Inv { world .startup [] [] [] with trace := [.busStart, .poll ready, .init] } :=
  ⟨rfl, by decide +kernel, rfl, .inl rfl, .inl rfl, nofun, nofun, nofun, nofun, nofun⟩
/-- The invariant with a payload pending, whether or not its sending has begun. -/
theorem inv_answering (ph : Phase) (idx : Byte) (polls : List Poll) (hp : ph ≠ .txFail) (hi : idx.toNat ≤ 3) :
    Inv (answering ph idx polls) :=
  ⟨rfl, Nat.two_pow_pos _, rfl, .inr rfl, .inr rfl, nofun,
    fun _ _ => (by decide : ∀ k, k < 3 → (Memory.read [(0, 0x01#8), (1, 0x02#8), (2, 0x03#8)] k).isSome = true),
    fun _ _ => rfl, fun _ h => absurd h hp, fun _ _ => hi⟩
/-- The invariant with the failure byte pending. -/
theorem inv_failing (ph : Phase) (polls : List Poll) (h1 : ph ≠ .txLen) (h2 : ph ≠ .txData) : Inv (failing ph polls) :=
  ⟨rfl, Nat.two_pow_pos _, rfl, .inr rfl, .inr rfl, nofun, nofun, fun _ h => absurd h (by simp [failing, h1, h2]),
    fun _ _ => rfl, fun _ h => absurd h h2⟩
/-- RespondSendsThePendingResponse, and the three clauses of RespondWaitsForTransport: every phase, with an unready
transport, a ready one, and one that is ready at the third poll. -/
theorem test_RespondWaits_states : ∀ polls, polls = [quiet] ∨ polls = [ready] ∨ polls = [quiet, quiet, ready] →
    ∀ s, s = answering .exLocal 0#8 polls ∨ s = answering .txLen 0#8 polls ∨ s = answering .txData 2#8 polls ∨
      s = failing .rxId polls ∨ s = failing .txFail polls →
    Inv s ∧ s.st = .respond ∧ ¬ (s.ph = .txData ∧ s.idx = s.resLen) ∧
      (∀ k, k < polls.length - 1 → (s.pollAhead k).txReady = false) ∧
      (s.pollAhead (polls.length - 1)).txReady = (polls != [quiet]) := by
  rintro polls hp s (rfl | rfl | rfl | rfl | rfl)
  · exact ⟨inv_answering _ _ _ nofun (by decide), rfl, nofun, by rcases hp with rfl | rfl | rfl <;> decide⟩
  · exact ⟨inv_answering _ _ _ nofun (by decide), rfl, nofun, by rcases hp with rfl | rfl | rfl <;> decide⟩
  · exact ⟨inv_answering _ _ _ nofun (by decide), rfl, fun h => absurd h.2 (by decide : (2#8 : Byte) ≠ 3#8), by rcases hp with rfl | rfl | rfl <;> decide⟩
  · exact ⟨inv_failing _ _ nofun nofun, rfl, nofun, by rcases hp with rfl | rfl | rfl <;> decide⟩
  · exact ⟨inv_failing _ _ nofun nofun, rfl, nofun, by rcases hp with rfl | rfl | rfl <;> decide⟩
/-- R150, TX6: the byte goes at the poll that shows the transport ready, in every phase. -/
theorem test_respond_ready :
    nextHas (step (answering .txLen 0#8 [ready])) (fun t => t.ph == .txData && did t == [.txPut 0x03#8]) = true ∧
    nextHas (step (answering .txData 2#8 [ready])) (fun t => t.idx == 3#8 && did t == [.txPut 0x03#8]) = true ∧
    nextHas (step (failing .txFail [ready])) (fun t => t.st == .receive && did t == [.txPut 0x00#8]) = true := by
  decide +kernel
/-- StaleContentsUnobservable: two states that differ in a stale address, with a next state. -/
theorem test_stale_pair : let s := holding (.echo [0x01#8]) [] []
    let t := { s with devAddr := 0x50#8, resLen := 7#8 }
    Inv s ∧ Inv t ∧ SameView s t ∧ s ≠ t ∧ nextHas (step s) (fun u => u.st == .respond) = true := by
  refine ⟨test_inv_execute.1, ?_, ?_, by decide, by decide +kernel⟩
  · exact ⟨rfl, by decide +kernel, rfl, .inr rfl, .inr rfl, fun _ => ⟨.echo [0x01#8], rfl, rfl, by decide⟩, nofun, nofun,
      nofun, nofun⟩
  · exact ⟨rfl, rfl, rfl, rfl, rfl, rfl, fun _ => by decide, nofun, nofun, nofun, nofun⟩
/-- EchoReturnsItsPayload, all its clauses; the payload comes late. -/
theorem test_EchoReturns_host : (payloadFits [0x01#8, 0x02#8] = true ∧
    let s := world .receive [ready, ready, quiet, ready, quiet, quiet, ready, ready, ready, ready] [0x03#8, 0x02#8, 0x01#8, 0x02#8] []
    s.st = .receive ∧ [0, 0, 1, 2].length = 2 + [0x01#8, 0x02#8].length ∧ s.rxComesFrom 0 [0, 0, 1, 2] = true ∧
    (s.params.idWaitBounded = false → [0, 0, 1, 2].head? = some 0) ∧ s.rxBytes 4 = encode (.echo [0x01#8, 0x02#8]) ∧
    ∀ k, k < 3 → (s.pollAhead (pollsOf [0, 0, 1, 2] + k)).txReady = true) ∧
    (holding (.echo [0x01#8, 0x02#8]) [] []).st = .execute ∧
    (holding (.echo [0x01#8, 0x02#8]) [] []).heldFrame = some (encode (.echo [0x01#8, 0x02#8])) := by decide
/-- ReadReturnsBusBytes: the count byte and the address event come late. -/
theorem test_ReadReturns_host : (0x01#8 : Byte) ≠ 0#8 ∧
    let s := world .receive ([ready, ready, ready, quiet, ready, ready, ready, quiet] ++ List.replicate 7 ready)
      [0x01#8, 0x50#8, 0x10#8, 0x01#8] [0x11#8]
    s.st = .receive ∧ [0, 0, 0, 1].length = 4 ∧ s.rxComesFrom 0 [0, 0, 0, 1] = true ∧
    (s.params.idWaitBounded = false → [0, 0, 0, 1].head? = some 0) ∧ s.rxBytes 4 = encode (.read 0x50#8 0x10#8 0x01#8) ∧
    s.servedFrom (pollsOf [0, 0, 0, 1]) (waitsOf (.read 0x50#8 0x10#8 0x01#8)) [0, 0, 1, 0, 0, 0, 0] = true ∧
    ∀ k, k < 1 + (0x01#8).toNat →
      (s.pollAhead (pollsOf [0, 0, 0, 1] + pollsOf [0, 0, 1, 0, 0, 0, 0] + k)).txReady = true := by decide
/-- WriteReturnsItsCount: the last byte is confirmed late. -/
theorem test_WriteReturns_host : payloadFits [0xAA#8] = true ∧
    let s := world .receive (List.replicate 9 ready ++ [quiet, ready, ready, ready]) [0x00#8, 0x50#8, 0x10#8, 0x01#8, 0xAA#8] []
    s.st = .receive ∧ [0, 0, 0, 0, 0].length = 4 + [0xAA#8].length ∧ s.rxComesFrom 0 [0, 0, 0, 0, 0] = true ∧
    (s.params.idWaitBounded = false → [0, 0, 0, 0, 0].head? = some 0) ∧
    s.rxBytes 5 = encode (.write 0x50#8 0x10#8 [0xAA#8]) ∧
    s.servedFrom (pollsOf [0, 0, 0, 0, 0]) (waitsOf (.write 0x50#8 0x10#8 [0xAA#8])) [0, 0, 0, 0, 1] = true ∧
    ∀ k, k < 2 → (s.pollAhead (pollsOf [0, 0, 0, 0, 0] + pollsOf [0, 0, 0, 0, 1] + k)).txReady = true := by decide

end Sys2Proof.Tests
end

section
/-! The count byte (R96, R103): the four formats that carry one read the frame's tail through `decodePayload`, or keep
the byte, so the count is the number of payload bytes and nothing else. -/

namespace Sys2Proof

theorem decodePayload_of_le (mk : List Byte → Instr) {n : Byte} {bs : List Byte} (h : n.toNat ≤ bs.length) :
    decodePayload mk n bs = .ok (mk (bs.take n.toNat), bs.drop n.toNat) := if_pos h

theorem decode_write_frame (a r n : Byte) (bs : List Byte) :
    decode (0x00#8 :: a :: r :: n :: bs) = decodePayload (.write a r) n bs := rfl

theorem decode_read_frame (a r n : Byte) (bs : List Byte) :
    decode (0x01#8 :: a :: r :: n :: bs) = .ok (.read a r n, bs) := rfl

theorem decode_detect_frame (n : Byte) (bs : List Byte) :
    decode (0x02#8 :: n :: bs) = decodePayload .detect n bs := rfl

theorem decode_echo_frame (n : Byte) (bs : List Byte) :
    decode (0x03#8 :: n :: bs) = decodePayload .echo n bs := rfl

/-- `payloadFits` is what makes the count byte lose nothing: 255 is the last length that it holds (R26). -/
theorem countByte_toNat {p : List Byte} (h : payloadFits p = true) : (countByte p).toNat = p.length := by
  have hlen : p.length ≤ 255 := of_decide_eq_true h
  rw [countByte, BitVec.toNat_ofNat]
  omega

/-- Settles O7: each frame with a payload comes down to `decodePayload`, a READ keeps its count. -/
theorem countByteIsUnsigned : Obligations.CountByteIsUnsigned := by
  refine ⟨fun a r n bs h => ?_, fun n bs h => ⟨?_, ?_⟩, decode_read_frame, fun p => countByte_toNat⟩
  · rw [decode_write_frame, decodePayload_of_le _ h]
  · rw [decode_detect_frame, decodePayload_of_le _ h]
  · rw [decode_echo_frame, decodePayload_of_le _ h]

end Sys2Proof
end

section
/-! The addresses on the bus: what `addressed` reads off a list of events, and off the actions of a scan's probes. -/

namespace Sys2Proof.Machine

@[simp] theorem addressed_append (es fs : List Event) : addressed (es ++ fs) = addressed es ++ addressed fs := by
  simp [addressed]

/-- Polls put no address on the bus. -/
theorem addressed_actions (es : List Event) : addressed (actions es) = addressed es := by
  induction es with
  | nil => rfl
  | cons e es ih =>
    have hhead : addressed (actions [e]) = addressed [e] := by cases e <;> rfl
    rw [show e :: es = [e] ++ es from rfl, actions_append, addressed_append, addressed_append, hhead, ih]

/-- The addresses of a list of candidates as the probes put them on the bus: all in write direction (R181). -/
def writeAddresses (as : List Byte) : List (Addr7 × Direction) := as.map fun a => (addr7 a, .write)

theorem writeAddresses_prefix {as bs : List Byte} (h : as <+: bs) : writeAddresses as <+: writeAddresses bs :=
  h.map _

theorem addressed_probeActions (a : Byte) (present : Bool) :
    addressed (probeActions a present) = writeAddresses [a] := by
  cases present <;> rfl

/-- A probe puts its candidate's address on the bus once, acknowledged or not. -/
theorem addressed_probesActions (probed : List (Byte × Bool)) :
    addressed (probesActions probed) = writeAddresses (probed.map Prod.fst) := by
  induction probed with
  | nil => rfl
  | cons p rest ih => rw [probesActions, addressed_append, addressed_probeActions, ih]; rfl

/-- Pairing with fewer acknowledges than candidates leaves out the candidates that were not probed. -/
theorem map_fst_zip_eq_take {α β : Type} (as : List α) (bs : List β) :
    (as.zip bs).map Prod.fst = as.take bs.length := by
  induction as generalizing bs with
  | nil => simp
  | cons a as ih =>
    cases bs with
    | nil => simp
    | cons b bs => simp [ih]

/-- The candidates probed with the acknowledges `acks` are the first of them, one for each acknowledge. -/
theorem addressed_probesActions_zip (as : List Byte) (acks : List Bool) :
    addressed (probesActions (as.zip acks)) = writeAddresses (as.take acks.length) := by
  rw [addressed_probesActions, map_fst_zip_eq_take]

/-- A timeout ends the scan before or after the address of the candidate it meets; either way the addresses are an
initial segment (R260, R264). -/
theorem scanAll_addressed (as : List Byte) (s : State) (hfits : payloadFits as = true) :
    ∃ t es, ScanRun s t es ∧
      ((scanAll as (s.setOutCnt 0#8) = (EngineOutcome.ok, t) ∧ addressed es = writeAddresses (candidates as)) ∨
       (∃ kind, scanAll as (s.setOutCnt 0#8) = (EngineOutcome.timeout kind, t) ∧
          addressed es <+: writeAddresses (candidates as))) := by
  obtain ⟨t, es, acks, hrun, -, -, -, -, -, hscan⟩ := scanAll_cases as s hfits
  refine ⟨t, es, hrun, ?_⟩
  rw [← addressed_actions es]
  have hbefore : writeAddresses ((candidates as).take acks.length) <+: writeAddresses (candidates as) :=
    writeAddresses_prefix (List.take_prefix _ _)
  rcases hscan with ⟨hok, hlen, hacts⟩ | ⟨a, rest, hdrop, ⟨hout, hacts⟩ | ⟨hout, hacts | hacts⟩⟩
  · refine .inl ⟨hok, ?_⟩
    rw [hacts, addressed_probesActions_zip, hlen, List.take_length]
  · refine .inr ⟨_, hout, ?_⟩
    rwa [hacts, addressed_probesActions_zip]
  · refine .inr ⟨_, hout, ?_⟩
    rw [hacts, addressed_append, addressed_probesActions_zip]
    simpa [addressed] using hbefore
  · refine .inr ⟨_, hout, ?_⟩
    have hnext : (candidates as).take acks.length ++ [a] <+: candidates as :=
      ⟨rest, by rw [List.append_assoc, List.singleton_append, ← hdrop, List.take_append_drop]⟩
    rw [hacts, addressed_append, addressed_probesActions_zip]
    simpa [addressed, writeAddresses] using writeAddresses_prefix hnext

theorem exec_detect_of_scan_ok {as : List Byte} {s t : State} (hfits : payloadFits as = true)
    (hscan : scanAll as (s.setOutCnt 0#8) = (EngineOutcome.ok, t)) :
    exec (.detect as) s = .next (t.succeed t.outCnt) := by
  simp only [exec, execDetect, answerIf, hfits, hscan, if_true]

theorem exec_detect_of_scan_timeout {as : List Byte} {s t : State} {kind : FailKind} (hfits : payloadFits as = true)
    (hscan : scanAll as (s.setOutCnt 0#8) = (EngineOutcome.timeout kind, t)) :
    exec (.detect as) s = .next (t.raiseFailure kind) := by
  simp only [exec, execDetect, answerIf, hfits, hscan, if_true]

/-- A DETECT, with or without a list, addresses its candidates in order: all of them when it succeeds, the first of them
when it is cut short (R260, R264). -/
theorem exec_detect_addressed {as : List Byte} (hfits : payloadFits as = true) {s t : State}
    (hexec : exec (.detect as) s = .next t) :
    addressed (s.eventsSince t) <+: writeAddresses (candidates as) ∧
      (t.resOk = true → addressed (s.eventsSince t) = writeAddresses (candidates as)) := by
  obtain ⟨u, es, hrun, ⟨hscan, haddr⟩ | ⟨kind, hscan, haddr⟩⟩ := scanAll_addressed as s hfits
  · obtain rfl : u.succeed u.outCnt = t := by simpa [exec_detect_of_scan_ok hfits hscan] using hexec
    have hsince : s.eventsSince (u.succeed u.outCnt) = es := (hrun.toRan.of_eq rfl rfl rfl rfl).eventsSince
    rw [hsince, haddr]
    exact ⟨List.prefix_rfl, fun _ => rfl⟩
  · obtain rfl : u.raiseFailure kind = t := by simpa [exec_detect_of_scan_timeout hfits hscan] using hexec
    have hsince : s.eventsSince (u.raiseFailure kind) = es := (hrun.toRan.of_eq rfl rfl rfl rfl).eventsSince
    rw [hsince]
    exact ⟨haddr, by simp⟩

/-! ## The default range -/

theorem candidates_nil :
    candidates [] = (List.range 117).map fun k => BitVec.ofNat 8 (0x03 + k) := rfl

/-- An address byte keeps its low seven bits (R97). -/
theorem addr7_ofNat (n : Nat) : addr7 (BitVec.ofNat 8 n) = BitVec.ofNat 7 n := by
  apply BitVec.eq_of_toNat_eq
  simp only [addr7, BitVec.extractLsb'_toNat, BitVec.toNat_ofNat, Nat.shiftRight_zero]
  omega

theorem writeAddresses_candidates_nil :
    writeAddresses (candidates []) =
      (List.range 117).map fun k => (BitVec.ofNat 7 (0x03 + k), Direction.write) := by
  rw [candidates_nil, writeAddresses, List.map_map]
  exact List.map_congr_left fun k _ => congrArg (·, Direction.write) (addr7_ofNat (0x03 + k))

/-- Settles O9: the empty list fits, so the scan addresses `candidates []` in order, and these are the default
range. -/
theorem defaultRangeIsAscending : Obligations.DefaultRangeIsAscending := by
  refine ⟨candidates_nil, by rw [candidates_nil]; simp, fun s t hexec => ?_⟩
  have haddr := exec_detect_addressed (as := []) rfl hexec
  rwa [writeAddresses_candidates_nil] at haddr

end Sys2Proof.Machine
end

section
/-! Sending the failure byte (R153): a step in Respond, the poll that finds the transport ready, and the phase that the
serializer stands at. -/

namespace Sys2Proof.Machine

theorem step_of_respond {s : State} (hst : s.st = .respond) : step s = respond s := by
  rw [step, hst]

theorem respond_of_txFail {s : State} (hph : (beginRespond s).ph = .txFail) :
    respond s = .next (txPoll 0x00#8 State.returnToReceive (beginRespond s)) := by
  rw [respond, hph]

/-- Beginning to respond writes `ph` and nothing else, whether it chooses the phase or keeps the one begun (R151). -/
theorem beginRespond_of_ph {s : State} {p : Phase} (hph : (beginRespond s).ph = p) : beginRespond s = s.setPh p := by
  rw [← hph, beginRespond_eq]
  rfl

theorem State.polled_eq (s : State) :
    s.polled = { s with polls := s.polls.advance 1, trace := .poll (s.pollAhead 0) :: s.trace } := by
  rw [← Feed.rest_eq_advance, ← State.pollAnswer_eq]
  rfl

/-- A poll of `TxByte(b)` that shows a ready transport puts the byte and goes on (R150). -/
theorem txPoll_of_ready {s : State} (b : Byte) (goOn : State → State) (hready : (s.pollAhead 0).txReady = true) :
    txPoll b goOn s = goOn (s.polled.log (.txPut b)) := by
  rw [← State.pollAnswer_eq] at hready
  exact if_pos hready

/-- Settles O44: begun or not, the serializer enters the step in `TX_FAIL` with the other registers as they were, and
its poll shows the transport ready. -/
theorem respondSendsFailureByte : Obligations.RespondSendsFailureByte := by
  intro s hst hph hready
  have hbegun : beginRespond s = s.setPh .txFail := beginRespond_of_ph hph
  have hready' : ((s.setPh .txFail).pollAhead 0).txReady = true := hready
  rw [step_of_respond hst, respond_of_txFail hph, hbegun, txPoll_of_ready _ _ hready', State.polled_eq]
  rfl

end Sys2Proof.Machine
end

section
/-! ECHO (R227): the result stands ready in the buffer, so Execute only announces it, and the response that Respond has
to send is the count byte and the payload of the request. -/

namespace Sys2Proof.Machine

theorem exec_echo_of_fits {p : List Byte} (hfits : payloadFits p = true) (s : State) :
    exec (.echo p) s = .next ((s.setPh .exLocal).succeed (countByte p)) := by
  simp only [exec, execEcho, answerIf, hfits, if_true]

theorem encode_echo_drop_one (p : List Byte) : (encode (.echo p)).drop 1 = countByte p :: p := rfl

/-- A success that the serializer has not begun to send is sent from its length byte on (R151). -/
theorem beginRespond_ph_of_resOk {s : State} (hph : s.ph.isTx = false) (hok : s.resOk = true) :
    (beginRespond s).ph = .txLen := by
  simp [beginRespond_eq, hph, hok]

theorem pendingResponse_of_txLen {s : State} (hst : s.st = .respond) (hph : (beginRespond s).ph = .txLen) :
    s.pendingResponse = (s.buf.readRange 0 s.resLen.toNat).map fun p => s.resLen :: p := by
  simp only [State.pendingResponse, hst, hph, if_true]

/-- A success whose payload stands in the buffer leaves its length byte and that payload to send, in whatever phase
outside the serializer the command ended (R151, R152). -/
theorem pendingResponse_succeed {s : State} {p : List Byte} (hfits : payloadFits p = true)
    (hph : s.ph.isTx = false) (hbuf : s.buf.readRange 0 p.length = some p) :
    (s.succeed (countByte p)).pendingResponse = some (countByte p :: p) := by
  have hbegin : (beginRespond (s.succeed (countByte p))).ph = .txLen := beginRespond_ph_of_resOk hph rfl
  rw [pendingResponse_of_txLen rfl hbegin, State.succeed_resLen, State.succeed_buf, countByte_toNat hfits, hbuf]
  rfl

/-- Settles O19: `EX_LOCAL` is no phase of the serializer and the buffer is as the request left it, so the success is
sent from its count byte on, the bytes after the request's identifier. -/
theorem echoAnswersItsRequest : Obligations.EchoAnswersItsRequest := by
  intro p s hfits hbuf
  refine ⟨_, exec_echo_of_fits hfits s, rfl, ?_⟩
  rw [encode_echo_drop_one]
  exact pendingResponse_succeed (s := s.setPh .exLocal) hfits rfl hbuf

end Sys2Proof.Machine
end

section
/-! The decoder and the encoder (R91, R100, R103): each undoes the other, row by row, and the rest about frames follows
from the two round trips. -/

namespace Sys2Proof

/-! ## The identifiers that no command has -/

theorem decode_of_unrecognized {x : Byte} (hx : 4 ≤ x.toNat) (bs : List Byte) :
    decode (x :: bs) = .ok (decodeUnrecognized x, bs) := by
  have hne : ∀ y : Byte, y.toNat < 4 → x ≠ y := fun y hy h => by rw [h] at hx; omega
  rw [decode, if_neg (hne _ (by decide)), if_neg (hne _ (by decide)), if_neg (hne _ (by decide)),
    if_neg (hne _ (by decide))]

/-- No bit of an unrecognized identifier is lost: its row keeps the bits that its pattern leaves open (R108). -/
theorem idByte_decodeUnrecognized : ∀ x : Byte, 4 ≤ x.toNat →
    (decodeUnrecognized x).wf = true ∧ (decodeUnrecognized x).operandBytes = [] ∧ (decodeUnrecognized x).idByte = x := by
  decide

/-- What the decoder makes of the identifier byte of a row that is no command. -/
def ReadsBack (i : Instr) : Prop := 4 ≤ i.idByte.toNat ∧ decodeUnrecognized i.idByte = i

theorem readsBack_unrec04 : ∀ low, ReadsBack (.unrec04 low) := by unfold ReadsBack; decide
theorem readsBack_unrec08 : ∀ low, ReadsBack (.unrec08 low) := by unfold ReadsBack; decide
theorem readsBack_unrec10 : ∀ low, ReadsBack (.unrec10 low) := by unfold ReadsBack; decide
theorem readsBack_unrec20 : ∀ low, ReadsBack (.unrec20 low) := by unfold ReadsBack; decide
theorem readsBack_unrec40 : ∀ low, ReadsBack (.unrec40 low) := by unfold ReadsBack; decide
theorem readsBack_unrec80 : ∀ low, ReadsBack (.unrec80 low) := by unfold ReadsBack; decide

theorem readsBack_of_unrecognized {i : Instr} (h : Machine.recognized i = false) : ReadsBack i := by
  cases i with
  | write a r p => cases h
  | read a r n => cases h
  | detect as => cases h
  | echo p => cases h
  | unrec04 low => exact readsBack_unrec04 low
  | unrec08 low => exact readsBack_unrec08 low
  | unrec10 low => exact readsBack_unrec10 low
  | unrec20 low => exact readsBack_unrec20 low
  | unrec40 low => exact readsBack_unrec40 low
  | unrec80 low => exact readsBack_unrec80 low

theorem operandBytes_of_unrecognized {i : Instr} (h : Machine.recognized i = false) : i.operandBytes = [] := by
  cases i <;> first | rfl | cases h

theorem decode_encode_of_unrecognized {i : Instr} (h : Machine.recognized i = false) (rest : List Byte) :
    decode (encode i ++ rest) = .ok (i, rest) := by
  obtain ⟨hid, hback⟩ := readsBack_of_unrecognized h
  rw [encode, operandBytes_of_unrecognized h, List.singleton_append, decode_of_unrecognized hid, hback]

/-! ## The two round trips -/

/-- A tail that its count byte announces is taken whole. -/
theorem decodePayload_countByte (mk : List Byte → Instr) {p : List Byte} (h : payloadFits p = true) (rest : List Byte) :
    decodePayload mk (countByte p) (p ++ rest) = .ok (mk p, rest) := by
  rw [decodePayload_of_le _ (by rw [countByte_toNat h, List.length_append]; omega), countByte_toNat h,
    List.take_left, List.drop_left]

/-- Settles O1, row by row: the four commands by the count of their payload, the other rows by the bits of their
identifier. -/
theorem decodeOfEncode : Obligations.DecodeOfEncode := by
  intro i rest hwf
  cases i with
  | write a r p => exact decodePayload_countByte _ hwf rest
  | read a r n => rfl
  | detect as => exact decodePayload_countByte _ hwf rest
  | echo p => exact decodePayload_countByte _ hwf rest
  | unrec04 low => exact decode_encode_of_unrecognized rfl rest
  | unrec08 low => exact decode_encode_of_unrecognized rfl rest
  | unrec10 low => exact decode_encode_of_unrecognized rfl rest
  | unrec20 low => exact decode_encode_of_unrecognized rfl rest
  | unrec40 low => exact decode_encode_of_unrecognized rfl rest
  | unrec80 low => exact decode_encode_of_unrecognized rfl rest

/-- A tail that is read is the announced payload, and it fits its count byte. -/
theorem decodePayload_eq_ok {mk : List Byte → Instr} {n : Byte} {bs rest : List Byte} {i : Instr}
    (h : decodePayload mk n bs = .ok (i, rest)) :
    ∃ p, i = mk p ∧ payloadFits p = true ∧ countByte p = n ∧ p ++ rest = bs := by
  unfold decodePayload at h
  split at h
  · rename_i hn
    cases h
    have hlen : (bs.take n.toNat).length = n.toNat := List.length_take_of_le hn
    have hlt := n.isLt
    refine ⟨_, rfl, decide_eq_true ?_, ?_, List.take_append_drop _ _⟩
    · rw [hlen, bufLen]; omega
    · rw [countByte, hlen, BitVec.ofNat_toNat, BitVec.setWidth_eq]
  · cases h

theorem decodeWrite_eq_ok {bs rest : List Byte} {i : Instr} (h : decodeWrite bs = .ok (i, rest)) :
    i.wf = true ∧ encode i ++ rest = 0x00#8 :: bs := by
  unfold decodeWrite at h
  split at h
  · obtain ⟨p, rfl, hfits, rfl, rfl⟩ := decodePayload_eq_ok h
    exact ⟨hfits, rfl⟩
  · cases h

theorem decodeRead_eq_ok {bs rest : List Byte} {i : Instr} (h : decodeRead bs = .ok (i, rest)) :
    i.wf = true ∧ encode i ++ rest = 0x01#8 :: bs := by
  unfold decodeRead at h
  split at h
  · cases h; exact ⟨rfl, rfl⟩
  · cases h

theorem decodeDetect_eq_ok {bs rest : List Byte} {i : Instr} (h : decodeDetect bs = .ok (i, rest)) :
    i.wf = true ∧ encode i ++ rest = 0x02#8 :: bs := by
  unfold decodeDetect at h
  split at h
  · obtain ⟨p, rfl, hfits, rfl, rfl⟩ := decodePayload_eq_ok h
    exact ⟨hfits, rfl⟩
  · cases h

theorem decodeEcho_eq_ok {bs rest : List Byte} {i : Instr} (h : decodeEcho bs = .ok (i, rest)) :
    i.wf = true ∧ encode i ++ rest = 0x03#8 :: bs := by
  unfold decodeEcho at h
  split at h
  · obtain ⟨p, rfl, hfits, rfl, rfl⟩ := decodePayload_eq_ok h
    exact ⟨hfits, rfl⟩
  · cases h

theorem four_le_of_no_command {x : Byte} (h0 : x ≠ 0x00#8) (h1 : x ≠ 0x01#8) (h2 : x ≠ 0x02#8) (h3 : x ≠ 0x03#8) :
    4 ≤ x.toNat := by
  bv_omega

/-- Settles O2, along the branches of the decoder. -/
theorem encodeOfDecode : Obligations.EncodeOfDecode := by
  intro bs i rest h
  cases bs with
  | nil => cases h
  | cons x bs =>
    simp only [decode] at h
    split at h
    · rename_i h0; rw [h0]; exact decodeWrite_eq_ok h
    split at h
    · rename_i h1; rw [h1]; exact decodeRead_eq_ok h
    split at h
    · rename_i h2; rw [h2]; exact decodeDetect_eq_ok h
    split at h
    · rename_i h3; rw [h3]; exact decodeEcho_eq_ok h
    · rename_i h0 h1 h2 h3
      cases h
      obtain ⟨hwf, hops, hid⟩ := idByte_decodeUnrecognized x (four_le_of_no_command h0 h1 h2 h3)
      exact ⟨hwf, by rw [encode, hops, hid]; rfl⟩

/-! ## Frame lengths -/

theorem encode_length {i : Instr} (h : i.wf = true) : (encode i).length = i.frameLength := by
  have hsize : Laws.FrameSize.Statement i := by
    cases i with
    | write a r p => exact Laws.FrameSize.write a r p
    | read a r n => exact Laws.FrameSize.read a r n
    | detect as => exact Laws.FrameSize.detect as
    | echo p => exact Laws.FrameSize.echo p
    | unrec04 low => exact Laws.FrameSize.unrec04 low
    | unrec08 low => exact Laws.FrameSize.unrec08 low
    | unrec10 low => exact Laws.FrameSize.unrec10 low
    | unrec20 low => exact Laws.FrameSize.unrec20 low
    | unrec40 low => exact Laws.FrameSize.unrec40 low
    | unrec80 low => exact Laws.FrameSize.unrec80 low
  exact (hsize h).1

/-- No frame is the beginning of a longer one. -/
theorem frame_append_unique {i j : Instr} {cs ds : List Byte} (hi : i.wf = true) (hj : j.wf = true)
    (h : encode i ++ cs = encode j ++ ds) : i = j ∧ cs = ds := by
  have hd := decodeOfEncode i cs hi
  rw [h, decodeOfEncode j ds hj] at hd
  cases hd
  exact ⟨rfl, rfl⟩

/-- Settles O3: the lengths are those of the frames read, and a frame read from a cut frame would be the beginning of the
whole one. -/
theorem frameLengths : Obligations.FrameLengths := by
  refine ⟨fun bs i rest h => ?_, fun i j hwf hj => ?_⟩
  · obtain ⟨hwf, rfl⟩ := encodeOfDecode bs i rest h
    rw [List.length_append, encode_length hwf]
  · cases hd : decode ((encode i).take j) with
    | error e => exact ⟨e, rfl⟩
    | ok res =>
      obtain ⟨i', rest⟩ := res
      obtain ⟨hwf', henc⟩ := encodeOfDecode _ _ _ hd
      have hwhole : encode i' ++ (rest ++ (encode i).drop j) = encode i ++ [] := by
        rw [← List.append_assoc, henc, List.take_append_drop, List.append_nil]
      have hcut := congrArg List.length (frame_append_unique hwf' hwf hwhole).2
      rw [List.length_append, List.length_drop, encode_length hwf, List.length_nil] at hcut
      omega

/-! ## The opcode table -/

/-- Settles O4, over the 256 bytes. -/
theorem identifierRowsPartition : Obligations.IdentifierRowsPartition := by
  unfold Obligations.IdentifierRowsPartition
  decide

/-- The row of the opcode table with an instruction's mnemonic. -/
def Instr.row : Instr → OpcodeRow
  | .write _ _ _ => ⟨"WRITE", 0x00#8, 0xFF#8⟩
  | .read _ _ _ => ⟨"READ", 0x01#8, 0xFF#8⟩
  | .detect _ => ⟨"DETECT", 0x02#8, 0xFF#8⟩
  | .echo _ => ⟨"ECHO", 0x03#8, 0xFF#8⟩
  | .unrec04 _ => ⟨"UNRECOGNIZED_04_07", 0x04#8, 0xFC#8⟩
  | .unrec08 _ => ⟨"UNRECOGNIZED_08_0F", 0x08#8, 0xF8#8⟩
  | .unrec10 _ => ⟨"UNRECOGNIZED_10_1F", 0x10#8, 0xF0#8⟩
  | .unrec20 _ => ⟨"UNRECOGNIZED_20_3F", 0x20#8, 0xE0#8⟩
  | .unrec40 _ => ⟨"UNRECOGNIZED_40_7F", 0x40#8, 0xC0#8⟩
  | .unrec80 _ => ⟨"UNRECOGNIZED_80_FF", 0x80#8, 0x80#8⟩

theorem Instr.row_mem (i : Instr) : i.row ∈ opcodeRows := by
  cases i <;> simp [Instr.row, opcodeRows]

theorem Instr.row_mnemonic (i : Instr) : i.row.mnemonic = i.mnemonic := by cases i <;> rfl

/-- The mask of a row cuts off exactly the bits that its instructions carry (R108). -/
theorem Instr.row_selects (i : Instr) : i.row.selects i.idByte = true := by
  cases i with
  | write a r p => simp [Instr.row, Instr.idByte, OpcodeRow.selects]
  | read a r n => simp [Instr.row, Instr.idByte, OpcodeRow.selects]
  | detect as => simp [Instr.row, Instr.idByte, OpcodeRow.selects]
  | echo p => simp [Instr.row, Instr.idByte, OpcodeRow.selects]
  | unrec04 low => revert low; unfold Instr.row Instr.idByte; decide
  | unrec08 low => revert low; unfold Instr.row Instr.idByte; decide
  | unrec10 low => revert low; unfold Instr.row Instr.idByte; decide
  | unrec20 low => revert low; unfold Instr.row Instr.idByte; decide
  | unrec40 low => revert low; unfold Instr.row Instr.idByte; decide
  | unrec80 low => revert low; unfold Instr.row Instr.idByte; decide

theorem mnemonic_injective : ∀ r ∈ opcodeRows, ∀ q ∈ opcodeRows, r.mnemonic = q.mnemonic → r = q := by decide

/-- Settles O5: the instruction's own row selects its identifier, and by the partition no other row does. -/
theorem rowSelectsOwnIdentifier : Obligations.RowSelectsOwnIdentifier := by
  intro i r hr
  obtain ⟨q, -, -, honly⟩ := identifierRowsPartition i.idByte
  have hown : i.row = q := honly _ i.row_mem i.row_selects
  constructor
  · intro hsel
    rw [honly r hr hsel, ← hown, i.row_mnemonic]
  · intro hname
    rw [mnemonic_injective r hr _ i.row_mem (hname.trans i.row_mnemonic.symm)]
    exact i.row_selects

/-- Settles O6 by evaluating the decoder. -/
theorem specWordsDecode : Obligations.SpecWordsDecode := by
  unfold Obligations.SpecWordsDecode
  decide

/-- Settles O8, over the 256 address bytes. -/
theorem addressByteOnTheBus : Obligations.AddressByteOnTheBus := by
  unfold Obligations.AddressByteOnTheBus
  decide

end Sys2Proof
end

section
/-! The buffer as a canonical list (R61), the width of the countdown (R30), and the wait loop from its polls (R165 to
R167). -/

namespace Sys2Proof.Machine

/-! ## The buffer -/

/-- Settles O10 by the three rules of a write. -/
theorem bufferReadAfterWrite : Obligations.BufferReadAfterWrite := fun m a v =>
  ⟨m.read_write_same a v, fun _ hb => m.read_write_ne v hb, fun hm ha => m.write_wf a v hm ha⟩

/-- Below its first index a canonical list holds nothing. -/
theorem Memory.read_of_lt {m : Memory} {lo a : Nat} (h : m.risesFrom lo = true) (ha : a < lo) : m.read a = none := by
  induction m generalizing lo with
  | nil => rfl
  | cons c m ih =>
    obtain ⟨b, w⟩ := c
    simp only [Memory.risesFrom, Bool.and_eq_true, decide_eq_true_eq] at h
    obtain ⟨⟨hlo, -⟩, hrest⟩ := h
    rw [Memory.read, if_neg (by omega)]
    exact ih hrest (by omega)

theorem Memory.read_head (b : Nat) (v : Byte) (m : Memory) : Memory.read ((b, v) :: m) b = some v := if_pos rfl

theorem Memory.read_tail {a b : Nat} (v : Byte) (m : Memory) (h : a ≠ b) :
    Memory.read ((b, v) :: m) a = Memory.read m a := if_neg h

/-- A canonical list begins at the first index that reads as written. -/
theorem Memory.head_eq_of_read_eq {b c lo : Nat} {v w : Byte} {m n : Memory}
    (hm : Memory.risesFrom lo ((b, v) :: m) = true) (hn : Memory.risesFrom lo ((c, w) :: n) = true)
    (h : ∀ a, Memory.read ((b, v) :: m) a = Memory.read ((c, w) :: n) a) : b = c := by
  simp only [Memory.risesFrom, Bool.and_eq_true, decide_eq_true_eq] at hm hn
  rcases Nat.lt_trichotomy b c with hlt | heq | hlt
  · have hb := h b
    rw [Memory.read_head, Memory.read_tail _ _ (by omega), Memory.read_of_lt hn.2 (by omega)] at hb
    cases hb
  · exact heq
  · have hc := h c
    rw [Memory.read_head, Memory.read_tail _ _ (by omega), Memory.read_of_lt hm.2 (by omega)] at hc
    cases hc

theorem Memory.eq_of_read_eq {lo : Nat} {m n : Memory} (hm : m.risesFrom lo = true) (hn : n.risesFrom lo = true)
    (h : ∀ a, m.read a = n.read a) : m = n := by
  induction m generalizing n lo with
  | nil =>
    cases n with
    | nil => rfl
    | cons c n =>
      have hc := h c.1
      rw [Memory.read_head] at hc
      cases hc
  | cons c m ih =>
    obtain ⟨b, v⟩ := c
    cases n with
    | nil =>
      have hb := h b
      rw [Memory.read_head] at hb
      cases hb
    | cons d n =>
      obtain ⟨c, w⟩ := d
      obtain rfl := Memory.head_eq_of_read_eq hm hn h
      have hv := h b
      rw [Memory.read_head, Memory.read_head] at hv
      simp only [Memory.risesFrom, Bool.and_eq_true] at hm hn
      obtain rfl : m = n := ih hm.2 hn.2 fun a => by
        by_cases hab : a = b
        · rw [hab, Memory.read_of_lt hm.2 (Nat.lt_succ_self b), Memory.read_of_lt hn.2 (Nat.lt_succ_self b)]
        · simpa only [Memory.read_tail _ _ hab] using h a
      rw [Option.some.inj hv]

/-- Settles O11: canonical lists have the same first index, the same byte there, and then the same rest. -/
theorem bufferIsItsReads : Obligations.BufferIsItsReads := fun _ _ hm hn h => Memory.eq_of_read_eq hm hn h

/-! ## The countdown -/

theorem max_budget_lt_wTo (p : Params) : max p.tRx p.tBus < 2 ^ p.wTo := Nat.lt_log2_self

/-- Settles O13: `W_TO` is one more than the logarithm of the larger budget, which is not 0. -/
theorem countdownWidthIsLeast : Obligations.CountdownWidthIsLeast := by
  refine fun p => ⟨Params.tRx_pos p, Params.tBus_pos p, max_budget_lt_wTo p, fun w hw => ?_⟩
  have hne : max p.tRx p.tBus ≠ 0 := by have := Params.tRx_pos p; omega
  exact (Nat.log2_lt hne).2 hw

/-! ## The wait loop -/

/-- The first poll that decides a wait is one poll. -/
theorem first_deciding_unique {P : Nat → Bool} {m n : Nat} (hm : ∀ j, j < m → P j = false) (hm' : P m = true)
    (hn : ∀ j, j < n → P j = false) (hn' : P n = true) : m = n := by
  rcases Nat.lt_trichotomy m n with h | h | h
  · rw [hn m h] at hm'; cases hm'
  · exact h
  · rw [hm n h] at hn'; cases hn'

theorem wait_done {done : Poll → Bool} {nackEn : Bool} {T n : Nat} {s : State} (hn : n < T)
    (hbefore : ∀ j, j < n → decides done nackEn (s.pollAhead j) = false) (hd : done (s.pollAhead n) = true) :
    wait done nackEn T s = (.done, s.waited (n + 1) (T - n)) := by
  have hdec : decides done nackEn (s.pollAhead n) = true := by simp [decides, hd]
  rcases wait_cases done nackEn T s with ⟨m, hm, hj, hd', he⟩ | ⟨m, hm, hj, hd', hne, haf, he⟩ | ⟨hj, he⟩
  · obtain rfl := first_deciding_unique (P := fun j => decides done nackEn (s.pollAhead j)) hj
      (by simp [decides, hd']) hbefore hdec
    exact he
  · obtain rfl := first_deciding_unique (P := fun j => decides done nackEn (s.pollAhead j)) hj
      (by simp [decides, hne, haf]) hbefore hdec
    rw [hd] at hd'; cases hd'
  · rw [hj n hn] at hdec; cases hdec

theorem wait_nack {done : Poll → Bool} {nackEn : Bool} {T n : Nat} {s : State} (hn : n < T)
    (hbefore : ∀ j, j < n → decides done nackEn (s.pollAhead j) = false) (hd : done (s.pollAhead n) = false)
    (hen : nackEn = true) (haf : (s.pollAhead n).af = true) :
    wait done nackEn T s = (.nack, s.waited (n + 1) (T - n)) := by
  have hdec : decides done nackEn (s.pollAhead n) = true := by simp [decides, hen, haf]
  rcases wait_cases done nackEn T s with ⟨m, hm, hj, hd', he⟩ | ⟨m, hm, hj, hd', hne, haf', he⟩ | ⟨hj, he⟩
  · obtain rfl := first_deciding_unique (P := fun j => decides done nackEn (s.pollAhead j)) hj
      (by simp [decides, hd']) hbefore hdec
    rw [hd] at hd'; cases hd'
  · obtain rfl := first_deciding_unique (P := fun j => decides done nackEn (s.pollAhead j)) hj
      (by simp [decides, hne, haf']) hbefore hdec
    exact he
  · rw [hj n hn] at hdec; cases hdec

theorem wait_expired {done : Poll → Bool} {nackEn : Bool} {T : Nat} {s : State}
    (h : ∀ j, j < T → decides done nackEn (s.pollAhead j) = false) :
    wait done nackEn T s = (.expired, s.waited T 0) := by
  rcases wait_cases done nackEn T s with ⟨m, hm, hj, hd', he⟩ | ⟨m, hm, hj, hd', hne, haf', he⟩ | ⟨hj, he⟩
  · have := h m hm; simp [decides, hd'] at this
  · have := h m hm; simp [decides, hne, haf'] at this
  · exact he

/-- Settles O12: the loop by the first poll that decides it, and each bus wait as that loop with the columns of its
row. -/
theorem waitEndsAtFirstDecidingPoll : Obligations.WaitEndsAtFirstDecidingPoll := by
  have hloop : ∀ (done : Poll → Bool) (nackEn : Bool) (T n : Nat) (s : State),
      (n < T → (∀ j, j < n → (done (s.pollAhead j) || (nackEn && (s.pollAhead j).af)) = false) →
        (done (s.pollAhead n) = true → wait done nackEn T s = (.done, s.waited (n + 1) (T - n))) ∧
        (done (s.pollAhead n) = false → nackEn = true → (s.pollAhead n).af = true →
          wait done nackEn T s = (.nack, s.waited (n + 1) (T - n)))) ∧
      ((∀ j, j < T → (done (s.pollAhead j) || (nackEn && (s.pollAhead j).af)) = false) →
        wait done nackEn T s = (.expired, s.waited T 0)) :=
    fun done nackEn T n s =>
      ⟨fun hn hbefore => ⟨wait_done hn hbefore, wait_nack hn hbefore⟩, wait_expired⟩
  refine ⟨hloop, fun row hrow => ?_⟩
  have hbus : ∀ w : BusWait, ∀ (s : State) (n : Nat), _ := fun w s n => hloop w.done w.nackEn s.params.tBus n s
  simp only [List.mem_cons, List.not_mem_nil, or_false] at hrow
  rcases hrow with rfl | rfl | rfl | rfl | rfl | rfl | rfl
  · exact ⟨rfl, fun _ => rfl, rfl, hbus .idle⟩
  · exact ⟨rfl, fun _ => rfl, rfl, hbus .mms⟩
  · exact ⟨rfl, fun _ => rfl, rfl, hbus .tms⟩
  · exact ⟨rfl, fun _ => rfl, rfl, hbus .rms⟩
  · exact ⟨rfl, fun _ => rfl, rfl, hbus .btxPointer⟩
  · exact ⟨rfl, fun _ => rfl, rfl, hbus .btxData⟩
  · exact ⟨rfl, fun _ => rfl, rfl, hbus .brx⟩

end Sys2Proof.Machine
end

section
/-! What Execute can do with each command, as one case for its success and one for each way to fail (R189, R225, R226,
R260, R281), and what every instruction keeps. -/

namespace Sys2Proof.Machine

/-! ## Terms that no frame encodes -/

/-- Settles O21: the meanings with a payload test its length, the other rows are well formed. -/
theorem illFormedIsRefused : Obligations.IllFormedIsRefused := by
  intro i s h
  cases i with
  | write a r p => exact if_neg (Bool.eq_false_iff.1 h)
  | detect as => exact if_neg (Bool.eq_false_iff.1 h)
  | echo p => exact if_neg (Bool.eq_false_iff.1 h)
  | _ => cases h

theorem wf_of_exec_next {i : Instr} {s t : State} (h : exec i s = .next t) : i.wf = true := by
  cases hwf : i.wf with
  | true => rfl
  | false => rw [illFormedIsRefused i s hwf] at h; cases h

/-! ## WRITE -/

theorem exec_write_eq {p : List Byte} (hfits : payloadFits p = true) (a r : Byte) (s : State) :
    exec (.write a r p) s = .next (concludeTxn (fun t => (t.bufStore 0 (countByte p)).succeed 1#8) (txnWrite a r p s)) := by
  simp only [exec, execWrite, answerIf, hfits, if_true]

/-- The ways in which a WRITE fails, with the class of each and its actions (R189, R281). -/
inductive WriteFails (a r : Byte) (p : List Byte) : FailKind → List Event → Prop where
  | busy : WriteFails a r p .busBusy []
  | noStart : WriteFails a r p .busSelect [.busStart, .busStop]
  | noAck : WriteFails a r p .ackFailure [.busStart, .busAddr (addr7 a) .write, .busClearAF, .busStop]
  | noAddress : WriteFails a r p .busSelect [.busStart, .busAddr (addr7 a) .write, .busStop]
  | noTransfer (i : Nat) (hi : i ≤ p.length) :
      WriteFails a r p .transfer (pointerActions a r ++ (p.take i).map .busSend ++ [.busStop])

/-- Everything a WRITE can do: `u` is the state that the transaction leaves. -/
theorem exec_write_cases {p : List Byte} (hfits : payloadFits p = true) (a r : Byte) (s : State) :
    ∃ u es, EngineRun s u es ∧ u.buf = s.buf ∧ u.busRx = s.busRx ∧ u.ph.isTx = false ∧
      pollCount es ≤ waitBound (.write a r p) * s.params.tBus ∧
      ((exec (.write a r p) s = .next ((u.setBuf (s.buf.write 0 (countByte p))).succeed 1#8) ∧
          actions es = pointerActions a r ++ p.map .busSend ++ [.busStop]) ∨
       ∃ kind, exec (.write a r p) s = .next (u.raiseFailure kind) ∧ WriteFails a r p kind (actions es)) := by
  obtain ⟨u, es, hrun, hbuf, hbus, hph, hpolls, hcases⟩ := txnWrite_cases a r p s
  refine ⟨u, es, hrun, hbuf, hbus, hph, hpolls, ?_⟩
  rw [exec_write_eq hfits]
  rcases hcases with ⟨htxn, hacts⟩ | ⟨htxn, hacts⟩ | ⟨htxn, hacts⟩ | ⟨htxn, hacts | hacts⟩ | ⟨i, hi, htxn, hacts⟩
  · refine .inl ⟨?_, hacts⟩
    rw [htxn, ← hbuf]
    rfl
  · exact .inr ⟨_, by rw [htxn]; rfl, by rw [hacts]; exact .noAck⟩
  · exact .inr ⟨_, by rw [htxn]; rfl, by rw [hacts]; exact .busy⟩
  · exact .inr ⟨_, by rw [htxn]; rfl, by rw [hacts]; exact .noStart⟩
  · exact .inr ⟨_, by rw [htxn]; rfl, by rw [hacts]; exact .noAddress⟩
  · exact .inr ⟨_, by rw [htxn]; rfl, by rw [hacts]; exact .noTransfer i hi⟩

/-- Settles O22: the success, and each way to fail. -/
theorem writeTraces : Obligations.WriteTraces := by
  intro a r p s hfits
  obtain ⟨u, es, hrun, hbuf, -, -, -, ⟨hexec, hacts⟩ | ⟨kind, hexec, hfail⟩⟩ := exec_write_cases hfits a r s
  · exact ⟨_, es, hexec, rfl, hrun.trace, .inl ⟨rfl, rfl, rfl, hacts⟩⟩
  · refine ⟨_, es, hexec, rfl, hrun.trace, .inr ⟨rfl, hbuf, hrun.resLen, ?_⟩⟩
    generalize hacts : actions es = acts at hfail
    cases hfail with
    | busy => exact .inl ⟨rfl, rfl⟩
    | noStart => exact .inr (.inl ⟨rfl, rfl⟩)
    | noAck => exact .inr (.inr (.inl ⟨rfl, rfl⟩))
    | noAddress => exact .inr (.inr (.inr (.inl ⟨rfl, rfl⟩)))
    | noTransfer i hi => exact .inr (.inr (.inr (.inr ⟨i, hi, rfl, rfl⟩)))

/-! ## READ -/

theorem exec_read_eq (a r n : Byte) (s : State) :
    exec (.read a r n) s = .next (concludeTxn (fun t => t.succeed n) (txnRead a r n s)) := rfl

/-- The actions of a READ up to its receive phase. -/
abbrev readActions (a r : Byte) : List Event := pointerActions a r ++ [.busStart, .busAddr (addr7 a) .read]

/-- The actions of a READ that succeeds (R177 to R180). -/
def readDone (a r n : Byte) (s : State) : List Event :=
  if n = 0#8 then pointerActions a r ++ [.busStop]
  else readActions a r ++ (s.busBytes (n.toNat - 1)).map .busRecv ++
    [.busAck .none, .busStop, .busRecv (s.busAhead (n.toNat - 1)), .busAck .current]

/-- The ways in which a READ fails, with the bytes received before, the class and the actions (R189, R281). -/
inductive ReadFails (a r n : Byte) (s : State) : Nat → FailKind → List Event → Prop where
  | busy : ReadFails a r n s 0 .busBusy []
  | noStart : ReadFails a r n s 0 .busSelect [.busStart, .busStop]
  | noAck : ReadFails a r n s 0 .ackFailure [.busStart, .busAddr (addr7 a) .write, .busClearAF, .busStop]
  | noAddress : ReadFails a r n s 0 .busSelect [.busStart, .busAddr (addr7 a) .write, .busStop]
  | noPointer : ReadFails a r n s 0 .transfer (pointerActions a r ++ [.busStop])
  | noRestart (hn : n ≠ 0#8) : ReadFails a r n s 0 .busSelect (pointerActions a r ++ [.busStart, .busStop])
  | noReadAck (hn : n ≠ 0#8) : ReadFails a r n s 0 .ackFailure (readActions a r ++ [.busClearAF, .busStop])
  | noReadAddress (hn : n ≠ 0#8) : ReadFails a r n s 0 .busSelect (readActions a r ++ [.busStop])
  | noByte (i : Nat) (hi : i < n.toNat) : ReadFails a r n s i .transfer
      (readActions a r ++ (s.busBytes i).map .busRecv ++
        if i + 1 = n.toNat then [.busAck .none, .busStop, .busStop, .busAck .current] else [.busStop, .busAck .current])

theorem ReadFails.got_le {a r n : Byte} {s : State} {got : Nat} {kind : FailKind} {acts : List Event}
    (h : ReadFails a r n s got kind acts) : got ≤ n.toNat := by
  cases h with
  | noByte i hi => exact Nat.le_of_lt hi
  | _ => exact Nat.zero_le _

/-- Everything a READ can do: `u` is the state that the transaction leaves. -/
theorem exec_read_cases (a r n : Byte) (s : State) :
    ∃ u es, EngineRun s u es ∧ u.ph.isTx = false ∧ pollCount es ≤ waitBound (.read a r n) * s.params.tBus ∧
      ((exec (.read a r n) s = .next (u.succeed n) ∧ u.buf = s.buf.writeRange 0 (s.busBytes n.toNat) ∧
          actions es = readDone a r n s) ∨
       ∃ kind got, exec (.read a r n) s = .next (u.raiseFailure kind) ∧
          u.buf = s.buf.writeRange 0 (s.busBytes got) ∧ ReadFails a r n s got kind (actions es)) := by
  obtain ⟨u, es, hrun, hph, hpolls, hcases⟩ := txnRead_cases a r n s
  refine ⟨u, es, hrun, hph, hpolls, ?_⟩
  rw [exec_read_eq]
  rcases hcases with ⟨htxn, hbuf, hacts⟩ | ⟨hbuf, hearly⟩ | ⟨i, hi, htxn, hbuf, hacts⟩
  · refine .inl ⟨by rw [htxn]; rfl, hbuf, ?_⟩
    rcases hacts with ⟨hn, hacts⟩ | ⟨hn, hacts⟩
    · rw [readDone, if_pos hn, hacts]
    · rw [readDone, if_neg hn, hacts]
  · rcases hearly with ⟨htxn, hacts | ⟨hn, hacts⟩⟩ | ⟨htxn, hacts⟩ |
      ⟨htxn, hacts | hacts | ⟨hn, hacts⟩ | ⟨hn, hacts⟩⟩ | ⟨htxn, hacts⟩
    · exact .inr ⟨_, 0, by rw [htxn]; rfl, hbuf, by rw [hacts]; exact .noAck⟩
    · exact .inr ⟨_, 0, by rw [htxn]; rfl, hbuf, by rw [hacts]; exact .noReadAck hn⟩
    · exact .inr ⟨_, 0, by rw [htxn]; rfl, hbuf, by rw [hacts]; exact .busy⟩
    · exact .inr ⟨_, 0, by rw [htxn]; rfl, hbuf, by rw [hacts]; exact .noStart⟩
    · exact .inr ⟨_, 0, by rw [htxn]; rfl, hbuf, by rw [hacts]; exact .noAddress⟩
    · exact .inr ⟨_, 0, by rw [htxn]; rfl, hbuf, by rw [hacts]; exact .noRestart hn⟩
    · exact .inr ⟨_, 0, by rw [htxn]; rfl, hbuf, by rw [hacts]; exact .noReadAddress hn⟩
    · exact .inr ⟨_, 0, by rw [htxn]; rfl, hbuf, by rw [hacts]; exact .noPointer⟩
  · exact .inr ⟨_, i, by rw [htxn]; rfl, hbuf, by rw [hacts]; exact .noByte i hi⟩

/-- Settles O23: the success, and each way to fail. -/
theorem readTraces : Obligations.ReadTraces := by
  intro a r n s
  obtain ⟨u, es, hrun, -, -, ⟨hexec, hbuf, hacts⟩ | ⟨kind, got, hexec, hbuf, hfail⟩⟩ := exec_read_cases a r n s
  · exact ⟨_, es, hexec, rfl, hrun.trace, .inl ⟨rfl, rfl, hbuf, hacts⟩⟩
  · refine ⟨_, es, hexec, rfl, hrun.trace, .inr ⟨rfl, hrun.resLen, ?_⟩⟩
    generalize hacts : actions es = acts at hfail
    cases hfail with
    | busy => exact .inl ⟨hbuf, .inl ⟨rfl, rfl⟩⟩
    | noStart => exact .inl ⟨hbuf, .inr (.inl ⟨rfl, rfl⟩)⟩
    | noAck => exact .inl ⟨hbuf, .inr (.inr (.inl ⟨rfl, rfl⟩))⟩
    | noAddress => exact .inl ⟨hbuf, .inr (.inr (.inr (.inl ⟨rfl, rfl⟩)))⟩
    | noPointer => exact .inl ⟨hbuf, .inr (.inr (.inr (.inr (.inl ⟨rfl, rfl⟩))))⟩
    | noRestart hn => exact .inl ⟨hbuf, .inr (.inr (.inr (.inr (.inr (.inl ⟨hn, rfl, rfl⟩)))))⟩
    | noReadAck hn => exact .inl ⟨hbuf, .inr (.inr (.inr (.inr (.inr (.inr (.inl ⟨hn, rfl, rfl⟩))))))⟩
    | noReadAddress hn => exact .inl ⟨hbuf, .inr (.inr (.inr (.inr (.inr (.inr (.inr ⟨hn, rfl, rfl⟩))))))⟩
    | noByte i hi => exact .inr ⟨got, hi, rfl, hbuf, rfl⟩

/-! ## DETECT -/

/-- The ways in which the probe of a candidate aborts a DETECT, with the class of each and the actions of that probe (R264,
R281). -/
inductive ProbeAborts (a : Byte) : FailKind → List Event → Prop where
  | busy : ProbeAborts a .busBusy []
  | noStart : ProbeAborts a .busSelect [.busStart, .busStop]
  | noAddress : ProbeAborts a .busSelect [.busStart, .busAddr (addr7 a) .write, .busStop]

/-- The candidates found by a scan with these acknowledges. -/
abbrev found (as : List Byte) (acks : List Bool) : List Byte := acknowledged ((candidates as).zip acks)

theorem found_sublist (as : List Byte) (acks : List Bool) : (found as acks).Sublist (candidates as) :=
  acknowledged_sublist _ _

theorem found_fits {as : List Byte} (hfits : payloadFits as = true) (acks : List Bool) :
    payloadFits (found as acks) = true :=
  decide_eq_true (Nat.le_trans (found_sublist as acks).length_le (candidates_length_le as hfits).2)

/-- Everything a DETECT can do: `u` is the state that the scan leaves. -/
theorem exec_detect_cases {as : List Byte} (hfits : payloadFits as = true) (s : State) :
    ∃ u es acks, ScanRun s u es ∧ u.ph.isTx = false ∧ pollCount es ≤ waitBound (.detect as) * s.params.tBus ∧
      u.buf = s.buf.writeRange 0 (found as acks) ∧ u.outCnt = countByte (found as acks) ∧
      (as = [] → u.scanIdx = s.scanIdx) ∧
      ((exec (.detect as) s = .next (u.succeed (countByte (found as acks))) ∧ acks.length = (candidates as).length ∧
          actions es = probesActions ((candidates as).zip acks)) ∨
       ∃ kind a rest acts, exec (.detect as) s = .next (u.raiseFailure kind) ∧
          (candidates as).drop acks.length = a :: rest ∧ ProbeAborts a kind acts ∧
          actions es = probesActions ((candidates as).zip acks) ++ acts) := by
  obtain ⟨u, es, acks, hrun, hph, hpolls, hbuf, hout, hidx, hcases⟩ := scanAll_cases as s hfits
  refine ⟨u, es, acks, hrun, hph, hpolls, hbuf, hout, hidx, ?_⟩
  rcases hcases with ⟨hscan, hlen, hacts⟩ | ⟨a, rest, hdrop, ⟨hscan, hacts⟩ | ⟨hscan, hacts | hacts⟩⟩
  · exact .inl ⟨by rw [exec_detect_of_scan_ok hfits hscan, hout]; rfl, hlen, hacts⟩
  · exact .inr ⟨_, a, rest, [], exec_detect_of_scan_timeout hfits hscan, hdrop, .busy, by rw [hacts, List.append_nil]⟩
  · exact .inr ⟨_, a, rest, _, exec_detect_of_scan_timeout hfits hscan, hdrop, .noStart, hacts⟩
  · exact .inr ⟨_, a, rest, _, exec_detect_of_scan_timeout hfits hscan, hdrop, .noAddress, hacts⟩

/-! ## The response that is then pending -/

/-- A failure leaves the one byte 0x00 to send (R153). -/
theorem pendingResponse_raiseFailure {s : State} (hph : s.ph.isTx = false) (kind : FailKind) :
    (s.raiseFailure kind).pendingResponse = some [0x00#8] := by
  have hbegin : (beginRespond (s.raiseFailure kind)).ph = .txFail := by
    simp [beginRespond_eq, hph]
  simp only [State.pendingResponse, hbegin, State.raiseFailure_st, if_true]

/-- A success leaves its payload, which stands in the buffer, to send. -/
theorem pendingResponse_succeed_writeRange {s : State} {m : Memory} {p : List Byte} (hfits : payloadFits p = true)
    (hph : s.ph.isTx = false) (hbuf : s.buf = m.writeRange 0 p) :
    (s.succeed (countByte p)).pendingResponse = some (countByte p :: p) :=
  pendingResponse_succeed hfits hph (by rw [hbuf, Memory.readRange_writeRange])

theorem State.busBytes_length (s : State) (n : Nat) : (s.busBytes n).length = n := by simp [State.busBytes]

theorem busBytes_fit (s : State) (n : Byte) : payloadFits (s.busBytes n.toNat) = true := by
  have hlt := n.isLt
  rw [payloadFits, State.busBytes_length, bufLen]
  exact decide_eq_true (by omega)

theorem countByte_busBytes (s : State) (n : Byte) : countByte (s.busBytes n.toNat) = n := by
  rw [countByte, State.busBytes_length, BitVec.ofNat_toNat, BitVec.setWidth_eq]

/-- Settles O24: the success, and each way in which a probe aborts the scan. -/
theorem detectTraces : Obligations.DetectTraces := by
  intro as s hfits
  obtain ⟨u, es, acks, hrun, hph, -, hbuf, hout, -, hcases⟩ := exec_detect_cases hfits s
  rcases hcases with ⟨hexec, hlen, hacts⟩ | ⟨kind, a, rest, acts, hexec, hdrop, habort, hacts⟩
  · exact ⟨_, es, acks, hexec, rfl, hrun.trace,
      pendingResponse_succeed_writeRange (found_fits hfits acks) hph hbuf,
      .inl ⟨rfl, hlen, hacts, hbuf, countByte_toNat (found_fits hfits acks), found_sublist as acks⟩⟩
  · refine ⟨_, es, acks, hexec, rfl, hrun.trace, pendingResponse_raiseFailure hph kind,
      .inr ⟨rfl, hrun.resLen, a, rest, hdrop, ?_⟩⟩
    rw [hacts]
    cases habort with
    | busy => exact .inl ⟨rfl, List.append_nil _⟩
    | noStart => exact .inr (.inl ⟨rfl, rfl⟩)
    | noAddress => exact .inr (.inr ⟨rfl, rfl⟩)

/-! ## ECHO and the unrecognized identifiers -/

/-- Settles O18. -/
theorem echoCompletes : Obligations.EchoCompletes := fun _ s hfits => exec_echo_of_fits hfits s

theorem exec_of_unrecognized {i : Instr} (h : recognized i = false) (s : State) :
    exec i s = .next (s.raiseFailure .unrecognizedId) := by
  cases i <;> first | rfl | cases h

/-- Settles O20: all six rows reject the identifier. -/
theorem unrecognizedFails : Obligations.UnrecognizedFails := fun _ s h => exec_of_unrecognized h s

/-- Settles O41, command by command. -/
theorem responsesOfCommands : Obligations.ResponsesOfCommands := by
  refine ⟨fun a r p s t hexec => ?_, fun a r n s t hexec => ?_, fun as s t hexec => ?_, fun p s t hexec hbuf => ?_,
    fun i s t hrec hph hexec => ?_⟩
  · obtain ⟨u, es, -, -, -, hph, -, ⟨hok, -⟩ | ⟨kind, hfail, -⟩⟩ := exec_write_cases (wf_of_exec_next hexec) a r s
    · rw [hok] at hexec
      cases hexec
      exact pendingResponse_succeed_writeRange (s := u.setBuf (s.buf.write 0 (countByte p))) (p := [countByte p]) rfl hph rfl
    · rw [hfail] at hexec
      cases hexec
      exact pendingResponse_raiseFailure hph kind
  · obtain ⟨u, es, -, hph, -, ⟨hok, hbuf, -⟩ | ⟨kind, got, hfail, -, -⟩⟩ := exec_read_cases a r n s
    · rw [hok] at hexec
      cases hexec
      have hpend := pendingResponse_succeed_writeRange (busBytes_fit s n) hph hbuf
      rwa [countByte_busBytes] at hpend
    · rw [hfail] at hexec
      cases hexec
      exact pendingResponse_raiseFailure hph kind
  · obtain ⟨u, es, acks, -, hph, -, hbuf, -, -, ⟨hok, -, -⟩ | ⟨kind, a, rest, acts, hfail, -⟩⟩ :=
      exec_detect_cases (wf_of_exec_next hexec) s
    · rw [hok] at hexec
      cases hexec
      exact ⟨found as acks, found_sublist as acks,
        pendingResponse_succeed_writeRange (found_fits (wf_of_exec_next hok) acks) hph hbuf⟩
    · rw [hfail] at hexec
      cases hexec
      exact ⟨[], List.nil_sublist _, pendingResponse_raiseFailure hph kind⟩
  · have hfits := wf_of_exec_next hexec
    rw [exec_echo_of_fits hfits] at hexec
    cases hexec
    exact pendingResponse_succeed (s := s.setPh .exLocal) hfits rfl hbuf
  · rw [exec_of_unrecognized hrec] at hexec
    cases hexec
    exact pendingResponse_raiseFailure hph _

end Sys2Proof.Machine
end

section
/-! What every instruction keeps: the promises to the bus and the ports, the command registers, the frames of the buffer,
the classes of its failures and the bound on its polls (R42, R183, R283, R346). -/

namespace Sys2Proof.Machine

/-! ## Promises that depend on the actions alone -/

/-- Polls release no bus. -/
theorem busReleased_actions (es tr : List Event) :
    busReleased (es.reverse ++ tr) = busReleased ((actions es).reverse ++ tr) := by
  suffices h : ∀ l : List Event, busReleased (l ++ tr) = busReleased (actions l ++ tr) by
    rw [h es.reverse, actions, actions, List.filter_reverse]
  intro l
  induction l with
  | nil => rfl
  | cons e l ih => cases e <;> first | rfl | exact ih

/-- Polls set no acknowledge mode. -/
theorem ackModeOf_actions (es tr : List Event) :
    ackModeOf (es.reverse ++ tr) = ackModeOf ((actions es).reverse ++ tr) := by
  suffices h : ∀ l : List Event, ackModeOf (l ++ tr) = ackModeOf (actions l ++ tr) by
    rw [h es.reverse, actions, actions, List.filter_reverse]
  intro l
  induction l with
  | nil => rfl
  | cons e l ih => cases e <;> first | rfl | exact ih

/-- Actions on the bus after which every start has its stop and the acknowledge mode rests where it rested (R179,
R183). -/
structure BusActs (acts : List Event) : Prop where
  bus : ∀ e ∈ acts, e.isBusAction = true
  released : ∀ tr, busReleased tr = true → busReleased (acts.reverse ++ tr) = true
  acked : ∀ tr, ackModeOf tr = some .current → ackModeOf (acts.reverse ++ tr) = some .current

theorem BusActs.nil : BusActs [] := ⟨by simp, fun _ h => h, fun _ h => h⟩

theorem BusActs.append {as bs : List Event} (h : BusActs as) (k : BusActs bs) : BusActs (as ++ bs) where
  bus := fun e he => (List.mem_append.1 he).elim (h.bus e) (k.bus e)
  released := fun tr htr => by
    rw [List.reverse_append, List.append_assoc]; exact k.released _ (h.released tr htr)
  acked := fun tr htr => by
    rw [List.reverse_append, List.append_assoc]; exact k.acked _ (h.acked tr htr)

/-- The actions on the bus that leave the acknowledge mode alone. -/
def Event.keepsAckMode (e : Event) : Bool := e.isBusAction && !(e matches .busAck _)

theorem ackModeOf_of_keepsAckMode {acts : List Event} (h : ∀ e ∈ acts, e.keepsAckMode = true) (tr : List Event) :
    ackModeOf (acts ++ tr) = ackModeOf tr := by
  induction acts with
  | nil => rfl
  | cons e acts ih =>
    have hrest := ih fun e' he' => h e' (List.mem_cons_of_mem _ he')
    have he := h e List.mem_cons_self
    cases e <;> first | exact hrest | cases he

/-- A transfer that ends with a stop and never turns the acknowledge off. -/
theorem BusActs.stopped {acts : List Event} (h : ∀ e ∈ acts, e.keepsAckMode = true) :
    BusActs (acts ++ [.busStop]) where
  bus := by
    intro e he
    rcases List.mem_append.1 he with he | he
    · have hkeep := h e he
      simp only [Event.keepsAckMode, Bool.and_eq_true] at hkeep
      exact hkeep.1
    · rw [List.mem_singleton.1 he]; rfl
  released := fun tr _ => by rw [List.reverse_append]; rfl
  acked := fun tr htr => by
    have hall : ∀ e ∈ (acts ++ [Event.busStop]).reverse, e.keepsAckMode = true := by
      intro e he
      rcases List.mem_append.1 (List.mem_reverse.1 he) with he | he
      · exact h e he
      · rw [List.mem_singleton.1 he]; rfl
    rw [ackModeOf_of_keepsAckMode hall, htr]

/-- A receive phase that ends with a stop, perhaps a last byte, and the acknowledge mode restored. -/
theorem BusActs.restored {acts last : List Event} (h : ∀ e ∈ acts, e.isBusAction = true)
    (hlast : last = [] ∨ ∃ b, last = [.busRecv b]) : BusActs (acts ++ .busStop :: last ++ [.busAck .current]) where
  bus := by
    rcases hlast with rfl | ⟨b, rfl⟩ <;> simpa [Event.isBusAction, or_imp, forall_and] using h
  released := fun tr _ => by rcases hlast with rfl | ⟨b, rfl⟩ <;> simp [busReleased]
  acked := fun tr _ => by simp [ackModeOf]

theorem WriteFails.busActs {a r : Byte} {p : List Byte} {kind : FailKind} {acts : List Event}
    (h : WriteFails a r p kind acts) : BusActs acts := by
  cases h with
  | busy => exact .nil
  | noStart => exact .stopped (acts := [.busStart]) (by decide)
  | noAck => exact .stopped (acts := [.busStart, .busAddr _ _, .busClearAF]) (by simp [Event.keepsAckMode, Event.isBusAction])
  | noAddress => exact .stopped (acts := [.busStart, .busAddr _ _]) (by simp [Event.keepsAckMode, Event.isBusAction])
  | noTransfer i hi =>
    refine .stopped fun e he => ?_
    simp only [List.mem_append, List.mem_cons, List.not_mem_nil, or_false, List.mem_map] at he
    rcases he with (rfl | rfl | rfl) | ⟨b, -, rfl⟩ <;> rfl

theorem busActs_writeDone (a r : Byte) (p : List Byte) :
    BusActs (pointerActions a r ++ p.map .busSend ++ [.busStop]) := by
  have h := (WriteFails.noTransfer (a := a) (r := r) (p := p) p.length (Nat.le_refl _)).busActs
  rwa [List.take_length] at h

theorem isBusAction_readActions (a r : Byte) (bs : List Byte) :
    ∀ e ∈ readActions a r ++ bs.map .busRecv, e.isBusAction = true := by
  intro e he
  simp only [List.mem_append, List.mem_cons, List.not_mem_nil, or_false, List.mem_map] at he
  rcases he with ((rfl | rfl | rfl) | (rfl | rfl)) | ⟨b, -, rfl⟩ <;> rfl

theorem ReadFails.busActs {a r n : Byte} {s : State} {got : Nat} {kind : FailKind} {acts : List Event}
    (h : ReadFails a r n s got kind acts) : BusActs acts := by
  cases h with
  | busy => exact .nil
  | noStart => exact .stopped (acts := [.busStart]) (by decide)
  | noAck => exact .stopped (acts := [.busStart, .busAddr _ _, .busClearAF]) (by simp [Event.keepsAckMode, Event.isBusAction])
  | noAddress => exact .stopped (acts := [.busStart, .busAddr _ _]) (by simp [Event.keepsAckMode, Event.isBusAction])
  | noPointer => exact .stopped (by simp [Event.keepsAckMode, Event.isBusAction])
  | noRestart hn =>
    exact .stopped (acts := pointerActions a r ++ [.busStart]) (by simp [Event.keepsAckMode, Event.isBusAction])
  | noReadAck hn =>
    exact .stopped (acts := readActions a r ++ [.busClearAF]) (by simp [Event.keepsAckMode, Event.isBusAction])
  | noReadAddress hn => exact .stopped (by simp [Event.keepsAckMode, Event.isBusAction])
  | noByte i hi =>
    split
    · have hacts := BusActs.restored (acts := readActions a r ++ (s.busBytes got).map .busRecv ++
        [.busAck .none, .busStop]) (last := []) (by simp [Event.isBusAction, or_imp, forall_and]) (.inl rfl)
      simpa using hacts
    · simpa using BusActs.restored (isBusAction_readActions a r (s.busBytes got)) (.inl rfl)

theorem busActs_readDone (a r n : Byte) (s : State) : BusActs (readDone a r n s) := by
  unfold readDone
  split
  · exact .stopped (by simp [Event.keepsAckMode, Event.isBusAction])
  · have hacts := BusActs.restored (acts := readActions a r ++ (s.busBytes (n.toNat - 1)).map .busRecv ++
      [.busAck .none]) (last := [.busRecv (s.busAhead (n.toNat - 1))])
      (by simp [Event.isBusAction, or_imp, forall_and]) (.inr ⟨_, rfl⟩)
    simpa using hacts

theorem busActs_probesActions (probed : List (Byte × Bool)) : BusActs (probesActions probed) := by
  induction probed with
  | nil => exact .nil
  | cons p rest ih =>
    obtain ⟨a, present⟩ := p
    refine BusActs.append ?_ ih
    cases present with
    | true => exact .stopped (acts := [.busStart, .busAddr _ _]) (by simp [Event.keepsAckMode, Event.isBusAction])
    | false =>
      exact .stopped (acts := [.busStart, .busAddr _ _, .busClearAF]) (by simp [Event.keepsAckMode, Event.isBusAction])

theorem ProbeAborts.busActs {a : Byte} {kind : FailKind} {acts : List Event} (h : ProbeAborts a kind acts) :
    BusActs acts := by
  cases h with
  | busy => exact .nil
  | noStart => exact .stopped (acts := [.busStart]) (by decide)
  | noAddress => exact .stopped (acts := [.busStart, .busAddr _ _]) (by simp [Event.keepsAckMode, Event.isBusAction])

/-! ## What every instruction keeps -/

/-- What Execute does between `s` and `t`, whatever the instruction and the environment. -/
structure ExecRun (i : Instr) (s t : State) (es : List Event) : Prop extends Ran s t es where
  st : t.st = .respond
  cmdId : t.cmdId = s.cmdId
  devAddr : t.devAddr = s.devAddr
  regPtr : t.regPtr = s.regPtr
  count : t.count = s.count
  params : t.params = s.params
  noTake : rxCountOf es = 0
  countdown : t.toCnt ≤ max s.toCnt s.params.tBus
  safe : ∀ tr, portsKept tr = true → portsKept (es.reverse ++ tr) = true
  acts : BusActs (actions es)
  bound : pollCount es ≤ waitBound i * s.params.tBus
  fails : t.resOk = false → ∃ kind, t.failKind = some kind ∧ mayFailWith i kind = true
  bufWf : s.buf.wf = true → t.buf.wf = true
  ph : recognized i = true → t.ph.isTx = false

theorem WriteFails.mayFail {a r : Byte} {p : List Byte} {kind : FailKind} {acts : List Event}
    (h : WriteFails a r p kind acts) : mayFailWith (.write a r p) kind = true := by cases h <;> rfl

theorem ReadFails.mayFail {a r n : Byte} {s : State} {got : Nat} {kind : FailKind} {acts : List Event}
    (h : ReadFails a r n s got kind acts) : mayFailWith (.read a r n) kind = true := by cases h <;> rfl

theorem ProbeAborts.mayFail {a : Byte} {kind : FailKind} {acts : List Event} (h : ProbeAborts a kind acts)
    (as : List Byte) : mayFailWith (.detect as) kind = true := by cases h <;> rfl

theorem Memory.writeRange_fits_wf {m : Memory} {p : List Byte} (hm : m.wf = true) (hfits : payloadFits p = true) :
    (m.writeRange 0 p).wf = true := Memory.writeRange_zero_wf m p (of_decide_eq_true hfits) hm

theorem busBytes_fit_of_le (s : State) {k : Nat} {n : Byte} (h : k ≤ n.toNat) : payloadFits (s.busBytes k) = true := by
  have hlt := n.isLt
  rw [payloadFits, State.busBytes_length, bufLen]
  exact decide_eq_true (by omega)

theorem exec_write_run {p : List Byte} (hfits : payloadFits p = true) (a r : Byte) (s : State) :
    ∃ t es, exec (.write a r p) s = .next t ∧ ExecRun (.write a r p) s t es := by
  obtain ⟨u, es, hrun, hbuf, -, hph, hpolls, ⟨hexec, hacts⟩ | ⟨kind, hexec, hfail⟩⟩ := exec_write_cases hfits a r s
  · exact ⟨_, es, hexec, hrun.toRan.of_eq rfl rfl rfl rfl, rfl, hrun.cmdId, hrun.devAddr, hrun.regPtr, hrun.count,
      hrun.params, hrun.noTake, hrun.countdown, hrun.safe, hacts ▸ busActs_writeDone a r p, hpolls, nofun,
      fun hwf => Memory.write_wf _ _ _ hwf (by decide), fun _ => hph⟩
  · exact ⟨_, es, hexec, hrun.toRan.of_eq rfl rfl rfl rfl, rfl, hrun.cmdId, hrun.devAddr, hrun.regPtr, hrun.count,
      hrun.params, hrun.noTake, hrun.countdown, hrun.safe, hfail.busActs, hpolls, fun _ => ⟨kind, rfl, hfail.mayFail⟩,
      fun hwf => hbuf.symm ▸ hwf, fun _ => hph⟩

theorem exec_read_run (a r n : Byte) (s : State) :
    ∃ t es, exec (.read a r n) s = .next t ∧ ExecRun (.read a r n) s t es := by
  obtain ⟨u, es, hrun, hph, hpolls, ⟨hexec, hbuf, hacts⟩ | ⟨kind, got, hexec, hbuf, hfail⟩⟩ := exec_read_cases a r n s
  · exact ⟨_, es, hexec, hrun.toRan.of_eq rfl rfl rfl rfl, rfl, hrun.cmdId, hrun.devAddr, hrun.regPtr, hrun.count,
      hrun.params, hrun.noTake, hrun.countdown, hrun.safe, hacts ▸ busActs_readDone a r n s, hpolls, nofun,
      fun hwf => hbuf.symm ▸ Memory.writeRange_fits_wf hwf (busBytes_fit s n), fun _ => hph⟩
  · exact ⟨_, es, hexec, hrun.toRan.of_eq rfl rfl rfl rfl, rfl, hrun.cmdId, hrun.devAddr, hrun.regPtr, hrun.count,
      hrun.params, hrun.noTake, hrun.countdown, hrun.safe, hfail.busActs, hpolls, fun _ => ⟨kind, rfl, hfail.mayFail⟩,
      fun hwf => hbuf.symm ▸ Memory.writeRange_fits_wf hwf (busBytes_fit_of_le s hfail.got_le), fun _ => hph⟩

theorem exec_detect_run {as : List Byte} (hfits : payloadFits as = true) (s : State) :
    ∃ t es, exec (.detect as) s = .next t ∧ ExecRun (.detect as) s t es := by
  obtain ⟨u, es, acks, hrun, hph, hpolls, hbuf, -, -, ⟨hexec, -, hacts⟩ | ⟨kind, a, rest, acts, hexec, -, habort, hacts⟩⟩ :=
    exec_detect_cases hfits s
  · exact ⟨_, es, hexec, hrun.toRan.of_eq rfl rfl rfl rfl, rfl, hrun.cmdId, hrun.devAddr, hrun.regPtr, hrun.count,
      hrun.params, hrun.noTake, hrun.countdown, hrun.safe, hacts ▸ busActs_probesActions _, hpolls, nofun,
      fun hwf => hbuf.symm ▸ Memory.writeRange_fits_wf hwf (found_fits hfits acks), fun _ => hph⟩
  · exact ⟨_, es, hexec, hrun.toRan.of_eq rfl rfl rfl rfl, rfl, hrun.cmdId, hrun.devAddr, hrun.regPtr, hrun.count,
      hrun.params, hrun.noTake, hrun.countdown, hrun.safe,
      hacts ▸ (busActs_probesActions _).append habort.busActs, hpolls, fun _ => ⟨kind, rfl, habort.mayFail as⟩,
      fun hwf => hbuf.symm ▸ Memory.writeRange_fits_wf hwf (found_fits hfits acks), fun _ => hph⟩

theorem exec_echo_run {p : List Byte} (hfits : payloadFits p = true) (s : State) :
    ∃ t es, exec (.echo p) s = .next t ∧ ExecRun (.echo p) s t es :=
  ⟨_, [], exec_echo_of_fits hfits s, (Ran.refl s).of_eq rfl rfl rfl rfl, rfl, rfl, rfl, rfl, rfl, rfl, rfl,
    Nat.le_max_left _ _, fun _ h => h, .nil, Nat.zero_le _, nofun, fun hwf => hwf, fun _ => rfl⟩

theorem mayFailWith_unrecognizedId {i : Instr} (h : recognized i = false) :
    mayFailWith i .unrecognizedId = true := by
  cases i <;> first | rfl | cases h

theorem exec_unrecognized_run {i : Instr} (h : recognized i = false) (s : State) :
    ∃ t es, exec i s = .next t ∧ ExecRun i s t es :=
  ⟨_, [], exec_of_unrecognized h s, (Ran.refl s).of_eq rfl rfl rfl rfl, rfl, rfl, rfl, rfl, rfl, rfl, rfl,
    Nat.le_max_left _ _, fun _ h => h, .nil, Nat.zero_le _, fun _ => ⟨_, rfl, mayFailWith_unrecognizedId h⟩,
    fun hwf => hwf, fun hrec => absurd hrec (by rw [h]; decide)⟩

/-- Every well-formed instruction answers a next state, reached as `ExecRun` says. -/
theorem exec_run {i : Instr} (hwf : i.wf = true) (s : State) : ∃ t es, exec i s = .next t ∧ ExecRun i s t es := by
  cases hrec : recognized i with
  | false => exact exec_unrecognized_run hrec s
  | true =>
    cases i with
    | write a r p => exact exec_write_run hwf a r s
    | read a r n => exact exec_read_run a r n s
    | detect as => exact exec_detect_run hwf s
    | echo p => exact exec_echo_run hwf s
    | _ => cases hrec

theorem exec_run_of_next {i : Instr} {s t : State} (h : exec i s = .next t) : ∃ es, ExecRun i s t es := by
  obtain ⟨u, es, hexec, hrun⟩ := exec_run (wf_of_exec_next h) s
  rw [hexec] at h
  cases h
  exact ⟨es, hrun⟩

/-- Settles O27. -/
theorem execKeepsCommandRegisters : Obligations.ExecKeepsCommandRegisters := by
  intro i s hwf
  obtain ⟨t, es, hexec, hrun⟩ := exec_run hwf s
  have hrx : t.rx = s.rx := by rw [hrun.rx, hrun.noTake, Feed.advance_zero]
  exact ⟨t, hexec, hrun.st, hrun.cmdId, hrun.devAddr, hrun.regPtr, hrun.count, hrun.params, hrx,
    by rw [hrun.eventsSince, hrun.polls]⟩

/-- Settles O29. -/
theorem failureClassesOfCommands : Obligations.FailureClassesOfCommands := by
  intro i s t hexec hres
  obtain ⟨es, hrun⟩ := exec_run_of_next hexec
  exact hrun.fails hres

/-- Settles O30. -/
theorem execPollBounds : Obligations.ExecPollBounds := by
  intro i s t hexec
  obtain ⟨es, hrun⟩ := exec_run_of_next hexec
  rw [hrun.eventsSince]
  exact hrun.bound

/-! ## Frames -/

theorem exec_write_frame {a r : Byte} {p : List Byte} {s t : State} (hexec : exec (.write a r p) s = .next t) :
    (∀ k, (t.resOk = true → k ≠ 0) → t.buf.read k = s.buf.read k) ∧
      t.scanIdx = s.scanIdx ∧ t.scanAddr = s.scanAddr ∧ t.outCnt = s.outCnt ∧ t.busRx = s.busRx := by
  obtain ⟨u, es, hrun, hbuf, hbus, -, -, ⟨hok, -⟩ | ⟨kind, hfail, -⟩⟩ :=
    exec_write_cases (wf_of_exec_next hexec) a r s
  · rw [hok] at hexec
    cases hexec
    exact ⟨fun k hk => Memory.read_write_ne _ _ (hk rfl), hrun.scanIdx, hrun.scanAddr, hrun.outCnt, hbus⟩
  · rw [hfail] at hexec
    cases hexec
    exact ⟨fun k _ => by rw [State.raiseFailure_buf, hbuf], hrun.scanIdx, hrun.scanAddr, hrun.outCnt, hbus⟩

theorem exec_read_frame {a r n : Byte} {s t : State} (hexec : exec (.read a r n) s = .next t) :
    (∀ k, n.toNat ≤ k → t.buf.read k = s.buf.read k) ∧
      t.scanIdx = s.scanIdx ∧ t.scanAddr = s.scanAddr ∧ t.outCnt = s.outCnt := by
  have houtside : ∀ (m : Nat), m ≤ n.toNat → ∀ k, n.toNat ≤ k →
      (s.buf.writeRange 0 (s.busBytes m)).read k = s.buf.read k := fun m hm k hk =>
    Memory.read_writeRange_outside _ _ _ _ (.inr (by rw [State.busBytes_length]; omega))
  obtain ⟨u, es, hrun, -, -, ⟨hok, hbuf, -⟩ | ⟨kind, got, hfail, hbuf, hways⟩⟩ := exec_read_cases a r n s
  · rw [hok] at hexec
    cases hexec
    exact ⟨fun k hk => by rw [State.succeed_buf, hbuf, houtside _ (Nat.le_refl _) k hk], hrun.scanIdx, hrun.scanAddr,
      hrun.outCnt⟩
  · rw [hfail] at hexec
    cases hexec
    exact ⟨fun k hk => by rw [State.raiseFailure_buf, hbuf, houtside _ hways.got_le k hk], hrun.scanIdx, hrun.scanAddr,
      hrun.outCnt⟩

theorem exec_detect_frame {as : List Byte} {s t : State} (hexec : exec (.detect as) s = .next t) :
    (∀ k, t.outCnt.toNat ≤ k → t.buf.read k = s.buf.read k) ∧
      t.idx = s.idx ∧ t.busRx = s.busRx ∧ (as = [] → t.scanIdx = s.scanIdx) := by
  have hfits := wf_of_exec_next hexec
  obtain ⟨u, es, acks, hrun, -, -, hbuf, hout, hidx, hcases⟩ := exec_detect_cases hfits s
  have houtside : ∀ k, u.outCnt.toNat ≤ k → u.buf.read k = s.buf.read k := fun k hk => by
    rw [hout, countByte_toNat (found_fits hfits acks)] at hk
    rw [hbuf, Memory.read_writeRange_outside _ _ _ _ (.inr (by omega))]
  rcases hcases with ⟨hok, -, -⟩ | ⟨kind, a, rest, acts, hfail, -⟩
  · rw [hok] at hexec
    cases hexec
    exact ⟨houtside, hrun.idx, hrun.busKept, hidx⟩
  · rw [hfail] at hexec
    cases hexec
    exact ⟨houtside, hrun.idx, hrun.busKept, hidx⟩

/-- Settles O28, command by command. -/
theorem execFrames : Obligations.ExecFrames := by
  refine ⟨fun a r p s t => exec_write_frame, fun a r n s t => exec_read_frame, fun as s t => exec_detect_frame,
    fun i s t hi hexec => ?_⟩
  rcases hi with ⟨p, rfl⟩ | hrec
  · rw [exec_echo_of_fits (wf_of_exec_next hexec)] at hexec
    cases hexec
    exact ⟨rfl, rfl, rfl, rfl, rfl, rfl, rfl, rfl⟩
  · rw [exec_of_unrecognized hrec] at hexec
    cases hexec
    exact ⟨rfl, rfl, rfl, rfl, rfl, rfl, rfl, rfl⟩

/-! ## The fetch -/

theorem holdInstr_of_unrecognized {i : Instr} (h : recognized i = false) (s : State) :
    s.holdInstr i = s.setCmdId i.idByte := by
  cases i <;> first | rfl | cases h

/-- An identifier that no command has is a frame of its own (R92, R101). -/
theorem heldFrame_of_unrecognized {i : Instr} (h : recognized i = false) (s : State) :
    (s.holdInstr i).heldFrame = some (encode i) := by
  have hid := (readsBack_of_unrecognized h).1
  have hne : ∀ y : Byte, y.toNat < 4 → i.idByte ≠ y := fun y hy e => by rw [e] at hid; omega
  rw [holdInstr_of_unrecognized h, State.heldFrame, encode, operandBytes_of_unrecognized h, State.setCmdId_cmdId,
    if_neg (hne _ (by decide)), if_neg (hne _ (by decide)),
    if_neg (not_or.2 ⟨hne _ (by decide), hne _ (by decide)⟩)]

/-- Settles O31, row by row: what is loaded is what the layout of the row reads back. -/
theorem heldFrameIsEncoding : Obligations.HeldFrameIsEncoding := by
  intro i s hwf
  cases i with
  | write a r p =>
    exact State.heldFrame_write (t := s.holdInstr (.write a r p)) rfl (countByte_toNat hwf)
      (Memory.readRange_writeRange _ _ _)
  | read a r n => exact State.heldFrame_read (t := s.holdInstr (.read a r n)) rfl
  | detect as =>
    exact State.heldFrame_detect (t := s.holdInstr (.detect as)) rfl (countByte_toNat hwf)
      (Memory.readRange_writeRange _ _ _)
  | echo p =>
    exact State.heldFrame_echo (t := s.holdInstr (.echo p)) rfl (countByte_toNat hwf)
      (Memory.readRange_writeRange _ _ _)
  | unrec04 low => exact heldFrame_of_unrecognized rfl s
  | unrec08 low => exact heldFrame_of_unrecognized rfl s
  | unrec10 low => exact heldFrame_of_unrecognized rfl s
  | unrec20 low => exact heldFrame_of_unrecognized rfl s
  | unrec40 low => exact heldFrame_of_unrecognized rfl s
  | unrec80 low => exact heldFrame_of_unrecognized rfl s

/-- A step in Execute runs the instruction whose frame is held (R223). -/
theorem step_of_execute {s : State} {bs rest : List Byte} {i : Instr} (hst : s.st = .execute)
    (hheld : s.heldFrame = some bs) (hdec : decode bs = .ok (i, rest)) : step s = exec i s := by
  simp only [step, hst, executeHeld, fetchInstr, hheld, hdec]

theorem step_of_held {s : State} {i : Instr} (hst : s.st = .execute) (hwf : i.wf = true)
    (hheld : s.heldFrame = some (encode i)) : step s = exec i s :=
  step_of_execute hst hheld (rest := []) (by simpa using decodeOfEncode i [] hwf)

theorem decodeTableWord_wf {nbits w : Nat} {i : Instr} (h : decodeTableWord nbits w = some i) : i.wf = true := by
  unfold decodeTableWord at h
  split at h
  · rename_i j rest hdec
    cases h
    exact (encodeOfDecode _ _ _ hdec).1
  · cases h

/-- Settles O32: a word is placed as the frame that the step fetches. -/
theorem stepRunsTheHeldInstruction : Obligations.StepRunsTheHeldInstruction := by
  refine ⟨fun s bs rest i => step_of_execute, fun s nbits w i hword => ?_⟩
  have hwf := decodeTableWord_wf hword
  have hplaced : s.withFetchWord nbits w = (s.holdInstr i).setSt .execute := by
    simp only [State.withFetchWord, State.withTableWord, hword]
  rw [hplaced]
  exact step_of_held rfl hwf (heldFrameIsEncoding i s hwf)

end Sys2Proof.Machine
end

section
/-! A step in Receive (R120 to R131): everything it can do, and the steps in which no byte comes or the first byte is no
command. -/

namespace Sys2Proof.Machine

theorem step_of_receive {s : State} (hst : s.st = .receive) : step s = .next (receive s) := by rw [step, hst]

/-- The state in which a step in Receive begins its first wait (R121, R282). -/
abbrev State.openFrame (s : State) : State := (s.setPh .rxId).setFailKind none

theorem receive_of_bounded {s : State} (hb : s.params.idWaitBounded = true) :
    receive s = receiveBounded s.openFrame := if_pos hb

theorem receive_of_unbounded {s : State} (hb : s.params.idWaitBounded = false) :
    receive s = receiveUnbounded s.openFrame := if_neg (by simp [hb])

theorem State.rxTaken_eq (s : State) :
    s.rxTaken = { s with rx := s.rx.advance 1, trace := .rxTake (s.rxAhead 0) :: s.trace } := by
  rw [← Feed.rest_eq_advance, ← State.rxAnswer_eq]
  rfl

/-! ## Everything a step in Receive can do -/

theorem Taken.setCmdId (s : State) (x : Byte) : Taken s (s.setCmdId x) [] 0 0 :=
  ⟨(RxRun.refl s).write rfl, rfl, by simp, by simp⟩

/-- How the decode sequence from the identifier `x` on ends, `v` being the state before its end: the frame is whole, or
it failed. -/
inductive Parsed (x : Byte) (s v : State) (n : Nat) : Prop where
  | frame (i : Instr) (eq : parseFrom x s = v.setSt .execute) (wf : i.wf = true) (rec : recognized i = true)
      (held : v.heldFrame = some (encode i)) (bytes : x :: s.rxBytes n = encode i)
  | failed (kind : FailKind) (which : kind = .framing ∨ kind = .unrecognizedId) (eq : parseFrom x s = v.raiseFailure kind)

/-- The decode sequence up to the end of the operands of a command. -/
theorem parseFrom_of_operands {x : Byte} {s : State} {r : RxResult} (hparse : parseFrom x s = rxFinish r)
    (hops : ∃ t es n, OperandsTaken (s.setCmdId x) r t es n) :
    ∃ v es n, Taken s v es n 258 ∧ (s.buf.wf = true → v.buf.wf = true) ∧ v.ph.isTx = false ∧ Parsed x s v n := by
  obtain ⟨t, es, n, hops⟩ := hops
  refine ⟨t, es, n, by simpa using (Taken.setCmdId s x).trans hops.tk, hops.wf, hops.ph, ?_⟩
  rcases hops.res with ⟨hr, i, hwf, hrec, hheld, hbytes⟩ | hr
  · exact .frame i (by rw [hparse, hr]; rfl) hwf hrec hheld hbytes
  · exact .failed .framing (.inl rfl) (by rw [hparse, hr]; rfl)

/-- Everything the decode sequence can do from its identifier on (R121 to R128). -/
theorem parseFrom_cases (x : Byte) (s : State) (hph : s.ph.isTx = false) :
    ∃ v es n, Taken s v es n 258 ∧ (s.buf.wf = true → v.buf.wf = true) ∧ v.ph.isTx = false ∧ Parsed x s v n := by
  by_cases h0 : x = 0x00#8
  · exact parseFrom_of_operands (if_pos h0) (rxWrite_cases (s.setCmdId x) h0)
  by_cases h1 : x = 0x01#8
  · exact parseFrom_of_operands (by rw [parseFrom, if_neg h0, if_pos h1]) (rxRead_cases (s.setCmdId x) h1)
  by_cases h2 : x = 0x02#8
  · exact parseFrom_of_operands (by rw [parseFrom, if_neg h0, if_neg h1, if_pos h2]) (rxDetect_cases (s.setCmdId x) h2)
  by_cases h3 : x = 0x03#8
  · exact parseFrom_of_operands (by rw [parseFrom, if_neg h0, if_neg h1, if_neg h2, if_pos h3])
      (rxEcho_cases (s.setCmdId x) h3)
  · refine ⟨s.setCmdId x, [], 0, (Taken.setCmdId s x).mono (Nat.zero_le _), fun h => h, hph,
      .failed .unrecognizedId (.inr rfl) ?_⟩
    rw [parseFrom, if_neg h0, if_neg h1, if_neg h2, if_neg h3, rejectIdentifier]

/-- What every step in Receive keeps. -/
structure ReceiveRun (s t : State) (es : List Event) : Prop extends Ran s t es where
  resLen : t.resLen = s.resLen
  scanIdx : t.scanIdx = s.scanIdx
  scanAddr : t.scanAddr = s.scanAddr
  outCnt : t.outCnt = s.outCnt
  params : t.params = s.params
  busKept : t.busRx = s.busRx
  countdown : t.toCnt ≤ max s.toCnt s.params.tRx
  only : ∀ e ∈ es, isRxEvent e = true
  safe : ∀ tr, portsKept tr = true → portsKept (es.reverse ++ tr) = true
  bound : pollCount es ≤ longestFrame * s.params.tRx
  bufWf : s.buf.wf = true → t.buf.wf = true
  ph : t.ph.isTx = false

/-- How a step in Receive ends: with a frame for Execute, with a failure, or in the wait that has no bound. -/
inductive Received (s t : State) (es : List Event) : Prop where
  | frame (i : Instr) (st : t.st = .execute) (wf : i.wf = true) (rec : recognized i = true)
      (held : t.heldFrame = some (encode i)) (acts : actions es = (encode i).map .rxTake)
      (bytes : s.rxBytes (encode i).length = encode i) (taken : t.rx = s.rx.advance (encode i).length)
  | failed (st : t.st = .respond) (resOk : t.resOk = false)
      (kind : t.failKind = some .framing ∨ t.failKind = some .unrecognizedId)
  | waiting (st : t.st = s.st) (unbounded : s.params.idWaitBounded = false)
      (silent : (s.pollAhead 0).rxReady = false) (es_eq : es = [.poll (s.pollAhead 0)])

/-- A step in Receive, up to its end, as a run of the parser from its first wait. -/
theorem ReceiveRun.of_rxRun {s v t : State} {es : List Event} (h : RxRun s.openFrame v es)
    (hbound : pollCount es ≤ longestFrame * s.params.tRx) (hwf : s.buf.wf = true → v.buf.wf = true)
    (hph : v.ph.isTx = false) (ht : t = { v with st := t.st, resOk := t.resOk, failKind := t.failKind }) :
    ReceiveRun s t es := by
  have hran : Ran s v es := by simpa using ((Ran.refl s).of_eq (u := s.openFrame) rfl rfl rfl rfl).trans h.toRan
  rw [ht]
  exact ⟨hran.of_eq rfl rfl rfl rfl, h.resLen, h.scanIdx, h.scanAddr, h.outCnt, h.params, h.busKept, h.countdown, h.only,
    h.safe, hbound, hwf, hph⟩

/-- The first byte of a frame, taken within one budget, and everything the decode sequence can do with it. -/
theorem receive_of_taken {s u : State} {es : List Event} (h : Taken s.openFrame u es 1 1) (hph : u.ph.isTx = false)
    (hwf : s.buf.wf = true → u.buf.wf = true) :
    ∃ fs, ReceiveRun s (parseFrom (s.rxAhead 0) u) fs ∧ Received s (parseFrom (s.rxAhead 0) u) fs := by
  obtain ⟨v, fs, n, htk, hvwf, hvph, hend⟩ := parseFrom_cases (s.rxAhead 0) u hph
  have hall := h.trans htk
  have hbytes : s.rxBytes (1 + n) = s.rxAhead 0 :: u.rxBytes n := State.rxBytes_add (s := s.openFrame) h.rx n
  have hrun : ∀ t, t = { v with st := t.st, resOk := t.resOk, failKind := t.failKind } → ReceiveRun s t (es ++ fs) :=
    fun t ht => .of_rxRun hall.run hall.bound (fun hw => hvwf (hwf hw)) hvph ht
  refine ⟨es ++ fs, ?_⟩
  rcases hend with ⟨i, hparse, hiwf, hrec, hheld, henc⟩ | ⟨kind, hkind, hparse⟩
  · have hlen : (encode i).length = 1 + n := by
      rw [← henc, List.length_cons, State.rxBytes_length, Nat.add_comm]
    rw [hparse]
    refine ⟨hrun _ rfl, .frame i rfl hiwf hrec hheld ?_ ?_ ?_⟩
    · rw [← henc, ← hbytes]; exact hall.acts
    · rw [hlen, hbytes, henc]
    · rw [hlen]; exact hall.rx
  · rw [hparse]
    exact ⟨hrun _ rfl, .failed rfl rfl (hkind.imp (congrArg some) (congrArg some))⟩

theorem Taken.byte {s : State} {n k : Nat} (hn : n < s.params.tRx) (hk : k ≤ s.params.tRx)
    (h : (s.pollAhead n).rxReady = true) :
    Taken s (s.waited (n + 1) k).rxTaken (s.pollEvents (n + 1) ++ [.rxTake (s.rxAhead 0)]) 1 1 where
  run := RxRun.taken s n k hk h
  acts := by rw [actions_append, actions_pollEvents]; rfl
  rx := by simp [Feed.rest_eq_advance]
  bound := by simp [pollCount_cons, Event.polls]; omega

/-- One poll that shows a byte, and that byte, without a countdown (R129). -/
theorem Taken.byte_unbounded {s : State} (h : s.pollAnswer.rxReady = true) :
    Taken s s.polled.rxTaken ([.poll s.pollAnswer] ++ [.rxTake (s.rxAhead 0)]) 1 1 := by
  have hanswer : s.polled.rxAnswer = s.rxAhead 0 := State.rxAnswer_eq _
  have hran : Ran s s.polled.rxTaken ([.poll s.pollAnswer] ++ [.rxTake (s.rxAhead 0)]) := by
    rw [← hanswer]
    exact (Ran.polled s).trans (Ran.rxTaken s.polled)
  refine ⟨⟨hran, by simp, by simp, by simp, by simp, by simp, by simp, by simp, by simp, by simp, by simp, ?_,
    fun tr htr => ?_⟩, ?_, ?_, ?_⟩
  · simp [isRxEvent]
  · simpa [portsKept, afterPoll, h] using htr
  · simp [actions, State.rxBytes_one]
  · simp [Feed.rest_eq_advance]
  · have hT := Params.tRx_pos s.params
    simpa [pollCount_cons, Event.polls] using hT

/-- Everything a step in Receive can do. -/
theorem receive_cases (s : State) : ∃ es, ReceiveRun s (receive s) es ∧ Received s (receive s) es := by
  have hone : 1 ≤ longestFrame := by decide
  cases hb : s.params.idWaitBounded with
  | true =>
    rw [receive_of_bounded hb]
    rcases rxByte_cases s.openFrame with ⟨n, hn, hready, hbyte⟩ | ⟨-, hbyte⟩
    · have hrec : receiveBounded s.openFrame =
          parseFrom (s.rxAhead 0) (s.openFrame.waited (n + 1) (s.params.tRx - n)).rxTaken := by
        rw [receiveBounded, hbyte]; rfl
      rw [hrec]
      exact receive_of_taken (Taken.byte hn (Nat.sub_le _ _) hready) rfl fun h => h
    · have hrec : receiveBounded s.openFrame = (s.openFrame.waited s.params.tRx 0).raiseFailure .framing := by
        rw [receiveBounded, hbyte]; rfl
      rw [hrec]
      refine ⟨s.openFrame.pollEvents s.params.tRx, ?_, .failed rfl rfl (.inl rfl)⟩
      refine .of_rxRun (RxRun.waited s.openFrame _ 0 (Nat.zero_le _)) ?_ (fun h => h) rfl rfl
      rw [pollCount_pollEvents]
      exact Nat.le_mul_of_pos_left _ hone
  | false =>
    rw [receive_of_unbounded hb, receiveUnbounded]
    split
    · rename_i hready
      have hanswer : s.openFrame.polled.rxAnswer = s.rxAhead 0 := State.rxAnswer_eq _
      rw [hanswer]
      exact receive_of_taken (Taken.byte_unbounded hready) rfl fun h => h
    · rename_i hsilent
      have hanswer : s.openFrame.pollAnswer = s.pollAhead 0 := State.pollAnswer_eq _
      have hrun : RxRun s.openFrame s.openFrame.polled [.poll s.openFrame.pollAnswer] :=
        ⟨Ran.polled _, rfl, rfl, rfl, rfl, rfl, rfl, rfl, rfl, rfl, Nat.le_max_left _ _, by simp [isRxEvent],
          fun tr htr => htr⟩
      refine ⟨_, .of_rxRun hrun ?_ (fun h => h) rfl rfl, .waiting rfl hb ?_ (by rw [hanswer])⟩
      · exact Nat.mul_pos hone (Params.tRx_pos _)
      · rw [← hanswer]; simpa using hsilent

/-- Settles O40. -/
theorem receiveOnlyTakesBytes : Obligations.ReceiveOnlyTakesBytes := by
  intro s t hst hstep
  rw [step_of_receive hst] at hstep
  cases hstep
  obtain ⟨es, hrun, -⟩ := receive_cases s
  rw [hrun.eventsSince]
  refine ⟨fun e he => ?_, hrun.trace, hrun.bound⟩
  have hrx := hrun.only e he
  cases e with
  | poll f => exact .inr ⟨f, rfl⟩
  | rxTake x => exact .inl ⟨x, rfl⟩
  | _ => cases hrx

/-! ## No byte, or a byte that is no command -/

/-- Settles O37: the identifier wait expires, and that is the failure. -/
theorem silentHostExpiresIdentifierWait : Obligations.SilentHostExpiresIdentifierWait := by
  intro s hst hb hsilent
  have hbyte : rxByte s.openFrame = (none, s.openFrame.waited s.params.tRx 0) :=
    rxByte_expires (s := s.openFrame) ((State.undecided_iff _ _ _ _ _).2 fun j hj => by
      rw [Nat.zero_add]
      exact (Bool.or_false _).trans (hsilent j hj))
  rw [step_of_receive hst, receive_of_bounded hb, receiveBounded, hbyte]
  rfl

/-- Settles O38: one poll, and the wait goes on. -/
theorem silentHostIsAwaited : Obligations.SilentHostIsAwaited := by
  intro s hst hb hsilent
  have hanswer : s.openFrame.pollAnswer = s.pollAhead 0 := State.pollAnswer_eq _
  rw [step_of_receive hst, receive_of_unbounded hb, receiveUnbounded, hanswer, hsilent, State.polled_eq_waited]
  rfl

theorem parseFrom_of_unrecognized {i : Instr} (h : recognized i = false) (s : State) :
    parseFrom i.idByte s = (s.setCmdId i.idByte).raiseFailure .unrecognizedId := by
  have hid := (readsBack_of_unrecognized h).1
  have hne : ∀ y : Byte, y.toNat < 4 → i.idByte ≠ y := fun y hy e => by rw [e] at hid; omega
  rw [parseFrom, if_neg (hne _ (by decide)), if_neg (hne _ (by decide)), if_neg (hne _ (by decide)),
    if_neg (hne _ (by decide)), rejectIdentifier]

/-- What the first byte of a frame leaves when it comes at poll `k`: the countdown runs in a bounded wait only. -/
def State.firstTaken (s : State) (k : Nat) : State := { s with
  ph := .rxId, failKind := none
  toCnt := (if s.params.idWaitBounded then s.params.tRx - k else s.toCnt)
  polls := s.polls.advance (k + 1), rx := s.rx.advance 1
  trace := .rxTake (s.rxAhead 0) :: ((s.pollEvents (k + 1)).reverse ++ s.trace) }

/-- A step in Receive whose first byte comes at poll `k` of its wait. -/
theorem receive_of_first {s : State} {k : Nat} (h : s.rxComesFrom 0 [k] = true)
    (hk : s.params.idWaitBounded = false → k = 0) : receive s = parseFrom (s.rxAhead 0) (s.firstTaken k) := by
  cases hb : s.params.idWaitBounded with
  | true =>
    have hbyte : rxByte s.openFrame =
        (some (s.rxAhead 0), (s.openFrame.waited (k + 1) (s.params.tRx - k)).rxTaken) := rxByte_comes (s := s.openFrame) h
    rw [receive_of_bounded hb, receiveBounded, hbyte, State.rxTaken_eq]
    simp only [State.firstTaken, hb, if_true]
    rfl
  | false =>
    obtain rfl := hk hb
    simp only [State.rxComesFrom, Bool.and_true, Bool.and_eq_true, Nat.add_zero] at h
    have hanswer : s.openFrame.pollAnswer = s.pollAhead 0 := State.pollAnswer_eq _
    have hbyte : s.openFrame.polled.rxAnswer = s.rxAhead 0 := State.rxAnswer_eq _
    rw [receive_of_unbounded hb, receiveUnbounded, hanswer, if_pos h.2, hbyte, State.rxTaken_eq, State.polled_eq_waited]
    simp only [State.firstTaken, hb, Bool.false_eq_true, if_false]
    rfl

/-- Settles O39: the decode sequence rejects the identifier as the instruction of its row does. -/
theorem receiveRejectsIdentifier : Obligations.ReceiveRejectsIdentifier := by
  intro i k s hst hrec hcomes hk hid
  rw [step_of_receive hst, receive_of_first hcomes hk, hid, parseFrom_of_unrecognized hrec, exec_of_unrecognized hrec,
    State.firstTaken, hid]
  rfl

end Sys2Proof.Machine
end

section
/-! A step in Respond (R150 to R155): the byte that the serializer stands at, the poll that leaves it waiting, the poll that
puts it, and the end of the payload. -/

namespace Sys2Proof.Machine

/-! ## Where the serializer stands -/

/-- The serializer is always at the length, in the payload, or at the failure byte (R151). -/
theorem beginRespond_ph_cases (s : State) :
    (beginRespond s).ph = .txLen ∨ (s.ph = .txData ∧ beginRespond s = s) ∨ (beginRespond s).ph = .txFail := by
  by_cases htx : s.ph.isTx = true
  · have hbegun : beginRespond s = s := if_pos htx
    rw [hbegun]
    revert htx
    cases s.ph <;> simp [Phase.isTx]
  · rw [beginRespond, if_neg htx]
    cases s.resOk
    · exact .inr (.inr rfl)
    · exact .inl rfl

theorem beginRespond_of_txData {s : State} (hph : s.ph = .txData) : beginRespond s = s := by
  rw [beginRespond, hph]; rfl

/-- The byte that the serializer stands at: the length, a byte of the payload, or the failure byte (R151). -/
inductive Stands (s : State) : Byte → Prop where
  | len (hph : (beginRespond s).ph = .txLen) : Stands s s.resLen
  | data (b : Byte) (hph : s.ph = .txData) (hne : s.idx ≠ s.resLen) (hload : s.bufLoad s.idx.toNat = .ok b) : Stands s b
  | fail (hph : (beginRespond s).ph = .txFail) : Stands s 0x00#8

/-- The state after a poll that shows no readiness: it is recorded, and the wait has begun (R150). -/
def State.txWait (s : State) : State := { s with
  ph := (if s.ph.isTx then s.ph else if s.resOk then .txLen else .txFail)
  polls := s.polls.advance 1, trace := .poll (s.pollAhead 0) :: s.trace }

/-- The state after a poll that shows readiness and the `TxPut` that follows it (R150, R151). -/
def State.txPut (s : State) (b : Byte) : State := { s with
  st := (if (beginRespond s).ph = .txFail then .receive else .respond)
  ph := (if (beginRespond s).ph = .txFail then .txFail else .txData)
  idx := (match (beginRespond s).ph with | .txLen => 0#8 | .txData => s.idx + 1#8 | _ => s.idx)
  polls := s.polls.advance 1
  trace := .txPut b :: .poll (s.pollAhead 0) :: s.trace }

theorem txPut_of_txLen {s : State} (hst : s.st = .respond) (hph : (beginRespond s).ph = .txLen) (b : Byte) :
    s.txPut b = { s with
      ph := .txData, idx := 0#8, polls := s.polls.advance 1, trace := .txPut b :: .poll (s.pollAhead 0) :: s.trace } := by
  simp [State.txPut, hph, hst]

theorem txPut_of_txData {s : State} (hst : s.st = .respond) (hph : s.ph = .txData) (b : Byte) :
    s.txPut b = { s with
      idx := s.idx + 1#8, polls := s.polls.advance 1, trace := .txPut b :: .poll (s.pollAhead 0) :: s.trace } := by
  simp [State.txPut, beginRespond_of_txData hph, hph, hst]

theorem txPut_of_txFail {s : State} (hph : (beginRespond s).ph = .txFail) (b : Byte) :
    s.txPut b = { s with
      st := .receive, ph := .txFail, polls := s.polls.advance 1
      trace := .txPut b :: .poll (s.pollAhead 0) :: s.trace } := by
  simp [State.txPut, hph]

theorem txPoll_of_unready {s : State} (b : Byte) (goOn : State → State) (hunready : (s.pollAhead 0).txReady = false) :
    txPoll b goOn s = s.polled := by
  rw [← State.pollAnswer_eq] at hunready
  exact if_neg (by simp [hunready])

theorem respond_of_txLen {s : State} (hph : (beginRespond s).ph = .txLen) :
    respond s = .next (txPoll s.resLen beginData (beginRespond s)) := by
  have hlen : (beginRespond s).resLen = s.resLen := by rw [beginRespond_eq]
  rw [respond, hph, hlen]

theorem respond_of_txData {s : State} (hph : s.ph = .txData) : respond s = respondData s := by
  rw [respond, beginRespond_of_txData hph, hph]

theorem respond_of_data {s : State} {b : Byte} (hph : s.ph = .txData) (hne : s.idx ≠ s.resLen)
    (hload : s.bufLoad s.idx.toNat = .ok b) : respond s = .next (txPoll b (fun t => t.setIdx (t.idx + 1#8)) s) := by
  rw [respond_of_txData hph, respondData, if_neg hne, hload]

theorem respond_of_end {s : State} (hph : s.ph = .txData) (hend : s.idx = s.resLen) :
    respond s = .next s.returnToReceive := by
  rw [respond_of_txData hph, respondData, if_pos hend]

theorem txWait_eq (s : State) : s.txWait = (beginRespond s).polled := by
  rw [State.polled_eq, beginRespond_eq]
  rfl

/-- A transport that is not ready leaves the serializer where it stands (R150). -/
theorem respond_of_unready {s : State} {b : Byte} (hb : Stands s b) (hunready : (s.pollAhead 0).txReady = false) :
    respond s = .next s.txWait := by
  have hunready' : ((beginRespond s).pollAhead 0).txReady = false := by
    rw [beginRespond_eq]; exact hunready
  rw [txWait_eq]
  cases hb with
  | len hph => rw [respond_of_txLen hph, txPoll_of_unready _ _ hunready']
  | data _ hph hne hload => rw [respond_of_data hph hne hload, txPoll_of_unready _ _ hunready, beginRespond_of_txData hph]
  | fail hph => rw [respond_of_txFail hph, txPoll_of_unready _ _ hunready']

/-- A ready transport takes the byte that the serializer stands at (R150, R151). -/
theorem respond_of_ready {s : State} {b : Byte} (hst : s.st = .respond) (hb : Stands s b)
    (hready : (s.pollAhead 0).txReady = true) : respond s = .next (s.txPut b) := by
  cases hb with
  | len hph =>
    have hready' : ((s.setPh .txLen).pollAhead 0).txReady = true := hready
    rw [respond_of_txLen hph, beginRespond_of_ph hph, txPoll_of_ready _ _ hready', State.polled_eq,
      txPut_of_txLen hst hph]
    rfl
  | data _ hph hne hload =>
    rw [respond_of_data hph hne hload, txPoll_of_ready _ _ hready, State.polled_eq, txPut_of_txData hst hph]
    rfl
  | fail hph =>
    have hready' : ((s.setPh .txFail).pollAhead 0).txReady = true := hready
    rw [respond_of_txFail hph, beginRespond_of_ph hph, txPoll_of_ready _ _ hready', State.polled_eq,
      txPut_of_txFail hph]
    rfl

/-- Everything a step in Respond can do when it answers a next state: it ends the payload, waits, or puts a byte. -/
theorem respond_inv {s t : State} (hst : s.st = .respond) (h : respond s = .next t) :
    (s.ph = .txData ∧ s.idx = s.resLen ∧ t = s.returnToReceive) ∨ ∃ b, Stands s b ∧ (t = s.txWait ∨ t = s.txPut b) := by
  have hgo : ∀ b, Stands s b → t = s.txWait ∨ t = s.txPut b := by
    intro b hb
    cases hready : (s.pollAhead 0).txReady with
    | false => rw [respond_of_unready hb hready] at h; cases h; exact .inl rfl
    | true => rw [respond_of_ready hst hb hready] at h; cases h; exact .inr rfl
  rcases beginRespond_ph_cases s with hph | ⟨hph, -⟩ | hph
  · exact .inr ⟨_, .len hph, hgo _ (.len hph)⟩
  · by_cases hend : s.idx = s.resLen
    · rw [respond_of_end hph hend] at h
      cases h
      exact .inl ⟨hph, hend, rfl⟩
    · cases hload : s.bufLoad s.idx.toNat with
      | ok b => exact .inr ⟨b, .data b hph hend hload, hgo _ (.data b hph hend hload)⟩
      | error r =>
        rw [respond_of_txData hph, respondData, if_neg hend, hload] at h
        cases h
  · exact .inr ⟨_, .fail hph, hgo _ (.fail hph)⟩

/-! ## What the host has still to read -/

theorem pendingResponse_of_txData {s : State} (hst : s.st = .respond) (hph : s.ph = .txData) :
    s.pendingResponse = s.buf.readRange s.idx.toNat (s.resLen.toNat - s.idx.toNat) := by
  simp only [State.pendingResponse, hst, beginRespond_of_txData hph, hph, if_true]

theorem pendingResponse_of_txFail {s : State} (hst : s.st = .respond) (hph : (beginRespond s).ph = .txFail) :
    s.pendingResponse = some [0x00#8] := by
  simp only [State.pendingResponse, hst, hph, if_true]

theorem pendingResponse_of_receive {s : State} (hst : s.st = .receive) : s.pendingResponse = some [] := by
  simp only [State.pendingResponse, hst, reduceCtorEq, if_false]

theorem beginRespond_ph_txWait (s : State) : (beginRespond s.txWait).ph = (beginRespond s).ph := by
  have htx : (beginRespond s).ph.isTx = true := by
    rcases beginRespond_ph_cases s with hph | ⟨hph, hbegun⟩ | hph
    · rw [hph]; rfl
    · rw [hbegun, hph]; rfl
    · rw [hph]; rfl
  have hph : s.txWait.ph = (beginRespond s).ph := by rw [txWait_eq]; rfl
  rw [beginRespond, hph, htx, if_pos rfl, hph]

theorem txWait_ph_of_txData {s : State} (hph : s.ph = .txData) : s.txWait.ph = .txData := by
  rw [txWait_eq, beginRespond_of_txData hph]; exact hph

/-- Waiting sends nothing. -/
theorem pendingResponse_txWait (s : State) : s.txWait.pendingResponse = s.pendingResponse := by
  simp only [State.pendingResponse, beginRespond_ph_txWait]
  rfl

/-- Waiting leaves the serializer at its byte. -/
theorem Stands.txWait {s : State} {b : Byte} (h : Stands s b) : Stands s.txWait b := by
  cases h with
  | len hph => exact .len (s := s.txWait) (by rw [beginRespond_ph_txWait, hph])
  | data b hph hne hload => exact .data b (txWait_ph_of_txData hph) hne hload
  | fail hph => exact .fail (by rw [beginRespond_ph_txWait, hph])

theorem bufLoad_eq_ok {s : State} {i : Nat} {b : Byte} (h : s.bufLoad i = .ok b) : s.buf.read i = some b := by
  unfold State.bufLoad at h
  split at h
  · split at h
    · rename_i c hread
      cases h
      exact hread
    · cases h
  · cases h

theorem Memory.readRange_succ_of_read {m : Memory} {a : Nat} {b : Byte} (h : m.read a = some b) (n : Nat) :
    m.readRange a (n + 1) = (m.readRange (a + 1) n).map fun bs => b :: bs := by
  simp only [Memory.readRange, h]
  cases m.readRange (a + 1) n <;> rfl

theorem toNat_lt_of_le_of_ne {a b : Byte} (hle : a.toNat ≤ b.toNat) (hne : a ≠ b) : a.toNat < b.toNat := by
  have : a.toNat ≠ b.toNat := fun h => hne (BitVec.eq_of_toNat_eq h)
  omega

/-- The byte put is the first of those pending, and the rest is pending after it. -/
theorem pendingResponse_txPut {s : State} {b : Byte} (hst : s.st = .respond) (h : Stands s b)
    (hidx : s.ph = .txData → s.idx.toNat ≤ s.resLen.toNat) :
    s.pendingResponse = (s.txPut b).pendingResponse.map fun rest => b :: rest := by
  cases h with
  | len hph =>
    have hput := txPut_of_txLen hst hph s.resLen
    rw [pendingResponse_of_txLen hst hph,
      pendingResponse_of_txData (s := s.txPut s.resLen) (by rw [hput]; exact hst) (by rw [hput]), hput]
    rfl
  | data _ hph hne hload =>
    have hlt := toNat_lt_of_le_of_ne (hidx hph) hne
    have hlen := s.resLen.isLt
    have hsucc : (s.idx + 1#8).toNat = s.idx.toNat + 1 := Byte.toNat_succ (by omega)
    have hleft : s.resLen.toNat - s.idx.toNat = (s.resLen.toNat - (s.idx.toNat + 1)) + 1 := by omega
    have hput := txPut_of_txData hst hph b
    rw [pendingResponse_of_txData hst hph, hleft, Memory.readRange_succ_of_read (bufLoad_eq_ok hload), ← hsucc,
      pendingResponse_of_txData (s := s.txPut b) (by rw [hput]; exact hst) (by rw [hput]; exact hph), hput]
  | fail hph =>
    rw [pendingResponse_of_txFail hst hph, txPut_of_txFail hph, pendingResponse_of_receive rfl]
    rfl

/-! ## The states of the invariant -/

theorem Memory.readRange_isSome {m : Memory} {a n : Nat} (h : ∀ k, k < n → (m.read (a + k)).isSome = true) :
    ∃ bs, m.readRange a n = some bs := by
  induction n generalizing a with
  | zero => exact ⟨[], rfl⟩
  | succ n ih =>
    obtain ⟨b, hb⟩ : ∃ b, m.read a = some b := Option.isSome_iff_exists.1 (h 0 (Nat.succ_pos n))
    obtain ⟨bs, hbs⟩ := ih (a := a + 1) fun k hk => by
      have := h (k + 1) (by omega)
      rwa [show a + (k + 1) = a + 1 + k by omega] at this
    exact ⟨b :: bs, by rw [Memory.readRange_succ_of_read hb, hbs]; rfl⟩

/-- In a state of the invariant the payload that is pending has been written. -/
theorem Inv.pending {s : State} (h : Inv s) (hst : s.st = .respond) : ∃ rest, s.pendingResponse = some rest := by
  have hwritten : s.resOk = true → ∀ a n, a + n ≤ s.resLen.toNat → ∃ bs, s.buf.readRange a n = some bs :=
    fun hok a n hle => Memory.readRange_isSome fun k hk => h.result hst hok _ (by omega)
  rcases beginRespond_ph_cases s with hph | ⟨hph, -⟩ | hph
  · have hok : s.resOk = true := by
      by_cases htx : s.ph.isTx = true
      · rw [beginRespond, if_pos htx] at hph
        exact h.tagged hst (.inl hph)
      · by_contra hres
        rw [beginRespond, if_neg htx, State.setPh_ph, if_neg hres] at hph
        cases hph
    obtain ⟨bs, hbs⟩ := hwritten hok 0 s.resLen.toNat (by omega)
    exact ⟨_, by rw [pendingResponse_of_txLen hst hph, hbs]; rfl⟩
  · obtain ⟨bs, hbs⟩ := hwritten (h.tagged hst (.inr hph)) s.idx.toNat (s.resLen.toNat - s.idx.toNat)
      (by have := h.placed hst hph; omega)
    exact ⟨bs, by rw [pendingResponse_of_txData hst hph, hbs]⟩
  · exact ⟨_, pendingResponse_of_txFail hst hph⟩

/-- In a state of the invariant the serializer stands at a byte, unless it is at the end of its payload. -/
theorem Inv.stands {s : State} (h : Inv s) (hst : s.st = .respond) (hend : ¬ (s.ph = .txData ∧ s.idx = s.resLen)) :
    ∃ b, Stands s b := by
  rcases beginRespond_ph_cases s with hph | ⟨hph, -⟩ | hph
  · exact ⟨_, .len hph⟩
  · have hne : s.idx ≠ s.resLen := fun he => hend ⟨hph, he⟩
    have hlt := toNat_lt_of_le_of_ne (h.placed hst hph) hne
    obtain ⟨b, hb⟩ := Option.isSome_iff_exists.1 (h.result hst (h.tagged hst (.inr hph)) _ hlt)
    have hlen := s.resLen.isLt
    exact ⟨b, .data b hph hne (State.bufLoad_of_read hb (by rw [bufLen]; omega))⟩
  · exact ⟨_, .fail hph⟩

theorem Inv.respond_next {s : State} (h : Inv s) (hst : s.st = .respond) : ∃ t, respond s = .next t := by
  by_cases hend : s.ph = .txData ∧ s.idx = s.resLen
  · exact ⟨_, respond_of_end hend.1 hend.2⟩
  · obtain ⟨b, hb⟩ := h.stands hst hend
    cases hready : (s.pollAhead 0).txReady with
    | false => exact ⟨_, respond_of_unready hb hready⟩
    | true => exact ⟨_, respond_of_ready hst hb hready⟩

/-! ## The statements -/

theorem Ran.returnToReceive (s : State) : Ran s s.returnToReceive [] := (Ran.refl s).of_eq rfl rfl rfl rfl

theorem Ran.txWait (s : State) : Ran s s.txWait [.poll (s.pollAhead 0)] := by
  constructor <;> simp [State.txWait, pollCount, rxCountOf, busRecvCount]

theorem Ran.txPut (s : State) (b : Byte) : Ran s (s.txPut b) [.poll (s.pollAhead 0), .txPut b] := by
  constructor <;> simp [State.txPut, pollCount, rxCountOf, busRecvCount]

theorem txWait_st (s : State) : s.txWait.st = s.st := rfl

/-- Settles O42: what each of the three kinds of step sends, and what is pending after it. -/
theorem respondSendsThePendingResponse : Obligations.RespondSendsThePendingResponse := by
  intro s t hinv hst hstep
  rw [step_of_respond hst] at hstep
  obtain ⟨pending, hpending⟩ := hinv.pending hst
  rcases respond_inv hst hstep with ⟨hph, hend, rfl⟩ | ⟨b, hb, rfl | rfl⟩
  · refine ⟨rfl, rfl, rfl, [], pendingResponse_of_receive rfl, fun _ => rfl, ?_⟩
    rw [(Ran.returnToReceive s).eventsSince, pendingResponse_of_txData hst hph, hend, Nat.sub_self]
    rfl
  · refine ⟨rfl, rfl, rfl, pending, by rw [pendingResponse_txWait, hpending], fun hrec => ?_, ?_⟩
    · rw [txWait_st, hst] at hrec; cases hrec
    · rw [(Ran.txWait s).eventsSince, hpending]; rfl
  · have hput := pendingResponse_txPut hst hb (hinv.placed hst)
    rw [hpending] at hput
    obtain ⟨rest, hrest, hsplit⟩ := Option.map_eq_some_iff.1 hput.symm
    refine ⟨rfl, rfl, rfl, rest, hrest, fun hrec => ?_, ?_⟩
    · rw [pendingResponse_of_receive hrec] at hrest
      exact (Option.some.inj hrest).symm
    · rw [(Ran.txPut s b).eventsSince, hpending, ← hsplit]
      rfl

/-- Polls that show no readiness, and then one that does: the byte is put, and the rest is pending (R150). -/
theorem run_respond_of_waits {b : Byte} {rest : List Byte} {n : Nat} {s : State} (hst : s.st = .respond)
    (hb : Stands s b) (hrest : (s.txPut b).pendingResponse = some rest)
    (hidx : s.ph = .txData → s.idx.toNat ≤ s.resLen.toNat)
    (hwaits : ∀ k, k < n → (s.pollAhead k).txReady = false) (hready : (s.pollAhead n).txReady = true) :
    ∃ t, Host.Core.run Sys2Proof.core (n + 1) s = .next t ∧ t.pendingResponse = some rest ∧
      t.trace = .txPut b :: .poll (s.pollAhead n) :: ((s.pollEvents n).reverse ++ s.trace) := by
  induction n generalizing s with
  | zero =>
    have hstep : step s = .next (s.txPut b) := by rw [step_of_respond hst, respond_of_ready hst hb hready]
    exact ⟨_, by rw [run_next hstep]; rfl, hrest, rfl⟩
  | succ n ih =>
    have hstep : step s = .next s.txWait := by
      rw [step_of_respond hst, respond_of_unready hb (hwaits 0 (Nat.succ_pos n))]
    have hahead : ∀ k, s.txWait.pollAhead k = s.pollAhead (1 + k) := fun k =>
      State.pollAhead_of_advance (s := s) (n := 1) rfl k
    have hidx' : s.txWait.ph = .txData → s.txWait.idx.toNat ≤ s.txWait.resLen.toNat := by
      intro hph
      by_cases htx : s.ph = .txData
      · exact hidx htx
      · rcases beginRespond_ph_cases s with h | ⟨h, -⟩ | h
        · rw [txWait_eq, State.polled_ph, h] at hph; cases hph
        · exact absurd h htx
        · rw [txWait_eq, State.polled_ph, h] at hph; cases hph
    have hrest' : (s.txWait.txPut b).pendingResponse = some rest := by
      have h1 := pendingResponse_txPut hst hb hidx
      have h2 := pendingResponse_txPut (s := s.txWait) hst hb.txWait hidx'
      rw [pendingResponse_txWait, h1, hrest] at h2
      obtain ⟨rest', hrest', hcons⟩ := Option.map_eq_some_iff.1 h2.symm
      rw [hrest', List.tail_eq_of_cons_eq hcons]
    obtain ⟨t, hrun, hpend, htrace⟩ := ih (s := s.txWait) hst hb.txWait hrest' hidx'
      (fun k hk => by rw [hahead]; exact hwaits _ (by omega)) (by rw [hahead, Nat.add_comm 1 n]; exact hready)
    refine ⟨t, by rw [run_next hstep]; exact hrun, hpend, ?_⟩
    have hevents : s.pollEvents (n + 1) = .poll (s.pollAhead 0) :: s.txWait.pollEvents n := by
      simp only [State.pollEvents, hahead, Nat.add_comm 1, List.range_succ_eq_map, List.map_cons, List.map_map,
        Function.comp_def]
    rw [htrace, hahead, Nat.add_comm 1 n, hevents, List.reverse_cons, List.append_assoc]
    rfl

/-- Settles O45: where the serializer stands, and the three polls it can meet. -/
theorem respondWaitsForTransport : Obligations.RespondWaitsForTransport := by
  refine ⟨fun s hinv hst hunready hend => ?_, fun s hinv hst hready hend => ?_, fun s n hinv hst hwaits hready hend => ?_⟩
  · obtain ⟨b, hb⟩ := hinv.stands hst hend
    rw [step_of_respond hst, respond_of_unready hb hunready]
    rfl
  · obtain ⟨b, hb⟩ := hinv.stands hst hend
    obtain ⟨pending, hpending⟩ := hinv.pending hst
    have hput := pendingResponse_txPut hst hb (hinv.placed hst)
    rw [hpending] at hput
    obtain ⟨rest, -, hsplit⟩ := Option.map_eq_some_iff.1 hput.symm
    refine ⟨b, rest, by rw [hpending, hsplit], ?_⟩
    rw [step_of_respond hst, respond_of_ready hst hb hready]
    rfl
  · obtain ⟨b, hb⟩ := hinv.stands hst hend
    obtain ⟨pending, hpending⟩ := hinv.pending hst
    have hput := pendingResponse_txPut hst hb (hinv.placed hst)
    rw [hpending] at hput
    obtain ⟨rest, hrest, hsplit⟩ := Option.map_eq_some_iff.1 hput.symm
    obtain ⟨t, ht⟩ := run_respond_of_waits hst hb hrest (hinv.placed hst) hwaits hready
    exact ⟨t, b, rest, by rw [hpending, hsplit], ht⟩

/-- Settles O46: the serializer's read, and the fetch, of a byte that holds no value. -/
theorem unwrittenBufferByteFaults : Obligations.UnwrittenBufferByteFaults := by
  have hdata : ∀ (s : State) (r : Fault), s.st = .respond → s.ph = .txData → s.idx ≠ s.resLen →
      s.bufLoad s.idx.toNat = .error r → step s = .fault r := fun s r hst hph hne hload => by
    rw [step_of_respond hst, respond_of_txData hph, respondData, if_neg hne, hload]
  refine ⟨fun s hst hph hne hlast hread => hdata s _ hst hph hne ?_, fun s hst hph hne hlast => hdata s _ hst hph hne ?_,
    fun s hst hheld => ?_⟩
  · have hlt : s.idx.toNat < bufLen := toNat_lt_of_le_of_ne (b := 255#8) (Nat.le_of_lt_succ s.idx.isLt) hlast
    rw [State.bufLoad, if_pos hlt, hread]
  · rw [hlast]; rfl
  · simp only [step, hst, executeHeld, fetchInstr, hheld]

/-! ## A response whose transport is always ready -/

theorem State.txReadyFor.tail {s t : State} {m n : Nat} (h : s.txReadyFor (m + n)) (hp : t.polls = s.polls.advance m) :
    t.txReadyFor n := fun k hk => by
  rw [State.pollAhead_of_advance hp]; exact h _ (by omega)

/-- The payload from any position on (R151, R152). -/
theorem run_payload {p : List Byte} {s : State} (hst : s.st = .respond) (hph : s.ph = .txData)
    (hlen : s.idx.toNat + p.length = s.resLen.toNat) (hbuf : s.buf.readRange s.idx.toNat p.length = some p)
    (hready : s.txReadyFor p.length) :
    ∃ es : List Event,
      Host.Core.run Sys2Proof.core (p.length + 1) s = .next { s with
        st := .receive, idx := s.resLen, polls := s.polls.advance p.length, trace := es.reverse ++ s.trace } ∧
      actions es = p.map Event.txPut := by
  induction p generalizing s with
  | nil =>
    have hend : s.idx = s.resLen := BitVec.eq_of_toNat_eq hlen
    have hstep : step s = .next s.returnToReceive := by rw [step_of_respond hst, respond_of_end hph hend]
    refine ⟨[], ?_, rfl⟩
    rw [run_next hstep, List.length_nil, run_zero]
    simp [State.returnToReceive, State.setSt, hend]
  | cons b p ih =>
    rw [List.length_cons] at hlen
    have hlt := s.resLen.isLt
    obtain ⟨hread, hrest⟩ := Memory.readRange_cons hbuf
    have hload : s.bufLoad s.idx.toNat = .ok b := State.bufLoad_of_read hread (by rw [bufLen]; omega)
    have hne : s.idx ≠ s.resLen := fun h => by rw [h] at hlen; omega
    have hstep : step s = .next (s.txPut b) := by
      rw [step_of_respond hst, respond_of_ready hst (.data b hph hne hload) (hready 0 (by simp))]
    have hput := txPut_of_txData hst hph b
    have hidx : (s.txPut b).idx.toNat = s.idx.toNat + 1 := by rw [hput]; exact Byte.toNat_succ (by omega)
    have hlen' : (s.txPut b).idx.toNat + p.length = s.resLen.toNat := by omega
    obtain ⟨es, hrun, hacts⟩ := ih (s := s.txPut b) (by rw [hput]; exact hst) (by rw [hput]; exact hph) hlen'
      (by rw [hidx]; exact hrest)
      (State.txReadyFor.tail (m := 1) (by rwa [List.length_cons, Nat.add_comm] at hready) rfl)
    refine ⟨.poll (s.pollAhead 0) :: .txPut b :: es, ?_, by rw [List.map_cons, ← hacts]; rfl⟩
    rw [List.length_cons, run_next hstep, hrun, hput]
    simp [Nat.add_comm 1]

/-- Settles O43: the length byte, and then the payload from its first byte on. -/
theorem respondSendsPayload : Obligations.RespondSendsPayload := by
  refine ⟨fun s p hst hph hbuf hready => ?_, fun s p hst hph hlen hbuf hready => run_payload hst hph hlen hbuf hready⟩
  have hp : p.length = s.resLen.toNat := ((Memory.readRange_eq_some _ _ _ _).1 hbuf).1
  rw [← hp] at hbuf hready ⊢
  have hstep : step s = .next (s.txPut s.resLen) := by
    rw [step_of_respond hst, respond_of_ready hst (.len hph) (hready 0 (by omega))]
  have hput := txPut_of_txLen hst hph s.resLen
  obtain ⟨es, hrun, hacts⟩ := run_payload (s := s.txPut s.resLen) (p := p) (by rw [hput]; exact hst) (by rw [hput])
    (by rw [hput]; simpa using hp) (by rw [hput]; exact hbuf) (hready.tail rfl)
  refine ⟨.poll (s.pollAhead 0) :: .txPut s.resLen :: es, ?_, by rw [List.map_cons, ← hacts]; rfl⟩
  rw [show 2 + p.length = (p.length + 1) + 1 by omega, run_next hstep, hrun, hput]
  simp

end Sys2Proof.Machine
end

section
/-! One step of the machine, whichever state it begins in (R220): who may write what, what it may do on the ports, the
transitions, the invariant, and a reset in its middle. -/

namespace Sys2Proof.Machine

/-! ## Everything a step can do -/

/-- A step from `s` to `t` with the events `es`, as the pass through the dispatcher state of `s`. -/
inductive Stepped (s t : State) (es : List Event) : Prop where
  | startup (hst : s.st = .startup) (ht : t = startup s) (hes : es = [.init])
  | receive (hst : s.st = .receive) (run : ReceiveRun s t es) (ends : Received s t es)
  | execute (hst : s.st = .execute) (i : Instr) (rest : List Byte) (held : s.heldFrame = some (encode i ++ rest))
      (hexec : exec i s = .next t) (run : ExecRun i s t es)
  | respond (hst : s.st = .respond) (hrespond : respond s = .next t) (run : RespondRun s t es)

/-- A step in Execute that answers a next state has fetched a whole frame. -/
theorem exec_of_executeHeld {s t : State} (h : executeHeld s = .next t) :
    ∃ i rest, s.heldFrame = some (encode i ++ rest) ∧ exec i s = .next t := by
  unfold executeHeld fetchInstr at h
  cases hheld : s.heldFrame with
  | none => rw [hheld] at h; cases h
  | some bytes =>
    rw [hheld] at h
    cases hdec : decode bytes with
    | error e => simp only [hdec] at h; cases h
    | ok res =>
      obtain ⟨i, rest⟩ := res
      simp only [hdec] at h
      exact ⟨i, rest, by rw [(encodeOfDecode _ _ _ hdec).2], h⟩

theorem Ran.startup (s : State) : Ran s (startup s) [.init] :=
  ((Ran.refl s).of_eq (u := s.setPh .suInit) rfl rfl rfl rfl).trans
    ((Ran.log (s.setPh .suInit) .init rfl rfl rfl).of_eq rfl rfl rfl rfl)

/-- Everything a step can do when it answers a next state. -/
theorem step_cases {s t : State} (h : step s = .next t) : ∃ es, Ran s t es ∧ Stepped s t es := by
  cases hst : s.st with
  | startup =>
    simp only [step, hst] at h
    cases h
    exact ⟨_, Ran.startup s, .startup hst rfl rfl⟩
  | receive =>
    rw [step_of_receive hst] at h
    cases h
    obtain ⟨es, hrun, hends⟩ := receive_cases s
    exact ⟨es, hrun.toRan, .receive hst hrun hends⟩
  | execute =>
    simp only [step, hst] at h
    obtain ⟨i, rest, hheld, hexec⟩ := exec_of_executeHeld h
    obtain ⟨es, hrun⟩ := exec_run_of_next hexec
    exact ⟨es, hrun.toRan, .execute hst i rest hheld hexec hrun⟩
  | respond =>
    rw [step_of_respond hst] at h
    obtain ⟨es, hrun⟩ := respond_cases s t h
    exact ⟨es, hrun.run, .respond hst h hrun⟩

/-! ## What each state does on the ports -/

theorem mem_actions {e : Event} {es : List Event} (h : e ∈ actions es) : e ∈ es ∧ ∀ f, e ≠ .poll f := by
  obtain ⟨hmem, hact⟩ := List.mem_filter.1 h
  exact ⟨hmem, fun f he => by rw [he] at hact; cases hact⟩

theorem Stepped.actions_of_state {s t : State} {es : List Event} (h : Stepped s t es) :
    ∀ e ∈ actions es, match s.st with
      | .startup => e = .init
      | .receive => ∃ x, e = .rxTake x
      | .execute => e.isBusAction = true
      | .respond => ∃ x, e = .txPut x := by
  intro e he
  obtain ⟨hmem, hact⟩ := mem_actions he
  cases h with
  | startup hst ht hes =>
    rw [hst]
    rw [hes] at hmem
    exact List.mem_singleton.1 hmem
  | receive hst run ends =>
    rw [hst]
    have hrx := run.only e hmem
    cases e with
    | rxTake x => exact ⟨x, rfl⟩
    | poll f => exact absurd rfl (hact f)
    | _ => cases hrx
  | execute hst i rest held hexec run =>
    rw [hst]
    exact run.acts.bus e he
  | respond hst hrespond run =>
    rw [hst]
    rcases run.only e hmem with ⟨f, rfl⟩ | ⟨x, rfl⟩
    · exact absurd rfl (hact f)
    · exact ⟨x, rfl⟩

/-- Settles O48. -/
theorem eachStateHasItsActions : Obligations.EachStateHasItsActions := by
  intro s t hstep e he
  obtain ⟨es, hran, hstepped⟩ := step_cases hstep
  rw [hran.eventsSince] at he
  exact hstepped.actions_of_state e he

/-- The events that are no concern of the bus controller. -/
def Event.offBus : Event → Bool
  | .poll _ => true
  | .rxTake _ => true
  | .txPut _ => true
  | _ => false

theorem busReleased_of_offBus {es : List Event} (h : ∀ e ∈ es, e.offBus = true) (tr : List Event) :
    busReleased (es ++ tr) = busReleased tr := by
  induction es with
  | nil => rfl
  | cons e es ih =>
    have hrest := ih fun e' he' => h e' (List.mem_cons_of_mem _ he')
    have he := h e List.mem_cons_self
    cases e <;> first | exact hrest | cases he

theorem ackModeOf_of_offBus {es : List Event} (h : ∀ e ∈ es, e.offBus = true) (tr : List Event) :
    ackModeOf (es ++ tr) = ackModeOf tr := by
  induction es with
  | nil => rfl
  | cons e es ih =>
    have hrest := ih fun e' he' => h e' (List.mem_cons_of_mem _ he')
    have he := h e List.mem_cons_self
    cases e <;> first | exact hrest | cases he

theorem ReceiveRun.offBus {s t : State} {es : List Event} (h : ReceiveRun s t es) :
    ∀ e ∈ es.reverse, e.offBus = true := by
  intro e he
  have hrx := h.only e (List.mem_reverse.1 he)
  cases e <;> first | rfl | cases hrx

theorem RespondRun.offBus {s t : State} {es : List Event} (h : RespondRun s t es) :
    ∀ e ∈ es.reverse, e.offBus = true := by
  intro e he
  rcases h.only e (List.mem_reverse.1 he) with ⟨f, rfl⟩ | ⟨x, rfl⟩ <;> rfl

/-- The three promises of R183, R179 and R297, by the state of the step. -/
theorem Stepped.promises {s t : State} {es : List Event} (h : Stepped s t es) (tr : List Event) :
    (portsKept tr = true → portsKept (es.reverse ++ tr) = true) ∧
      (s.st = .startup ∨ busReleased tr = true → busReleased (es.reverse ++ tr) = true) ∧
      (s.st = .startup ∨ ackModeOf tr = some .current → ackModeOf (es.reverse ++ tr) = some .current) := by
  cases h with
  | startup hst ht hes => rw [hes]; exact ⟨fun h => h, fun _ => rfl, fun _ => rfl⟩
  | receive hst run ends =>
    rw [hst, busReleased_of_offBus run.offBus, ackModeOf_of_offBus run.offBus]
    exact ⟨run.safe tr, fun h => h.resolve_left nofun, fun h => h.resolve_left nofun⟩
  | execute hst i rest held hexec run =>
    rw [hst, busReleased_actions, ackModeOf_actions]
    exact ⟨run.safe tr, fun h => run.acts.released tr (h.resolve_left nofun),
      fun h => run.acts.acked tr (h.resolve_left nofun)⟩
  | respond hst hrespond run =>
    rw [hst, busReleased_of_offBus run.offBus, ackModeOf_of_offBus run.offBus]
    exact ⟨run.safe tr, fun h => h.resolve_left nofun, fun h => h.resolve_left nofun⟩

/-- Settles O55. -/
theorem stepKeepsBusPromises : Obligations.StepKeepsBusPromises := by
  intro s t hstep
  obtain ⟨es, hran, hstepped⟩ := step_cases hstep
  obtain ⟨hports, hreleased, hacked⟩ := hstepped.promises s.trace
  rw [hran.trace]
  exact ⟨hports, fun h => hreleased (.inr h), fun h => hacked (.inr h)⟩

/-! ## Who writes what -/

theorem Stepped.params {s t : State} {es : List Event} (h : Stepped s t es) : t.params = s.params := by
  cases h with
  | startup hst ht hes => rw [ht]; rfl
  | receive hst run ends => exact run.params
  | execute hst i rest held hexec run => exact run.params
  | respond hst hrespond run => rw [run.keep]

/-- Settles O51, by the state of the step. -/
theorem registerWriters : Obligations.RegisterWriters := by
  intro s t hstep
  obtain ⟨es, -, hstepped⟩ := step_cases hstep
  refine ⟨hstepped.params, ?_⟩
  cases hstepped with
  | startup hst ht hes =>
    subst ht
    exact ⟨fun _ => ⟨rfl, rfl, rfl, rfl, rfl⟩, fun _ => ⟨rfl, rfl, rfl, rfl, rfl⟩, fun _ => ⟨rfl, rfl, rfl⟩⟩
  | receive hst run ends =>
    refine ⟨fun h => absurd hst h, fun _ => ⟨run.scanIdx, run.scanAddr, run.outCnt, run.resLen, run.busKept⟩, fun h => ?_⟩
    rw [hst] at h
    rcases h with h | h <;> cases h
  | execute hst i rest held hexec run =>
    have hrx : t.rx = s.rx := by rw [run.rx, run.noTake, Feed.advance_zero]
    refine ⟨fun _ => ⟨run.cmdId, run.devAddr, run.regPtr, run.count, hrx⟩, fun h => absurd hst h, fun h => ?_⟩
    rw [hst] at h
    rcases h with h | h <;> cases h
  | respond hst hrespond run =>
    rw [run.keep]
    exact ⟨fun _ => ⟨rfl, rfl, rfl, rfl, rfl⟩, fun _ => ⟨rfl, rfl, rfl, rfl, rfl⟩, fun _ => ⟨rfl, rfl, rfl⟩⟩

/-! ## The invariant -/

theorem encode_echo_eq (p : List Byte) : encode (.echo p) = 0x03#8 :: countByte p :: p := rfl

/-- The payload of a held ECHO stands in the buffer. -/
theorem readRange_of_held_echo {s : State} {p : List Byte} (h : s.heldFrame = some (encode (.echo p))) :
    s.buf.readRange 0 p.length = some p := by
  rw [encode_echo_eq] at h
  unfold State.heldFrame at h
  split at h
  · rename_i hid
    obtain ⟨q, -, hq⟩ := Option.map_eq_some_iff.1 h
    rw [hid] at hq
    exact absurd (List.head_eq_of_cons_eq hq) (by decide)
  · split at h
    · rename_i hid
      rw [hid] at h
      exact absurd (List.head_eq_of_cons_eq (Option.some.inj h)) (by decide)
    · split at h
      · obtain ⟨q, hread, hq⟩ := Option.map_eq_some_iff.1 h
        obtain rfl : q = p := List.tail_eq_of_cons_eq (List.tail_eq_of_cons_eq hq)
        rwa [((Memory.readRange_eq_some _ _ _ _).1 hread).1]
      · exact absurd (Option.some.inj h) (by simp)

/-- A recognized instruction that is held leaves a response that can be sent. -/
theorem exec_pending {i : Instr} {s t : State} (hrec : recognized i = true) (hheld : s.heldFrame = some (encode i))
    (hexec : exec i s = .next t) : ∃ bs, t.pendingResponse = some bs := by
  obtain ⟨hwrite, hread, hdetect, hecho, -⟩ := responsesOfCommands
  cases i with
  | write a r p => exact ⟨_, hwrite a r p s t hexec⟩
  | read a r n => exact ⟨_, hread a r n s t hexec⟩
  | detect as =>
    obtain ⟨found, -, hpend⟩ := hdetect as s t hexec
    exact ⟨_, hpend⟩
  | echo p => exact ⟨_, hecho p s t hexec (readRange_of_held_echo hheld)⟩
  | _ => cases hrec

/-- The payload of a success that can be sent has been written. -/
theorem written_of_pending {t : State} {bs : List Byte} (hst : t.st = .respond) (hph : t.ph.isTx = false)
    (hok : t.resOk = true) (hpend : t.pendingResponse = some bs) :
    ∀ k, k < t.resLen.toNat → (t.buf.read k).isSome = true := by
  rw [pendingResponse_of_txLen hst (beginRespond_ph_of_resOk hph hok)] at hpend
  obtain ⟨p, hread, -⟩ := Option.map_eq_some_iff.1 hpend
  exact Memory.readRange_isSome_read _ _ _ hread

/-- In a state of the invariant the fetch of Execute gives the recognized instruction that is held. -/
theorem Inv.recognized_of_held {s : State} {i : Instr} {rest : List Byte} (h : Inv s) (hst : s.st = .execute)
    (hwf : i.wf = true) (hheld : s.heldFrame = some (encode i ++ rest)) :
    recognized i = true ∧ s.heldFrame = some (encode i) := by
  obtain ⟨j, hjwf, hjrec, hjheld⟩ := h.held hst
  rw [hheld, ← List.append_nil (encode j)] at hjheld
  obtain ⟨rfl, rfl⟩ := frame_append_unique hwf hjwf (Option.some.inj hjheld)
  exact ⟨hjrec, by rw [hheld, List.append_nil]⟩

theorem not_tx_of_isTx {p : Phase} (h : p.isTx = false) : p ≠ .txLen ∧ p ≠ .txData ∧ p ≠ .txFail := by
  refine ⟨?_, ?_, ?_⟩ <;> rintro rfl <;> cases h

/-- The promises part of the invariant, for the state after a step. -/
theorem Stepped.inv_promises {s t : State} {es : List Event} (h : Stepped s t es) (hran : Ran s t es) (hinv : Inv s) :
    portsKept t.trace = true ∧ busReleased t.trace = true ∧ ackModeOf t.trace = some .current := by
  obtain ⟨hports, hreleased, hacked⟩ := h.promises s.trace
  rw [hran.trace]
  exact ⟨hports hinv.ports, hreleased hinv.released, hacked hinv.acked⟩

theorem countdown_fits {s t : State} {b : Nat} (hinv : Inv s) (hparams : t.params = s.params)
    (hb : b ≤ max s.params.tRx s.params.tBus) (h : t.toCnt ≤ max s.toCnt b) : t.toCnt < 2 ^ t.params.wTo := by
  have hold := hinv.countdown
  have hmax := max_budget_lt_wTo s.params
  rw [hparams]
  omega

/-- A state in Respond whose serializer has not begun meets the invariant's part on Respond. -/
theorem Inv.of_unbegun {t : State} (hwf : t.buf.wf = true) (hcount : t.toCnt < 2 ^ t.params.wTo)
    (hpromises : portsKept t.trace = true ∧ busReleased t.trace = true ∧ ackModeOf t.trace = some .current)
    (hph : t.ph.isTx = false)
    (hheld : t.st = .execute → ∃ i : Instr, i.wf = true ∧ recognized i = true ∧ t.heldFrame = some (encode i))
    (hresult : t.st = .respond → t.resOk = true → ∀ k, k < t.resLen.toNat → (t.buf.read k).isSome = true) : Inv t := by
  obtain ⟨hports, hreleased, hacked⟩ := hpromises
  obtain ⟨hlen, hdata, hfail⟩ := not_tx_of_isTx hph
  exact ⟨hwf, hcount, hports, .inr hreleased, .inr hacked, hheld, hresult, fun _ h => (h.elim hlen hdata).elim,
    fun _ h => (hfail h).elim, fun _ h => (hdata h).elim⟩

/-- Settles O53, by the state of the step: Receive leaves a frame or a failure, Execute a result whose payload is written,
Respond what it had. -/
theorem stepKeepsInvariant : Obligations.StepKeepsInvariant := by
  intro s t hinv hstep
  obtain ⟨es, hran, hstepped⟩ := step_cases hstep
  have hpromises := hstepped.inv_promises hran hinv
  cases hstepped with
  | startup hst ht hes =>
    subst ht
    exact .of_unbegun hinv.bufWf hinv.countdown hpromises rfl nofun nofun
  | receive hst run ends =>
    refine .of_unbegun (run.bufWf hinv.bufWf) (countdown_fits hinv run.params (Nat.le_max_left _ _) run.countdown)
      hpromises run.ph ?_ ?_
    · intro hexec
      cases ends with
      | frame i st wf rec held acts bytes taken => exact ⟨i, wf, rec, held⟩
      | failed st resOk kind => rw [st] at hexec; cases hexec
      | waiting st unbounded silent es_eq => rw [st, hst] at hexec; cases hexec
    · intro hrespond hok
      cases ends with
      | frame i st wf rec held acts bytes taken => rw [st] at hrespond; cases hrespond
      | failed st resOk kind => rw [resOk] at hok; cases hok
      | waiting st unbounded silent es_eq => rw [st, hst] at hrespond; cases hrespond
  | execute hst i rest held hexec run =>
    obtain ⟨hrec, hheld⟩ := hinv.recognized_of_held hst (wf_of_exec_next hexec) held
    obtain ⟨bs, hpend⟩ := exec_pending hrec hheld hexec
    refine .of_unbegun (run.bufWf hinv.bufWf) (countdown_fits hinv run.params (Nat.le_max_right _ _) run.countdown)
      hpromises (run.ph hrec) (fun h => ?_) fun hst' hok => written_of_pending hst' (run.ph hrec) hok hpend
    rw [run.st] at h
    cases h
  | respond hst hrespond run =>
    obtain ⟨hports, hreleased, hacked⟩ := hpromises
    have hbuf : t.buf = s.buf ∧ t.resLen = s.resLen ∧ t.resOk = s.resOk := by
      rw [run.keep]; exact ⟨rfl, rfl, rfl⟩
    obtain ⟨hbuf, hlen, hok⟩ := hbuf
    refine ⟨hbuf ▸ hinv.bufWf, by rw [run.keep]; exact hinv.countdown, hports, .inr hreleased, .inr hacked, fun h => ?_,
      fun _ => by rw [hbuf, hlen, hok]; exact hinv.result hst, fun _ => run.tag (hinv.tagged hst),
      fun _ => run.fail (hinv.failed hst), fun _ => run.pos (hinv.placed hst)⟩
    rcases run.st with hst' | hst' <;> rw [hst'] at h
    · rw [hst] at h; cases h
    · cases h

/-- Settles O54: in Execute a frame is held, in Respond the byte to send is written, and the other passes always answer. -/
theorem machineNeverStops : Obligations.MachineNeverStops := by
  intro s hinv
  cases hst : s.st with
  | startup => exact ⟨_, by rw [step, hst]⟩
  | receive => exact ⟨_, step_of_receive hst⟩
  | execute =>
    obtain ⟨i, hwf, -, hheld⟩ := hinv.held hst
    obtain ⟨t, -, hexec, -⟩ := exec_run hwf s
    exact ⟨t, by rw [step_of_held hst hwf hheld, hexec]⟩
  | respond =>
    obtain ⟨t, ht⟩ := hinv.respond_next hst
    exact ⟨t, by rw [step_of_respond hst, ht]⟩

/-! ## Reset -/

/-- Right after a reset the invariant asks for no more than the ports' promise (R320). -/
theorem Inv.of_startup {s : State} (hst : s.st = .startup) (hbuf : s.buf = []) (hcount : s.toCnt = 0)
    (hports : portsKept s.trace = true) : Inv s := by
  refine ⟨by rw [hbuf]; rfl, by rw [hcount]; exact Nat.two_pow_pos _, hports, .inl hst, .inl hst, ?_, ?_, ?_, ?_, ?_⟩ <;>
    intro h <;> rw [hst] at h <;> cases h

/-- Settles O52. -/
theorem resetSatisfiesInvariant : Obligations.ResetSatisfiesInvariant :=
  ⟨.of_startup rfl rfl rfl rfl, fun _ hinv => .of_startup rfl rfl rfl hinv.ports⟩

/-- Settles O49: the reset values of `st` and `ph`, and the pass of Startup. -/
theorem resetSequence : Obligations.ResetSequence :=
  ⟨rfl, rfl, rfl, fun _ => ⟨rfl, rfl, rfl, rfl⟩⟩

/-- What has been promised of a trace is promised of what came before its last events. -/
theorem portsKept_of_append {es tr : List Event} (h : portsKept (es ++ tr) = true) : portsKept tr = true := by
  induction es with
  | nil => exact h
  | cons e es ih =>
    refine ih ?_
    cases e <;> first | exact h | exact (Bool.and_eq_true_iff.1 h).2

/-- Settles O50: the reset cuts the events of the step after its first `k`, and leaves the traces before and after the
cut. -/
theorem resetAbandonsTheStep : Obligations.ResetAbandonsTheStep := by
  intro s t hstep
  obtain ⟨es, hran, hstepped⟩ := step_cases hstep
  have hparams := hstepped.params
  refine ⟨?_, ?_, fun k => ?_⟩
  · simp [State.resetDuring, State.assertReset]
  · simp only [State.resetDuring, State.assertReset, hran.eventsSince, List.take_length, ← hran.polls, ← hran.rx,
      ← hran.busRx, ← hran.trace, hparams]
  · have hcut : t.trace = (es.drop k).reverse ++ ((es.take k).reverse ++ s.trace) := by
      rw [← List.append_assoc, ← List.reverse_append, List.take_append_drop, hran.trace]
    have htrace : (s.resetDuring t k).trace = (es.take k).reverse ++ s.trace := by
      simp only [State.resetDuring, hran.eventsSince]
    refine ⟨rfl, ?_, ?_, fun hinv => .of_startup rfl rfl rfl ?_⟩
    · rw [htrace, hcut]; exact List.suffix_append _ _
    · rw [htrace]; exact List.suffix_append _ _
    · have hports := (hstepped.inv_promises hran hinv).1
      rw [hcut] at hports
      rw [htrace]
      exact portsKept_of_append hports

/-! ## The transitions -/

/-- A failure that the serializer has not begun to send leaves the one byte 0x00 (R153). -/
theorem pendingResponse_of_failure {s : State} (hst : s.st = .respond) (hph : s.ph.isTx = false)
    (hres : s.resOk = false) : s.pendingResponse = some [0x00#8] :=
  pendingResponse_of_txFail hst (by simp [beginRespond_eq, hph, hres])

/-- Respond is left for Receive when all that was pending has been sent (R151). -/
theorem respond_to_receive {s t : State} (hst : s.st = .respond) (h : respond s = .next t) (hrec : t.st = .receive) :
    s.pendingResponse = some (sentBytes (s.eventsSince t)) := by
  rcases respond_inv hst h with ⟨hph, hend, rfl⟩ | ⟨b, hb, rfl | rfl⟩
  · rw [(Ran.returnToReceive s).eventsSince, pendingResponse_of_txData hst hph, hend, Nat.sub_self]
    rfl
  · rw [txWait_st, hst] at hrec
    cases hrec
  · rw [(Ran.txPut s b).eventsSince]
    cases hb with
    | len hph => rw [txPut_of_txLen hst hph] at hrec; rw [hst] at hrec; cases hrec
    | data _ hph hne hload => rw [txPut_of_txData hst hph] at hrec; rw [hst] at hrec; cases hrec
    | fail hph => rw [pendingResponse_of_txFail hst hph]; rfl

/-- Settles O47, by the state of the step. -/
theorem transitionsOfTheDispatcher : Obligations.TransitionsOfTheDispatcher := by
  refine ⟨rfl, fun _ => rfl, machineNeverStops, fun s t hstep => ?_⟩
  obtain ⟨es, hran, hstepped⟩ := step_cases hstep
  rw [hran.eventsSince]
  cases hstepped with
  | startup hst ht hes =>
    subst ht
    simp only [hst, reduceCtorEq, false_implies, true_implies, and_true]
    exact ⟨rfl, rfl, rfl⟩
  | receive hst run ends =>
    simp only [hst, reduceCtorEq, false_implies, true_implies, and_true, true_and]
    cases ends with
    | frame i st wf rec held acts bytes taken =>
      simp only [st, reduceCtorEq, false_implies, true_implies, and_true]
      exact ⟨rfl, i, wf, rec, held, acts⟩
    | failed st resOk kind =>
      simp only [st, reduceCtorEq, false_implies, true_implies, true_and, and_true]
      exact ⟨rfl, resOk, kind, pendingResponse_of_failure st run.ph resOk⟩
    | waiting st unbounded silent es_eq =>
      rw [hst] at st
      simp only [st, reduceCtorEq, false_implies, true_implies, true_and]
      exact ⟨rfl, unbounded, silent, by rw [hran.trace, es_eq]; rfl⟩
  | execute hst i rest held hexec run =>
    simp only [hst, run.st, reduceCtorEq, false_implies, true_implies, and_true]
    rfl
  | respond hst hrespond run =>
    simp only [hst, reduceCtorEq, false_implies, true_implies, true_and]
    refine ⟨?_, fun hrec => ?_⟩
    · rcases run.st with hst' | hst' <;> rw [hst']
      · rw [hst]; rfl
      · rfl
    · rw [← hran.eventsSince]
      exact respond_to_receive hst hrespond hrec

/-! ## The length of a command cycle -/

/-- The largest bound of R346: a DETECT of 255 addresses. -/
theorem waitBound_le {i : Instr} (hwf : i.wf = true) : waitBound i ≤ 765 := by
  cases i with
  | write a r p =>
    have hlen : p.length ≤ 255 := of_decide_eq_true hwf
    simp only [waitBound]; omega
  | read a r n =>
    have hlt := n.isLt
    simp only [waitBound]; split <;> omega
  | detect as =>
    have hlen : (candidates as).length ≤ 255 := (candidates_length_le as hwf).2
    simp only [waitBound]; omega
  | _ => simp only [waitBound]; omega

/-- Settles O57: a failure in Receive takes one step, a frame is run by the second. -/
theorem cycleReachesRespond : Obligations.CycleReachesRespond := by
  intro s hinv hst hb
  have hstep := step_of_receive hst
  obtain ⟨es, hrun, hends⟩ := receive_cases s
  have hdrawn : (receive s).polls.drawn ≤ s.polls.drawn + 259 * s.params.tRx := by
    rw [hrun.polls, Feed.advance_drawn]
    exact Nat.add_le_add_left hrun.bound _
  cases hends with
  | frame i st wf rec held acts bytes taken =>
    obtain ⟨u, fs, hexec, hrun2⟩ := exec_run wf (receive s)
    have hstep2 : step (receive s) = .next u := by rw [step_of_held st wf held, hexec]
    refine ⟨2, u, Nat.le_refl _, by rw [run_next hstep, run_next hstep2]; rfl, hrun2.st, ?_⟩
    have hbound := Nat.le_trans hrun2.bound (Nat.mul_le_mul_right _ (waitBound_le wf))
    rw [hrun.params] at hbound
    rw [hrun2.polls, Feed.advance_drawn]
    omega
  | failed st resOk kind => exact ⟨1, _, by omega, by rw [run_next hstep]; rfl, st, by omega⟩
  | waiting st unbounded silent es_eq => rw [hb] at unbounded; cases unbounded

end Sys2Proof.Machine
end

section
/-! Stale contents are not observable (R44): two runs in the same environment stay in the same environment, whatever the
registers and the buffer hold, and agree on the frame that is held and on the response that is pending. -/

namespace Sys2Proof.Machine

/-! ## The environment of a state -/

/-- What a state shares with every state in the same place of the same run: the parameters, the coming answers, and the
trace. A register update leaves it as it is. -/
def State.env (s : State) : Params × Feed Poll × Feed Byte × Feed Byte × List Event :=
  (s.params, s.polls, s.rx, s.busRx, s.trace)

section
variable {s t : State} (h : s.env = t.env)
include h

theorem env_params : s.params = t.params := congrArg (fun e => e.1) h
theorem env_polls : s.polls = t.polls := congrArg (fun e => e.2.1) h
theorem env_rx : s.rx = t.rx := congrArg (fun e => e.2.2.1) h
theorem env_busRx : s.busRx = t.busRx := congrArg (fun e => e.2.2.2.1) h
theorem env_trace : s.trace = t.trace := congrArg (fun e => e.2.2.2.2) h

theorem env_log (e : Event) : (s.log e).env = (t.log e).env := by
  simp only [State.env, State.log, env_params h, env_polls h, env_rx h, env_busRx h, env_trace h]

theorem env_pollAnswer : s.pollAnswer = t.pollAnswer := by rw [State.pollAnswer, State.pollAnswer, env_polls h]
theorem env_rxAnswer : s.rxAnswer = t.rxAnswer := by rw [State.rxAnswer, State.rxAnswer, env_rx h]
theorem env_busAnswer : s.busAnswer = t.busAnswer := by rw [State.busAnswer, State.busAnswer, env_busRx h]

theorem env_polled : s.polled.env = t.polled.env := by
  simp only [State.env, State.polled_params, State.polled_polls, State.polled_rx, State.polled_busRx, State.polled_trace,
    env_pollAnswer h, env_params h, env_polls h, env_rx h, env_busRx h, env_trace h]

theorem env_rxTaken : s.rxTaken.env = t.rxTaken.env := by
  simp only [State.env, State.rxTaken_params, State.rxTaken_polls, State.rxTaken_rx, State.rxTaken_busRx,
    State.rxTaken_trace, env_rxAnswer h, env_params h, env_polls h, env_rx h, env_busRx h, env_trace h]

theorem env_busReceived : s.busReceived.env = t.busReceived.env := by
  simp only [State.env, State.busReceived_params, State.busReceived_polls, State.busReceived_rx, State.busReceived_busRx,
    State.busReceived_trace, env_busAnswer h, env_params h, env_polls h, env_rx h, env_busRx h, env_trace h]

theorem env_busBytes (n : Nat) : s.busBytes n = t.busBytes n := by
  have hahead : s.busAhead = t.busAhead := by funext k; rw [State.busAhead, State.busAhead, env_busRx h]
  rw [State.busBytes, State.busBytes, hahead]

theorem env_rxBytes (n : Nat) : s.rxBytes n = t.rxBytes n := by
  have hahead : s.rxAhead = t.rxAhead := by funext k; rw [State.rxAhead, State.rxAhead, env_rx h]
  rw [State.rxBytes, State.rxBytes, hahead]

end

theorem bufStore_env (s : State) (i : Nat) (v : Byte) : (s.bufStore i v).env = s.env := by
  simp [State.env]

/-- Two runs of one sequence from the same environment: the same outcome, and again the same environment. -/
def Alike {α : Type} (r r' : α × State) : Prop := r.1 = r'.1 ∧ r.2.env = r'.2.env

/-- A sequence of `α` results that stale contents do not change. -/
def Blind {α : Type} (f : State → α × State) : Prop := ∀ s t : State, s.env = t.env → Alike (f s) (f t)

/-! ## The waits -/

theorem waitLoop_blind (done : Poll → Bool) (nackEn : Bool) (k : Nat) : Blind (waitLoop done nackEn k) := by
  induction k with
  | zero => exact fun s t h => ⟨rfl, h⟩
  | succ k ih =>
    intro s t h
    simp only [waitLoop, env_pollAnswer h]
    split
    · exact ⟨rfl, env_polled h⟩
    split
    · exact ⟨rfl, env_polled h⟩
    · exact ih (s.polled.setToCnt k) (t.polled.setToCnt k) (env_polled h)

theorem wait_blind (done : Poll → Bool) (nackEn : Bool) (T : Nat) : Blind (wait done nackEn T) :=
  fun s t h => waitLoop_blind done nackEn T (s.setToCnt T) (t.setToCnt T) h

theorem busWait_blind (w : BusWait) : Blind (busWait w) := by
  intro s t h
  rw [busWait, busWait, env_params h]
  exact wait_blind _ _ _ s t h

/-! ## The engine -/

theorem andThen_blind {r r' : EngineResult} {k k' : State → EngineResult} (h : Alike r r')
    (hk : ∀ s t, s.env = t.env → Alike (k s) (k' t)) : Alike (andThen r k) (andThen r' k') := by
  obtain ⟨o, s⟩ := r
  obtain ⟨o', t⟩ := r'
  obtain ⟨rfl, henv⟩ := h
  cases o with
  | ok => exact hk s t henv
  | nack => exact ⟨rfl, henv⟩
  | timeout kind => exact ⟨rfl, henv⟩

theorem awaitOr_blind (w : BusWait) {cleanup : State → State}
    (hc : ∀ s t, s.env = t.env → (cleanup s).env = (cleanup t).env) : Blind (awaitOr w cleanup) := by
  intro s t h
  have hw := busWait_blind w s t h
  unfold awaitOr
  generalize busWait w s = r at hw ⊢
  generalize busWait w t = r' at hw ⊢
  obtain ⟨o, u⟩ := r
  obtain ⟨o', v⟩ := r'
  obtain ⟨rfl, henv⟩ := hw
  cases o with
  | expired => exact ⟨rfl, hc u v henv⟩
  | done => exact ⟨rfl, henv⟩
  | nack => exact ⟨rfl, henv⟩

theorem idleWait_blind : Blind idleWait :=
  fun s t h => awaitOr_blind .idle (fun _ _ h => h) (s.setPh .exIdle) (t.setPh .exIdle) h

theorem startCondition_blind (p : Phase) : Blind (startCondition p) :=
  fun s t h => awaitOr_blind .mms (fun _ _ h => env_log h _) ((s.setPh p).log .busStart) ((t.setPh p).log .busStart)
    (env_log (s := s.setPh p) (t := t.setPh p) h _)

theorem address_blind (a : Byte) (d : Direction) : Blind (address a d) := by
  intro s t h
  have hw := busWait_blind d.addressWait ((s.setPh d.phase).log (.busAddr (addr7 a) d))
    ((t.setPh d.phase).log (.busAddr (addr7 a) d)) (env_log (s := s.setPh d.phase) (t := t.setPh d.phase) h _)
  unfold address
  generalize busWait d.addressWait ((s.setPh d.phase).log (.busAddr (addr7 a) d)) = r at hw ⊢
  generalize busWait d.addressWait ((t.setPh d.phase).log (.busAddr (addr7 a) d)) = r' at hw ⊢
  obtain ⟨o, u⟩ := r
  obtain ⟨o', v⟩ := r'
  obtain ⟨rfl, henv⟩ := hw
  cases o with
  | done => exact ⟨rfl, henv⟩
  | nack => exact ⟨rfl, env_log (env_log henv _) _⟩
  | expired => exact ⟨rfl, env_log henv _⟩

theorem addrPhase_blind (a : Byte) : Blind (addrPhase a) := fun s t h =>
  andThen_blind (idleWait_blind s t h) fun s1 t1 h1 =>
  andThen_blind (startCondition_blind .exStart s1 t1 h1) (address_blind a .write)

theorem reAddrPhase_blind (a : Byte) : Blind (reAddrPhase a) := fun s t h =>
  andThen_blind (startCondition_blind .exRestart s t h) (address_blind a .read)

theorem sendByte_blind (w : BusWait) (b : Byte) : Blind (sendByte w b) := fun _ _ h =>
  awaitOr_blind w (fun _ _ h => env_log h _) _ _ (env_log h _)

theorem sendPayload_blind (bs : List Byte) : Blind (sendPayload bs) := by
  induction bs with
  | nil => exact fun s t h => ⟨rfl, h⟩
  | cons b bs ih =>
    intro s t h
    refine andThen_blind (sendByte_blind .btxData b s t h) fun u v huv => ?_
    exact ih (u.setIdx (u.idx + 1#8)) (v.setIdx (v.idx + 1#8)) huv

theorem sendPointer_blind (r : Byte) : Blind (sendPointer r) := fun s t h =>
  sendByte_blind .btxPointer r (s.setPh .exReg) (t.setPh .exReg) h

theorem txnWrite_blind (a r : Byte) (p : List Byte) : Blind (txnWrite a r p) := fun s t h =>
  andThen_blind (addrPhase_blind a s t h) fun s1 t1 h1 =>
  andThen_blind (sendPointer_blind r s1 t1 h1) fun s2 t2 h2 =>
  andThen_blind (sendPayload_blind p ((s2.setPh .exWdata).setIdx 0#8) ((t2.setPh .exWdata).setIdx 0#8) h2)
    fun _ _ h3 => ⟨rfl, env_log h3 _⟩

theorem prepareByte_blind (last : Bool) {s t : State} (h : s.env = t.env) :
    (prepareByte last s).env = (prepareByte last t).env := by
  cases last
  · exact h
  · exact env_log (env_log h _) _

theorem recvByte_env (s : State) : (recvByte s).env = s.busReceived.env := bufStore_env _ _ _

theorem recvPayload_blind (k : Nat) : Blind (recvPayload k) := by
  induction k with
  | zero => exact fun s t h => ⟨rfl, env_log h _⟩
  | succ k ih =>
    intro s t h
    refine andThen_blind (awaitOr_blind .brx (fun _ _ h => env_log (env_log h _) _) _ _ (prepareByte_blind _ h))
      fun u v huv => ?_
    exact ih (recvByte u) (recvByte v) (by rw [recvByte_env, recvByte_env, env_busReceived huv])

theorem txnRead_blind (a r n : Byte) : Blind (txnRead a r n) := fun s t h =>
  andThen_blind (addrPhase_blind a s t h) fun s1 t1 h1 =>
  andThen_blind (sendPointer_blind r s1 t1 h1) fun s2 t2 h2 => by
    split
    · exact ⟨rfl, env_log h2 _⟩
    · exact andThen_blind (reAddrPhase_blind a s2 t2 h2) fun s3 t3 h3 =>
        recvPayload_blind n.toNat ((s3.setPh .exRdata).setIdx 0#8) ((t3.setPh .exRdata).setIdx 0#8) h3

/-! ## The scan -/

theorem probe_blind (a : Byte) : Blind (probe a) := fun s t h =>
  andThen_blind (addrPhase_blind a s t h) fun _ _ h1 => ⟨rfl, env_log h1 _⟩

theorem retain_env (s : State) : (retain s).env = s.env := bufStore_env _ _ _

theorem advance_env (listed : Bool) (s : State) : (advance listed s).env = s.env := by cases listed <;> rfl

theorem scanLoop_blind (listed : Bool) (as : List Byte) : Blind (scanLoop listed as) := by
  induction as with
  | nil => exact fun s t h => ⟨rfl, h⟩
  | cons a as ih =>
    intro s t h
    have hp := probe_blind a (s.setScanAddr a) (t.setScanAddr a) h
    simp only [scanLoop]
    generalize probe a (s.setScanAddr a) = r at hp ⊢
    generalize probe a (t.setScanAddr a) = r' at hp ⊢
    obtain ⟨o, u⟩ := r
    obtain ⟨o', v⟩ := r'
    obtain ⟨rfl, henv⟩ := hp
    cases o with
    | ok => exact ih _ _ (by rw [advance_env, advance_env, retain_env, retain_env]; exact henv)
    | nack => exact ih _ _ (by rw [advance_env, advance_env]; exact henv)
    | timeout kind => exact ⟨rfl, henv⟩

theorem scanAll_blind (as : List Byte) : Blind (scanAll as) := by
  intro s t h
  cases as with
  | nil => exact scanLoop_blind false defaultRange s t h
  | cons a as => exact scanLoop_blind true (a :: as) (s.setScanIdx 0#8) (t.setScanIdx 0#8) h

/-! ## Execute -/

/-- Two states that Execute leaves: the same environment and the same tag of the result. -/
def SameResult (s t : State) : Prop := s.env = t.env ∧ s.resOk = t.resOk

theorem concludeTxn_blind {onOk : State → State} {r r' : EngineResult} (h : Alike r r')
    (hok : ∀ s t, s.env = t.env → SameResult (onOk s) (onOk t)) :
    SameResult (concludeTxn onOk r) (concludeTxn onOk r') := by
  obtain ⟨o, s⟩ := r
  obtain ⟨o', t⟩ := r'
  obtain ⟨rfl, henv⟩ := h
  cases o with
  | ok => exact hok s t henv
  | nack => exact ⟨henv, rfl⟩
  | timeout kind => exact ⟨henv, rfl⟩

/-- Execute does the same on the ports, and succeeds or fails alike, whatever the other registers hold. -/
theorem exec_blind {i : Instr} {s t s' t' : State} (h : s.env = t.env) (hs : exec i s = .next s')
    (ht : exec i t = .next t') : SameResult s' t' := by
  have hwf := wf_of_exec_next hs
  cases hrec : recognized i with
  | false =>
    rw [exec_of_unrecognized hrec] at hs ht
    cases hs; cases ht
    exact ⟨h, rfl⟩
  | true =>
    cases i with
    | write a r p =>
      rw [exec_write_eq hwf] at hs ht
      cases hs; cases ht
      exact concludeTxn_blind (txnWrite_blind a r p s t h) fun u v huv =>
        ⟨by rw [show ((u.bufStore 0 (countByte p)).succeed 1#8).env = (u.bufStore 0 (countByte p)).env from rfl,
          show ((v.bufStore 0 (countByte p)).succeed 1#8).env = (v.bufStore 0 (countByte p)).env from rfl,
          bufStore_env, bufStore_env, huv], rfl⟩
    | read a r n =>
      cases hs; cases ht
      exact concludeTxn_blind (txnRead_blind a r n s t h) fun u v huv => ⟨huv, rfl⟩
    | detect as =>
      have hscan := scanAll_blind as (s.setOutCnt 0#8) (t.setOutCnt 0#8) h
      simp only [exec, execDetect, answerIf, show payloadFits as = true from hwf, if_true] at hs ht
      cases hs; cases ht
      generalize scanAll as (s.setOutCnt 0#8) = r at hscan ⊢
      generalize scanAll as (t.setOutCnt 0#8) = r' at hscan ⊢
      obtain ⟨o, u⟩ := r
      obtain ⟨o', v⟩ := r'
      obtain ⟨rfl, henv⟩ := hscan
      cases o <;> exact ⟨henv, rfl⟩
    | echo p =>
      rw [exec_echo_of_fits hwf] at hs ht
      cases hs; cases ht
      exact ⟨h, rfl⟩
    | _ => cases hrec

/-- The actions of a probe tell whether the address was acknowledged. -/
theorem probeActions_append_inj {a : Byte} {b b' : Bool} {xs ys : List Event}
    (h : probeActions a b ++ xs = probeActions a b' ++ ys) : b = b' ∧ xs = ys := by
  cases b <;> cases b' <;> simp_all [probeActions]

/-- The actions of a scan tell which candidates acknowledged. -/
theorem acks_of_probesActions {as : List Byte} {acks acks' : List Bool} (hl : acks.length = as.length)
    (hl' : acks'.length = as.length) (h : probesActions (as.zip acks) = probesActions (as.zip acks')) : acks = acks' := by
  induction as generalizing acks acks' with
  | nil => rw [List.length_eq_zero_iff.1 hl, List.length_eq_zero_iff.1 hl']
  | cons a as ih =>
    match acks, acks', hl, hl' with
    | b :: acks, b' :: acks', hl, hl' =>
      obtain ⟨rfl, hrest⟩ := probeActions_append_inj h
      rw [ih (Nat.succ.inj hl) (Nat.succ.inj hl') hrest]

/-- From the same environment the same events follow. -/
theorem events_eq {s t s' t' : State} {es fs : List Event} (h : s.env = t.env) (h' : s'.env = t'.env)
    (hs : s'.trace = es.reverse ++ s.trace) (ht : t'.trace = fs.reverse ++ t.trace) : es = fs := by
  have htrace := env_trace h'
  rw [hs, ht, env_trace h] at htrace
  exact List.reverse_injective (List.append_cancel_right htrace)

/-- Execute leaves the same response pending. -/
theorem exec_pending_eq {i : Instr} {s t s' t' : State} (hrec : recognized i = true) (h : s.env = t.env)
    (hheld : s.heldFrame = some (encode i)) (hheld' : t.heldFrame = some (encode i))
    (hs : exec i s = .next s') (ht : exec i t = .next t') : s'.pendingResponse = t'.pendingResponse := by
  obtain ⟨hwrite, hread, -, hecho, -⟩ := responsesOfCommands
  obtain ⟨henv, hok⟩ := exec_blind h hs ht
  cases i with
  | write a r p => rw [hwrite a r p s s' hs, hwrite a r p t t' ht, hok]
  | read a r n => rw [hread a r n s s' hs, hread a r n t t' ht, hok, env_busBytes h]
  | detect as =>
    have hfits := wf_of_exec_next hs
    obtain ⟨u, es, acks, hu, -, htrace, hpend, hcases⟩ := detectTraces as s hfits
    obtain ⟨v, fs, acks', hv, -, htrace', hpend', hcases'⟩ := detectTraces as t hfits
    obtain rfl := Host.Outcome.next.inj (hs.symm.trans hu)
    obtain rfl := Host.Outcome.next.inj (ht.symm.trans hv)
    rw [hpend, hpend', ← hok]
    cases hres : s'.resOk with
    | false => rfl
    | true =>
      obtain ⟨-, hlen, hacts, -⟩ := hcases.resolve_right fun h => by rw [hres] at h; cases h.1
      obtain ⟨-, hlen', hacts', -⟩ := hcases'.resolve_right fun h => by rw [← hok, hres] at h; cases h.1
      obtain rfl := events_eq h henv htrace htrace'
      rw [acks_of_probesActions hlen hlen' (hacts.symm.trans hacts')]
  | echo p => rw [hecho p s s' hs (readRange_of_held_echo hheld), hecho p t t' ht (readRange_of_held_echo hheld')]
  | _ => cases hrec

/-- A success that is not begun and the same response pending: the same payload. -/
theorem payload_eq_of_pending {s t : State} (hst : s.st = .respond) (hst' : t.st = .respond) (hph : s.ph.isTx = false)
    (hph' : t.ph.isTx = false) (hok : s.resOk = true) (hok' : t.resOk = true) {bs : List Byte}
    (h : s.pendingResponse = some bs) (h' : t.pendingResponse = some bs) :
    s.resLen = t.resLen ∧ ∀ k, k < s.resLen.toNat → s.buf.read k = t.buf.read k := by
  rw [pendingResponse_of_txLen hst (beginRespond_ph_of_resOk hph hok)] at h
  rw [pendingResponse_of_txLen hst' (beginRespond_ph_of_resOk hph' hok')] at h'
  obtain ⟨p, hp, hbs⟩ := Option.map_eq_some_iff.1 h
  obtain ⟨q, hq, hbs'⟩ := Option.map_eq_some_iff.1 h'
  rw [← hbs'] at hbs
  obtain ⟨hlen, rfl⟩ := List.cons.inj hbs
  obtain ⟨hpl, hpr⟩ := (Memory.readRange_eq_some _ _ _ _).1 hp
  obtain ⟨-, hqr⟩ := (Memory.readRange_eq_some _ _ _ _).1 hq
  refine ⟨hlen, fun k hk => ?_⟩
  have h1 := hpr k (by omega)
  have h2 := hqr k (by omega)
  rw [Nat.zero_add] at h1 h2
  rw [h1, h2]

/-! ## Receive -/

theorem rxByte_blind : Blind rxByte := by
  intro s t h
  have hw := wait_blind (fun f => f.rxReady) false s.params.tRx s t h
  unfold rxByte
  rw [← env_params h]
  generalize wait (fun f => f.rxReady) false s.params.tRx s = r at hw ⊢
  generalize wait (fun f => f.rxReady) false s.params.tRx t = r' at hw ⊢
  obtain ⟨o, u⟩ := r
  obtain ⟨o', v⟩ := r'
  obtain ⟨rfl, henv⟩ := hw
  cases o with
  | expired => exact ⟨rfl, henv⟩
  | done => exact ⟨congrArg some (env_rxAnswer henv), env_rxTaken henv⟩
  | nack => exact ⟨congrArg some (env_rxAnswer henv), env_rxTaken henv⟩

theorem rxThen_blind {r r' : RxResult} {k k' : State → RxResult} (h : Alike r r')
    (hk : r.1 = true → Alike (k r.2) (k' r'.2)) : Alike (rxThen r k) (rxThen r' k') := by
  obtain ⟨came, s⟩ := r
  obtain ⟨came', t⟩ := r'
  obtain ⟨rfl, henv⟩ := h
  cases came with
  | true => exact hk rfl
  | false => exact ⟨rfl, henv⟩

/-- One field: the same byte is stored, or none. -/
theorem rxStore_alike {put : State → Byte → State} {s t : State} (h : s.env = t.env)
    (hput : ∀ u y, (put u y).env = u.env) :
    Alike (rxStore put s) (rxStore put t) ∧ ((rxStore put s).1 = true →
      ∃ u v y, (rxStore put s).2 = put u y ∧ (rxStore put t).2 = put v y) := by
  have hb := rxByte_blind s t h
  unfold rxStore
  generalize rxByte s = r at hb ⊢
  generalize rxByte t = r' at hb ⊢
  obtain ⟨o, u⟩ := r
  obtain ⟨o', v⟩ := r'
  obtain ⟨rfl, henv⟩ := hb
  cases o with
  | none => exact ⟨⟨rfl, henv⟩, nofun⟩
  | some y => exact ⟨⟨rfl, by rw [hput, hput]; exact henv⟩, fun _ => ⟨u, v, y, rfl, rfl⟩⟩

theorem rxAddr_blind : Blind rxAddr := fun s t h =>
  (rxStore_alike (put := State.setDevAddr) (s := s.setPh .rxAddr) (t := t.setPh .rxAddr) h fun _ _ => rfl).1

theorem rxReg_blind : Blind rxReg := fun s t h =>
  (rxStore_alike (put := State.setRegPtr) (s := s.setPh .rxReg) (t := t.setPh .rxReg) h fun _ _ => rfl).1

/-- The count is the byte that came. -/
theorem rxCount_alike {s t : State} (h : s.env = t.env) :
    Alike (rxCount s) (rxCount t) ∧ ((rxCount s).1 = true → (rxCount s).2.count = (rxCount t).2.count) := by
  obtain ⟨halike, hput⟩ := rxStore_alike (put := State.setCount) (s := s.setPh .rxCount) (t := t.setPh .rxCount) h
    fun _ _ => rfl
  refine ⟨halike, fun hcame => ?_⟩
  obtain ⟨u, v, y, hu, hv⟩ := hput hcame
  rw [rxCount, rxCount, hu, hv]
  rfl

theorem putPayloadByte_env (s : State) (y : Byte) : (putPayloadByte s y).env = s.env := bufStore_env _ _ _

theorem rxPayloadLoop_blind (k : Nat) : Blind (rxPayloadLoop k) := by
  induction k with
  | zero => exact fun s t h => ⟨rfl, h⟩
  | succ k ih =>
    intro s t h
    have hstore := (rxStore_alike (put := putPayloadByte) h putPayloadByte_env).1
    exact rxThen_blind hstore fun _ => ih _ _ hstore.2

/-- The fields up to the count, and then the payload that the count announces. -/
theorem rxPayload_after_count {f : State → RxResult} {s t : State} (h : Alike (f s) (f t))
    (hcount : (f s).1 = true → (f s).2.count = (f t).2.count) :
    Alike (rxThen (f s) rxPayload) (rxThen (f t) rxPayload) := by
  refine rxThen_blind h fun hcame => ?_
  rw [rxPayload, rxPayload, hcount hcame]
  exact rxPayloadLoop_blind _ (((f s).2.setPh .rxData).setIdx 0#8) (((f t).2.setPh .rxData).setIdx 0#8) h.2

theorem rxRead_alike {s t : State} (h : s.env = t.env) :
    Alike (rxRead s) (rxRead t) ∧ ((rxRead s).1 = true → (rxRead s).2.count = (rxRead t).2.count) := by
  have hreg := rxThen_blind (rxAddr_blind s t h) fun _ => rxReg_blind _ _ (rxAddr_blind s t h).2
  obtain ⟨hcount, hsame⟩ := rxCount_alike hreg.2
  refine ⟨rxThen_blind hreg fun _ => hcount, ?_⟩
  unfold rxRead
  generalize rxThen (rxAddr s) rxReg = r at hreg hcount hsame ⊢
  generalize rxThen (rxAddr t) rxReg = r' at hreg hcount hsame ⊢
  obtain ⟨came, u⟩ := r
  obtain ⟨came', v⟩ := r'
  obtain ⟨rfl, henv⟩ := hreg
  cases came with
  | true => exact hsame
  | false => exact nofun

theorem rxWrite_blind : Blind rxWrite := fun _ _ h =>
  have hr := rxRead_alike h
  rxPayload_after_count (f := rxRead) hr.1 hr.2

theorem rxListed_blind : Blind fun s => rxThen (rxCount s) rxPayload := fun _ _ h =>
  have hr := rxCount_alike h
  rxPayload_after_count (f := rxCount) hr.1 hr.2

/-- Two states that Receive leaves: the same environment and the same dispatcher state. -/
def SamePlace (s t : State) : Prop := s.env = t.env ∧ s.st = t.st

theorem rxFinish_blind {r r' : RxResult} (h : Alike r r') : SamePlace (rxFinish r) (rxFinish r') := by
  obtain ⟨came, s⟩ := r
  obtain ⟨came', t⟩ := r'
  obtain ⟨rfl, henv⟩ := h
  cases came <;> exact ⟨henv, rfl⟩

theorem parseFrom_blind (x : Byte) {s t : State} (h : s.env = t.env) : SamePlace (parseFrom x s) (parseFrom x t) := by
  have h' : (s.setCmdId x).env = (t.setCmdId x).env := h
  simp only [parseFrom]
  split
  · exact rxFinish_blind (rxWrite_blind _ _ h')
  split
  · exact rxFinish_blind (rxRead_alike h').1
  split
  · exact rxFinish_blind (rxListed_blind _ _ h')
  split
  · exact rxFinish_blind (rxListed_blind _ _ h')
  · exact ⟨h, rfl⟩

theorem receiveBounded_blind {s t : State} (h : s.env = t.env) : SamePlace (receiveBounded s) (receiveBounded t) := by
  have hb := rxByte_blind s t h
  unfold receiveBounded
  generalize rxByte s = r at hb ⊢
  generalize rxByte t = r' at hb ⊢
  obtain ⟨o, u⟩ := r
  obtain ⟨o', v⟩ := r'
  obtain ⟨rfl, henv⟩ := hb
  cases o with
  | none => exact ⟨henv, rfl⟩
  | some x => exact parseFrom_blind x henv

theorem receiveUnbounded_blind {s t : State} (h : s.env = t.env) (hst : s.st = t.st) :
    SamePlace (receiveUnbounded s) (receiveUnbounded t) := by
  unfold receiveUnbounded
  rw [env_pollAnswer h, env_rxAnswer (env_polled h)]
  split
  · exact parseFrom_blind _ (env_rxTaken (env_polled h))
  · exact ⟨env_polled h, hst⟩

theorem receive_blind {s t : State} (h : s.env = t.env) (hst : s.st = t.st) : SamePlace (receive s) (receive t) := by
  cases hb : s.params.idWaitBounded with
  | true =>
    rw [receive_of_bounded hb, receive_of_bounded (by rw [← env_params h, hb])]
    exact receiveBounded_blind (s := s.openFrame) (t := t.openFrame) h
  | false =>
    rw [receive_of_unbounded hb, receive_of_unbounded (by rw [← env_params h, hb])]
    exact receiveUnbounded_blind (s := s.openFrame) (t := t.openFrame) h hst

/-- Frames taken from the same bytes, up to the same place, are the same frame. -/
theorem frame_eq_of_taken {s t s' t' : State} {i j : Instr} (h : s.env = t.env) (h' : s'.env = t'.env)
    (hi : s.rxBytes (encode i).length = encode i) (hj : t.rxBytes (encode j).length = encode j)
    (htaken : s'.rx = s.rx.advance (encode i).length) (htaken' : t'.rx = t.rx.advance (encode j).length) :
    encode i = encode j := by
  have hrx := env_rx h'
  rw [htaken, htaken', env_rx h] at hrx
  have hdrawn := congrArg Feed.drawn hrx
  rw [Feed.advance_drawn, Feed.advance_drawn] at hdrawn
  have hlen : (encode i).length = (encode j).length := by omega
  rw [← hi, ← hj, hlen, env_rxBytes h]

/-! ## The two runs -/

theorem SameView.env {s t : State} (h : SameView s t) : s.env = t.env := by
  simp only [State.env, h.params, h.polls, h.rx, h.busRx, h.trace]

/-- Where nothing is held and nothing pending, the environment and the dispatcher state are all that is observed. -/
theorem SameView.of_env {s t : State} (henv : s.env = t.env) (hst : s.st = t.st)
    (hheld : s.st = .execute → s.heldFrame = t.heldFrame) (htag : s.st = .respond → s.resOk = t.resOk)
    (hph : s.st = .respond → s.ph.isTx = false ∧ t.ph.isTx = false)
    (hpayload : s.st = .respond → s.resOk = true →
      s.resLen = t.resLen ∧ ∀ k, k < s.resLen.toNat → s.buf.read k = t.buf.read k) : SameView s t where
  st := hst
  params := env_params henv
  polls := env_polls henv
  rx := env_rx henv
  busRx := env_busRx henv
  trace := env_trace henv
  held := hheld
  tag := htag
  begun := fun h => by
    obtain ⟨hs, ht⟩ := hph h
    rw [hs, ht]
    exact ⟨rfl, nofun⟩
  position := fun h htx => absurd htx (not_tx_of_isTx (hph h).1).2.1
  payload := hpayload

theorem receive_sameView {s t : State} (henv : s.env = t.env) (hst : s.st = .receive) (hst' : t.st = .receive) :
    SameView (receive s) (receive t) := by
  obtain ⟨henv', hplace⟩ := receive_blind henv (hst.trans hst'.symm)
  obtain ⟨es, hrun, hends⟩ := receive_cases s
  obtain ⟨fs, hrun', hends'⟩ := receive_cases t
  have hrespond : (receive s).st = .respond → (receive s).resOk = false ∧ (receive t).resOk = false := by
    intro h
    have h' := hplace.symm.trans h
    cases hends with
    | failed st resOk kind =>
      cases hends' with
      | failed st' resOk' kind' => exact ⟨resOk, resOk'⟩
      | frame j st' => rw [st'] at h'; cases h'
      | waiting st' => rw [st', hst'] at h'; cases h'
    | frame i st => rw [st] at h; cases h
    | waiting st => rw [st, hst] at h; cases h
  refine .of_env henv' hplace (fun h => ?_) (fun h => ?_) (fun _ => ⟨hrun.ph, hrun'.ph⟩) (fun h hok => ?_)
  · have h' := hplace.symm.trans h
    cases hends with
    | frame i st wf rec held acts bytes taken =>
      cases hends' with
      | frame j st' wf' rec' held' acts' bytes' taken' =>
        rw [held, held', frame_eq_of_taken henv henv' bytes bytes' taken taken']
      | failed st' => rw [st'] at h'; cases h'
      | waiting st' => rw [st', hst'] at h'; cases h'
    | failed st => rw [st] at h; cases h
    | waiting st => rw [st, hst] at h; cases h
  · obtain ⟨hs, ht⟩ := hrespond h
    rw [hs, ht]
  · rw [(hrespond h).1] at hok
    cases hok

theorem execute_sameView {i : Instr} {s t s' t' : State} (hrec : recognized i = true) (henv : s.env = t.env)
    (hheld : s.heldFrame = some (encode i)) (hheld' : t.heldFrame = some (encode i))
    (hs : exec i s = .next s') (ht : exec i t = .next t') : SameView s' t' := by
  obtain ⟨henv', hok⟩ := exec_blind henv hs ht
  obtain ⟨es, hrun⟩ := exec_run_of_next hs
  obtain ⟨fs, hrun'⟩ := exec_run_of_next ht
  obtain ⟨bs, hpend⟩ := exec_pending hrec hheld hs
  have hpend' : t'.pendingResponse = some bs := by rw [← exec_pending_eq hrec henv hheld hheld' hs ht, hpend]
  refine .of_env henv' (hrun.st.trans hrun'.st.symm) (fun h => ?_) (fun _ => hok) (fun _ => ⟨hrun.ph hrec, hrun'.ph hrec⟩)
    fun _ h => payload_eq_of_pending hrun.st hrun'.st (hrun.ph hrec) (hrun'.ph hrec) h (hok.symm.trans h) hpend hpend'
  rw [hrun.st] at h
  cases h

/-- A serializer that is to send the length byte serves a success. -/
theorem Inv.resOk_of_txLen {s : State} (hinv : Inv s) (hst : s.st = .respond) (hph : (beginRespond s).ph = .txLen) : s.resOk = true := by
  by_cases htx : s.ph.isTx = true
  · rw [beginRespond, if_pos htx] at hph
    exact hinv.tagged hst (.inl hph)
  · by_contra hres
    rw [beginRespond, if_neg htx, State.setPh_ph, if_neg hres] at hph
    cases hph

section
variable {s t : State} (h : SameView s t) (hst : s.st = .respond)
include h

theorem SameView.pollAhead (k : Nat) : t.pollAhead k = s.pollAhead k := by
  rw [State.pollAhead, State.pollAhead, h.polls]

include hst

theorem SameView.st' : t.st = .respond := h.st.symm.trans hst

theorem SameView.beginRespond_ph : (beginRespond s).ph = (beginRespond t).ph := by
  obtain ⟨htx, hph⟩ := h.begun hst
  rw [beginRespond_eq, beginRespond_eq, ← htx, ← h.tag hst]
  show (if s.ph.isTx then s.ph else _) = if s.ph.isTx then t.ph else _
  split
  · rename_i hbegun; exact hph hbegun
  · rfl

theorem SameView.ph_txData (hph : s.ph = .txData) : t.ph = .txData := by
  obtain ⟨-, hph'⟩ := h.begun hst
  rw [← hph' (by rw [hph]; rfl), hph]

/-- The serializers of the two states stand at the same byte. -/
theorem SameView.stands (hinv : Inv s) {b : Byte} (hb : Stands s b) : Stands t b := by
  cases hb with
  | len hph =>
    rw [(h.payload hst (hinv.resOk_of_txLen hst hph)).1]
    exact .len (by rw [← h.beginRespond_ph hst, hph])
  | data _ hph hne hload =>
    obtain ⟨hlen, hreads⟩ := h.payload hst (hinv.tagged hst (.inr hph))
    have hlt := toNat_lt_of_le_of_ne (hinv.placed hst hph) hne
    have hbyte := s.resLen.isLt
    have hidx := h.position hst hph
    refine .data b (h.ph_txData hst hph) (by rw [← hidx, ← hlen]; exact hne) ?_
    rw [← hidx]
    exact State.bufLoad_of_read (by rw [← hreads _ hlt]; exact bufLoad_eq_ok hload) (by rw [bufLen]; omega)
  | fail hph => exact .fail (by rw [← h.beginRespond_ph hst, hph])

theorem SameView.txWait : SameView s.txWait t.txWait where
  st := h.st
  params := h.params
  polls := congrArg (fun f : Feed Poll => f.advance 1) h.polls
  rx := h.rx
  busRx := h.busRx
  trace := by
    show Event.poll _ :: s.trace = .poll _ :: t.trace
    rw [h.pollAhead, h.trace]
  held := fun he => by rw [txWait_st, hst] at he; cases he
  tag := fun _ => h.tag hst
  begun := fun _ => by
    have hph : s.txWait.ph = t.txWait.ph := by
      rw [txWait_eq, txWait_eq]; exact h.beginRespond_ph hst
    exact ⟨by rw [hph], fun _ => hph⟩
  position := fun _ hph => by
    rcases beginRespond_ph_cases s with h' | ⟨h', -⟩ | h'
    · rw [txWait_eq, State.polled_ph, h'] at hph; cases hph
    · exact h.position hst h'
    · rw [txWait_eq, State.polled_ph, h'] at hph; cases hph
  payload := fun _ => h.payload hst

theorem SameView.txPut (b : Byte) : SameView (s.txPut b) (t.txPut b) := by
  have hph := h.beginRespond_ph hst
  have hsame : (s.txPut b).st = (t.txPut b).st ∧ (s.txPut b).ph = (t.txPut b).ph := by
    simp only [State.txPut, hph, and_self]
  have htrace : (s.txPut b).trace = (t.txPut b).trace := by
    simp only [State.txPut, h.pollAhead, h.trace]
  refine ⟨hsame.1, h.params, congrArg (fun f : Feed Poll => f.advance 1) h.polls, h.rx, h.busRx, htrace, fun he => ?_,
    fun _ => h.tag hst, fun _ => ⟨by rw [hsame.2], fun _ => hsame.2⟩, fun hst' _ => ?_, fun _ => h.payload hst⟩
  · simp only [State.txPut] at he
    split at he <;> cases he
  · rcases beginRespond_ph_cases s with h' | ⟨h', hb⟩ | h'
    · rw [txPut_of_txLen hst h', txPut_of_txLen (h.st' hst) (hph.symm.trans h')]
    · rw [txPut_of_txData hst h', txPut_of_txData (h.st' hst) (h.ph_txData hst h')]
      exact congrArg (· + 1#8) (h.position hst h')
    · rw [txPut_of_txFail h'] at hst'
      cases hst'

end

theorem respond_sameView {s t s' : State} (h : SameView s t) (hinv : Inv s) (hst : s.st = .respond)
    (hs : respond s = .next s') : ∃ t', respond t = .next t' ∧ SameView s' t' := by
  have hst' := h.st' hst
  rcases respond_inv hst hs with ⟨hph, hend, rfl⟩ | ⟨b, hb, -⟩
  · have hend' : t.idx = t.resLen := by
      rw [← h.position hst hph, ← (h.payload hst (hinv.tagged hst (.inr hph))).1, hend]
    exact ⟨_, respond_of_end (h.ph_txData hst hph) hend', .of_env h.env rfl nofun nofun nofun nofun⟩
  · have hb' := h.stands hst hinv hb
    have hpoll := h.pollAhead 0
    cases hready : (s.pollAhead 0).txReady with
    | false =>
      rw [respond_of_unready hb hready] at hs
      cases hs
      exact ⟨_, respond_of_unready hb' (by rw [hpoll, hready]), h.txWait hst⟩
    | true =>
      rw [respond_of_ready hst hb hready] at hs
      cases hs
      exact ⟨_, respond_of_ready hst' hb' (by rw [hpoll, hready]), h.txPut hst b⟩

/-- Settles O56, by the dispatcher state, on which the two agree. -/
theorem staleContentsUnobservable : Obligations.StaleContentsUnobservable := by
  intro s t s' hinv hinv' hview hstep
  cases hst : s.st with
  | startup =>
    have hst' : t.st = .startup := hview.st.symm.trans hst
    simp only [step, hst] at hstep
    cases hstep
    exact ⟨startup t, by simp only [step, hst'],
      .of_env (env_log (s := s.setPh .suInit) (t := t.setPh .suInit) hview.env _) rfl nofun nofun nofun nofun⟩
  | receive =>
    have hst' : t.st = .receive := hview.st.symm.trans hst
    rw [step_of_receive hst] at hstep
    cases hstep
    exact ⟨_, step_of_receive hst', receive_sameView hview.env hst hst'⟩
  | execute =>
    have hst' : t.st = .execute := hview.st.symm.trans hst
    obtain ⟨i, hwf, hrec, hheld⟩ := hinv.held hst
    have hheld' : t.heldFrame = some (encode i) := by rw [← hview.held hst, hheld]
    obtain ⟨t', -, ht, -⟩ := exec_run hwf t
    rw [step_of_held hst hwf hheld] at hstep
    exact ⟨t', by rw [step_of_held hst' hwf hheld', ht], execute_sameView hrec hview.env hheld hheld' hstep ht⟩
  | respond =>
    rw [step_of_respond hst] at hstep
    obtain ⟨t', ht, hview'⟩ := respond_sameView hview hinv hst hstep
    exact ⟨t', by rw [step_of_respond (hview.st' hst), ht], hview'⟩

end Sys2Proof.Machine
end

section
/-! The commands whose waits all end below their budget, and those of which one wait expires or is not acknowledged: the
whole next state (42_bus_engine.md, 43_dispatcher.md section 2, 44_device_scan.md). -/

namespace Sys2Proof.Machine

/-! ## What a sequence of the engine leaves, field by field -/

theorem EngineRun.eq {s u : State} {es : List Event} (h : EngineRun s u es) :
    u = { s with ph := u.ph, idx := u.idx, buf := u.buf, toCnt := u.toCnt, polls := u.polls, busRx := u.busRx,
                 trace := es.reverse ++ s.trace } :=
  have hrx : u.rx = s.rx := by rw [h.rx, h.noTake, Feed.advance_zero]
  State.eq_of_fields h.st rfl h.cmdId h.devAddr h.regPtr h.count rfl h.resOk h.resLen rfl h.scanIdx h.scanAddr h.outCnt rfl
    h.params rfl hrx rfl h.trace h.failKind

theorem ScanRun.eq {s u : State} {es : List Event} (h : ScanRun s u es) :
    u = { s with ph := u.ph, scanIdx := u.scanIdx, scanAddr := u.scanAddr, outCnt := u.outCnt, buf := u.buf,
                 toCnt := u.toCnt, polls := u.polls, trace := es.reverse ++ s.trace } :=
  have hrx : u.rx = s.rx := by rw [h.rx, h.noTake, Feed.advance_zero]
  State.eq_of_fields h.st rfl h.cmdId h.devAddr h.regPtr h.count rfl h.resOk h.resLen h.idx rfl rfl rfl rfl
    h.params rfl hrx h.busKept h.trace h.failKind

/-- The countdown after waits that end is what the last of them leaves. -/
theorem ServedRun.toCnt_of_ne_nil {s t : State} {ks : List Nat} {acts : List Event} (h : ServedRun s t ks acts)
    (hks : ks ≠ []) : t.toCnt = s.params.tBus - ks.getLastD 0 := by
  rw [h.toCnt, countdownAfter_eq _ _ _ hks]

theorem pollsOf_singleton (k : Nat) : pollsOf [k] = k + 1 := rfl

theorem State.servedFrom_ne_nil {s : State} {n : Nat} {w : BusWait} {ws : List BusWait} {ks : List Nat}
    (h : s.servedFrom n (w :: ws) ks = true) : ks ≠ [] := by
  cases ks with
  | nil => cases h
  | cons k ks => exact List.cons_ne_nil k ks

theorem ServedRun.servedFrom {s t : State} {js ks : List Nat} {acts : List Event} {ws : List BusWait}
    (h : ServedRun s t js acts) (hks : s.servedFrom (0 + pollsOf js) ws ks = true) : t.servedFrom 0 ws ks = true := by
  rw [State.servedFrom_of_advance h.polls h.params, Nat.add_zero, ← Nat.zero_add (pollsOf js)]
  exact hks

theorem busAhead_of_busRx {s t : State} (h : t.busRx = s.busRx) (k : Nat) : t.busAhead k = s.busAhead k := by
  rw [State.busAhead, State.busAhead, h]

theorem busBytes_of_busRx {s t : State} (h : t.busRx = s.busRx) (k : Nat) : t.busBytes k = s.busBytes k :=
  List.map_congr_left fun j _ => busAhead_of_busRx h j

/-! ## WRITE -/

theorem txnWrite_eq (a r : Byte) (p : List Byte) (s : State) :
    txnWrite a r p s = andThen (andThen (addrPhase a s) (sendPointer r)) fun s2 =>
      andThen (sendPayload p ((s2.setPh .exWdata).setIdx 0#8)) fun s3 => (.ok, s3.log .busStop) := by
  rw [andThen_assoc]
  rfl

/-- A WRITE whose waits all end (R175, R176). -/
theorem txnWrite_served {a r : Byte} {p : List Byte} {ks : List Nat} {s : State}
    (h : s.servedFrom 0 (waitsOf (.write a r p)) ks = true) :
    ∃ t, txnWrite a r p s = (.ok, t) ∧ t.buf = s.buf ∧ t.busRx = s.busRx ∧ t.ph = .exWdata ∧ t.idx = countByte p ∧
      ServedRun s t ks (pointerActions a r ++ p.map .busSend ++ [.busStop]) := by
  obtain ⟨js, ls, rfl, hpointer, hpayload⟩ := State.servedFrom_split (vs := [.idle, .mms, .tms, .btxPointer]) h
  obtain ⟨t1, htxn1, ⟨hbuf1, -, hbus1⟩, -, hrun1⟩ := pointerPhase_served a r js s hpointer
  have hrun2 := (hrun1.trans (ServedRun.setPh t1 .exWdata)).trans (ServedRun.setIdx _ 0#8)
  simp only [List.append_nil] at hrun2
  obtain ⟨t, htxn, hbuf, hbus, hph, hidx, hrun⟩ := sendPayload_served p ls _ (hrun2.servedFrom hpayload)
  have hall := (hrun2.trans hrun).trans (ServedRun.log t .busStop rfl)
  simp only [List.append_nil] at hall
  refine ⟨t.log .busStop, by rw [txnWrite_eq, htxn1, andThen_ok, htxn, andThen_ok], hbuf.trans hbuf1, hbus.trans hbus1,
    hph, ?_, hall⟩
  rw [State.log_idx, hidx, State.setIdx_idx, BitVec.zero_add, countByte]

/-- Settles O14. -/
theorem writeCompletes : Obligations.WriteCompletes := by
  intro a r p ks s hfits h
  obtain ⟨u, htxn, hbuf, hbus, hph, hidx, hserved⟩ := txnWrite_served h
  obtain ⟨es, hrun, hacts, hpolls⟩ := hserved.run
  refine ⟨es, ?_, hacts, hpolls⟩
  rw [exec_write_eq hfits, htxn, hrun.eq, hbuf, hbus, hph, hidx, hserved.polls,
    hserved.toCnt_of_ne_nil (State.servedFrom_ne_nil h)]
  rfl

/-! ## READ -/

theorem txnRead_eq (a r n : Byte) (s : State) :
    txnRead a r n s = andThen (andThen (addrPhase a s) (sendPointer r)) fun s2 =>
      if n = 0#8 then (.ok, s2.log .busStop)
      else andThen (reAddrPhase a s2) fun s3 => recvPayload n.toNat ((s3.setPh .exRdata).setIdx 0#8) := by
  rw [andThen_assoc]
  rfl

/-- A READ of at least one byte whose waits all end (R177 to R179). -/
theorem txnRead_served {a r n : Byte} {ks : List Nat} {s : State} (hn : n ≠ 0#8)
    (h : s.servedFrom 0 (waitsOf (.read a r n)) ks = true) :
    ∃ t, txnRead a r n s = (.ok, t) ∧ t.buf = s.buf.writeRange 0 (s.busBytes n.toNat) ∧
      t.busRx = s.busRx.advance n.toNat ∧ t.ph = .exRdata ∧ t.idx = n ∧ ServedRun s t ks (readDone a r n s) := by
  obtain ⟨m, hm⟩ : ∃ m, n.toNat = m + 1 :=
    Nat.exists_eq_succ_of_ne_zero fun h0 => hn (BitVec.eq_of_toNat_eq h0)
  have hlt := n.isLt
  rw [waitsOf, if_neg hn, hm] at h
  obtain ⟨js, ls, rfl, hsetup, hreceive⟩ := State.servedFrom_split (vs := [.idle, .mms, .tms, .btxPointer, .mms, .rms]) h
  obtain ⟨is, ms, rfl, hpointer, hrestart⟩ :=
    State.servedFrom_split (vs := [.idle, .mms, .tms, .btxPointer]) (ws := [.mms, .rms]) hsetup
  obtain ⟨t1, htxn1, ⟨hbuf1, -, hbus1⟩, -, hrun1⟩ := pointerPhase_served a r is s hpointer
  obtain ⟨t2, htxn2, ⟨hbuf2, -, hbus2⟩, -, hrun2⟩ := reAddrPhase_served a ms t1 (hrun1.servedFrom hrestart)
  have hrun3 := ((hrun1.trans hrun2).trans (ServedRun.setPh t2 .exRdata)).trans (ServedRun.setIdx _ 0#8)
  simp only [List.append_nil] at hrun3
  have hbus : ((t2.setPh .exRdata).setIdx 0#8).busRx = s.busRx := hbus2.trans hbus1
  obtain ⟨t, htxn, hph, hbuf, hidx, hbusT, hrun⟩ := recvPayload_served m ls ((t2.setPh .exRdata).setIdx 0#8)
    (by rw [State.setIdx_idx, bufLen]; simp; omega) (hrun3.servedFrom hreceive)
  rw [busBytes_of_busRx hbus] at hbuf
  rw [busBytes_of_busRx hbus, busAhead_of_busRx hbus] at hrun
  refine ⟨t, by rw [txnRead_eq, htxn1, andThen_ok, if_neg hn, htxn2, andThen_ok, hm, htxn], ?_, ?_, hph, ?_, ?_⟩
  · rw [hm, hbuf]
    exact congrArg (fun b : Memory => b.writeRange 0 _) (hbuf2.trans hbuf1)
  · rw [hm, hbusT, hbus]
  · rw [hidx, State.setIdx_idx, BitVec.zero_add, ← hm, BitVec.ofNat_toNat, BitVec.setWidth_eq]
  · have hall := hrun3.trans hrun
    rw [← List.append_assoc] at hall
    rw [readDone, if_neg hn, hm]
    exact hall

/-- Settles O15. -/
theorem readCompletes : Obligations.ReadCompletes := by
  intro a r n ks s hn h
  obtain ⟨u, htxn, hbuf, hbus, hph, hidx, hserved⟩ := txnRead_served hn h
  obtain ⟨es, hrun, hacts, hpolls⟩ := hserved.run
  have hne : ks ≠ [] := by
    rw [waitsOf, if_neg hn] at h
    exact State.servedFrom_ne_nil h
  refine ⟨es, ?_, by rw [hacts, readDone, if_neg hn]; rfl, hpolls⟩
  rw [exec_read_eq, htxn, hrun.eq, hbuf, hbus, hph, hidx, hserved.polls, hserved.toCnt_of_ne_nil hne]
  rfl

/-- Settles O16: no receive phase follows the pointer. -/
theorem readOfNothingCompletes : Obligations.ReadOfNothingCompletes := by
  intro a r ks s h
  rw [waitsOf, if_pos rfl] at h
  obtain ⟨u, htxn, ⟨hbuf, hidx, hbus⟩, hph, hpointer⟩ := pointerPhase_served a r ks s h
  have hserved := hpointer.trans (ServedRun.log u .busStop rfl)
  rw [List.append_nil] at hserved
  obtain ⟨es, hrun, hacts, hpolls⟩ := hserved.run
  refine ⟨es, ?_, hacts, hpolls⟩
  rw [exec_read_eq, txnRead_eq, htxn, andThen_ok, if_pos rfl, hrun.eq, State.log_buf, hbuf, State.log_busRx, hbus,
    State.log_ph, hph, State.log_idx, hidx, hserved.polls, hserved.toCnt_of_ne_nil (State.servedFrom_ne_nil h)]
  rfl

/-! ## DETECT -/

/-- Where a scan starts: nothing retained, an explicit list counted from 0 (R260). -/
def scanStart (as : List Byte) (s : State) : State :=
  if as = [] then s.setOutCnt 0#8 else (s.setOutCnt 0#8).setScanIdx 0#8

theorem scanAll_eq (as : List Byte) (s : State) :
    scanAll as (s.setOutCnt 0#8) = scanLoop (!as.isEmpty) (candidates as) (scanStart as s) := by
  cases as <;> rfl

section
variable (as : List Byte) (s : State)

theorem scanStart_run : ScanRun s (scanStart as s) [] := by
  unfold scanStart
  split
  · exact .setOutCnt s _
  · exact (ScanRun.setOutCnt s _).trans (.setScanIdx _ _)

@[simp] theorem scanStart_outCnt : (scanStart as s).outCnt = 0#8 := by cases as <;> rfl
@[simp] theorem scanStart_buf : (scanStart as s).buf = s.buf := by cases as <;> rfl
@[simp] theorem scanStart_scanAddr : (scanStart as s).scanAddr = s.scanAddr := by cases as <;> rfl
@[simp] theorem scanStart_params : (scanStart as s).params = s.params := (scanStart_run as s).params

theorem scanStart_polls : (scanStart as s).polls = s.polls.advance 0 := (scanStart_run as s).polls

theorem scanStart_pollAhead : (scanStart as s).pollAhead = s.pollAhead :=
  funext fun k => by rw [State.pollAhead_of_advance (scanStart_polls as s), Nat.zero_add]

/-- The index of the list that a scan has reached after so many candidates. -/
theorem scanStart_scanIdx_after (n : Nat) :
    (if (!as.isEmpty) = true then (scanStart as s).scanIdx + BitVec.ofNat 8 n else (scanStart as s).scanIdx) =
      if as = [] then s.scanIdx else BitVec.ofNat 8 n := by
  cases as with
  | nil => rfl
  | cons a as => exact BitVec.zero_add _

end

/-- Settles O17, by the scan loop from its start. -/
theorem detectCompletes : Obligations.DetectCompletes := by
  intro as ends s hfits hlen h
  obtain ⟨hsome, hmost⟩ := candidates_length_le as hfits
  obtain ⟨u, es, hloop, hrun, hacts, hrecords, hpolls, hbuf, hout, hidx, haddr, hph, hcnt⟩ :=
    scanLoop_served (!as.isEmpty) (candidates as) ends (scanStart as s) (by simpa using hmost) hlen
      (by rw [State.probedFrom_of_advance (scanStart_polls as s) (scanStart_params as s)]; exact h)
  have hne : candidates as ≠ [] := List.ne_nil_of_length_pos hsome
  have hends : ends.map (fun e => e.address) ≠ [] := by
    intro h0
    rw [List.map_eq_nil_iff.1 h0, List.length_nil] at hlen
    omega
  have hlist : (if as = [] then s.scanIdx else BitVec.ofNat 8 (candidates as).length) =
      if as = [] then s.scanIdx else countByte as := by
    cases as <;> rfl
  have hall := (scanStart_run as s).trans hrun
  rw [List.nil_append] at hall
  rw [scanStart_outCnt, BitVec.zero_add] at hout
  rw [scanStart_outCnt, scanStart_buf] at hbuf
  rw [scanStart_polls, Feed.advance_advance, Nat.zero_add] at hpolls
  rw [scanStart_scanIdx_after, hlist] at hidx
  rw [scanStart_scanAddr] at haddr
  rw [countdownAfter_eq _ _ _ hends, scanStart_params] at hcnt
  refine ⟨es, ?_, hacts, by rw [hrecords, scanStart_pollAhead]⟩
  rw [exec_detect_of_scan_ok hfits (by rw [scanAll_eq, hloop]), hall.eq, hph hne, hidx, haddr, hout, hbuf, hpolls, hcnt]
  rfl

/-! ## A wait that expires -/

/-- Whichever wait of a WRITE expires. -/
theorem exec_write_expired {a r : Byte} {p : List Byte} {w : BusWait} {ks : List Nat} {s : State}
    (hfits : payloadFits p = true) (hs : s.servedFrom 0 ((waitsOf (.write a r p)).take ks.length) ks = true)
    (hw : (waitsOf (.write a r p))[ks.length]? = some w)
    (hu : s.undecided w.done w.nackEn (pollsOf ks) s.params.tBus = true) :
    ∃ es : List Event,
      exec (.write a r p) s = .next { s with
        st := .respond
        ph := (([.exIdle, .exStart, .exAddrW, .exReg] : List Phase)[ks.length]?.getD .exWdata)
        idx := (if ks.length < 4 then s.idx else BitVec.ofNat 8 (ks.length - 4))
        toCnt := 0, resOk := false, failKind := some w.expiryKind
        polls := s.polls.advance (pollsOf ks + s.params.tBus), trace := es.reverse ++ s.trace } ∧
      actions es = cutShort (pointerActions a r ++ p.map .busSend) ks.length ∧
      pollRecords es = (List.range (pollsOf ks + s.params.tBus)).map s.pollAhead := by
  obtain ⟨u, htxn, hbuf, hbus, hph, hidx, hexpired⟩ := txnWrite_expired a r p ks w s hs hw hu
  obtain ⟨es, hrun, hacts, hrecords⟩ := hexpired.run
  refine ⟨es, ?_, hacts, hrecords⟩
  rw [exec_write_eq hfits, htxn, hrun.eq, hbuf, hbus, hph, hidx, hexpired.polls, hexpired.toCnt]
  rfl

/-- Whichever wait of a READ expires. -/
theorem exec_read_expired {a r n : Byte} {w : BusWait} {ks : List Nat} {s : State}
    (hs : s.servedFrom 0 ((waitsOf (.read a r n)).take ks.length) ks = true)
    (hw : (waitsOf (.read a r n))[ks.length]? = some w)
    (hu : s.undecided w.done w.nackEn (pollsOf ks) s.params.tBus = true) :
    ∃ es : List Event,
      exec (.read a r n) s = .next { s with
        st := .respond
        ph := (([.exIdle, .exStart, .exAddrW, .exReg, .exRestart, .exAddrR] : List Phase)[ks.length]?.getD .exRdata)
        idx := (if ks.length < 6 then s.idx else BitVec.ofNat 8 (ks.length - 6))
        buf := s.buf.writeRange 0 (s.busBytes (ks.length - 6))
        toCnt := 0, resOk := false, failKind := some w.expiryKind, busRx := s.busRx.advance (ks.length - 6)
        polls := s.polls.advance (pollsOf ks + s.params.tBus), trace := es.reverse ++ s.trace } ∧
      (actions es =
        if ks.length < 6 then cutShort (readActions a r) ks.length
        else readActions a r ++ (s.busBytes (ks.length - 6)).map .busRecv ++
          (if ks.length - 6 + 1 = n.toNat then [.busAck .none, .busStop] else []) ++ [.busStop, .busAck .current]) ∧
      pollRecords es = (List.range (pollsOf ks + s.params.tBus)).map s.pollAhead := by
  obtain ⟨u, htxn, hbuf, hbus, hph, hidx, hexpired⟩ := txnRead_expired a r n ks w s hs hw hu
  obtain ⟨es, hrun, hacts, hrecords⟩ := hexpired.run
  refine ⟨es, ?_, hacts, hrecords⟩
  rw [exec_read_eq, htxn, hrun.eq, hbuf, hbus, hph, hidx, hexpired.polls, hexpired.toCnt]
  rfl

/-- Probes of the first candidates are the probes of a list that goes on. -/
theorem zip_append_of_length_eq {α β : Type} {xs : List α} {ys : List β} (rest : List α) (h : xs.length = ys.length) :
    (xs ++ rest).zip ys = xs.zip ys := by
  have hzip := List.zip_append (l₁ := xs) (r₁ := rest) (l₂ := ys) (r₂ := []) h
  rwa [List.append_nil, List.zip_nil_right, List.append_nil] at hzip

/-- Whichever wait of a probe expires. -/
theorem exec_detect_expired {as : List Byte} {ends : List ProbeEnd} {a : Byte} {w : BusWait} {ks : List Nat} {s : State}
    (hfits : payloadFits as = true) (ha : (candidates as)[ends.length]? = some a) (h : s.probedFrom 0 ends = true)
    (hs : s.servedFrom (ends.map fun e => e.polls).sum ([.idle, .mms, .tms].take ks.length) ks = true)
    (hw : ([.idle, .mms, .tms] : List BusWait)[ks.length]? = some w)
    (hu : s.undecided w.done w.nackEn ((ends.map fun e => e.polls).sum + pollsOf ks) s.params.tBus = true) :
    let probed := (candidates as).zip (ends.map fun e => e.acked)
    let polls := (ends.map fun e => e.polls).sum + pollsOf ks + s.params.tBus
    ∃ es : List Event,
      exec (.detect as) s = .next { s with
        st := .respond
        ph := (([.exIdle, .exStart] : List Phase)[ks.length]?.getD .exAddrW)
        scanIdx := (if as = [] then s.scanIdx else BitVec.ofNat 8 ends.length)
        scanAddr := a, outCnt := countByte (acknowledged probed)
        buf := s.buf.writeRange 0 (acknowledged probed)
        toCnt := 0, resOk := false, failKind := some w.expiryKind
        polls := s.polls.advance polls, trace := es.reverse ++ s.trace } ∧
      actions es = probesActions probed ++ cutShort [Event.busStart, .busAddr (addr7 a) .write] ks.length ∧
      pollRecords es = (List.range polls).map s.pollAhead := by
  obtain ⟨-, hmost⟩ := candidates_length_le as hfits
  obtain ⟨hlt, hget⟩ := List.getElem?_eq_some_iff.1 ha
  have hsplit : candidates as = (candidates as).take ends.length ++ a :: (candidates as).drop (ends.length + 1) := by
    rw [← hget, ← List.drop_eq_getElem_cons hlt, List.take_append_drop]
  have hlen : ((candidates as).take ends.length).length = ends.length := by
    rw [List.length_take, Nat.min_eq_left (Nat.le_of_lt hlt)]
  have hstart := scanStart_polls as s
  have hparams := scanStart_params as s
  obtain ⟨u, es, hloop, hrun, hacts, hrecords, hpolls, hbuf, hout, hidx, haddr, hph, hcnt⟩ :=
    scanLoop_expired (!as.isEmpty) ((candidates as).take ends.length) a ((candidates as).drop (ends.length + 1)) ends w ks
      (scanStart as s) (by rw [hlen]; simp; omega) hlen.symm
      (by rw [State.probedFrom_of_advance hstart hparams]; exact h)
      (by rw [State.servedFrom_of_advance hstart hparams, Nat.zero_add]; exact hs) hw
      (by rw [State.undecided_of_advance hstart, hparams, Nat.zero_add]; exact hu)
  have hprobed : ((candidates as).take ends.length).zip (ends.map fun e => e.acked) =
      (candidates as).zip (ends.map fun e => e.acked) := by
    conv_rhs => rw [hsplit]
    rw [zip_append_of_length_eq _ (by rw [hlen, List.length_map])]
  rw [hprobed] at hacts hbuf hout
  rw [← hsplit] at hloop
  have hall := (scanStart_run as s).trans hrun
  rw [List.nil_append] at hall
  rw [scanStart_outCnt, BitVec.zero_add] at hout
  rw [scanStart_outCnt, scanStart_buf] at hbuf
  rw [hstart, Feed.advance_advance, Nat.zero_add, hparams] at hpolls
  rw [scanStart_scanIdx_after, hlen] at hidx
  refine ⟨es, ?_, hacts, by rw [hrecords, scanStart_pollAhead, hparams]⟩
  rw [exec_detect_of_scan_timeout hfits (by rw [scanAll_eq, hloop]), hall.eq, hph, hidx, haddr, hout, hbuf, hpolls, hcnt]
  rfl

/-! ### A bus that stays busy -/

theorem eq_polls_of_actions_eq_nil {es : List Event} (h : actions es = []) : es = (pollRecords es).map .poll := by
  induction es with
  | nil => rfl
  | cons e es ih =>
    cases e with
    | poll f => exact congrArg (List.cons (.poll f)) (ih h)
    | _ => cases h

/-- Only polls of the whole budget happened. -/
theorem eq_pollEvents {s : State} {es : List Event} {n : Nat} (hacts : actions es = [])
    (hrecords : pollRecords es = (List.range n).map s.pollAhead) : es = s.pollEvents n := by
  rw [eq_polls_of_actions_eq_nil hacts, hrecords, State.pollEvents, List.map_map]
  rfl

theorem undecided_of_busy {s : State} (h : ∀ k, k < s.params.tBus → (s.pollAhead k).busBusy = true) :
    s.undecided BusWait.idle.done BusWait.idle.nackEn 0 s.params.tBus = true := by
  rw [State.undecided_iff]
  intro j hj
  rw [Nat.zero_add, decides, BusWait.done, BusWait.nackEn, h j hj]
  rfl

theorem waitsOf_read_head (a r n : Byte) : (waitsOf (.read a r n))[0]? = some .idle := by
  rw [waitsOf]
  split <;> rfl

/-- Settles O25: the wait at hand of a WRITE, a READ or a probe; a busy bus expires the first of them. -/
theorem expiredWaitFailsTheCommand : Obligations.ExpiredWaitFailsTheCommand := by
  refine ⟨fun i s hwf hcommand hbusy => ?_, fun a r p w ks s hfits hs hw hu => exec_write_expired hfits hs hw hu,
    fun a r n w ks s hs hw hu => exec_read_expired hs hw hu,
    fun as ends a w ks s hfits ha h hs hw hu => exec_detect_expired hfits ha h hs hw hu⟩
  have hu := undecided_of_busy hbusy
  rcases hcommand with ⟨a, r, p, rfl⟩ | ⟨a, r, n, rfl⟩ | ⟨as, rfl⟩
  · obtain ⟨es, hexec, hacts, hrecords⟩ := exec_write_expired (ks := []) hwf rfl rfl hu
    rw [pollsOf_nil, Nat.zero_add] at hrecords
    exact ⟨_, hexec, rfl, rfl, rfl, by rw [eq_pollEvents hacts hrecords], rfl, rfl⟩
  · obtain ⟨es, hexec, hacts, hrecords⟩ := exec_read_expired (ks := []) rfl (waitsOf_read_head a r n) hu
    rw [pollsOf_nil, Nat.zero_add] at hrecords
    exact ⟨_, hexec, rfl, rfl, rfl, by rw [eq_pollEvents hacts hrecords], rfl, rfl⟩
  · obtain ⟨hsome, -⟩ := candidates_length_le as hwf
    obtain ⟨es, hexec, hacts, hrecords⟩ := exec_detect_expired (ends := []) (ks := []) hwf
      (List.getElem?_eq_getElem hsome) rfl rfl rfl hu
    rw [List.map_nil, List.zip_nil_right] at hexec hacts
    rw [List.map_nil, List.sum_nil, pollsOf_nil, Nat.zero_add] at hrecords
    exact ⟨_, hexec, rfl, rfl, rfl, by rw [eq_pollEvents hacts hrecords], rfl, rfl⟩

/-! ## A device that is absent -/

/-- A WRITE or READ whose address phase is not acknowledged. -/
theorem exec_of_addrPhase_nack {i : Instr} {a : Byte} {s u : State} (hwf : i.wf = true)
    (hi : (∃ r p, i = .write a r p) ∨ (∃ r n, i = .read a r n)) (h : addrPhase a s = (.nack, u)) :
    exec i s = .next (u.raiseFailure .ackFailure) := by
  rcases hi with ⟨r, p, rfl⟩ | ⟨r, n, rfl⟩
  · rw [exec_write_eq hwf, txnWrite_eq, h]
    rfl
  · rw [exec_read_eq, txnRead_eq, h]
    rfl

/-- The wait after the repeated address, when `af` shows at its poll `k` and neither did before. -/
theorem rms_ends_nack {s : State} {n k : Nat} (hk : k < s.params.tBus)
    (hbefore : ∀ j, j < k → (s.pollAhead (n + j)).evRms = false ∧ (s.pollAhead (n + j)).af = false)
    (hrms : (s.pollAhead (n + k)).evRms = false) (haf : (s.pollAhead (n + k)).af = true) :
    s.waitEndsAt .rms n k false = true := by
  have hundecided : s.undecided BusWait.rms.done BusWait.rms.nackEn n k = true := by
    rw [State.undecided_iff]
    intro j hj
    obtain ⟨hrms', haf'⟩ := hbefore j hj
    rw [decides, BusWait.done, hrms', haf']
    rfl
  rw [State.waitEndsAt, hundecided, decide_eq_true hk, BusWait.done, hrms, haf]
  rfl

/-- Settles O26: the address phase, and the repeated address. -/
theorem absentDeviceFailsTransfer : Obligations.AbsentDeviceFailsTransfer := by
  refine ⟨fun i a e s hwf hi hack h => ?_, fun a r n ks k s hn hs hk hbefore hrms haf => ?_⟩
  · obtain ⟨u, haddr, ⟨hbuf, hidx, hbus⟩, hph, hserved⟩ := addrPhase_served a s e h
    simp only [hack, Bool.false_eq_true, if_false] at haddr hserved
    obtain ⟨es, hrun, hacts, hrecords⟩ := hserved.run
    refine ⟨es, ?_, hacts, hrecords⟩
    rw [exec_of_addrPhase_nack hwf hi haddr, hrun.eq, hbuf, hidx, hbus, hph, hserved.polls,
      hserved.toCnt_of_ne_nil (List.cons_ne_nil _ _)]
    rfl
  · obtain ⟨js, ls, rfl, hpointer, hrestart⟩ :=
      State.servedFrom_split (vs := [.idle, .mms, .tms, .btxPointer]) (ws := [.mms]) hs
    obtain ⟨t, htxn1, hdata1, -, hserved1⟩ := pointerPhase_served a r js s hpointer
    match ls, State.servedFrom_length hrestart with
    | [j], _ =>
      have hstart : t.waitEndsAt .mms 0 j true = true := by
        have h := hserved1.servedFrom hrestart
        rwa [State.servedFrom, State.servedFrom, Bool.and_true] at h
      have hnack : t.waitEndsAt .rms (j + 1) k false = true := by
        rw [State.waitEndsAt_of_advance hserved1.polls hserved1.params, ← pollsOf_singleton, ← pollsOf_append]
        exact rms_ends_nack hk hbefore hrms haf
      obtain ⟨u, htxn2, hdata2, hph, hserved2⟩ := reAddrPhase_nack a j k t hstart hnack
      obtain ⟨hbuf, hidx, hbus⟩ := hdata1.trans hdata2
      have hserved := hserved1.trans hserved2
      have hks : js ++ [j, k] = (js ++ [j]) ++ [k] := by rw [List.append_assoc]; rfl
      rw [hks] at hserved
      have hcnt := hserved.toCnt_of_ne_nil (List.concat_ne_nil k _)
      rw [List.getLastD_concat] at hcnt
      obtain ⟨es, hrun, hacts, hrecords⟩ := hserved.run
      have hpolls := hserved.polls
      rw [pollsOf_append _ [k], pollsOf_singleton] at hpolls hrecords
      refine ⟨es, ?_, hacts, hrecords⟩
      rw [exec_read_eq, txnRead_eq, htxn1, andThen_ok, if_neg hn, htxn2, andThen_nack, hrun.eq, hbuf, hidx, hbus, hph, hpolls,
        hcnt]
      rfl

end Sys2Proof.Machine
end

section
/-! Receive when the bytes of a recognized frame come: all of them, or the first of them and then no more (R121 to R126,
R128 of 40_frame_codec_rx.md). -/

namespace Sys2Proof.Machine

/-! ## The decode sequence of a recognized identifier -/

/-- The operand sequence of a recognized instruction (R122 to R125). -/
def rxOperands : Instr → State → RxResult
  | .write _ _ _ => rxWrite
  | .read _ _ _ => rxRead
  | .detect _ => rxDetect
  | .echo _ => rxEcho
  | _ => fun s => (true, s)

theorem parseFrom_of_recognized {i : Instr} (hrec : recognized i = true) (s : State) :
    parseFrom i.idByte s = rxFinish (rxOperands i (s.setCmdId i.idByte)) := by
  cases i <;> first | rfl | cases hrec

theorem rxBytes_head {s : State} {n : Nat} {y : Byte} {ys : List Byte} (h : s.rxBytes n = y :: ys) : s.rxAhead 0 = y := by
  cases n with
  | zero => cases h
  | succ n =>
    rw [State.rxBytes, List.range_succ_eq_map, List.map_cons] at h
    exact (List.cons.inj h).1

/-- What the byte string that comes says of the bytes after the first ones. -/
theorem rxBytes_tail {s t : State} {xs ys : List Byte} (h : s.rxBytes (xs.length + ys.length) = xs ++ ys)
    (hrx : t.rx = s.rx.advance xs.length) : t.rxBytes ys.length = ys := by
  rw [State.rxBytes_add hrx] at h
  exact (List.append_inj h (by rw [State.rxBytes_length])).2

/-- The identifier of a frame, taken and kept. -/
theorem ServedRx.firstTaken (s : State) (k : Nat) (x : Byte) : ServedRx s ((s.firstTaken k).setCmdId x) [k] :=
  (ServedRx.taken s k 0).of_eq (by rw [State.rxTaken_eq]; rfl) rfl (by rw [State.rxTaken_eq]; rfl) rfl

theorem rxComesFrom_of_served {s t : State} {js ks : List Nat} (h : ServedRx s t js) (hp : t.params = s.params)
    (hks : s.rxComesFrom 0 (js ++ ks) = true) : t.rxComesFrom 0 ks = true := by
  rw [State.rxComesFrom_append, Bool.and_eq_true] at hks
  rw [State.rxComesFrom_of_advance h.polls hp, Nat.add_zero, ← Nat.zero_add (pollsOf js)]
  exact hks.2

/-! ## A whole frame -/

/-- The phase in which the last byte of a recognized frame comes (R123, R126). -/
def rxEndPhase : Instr → Phase
  | .read _ _ _ => .rxCount
  | _ => .rxData

/-- `idx` after a recognized frame: the length of its payload; READ has none (R126). -/
def rxEndIdx (i : Instr) (s : State) : Byte :=
  match i with
  | .write _ _ p => countByte p
  | .detect as => countByte as
  | .echo p => countByte p
  | _ => s.idx

/-- The three fields of WRITE and READ, when their bytes are these. -/
theorem rxRead_of_bytes {s : State} {a r n : Byte} {ys : List Byte} {k1 k2 k3 : Nat}
    (hbytes : s.rxBytes (3 + ys.length) = [a, r, n] ++ ys) (hcomes : s.rxComesFrom 0 [k1, k2, k3] = true) :
    ∃ t, rxRead s = (true, t) ∧ ServedRx s t [k1, k2, k3] ∧ t.rxBytes ys.length = ys ∧
      t = { s with
        ph := .rxCount, devAddr := a, regPtr := r, count := n
        toCnt := s.params.tRx - k3, polls := t.polls, rx := t.rx, trace := t.trace } := by
  obtain ⟨t, ht, hserved, heq⟩ := rxHeader_served s k1 k2 k3 hcomes
  have htail : t.rxBytes ys.length = ys := rxBytes_tail (xs := [a, r, n]) hbytes hserved.rx
  rw [State.rxBytes_add (t := t) (n := 3) hserved.rx, htail] at hbytes
  obtain ⟨ha, hr, hn⟩ : s.rxAhead 0 = a ∧ s.rxAhead 1 = r ∧ s.rxAhead 2 = n := by
    simpa [State.rxBytes, List.range_succ] using List.append_cancel_right hbytes
  rw [ha, hr, hn] at heq
  exact ⟨t, ht, hserved, htail, heq⟩

/-- The count field of DETECT and ECHO, when its byte is this. -/
theorem rxCount_of_bytes {s : State} {n : Byte} {ys : List Byte} {k : Nat}
    (hbytes : s.rxBytes (1 + ys.length) = [n] ++ ys) (hcomes : s.rxComesFrom 0 [k] = true) :
    ∃ t, rxCount s = (true, t) ∧ ServedRx s t [k] ∧ t.rxBytes ys.length = ys ∧
      t = { s with
        ph := .rxCount, count := n
        toCnt := s.params.tRx - k, polls := t.polls, rx := t.rx, trace := t.trace } := by
  obtain ⟨t, ht, hserved, heq⟩ := rxCount_served s k hcomes
  rw [rxBytes_head hbytes] at heq
  exact ⟨t, ht, hserved, rxBytes_tail (xs := [n]) hbytes hserved.rx, heq⟩

/-- The payload that the count announces, after the fields. -/
theorem rxPayload_after {s t : State} {js ls : List Nat} {p : List Byte} (h : ServedRx s t js) (hp : t.params = s.params)
    (hfits : payloadFits p = true) (hcount : t.count = countByte p) (hbytes : t.rxBytes p.length = p)
    (hlen : ls.length = p.length) (hcomes : s.rxComesFrom 0 (js ++ ls) = true) :
    ∃ u, rxPayload t = (true, u) ∧ ServedRx s u (js ++ ls) ∧
      u = { t with
        ph := .rxData, idx := t.count, buf := t.buf.writeRange 0 p
        toCnt := countdownAfter t.params.tRx t.toCnt ls, polls := u.polls, rx := u.rx, trace := u.trace } := by
  have hn : t.count.toNat = p.length := by rw [hcount, countByte_toNat hfits]
  obtain ⟨u, hu, hserved, heq⟩ := rxPayload_served t ls (rxComesFrom_of_served h hp hcomes) (hlen.trans hn.symm)
  rw [hn, hbytes] at heq
  exact ⟨u, hu, h.trans hserved, heq⟩

/-- DETECT and ECHO, when all their bytes come. -/
theorem rxListed_of_bytes {s : State} {p : List Byte} {k : Nat} {ls : List Nat} (hfits : payloadFits p = true)
    (hlen : ls.length = p.length) (hbytes : s.rxBytes (1 + p.length) = [countByte p] ++ p)
    (hcomes : s.rxComesFrom 0 ([k] ++ ls) = true) :
    ∃ t, rxThen (rxCount s) rxPayload = (true, t) ∧ ServedRx s t ([k] ++ ls) ∧
      t = { s with
        ph := .rxData, count := countByte p, idx := countByte p, buf := s.buf.writeRange 0 p
        toCnt := countdownAfter s.params.tRx s.toCnt ([k] ++ ls), polls := t.polls, rx := t.rx, trace := t.trace } := by
  have hfield := hcomes
  rw [State.rxComesFrom_append, Bool.and_eq_true] at hfield
  obtain ⟨t, ht, hserved, hrest, heq⟩ := rxCount_of_bytes hbytes hfield.1
  obtain ⟨u, hu, hserved', heq'⟩ :=
    rxPayload_after hserved (by rw [heq]) hfits (by rw [heq]) hrest hlen hcomes
  refine ⟨u, by rw [ht]; exact hu, hserved', ?_⟩
  rw [heq] at heq'
  exact heq'

/-- The operands of a recognized frame whose bytes all come: the registers and the buffer hold them. -/
theorem rxOperands_served {i : Instr} {ks : List Nat} {s : State} (hwf : i.wf = true) (hrec : recognized i = true)
    (hlen : ks.length = i.operandBytes.length) (hcomes : s.rxComesFrom 0 ks = true)
    (hbytes : s.rxBytes i.operandBytes.length = i.operandBytes) :
    ∃ t, rxOperands i s = (true, t) ∧ ServedRx s t ks ∧
      t = { s.holdInstr i with
        ph := rxEndPhase i, cmdId := s.cmdId, idx := rxEndIdx i s, toCnt := countdownAfter s.params.tRx s.toCnt ks
        polls := t.polls, rx := t.rx, trace := t.trace } := by
  cases i with
  | write a r p =>
    match ks, hlen with
    | k1 :: k2 :: k3 :: ls, hlen =>
      have hfields := hcomes
      rw [show k1 :: k2 :: k3 :: ls = [k1, k2, k3] ++ ls from rfl, State.rxComesFrom_append, Bool.and_eq_true] at hfields
      rw [show (Instr.write a r p).operandBytes = [a, r, countByte p] ++ p from rfl, List.length_append] at hbytes
      obtain ⟨t, ht, hserved, hrest, heq⟩ := rxRead_of_bytes hbytes hfields.1
      obtain ⟨u, hu, hserved', heq'⟩ :=
        rxPayload_after hserved (by rw [heq]) hwf (by rw [heq]) hrest (by simpa [Instr.operandBytes] using hlen) hcomes
      refine ⟨u, by rw [rxOperands, rxWrite, ← rxRead, ht]; exact hu, hserved', ?_⟩
      rw [heq] at heq'
      exact heq'
  | read a r n =>
    match ks, hlen with
    | [k1, k2, k3], _ =>
      obtain ⟨t, ht, hserved, -, heq⟩ := rxRead_of_bytes (ys := []) hbytes hcomes
      exact ⟨t, ht, hserved, heq⟩
  | detect as =>
    match ks, hlen with
    | k :: ls, hlen =>
      exact rxListed_of_bytes hwf (by simpa [Instr.operandBytes] using hlen)
        (by rw [Nat.add_comm]; exact hbytes) hcomes
  | echo p =>
    match ks, hlen with
    | k :: ls, hlen =>
      exact rxListed_of_bytes hwf (by simpa [Instr.operandBytes] using hlen)
        (by rw [Nat.add_comm]; exact hbytes) hcomes
  | _ => cases hrec

/-- A step in Receive whose first byte is the identifier of a recognized instruction. -/
theorem receive_of_identifier {i : Instr} {s : State} {k : Nat} (hrec : recognized i = true)
    (hcomes : s.rxComesFrom 0 [k] = true) (hk : s.params.idWaitBounded = false → k = 0) (hid : s.rxAhead 0 = i.idByte) :
    receive s = rxFinish (rxOperands i ((s.firstTaken k).setCmdId i.idByte)) := by
  rw [receive_of_first hcomes hk, hid, parseFrom_of_recognized hrec]

theorem operandBytes_ne_nil {i : Instr} (hrec : recognized i = true) : i.operandBytes ≠ [] := by
  cases i <;> first | exact List.cons_ne_nil _ _ | cases hrec

theorem getLastD_cons_of_ne_nil {k : Nat} {ls : List Nat} (h : ls ≠ []) (d : Nat) : (k :: ls).getLastD d = ls.getLastD d := by
  cases ls with
  | nil => exact absurd rfl h
  | cons l ls => rfl

/-- Settles O35: the identifier, and then the operands. -/
theorem receiveLoadsFrame : Obligations.ReceiveLoadsFrame := by
  intro i ks s hst hwf hrec hlen hcomes hfirst hbytes
  rw [← encode_length hwf] at hlen hbytes ⊢
  match ks, hlen with
  | k :: ls, hlen =>
    have hlen' : ls.length = i.operandBytes.length := Nat.succ.inj hlen
    have hcomes' : s.rxComesFrom 0 ([k] ++ ls) = true := hcomes
    have hid := hcomes'
    rw [State.rxComesFrom_append, Bool.and_eq_true] at hid
    have hserved := ServedRx.firstTaken s k i.idByte
    rw [encode, List.length_cons, Nat.add_comm] at hbytes
    obtain ⟨t, ht, hserved', heq⟩ := rxOperands_served hwf hrec hlen' (rxComesFrom_of_served hserved rfl hcomes')
      (rxBytes_tail (xs := [i.idByte]) hbytes hserved.rx)
    have hne : ls ≠ [] := fun h => operandBytes_ne_nil hrec (List.length_eq_zero_iff.1 (by rw [← hlen', h]; rfl))
    have hall := hserved.trans hserved'
    have hrx : t.rx = s.rx.advance (encode i).length := hall.rx.trans (congrArg s.rx.advance hlen)
    obtain ⟨es, hran, hacts, hrecords⟩ := hall.run
    refine ⟨es, ?_, ?_, hrecords⟩
    · rw [step_of_receive hst,
        receive_of_identifier hrec hid.1 (fun hb => Option.some.inj (hfirst hb)) (rxBytes_head hbytes), ht, heq, hall.polls,
        hrx, hran.trace, countdownAfter_eq _ _ _ hne, getLastD_cons_of_ne_nil hne]
      cases i <;> rfl
    · rw [hacts, List.length_append, hlen']
      exact congrArg _ hbytes

/-! ## A frame cut short -/

/-- Bytes taken between `s` and `t`, coming at the polls `ks` of their waits, and then none in the polls of one budget. -/
structure CutRx (s t : State) (ks : List Nat) : Prop where
  run : ∃ es, Ran s t es ∧ actions es = (s.rxBytes ks.length).map .rxTake ∧
    pollRecords es = (List.range (pollsOf ks + s.params.tRx)).map s.pollAhead
  toCnt : t.toCnt = 0
  resLen : t.resLen = s.resLen

theorem ServedRx.cut {s t u : State} {js ks : List Nat} (h : ServedRx s t js) (hp : t.params = s.params)
    (hr : t.resLen = s.resLen) (k : CutRx t u ks) : CutRx s u (js ++ ks) := by
  obtain ⟨es, hran, hacts, hrecords⟩ := h.run
  obtain ⟨fs, hran', hacts', hrecords'⟩ := k.run
  refine ⟨⟨es ++ fs, hran.trans hran', ?_, ?_⟩, k.toCnt, k.resLen.trans hr⟩
  · rw [actions_append, hacts, hacts', List.length_append, State.rxBytes_add h.rx, List.map_append]
  · rw [pollRecords_append, hrecords, hrecords', hp, pollsOf_append, Nat.add_assoc,
      range_map_add (n := pollsOf ks + s.params.tRx)]
    congr 1
    exact List.map_congr_left fun j _ => State.pollAhead_of_advance h.polls j

/-- The bytes `ks` come, and then none for a whole budget (R120). -/
def State.rxStops (s : State) (ks : List Nat) : Prop :=
  s.rxComesFrom 0 ks = true ∧ s.undecided (fun f => f.rxReady) false (pollsOf ks) s.params.tRx = true

theorem ServedRx.rxStops {s t : State} {js ks : List Nat} (h : ServedRx s t js) (hp : t.params = s.params)
    (hstops : s.rxStops (js ++ ks)) : t.rxStops ks := by
  obtain ⟨hcomes, hnone⟩ := hstops
  refine ⟨rxComesFrom_of_served h hp hcomes, ?_⟩
  rw [State.undecided_of_advance h.polls, hp, ← pollsOf_append]
  exact hnone

/-- A part of the decode sequence that takes `n` bytes: it runs to its end when they come, and fails after the first of
them when no more come. It leaves the parameters and `res_len` alone. -/
structure RxStage (f : State → RxResult) (n : Nat) : Prop where
  served : ∀ s ks, ks.length = n → s.rxComesFrom 0 ks = true →
    ∃ t, f s = (true, t) ∧ ServedRx s t ks ∧ t.params = s.params ∧ t.resLen = s.resLen
  cut : ∀ s ks, ks.length < n → s.rxStops ks → ∃ t, f s = (false, t) ∧ CutRx s t ks

/-- Two parts in a row: the second fails after the first has run to its end. -/
theorem cut_rxThen {f g : State → RxResult} {m : Nat} (hf : RxStage f m) {s : State} {ks : List Nat}
    (hg : m ≤ ks.length → ∀ t, f s = (true, t) → ServedRx s t (ks.take m) → t.rxStops (ks.drop m) →
      ∃ u, g t = (false, u) ∧ CutRx t u (ks.drop m)) (hstops : s.rxStops ks) : ∃ t, rxThen (f s) g = (false, t) ∧ CutRx s t ks := by
  by_cases hm : ks.length < m
  · obtain ⟨t, ht, hcut⟩ := hf.cut s ks hm hstops
    exact ⟨t, by rw [ht, rxThen], hcut⟩
  · have hm' := Nat.le_of_not_lt hm
    rw [← List.take_append_drop m ks] at hstops
    have hcomes := hstops.1
    rw [State.rxComesFrom_append, Bool.and_eq_true] at hcomes
    obtain ⟨t, ht, hserved, hp, hr⟩ := hf.served s (ks.take m) (by rw [List.length_take, Nat.min_eq_left hm']) hcomes.1
    obtain ⟨u, hu, hcut⟩ := hg hm' t ht hserved (hserved.rxStops hp hstops)
    have hall := hserved.cut hp hr hcut
    rw [List.take_append_drop] at hall
    exact ⟨u, by rw [ht]; exact hu, hall⟩

theorem RxStage.then {f g : State → RxResult} {m n : Nat} (hf : RxStage f m) (hg : RxStage g n) :
    RxStage (fun s => rxThen (f s) g) (m + n) where
  served := fun s ks hlen hcomes => by
    have hm : (ks.take m).length = m := by rw [List.length_take, Nat.min_eq_left (by omega)]
    rw [← List.take_append_drop m ks] at hcomes
    have hcomes' := hcomes
    rw [State.rxComesFrom_append, Bool.and_eq_true] at hcomes'
    obtain ⟨t, ht, hserved, hp, hr⟩ := hf.served s (ks.take m) hm hcomes'.1
    obtain ⟨u, hu, hserved', hp', hr'⟩ := hg.served t (ks.drop m) (by rw [List.length_drop]; omega)
      (rxComesFrom_of_served hserved hp hcomes)
    have hall := hserved.trans hserved'
    rw [List.take_append_drop] at hall
    exact ⟨u, by rw [ht]; exact hu, hall, hp'.trans hp, hr'.trans hr⟩
  cut := fun s ks hlt hstops => cut_rxThen hf (fun _ t _ _ hrest =>
    hg.cut t (ks.drop m) (by rw [List.length_drop]; omega) hrest) hstops

/-- One byte, put where `put` says. -/
theorem RxStage.store {put : State → Byte → State}
    (hput : ∀ u y, (put u y).trace = u.trace ∧ (put u y).polls = u.polls ∧ (put u y).rx = u.rx ∧
      (put u y).busRx = u.busRx ∧ (put u y).params = u.params ∧ (put u y).resLen = u.resLen) :
    RxStage (rxStore put) 1 where
  served := fun s ks hlen hcomes => by
    match ks, hlen with
    | [k], _ =>
      obtain ⟨t, ht, hserved, rfl⟩ := rxField_served put s k hcomes fun u y =>
        let ⟨htrace, hpolls, hrx, hbus, _⟩ := hput u y
        ⟨htrace, hpolls, hrx, hbus⟩
      obtain ⟨-, -, -, -, hp, hr⟩ := hput (s.waited (k + 1) (s.params.tRx - k)).rxTaken (s.rxAhead 0)
      exact ⟨_, ht, hserved, hp, hr⟩
  cut := fun s ks hlt hstops => by
    obtain rfl := List.length_eq_zero_iff.1 (Nat.lt_one_iff.1 hlt)
    refine ⟨_, by rw [rxStore, rxByte_expires hstops.2], ⟨⟨_, Ran.waited s _ 0, actions_pollEvents s _, ?_⟩, rfl, rfl⟩⟩
    rw [pollRecords_pollEvents, pollsOf_nil, Nat.zero_add]

/-- A phase entered before a part. -/
theorem RxStage.setPh {f : State → RxResult} {n : Nat} (hf : RxStage f n) (p : Phase) :
    RxStage (fun s => f (s.setPh p)) n where
  served := fun s ks hlen hcomes => by
    obtain ⟨t, ht, hserved, hp, hr⟩ := hf.served (s.setPh p) ks hlen
      (rxComesFrom_of_served (js := []) (ServedRx.setPh s p) rfl hcomes)
    exact ⟨t, ht, (ServedRx.setPh s p).trans hserved, hp, hr⟩
  cut := fun s ks hlt hstops => by
    obtain ⟨t, ht, hcut⟩ := hf.cut (s.setPh p) ks hlt (ServedRx.rxStops (js := []) (ServedRx.setPh s p) rfl hstops)
    exact ⟨t, ht, (ServedRx.setPh s p).cut rfl rfl hcut⟩

theorem RxStage.rxCount : RxStage rxCount 1 :=
  (RxStage.store (put := State.setCount) fun _ _ => ⟨rfl, rfl, rfl, rfl, rfl, rfl⟩).setPh .rxCount

theorem RxStage.rxRead : RxStage rxRead 3 :=
  (((RxStage.store (put := State.setDevAddr) fun _ _ => ⟨rfl, rfl, rfl, rfl, rfl, rfl⟩).setPh .rxAddr).then
    ((RxStage.store (put := State.setRegPtr) fun _ _ => ⟨rfl, rfl, rfl, rfl, rfl, rfl⟩).setPh .rxReg)).then .rxCount

theorem RxStage.rxPayloadLoop (n : Nat) : RxStage (rxPayloadLoop n) n := by
  induction n with
  | zero =>
    refine ⟨fun s ks hlen _ => ?_, fun s ks hlt _ => absurd hlt (Nat.not_lt_zero _)⟩
    obtain rfl := List.length_eq_zero_iff.1 hlen
    exact ⟨s, rfl, ServedRx.refl s, rfl, rfl⟩
  | succ n ih =>
    have hstep : RxStage (fun s => rxThen (rxStore putPayloadByte s) (Machine.rxPayloadLoop n)) (1 + n) :=
      (RxStage.store fun u y => ?_).then ih
    · rwa [Nat.add_comm] at hstep
    rw [putPayloadByte_frame]
    exact ⟨rfl, rfl, rfl, rfl, rfl, rfl⟩

/-- The fields up to a count, and then the payload that it announces, of which not all bytes come. -/
theorem cut_rxPayload {f : State → RxResult} {m : Nat} (hf : RxStage f m) {p : List Byte} (hfits : payloadFits p = true)
    {s : State} {ks : List Nat} (hcount : m ≤ ks.length → ∀ t, f s = (true, t) → t.count = countByte p)
    (hlt : ks.length < m + p.length) (hstops : s.rxStops ks) :
    ∃ t, rxThen (f s) rxPayload = (false, t) ∧ CutRx s t ks := by
  refine cut_rxThen hf (fun hm t ht _ hrest => ?_) hstops
  have hn : t.count.toNat = p.length := by rw [hcount hm t ht, countByte_toNat hfits]
  have hstart : ServedRx t ((t.setPh .rxData).setIdx 0#8) [] := (ServedRx.refl t).of_eq rfl rfl rfl rfl
  rw [rxPayload, hn]
  obtain ⟨u, hu, hcut⟩ := (RxStage.rxPayloadLoop p.length).cut ((t.setPh .rxData).setIdx 0#8) (ks.drop m)
    (by rw [List.length_drop]; omega) (ServedRx.rxStops (js := []) hstart rfl hrest)
  exact ⟨u, hu, hstart.cut rfl rfl hcut⟩

/-- What the first bytes say of fewer of them. -/
theorem rxBytes_of_le {s : State} {m n : Nat} {ys : List Byte} (hmn : m ≤ n) (h : s.rxBytes n = ys.take n) :
    s.rxBytes m = ys.take m := by
  have htake : s.rxBytes m = (s.rxBytes n).take m := by
    rw [State.rxBytes, State.rxBytes, ← List.map_take, List.take_range, Nat.min_eq_left hmn]
  rw [htake, h, List.take_take, Nat.min_eq_left hmn]

/-- The count that the fields of WRITE leave is their third byte. -/
theorem count_of_rxRead {s t : State} (h : rxRead s = (true, t)) :
    s.rxBytes 3 = [t.devAddr, t.regPtr, t.count] := by
  rcases rxHeader_cases s with ⟨u, es, -, hu, -, -, -, hbytes⟩ | ⟨u, es, n, -, hu, -⟩
  · obtain rfl : u = t := (Prod.mk.inj (hu.symm.trans h)).2
    exact hbytes
  · cases hu.symm.trans h

/-- The count that DETECT and ECHO take is their first byte. -/
theorem count_of_rxCount {s t : State} (h : rxCount s = (true, t)) : s.rxBytes 1 = [t.count] := by
  rcases rxField_cases .rxCount State.setCount s State.setCount_frame with
    ⟨u, es, v, -, hu, heq, -⟩ | ⟨u, es, -, hu, -⟩
  · obtain rfl : u = t := (Prod.mk.inj (hu.symm.trans h)).2
    rw [State.rxBytes_one, heq]
    rfl
  · cases hu.symm.trans h

/-- DETECT and ECHO, when not all their bytes come. -/
theorem rxListed_cut {p : List Byte} {s : State} {ks : List Nat} (hfits : payloadFits p = true)
    (hlt : ks.length < (countByte p :: p).length) (hstops : s.rxStops ks)
    (hbytes : s.rxBytes ks.length = (countByte p :: p).take ks.length) :
    ∃ t, rxThen (rxCount s) rxPayload = (false, t) ∧ CutRx s t ks := by
  refine cut_rxPayload .rxCount hfits (fun hm t ht => ?_) (by rw [Nat.add_comm]; exact hlt) hstops
  have hcount := rxBytes_of_le hm hbytes
  rw [count_of_rxCount ht] at hcount
  exact (List.cons.inj hcount).1

/-- The operands of a recognized frame of which not all bytes come. -/
theorem rxOperands_cut {i : Instr} {ks : List Nat} {s : State} (hwf : i.wf = true) (hrec : recognized i = true)
    (hlt : ks.length < i.operandBytes.length) (hstops : s.rxStops ks)
    (hbytes : s.rxBytes ks.length = i.operandBytes.take ks.length) :
    ∃ t, rxOperands i s = (false, t) ∧ CutRx s t ks := by
  cases i with
  | write a r p =>
    refine cut_rxPayload (f := rxRead) .rxRead hwf (fun hm t ht => ?_) (by rw [Nat.add_comm]; exact hlt) hstops
    have hcount := rxBytes_of_le hm hbytes
    rw [count_of_rxRead ht] at hcount
    exact (List.cons.inj (List.cons.inj (List.cons.inj hcount).2).2).1
  | read a r n => exact RxStage.rxRead.cut s ks hlt hstops
  | detect as => exact rxListed_cut hwf hlt hstops hbytes
  | echo p => exact rxListed_cut hwf hlt hstops hbytes
  | _ => cases hrec

/-- Settles O36: the identifier came, and the operands are cut short. -/
theorem frameCutShortFails : Obligations.FrameCutShortFails := by
  intro i ks s hst hwf hrec hsome hlt hcomes hfirst hbytes hnone
  rw [← encode_length hwf] at hlt
  match ks, hsome with
  | k :: ls, _ =>
    have hstops : s.rxStops ([k] ++ ls) := ⟨hcomes, hnone⟩
    have hid := hstops.1
    rw [State.rxComesFrom_append, Bool.and_eq_true] at hid
    have hserved := ServedRx.firstTaken s k i.idByte
    rw [encode, List.length_cons, List.take_succ_cons] at hbytes
    have hrest : ((s.firstTaken k).setCmdId i.idByte).rxBytes ls.length = i.operandBytes.take ls.length := by
      have hall := hbytes
      rw [Nat.add_comm, State.rxBytes_add (n := 1) hserved.rx] at hall
      exact (List.cons.inj hall).2
    obtain ⟨t, ht, hcut⟩ := rxOperands_cut hwf hrec (Nat.lt_of_succ_lt_succ hlt) (hserved.rxStops rfl hstops) hrest
    have hall := hserved.cut rfl rfl hcut
    obtain ⟨es, hran, hacts, hrecords⟩ := hall.run
    refine ⟨t.raiseFailure .framing, es, ?_, rfl, rfl, rfl, hall.toCnt, hall.resLen, hran.trace, ?_, hrecords⟩
    · rw [step_of_receive hst,
        receive_of_identifier hrec hid.1 (fun hb => Option.some.inj (hfirst hb)) (rxBytes_head hbytes), ht]
      rfl
    · rw [hacts]
      exact congrArg _ hbytes

end Sys2Proof.Machine
end

section
/-! Whole command cycles within their budgets: Receive, Execute and Respond in a row (43_dispatcher.md section 3). -/

namespace Sys2Proof.Machine

/-! ## The bytes that are sent -/

theorem sentBytes_actions (es : List Event) : sentBytes es = sentBytes (actions es) := by
  induction es with
  | nil => rfl
  | cons e es ih =>
    cases e with
    | txPut b => exact congrArg (List.cons b) ih
    | _ => exact ih

theorem sentBytes_map_of_none {α : Type} {f : α → Event} (h : ∀ x, sentBytes [f x] = []) (xs : List α) :
    sentBytes (xs.map f) = [] := by
  induction xs with
  | nil => rfl
  | cons x xs ih =>
    have hsplit := sentBytes_append [f x] (xs.map f)
    rw [h x, ih] at hsplit
    exact hsplit

theorem sentBytes_map_txPut (bs : List Byte) : sentBytes (bs.map Event.txPut) = bs := by
  rw [sentBytes, List.filterMap_map]
  exact List.filterMap_some

/-! ## The three states of a cycle -/

/-- A step in Receive that loads a frame (R122 to R126). -/
theorem receive_holds {i : Instr} {ks : List Nat} {s : State} (hst : s.st = .receive) (hwf : i.wf = true)
    (hrec : recognized i = true) (hlen : ks.length = i.frameLength) (hcomes : s.rxComesFrom 0 ks = true)
    (hfirst : s.params.idWaitBounded = false → ks.head? = some 0) (hbytes : s.rxBytes i.frameLength = encode i) :
    ∃ u es, step s = .next u ∧ u.st = .execute ∧ u.heldFrame = some (encode i) ∧ u.params = s.params ∧ u.busRx = s.busRx ∧
      u.polls = s.polls.advance (pollsOf ks) ∧ u.trace = es.reverse ++ s.trace ∧ actions es = (encode i).map .rxTake := by
  obtain ⟨es, hstep, hacts, -⟩ := receiveLoadsFrame i ks s hst hwf hrec hlen hcomes hfirst hbytes
  refine ⟨_, es, hstep, rfl, heldFrameIsEncoding i s hwf, ?_, ?_, rfl, rfl, hacts⟩
  · cases i <;> rfl
  · cases i <;> rfl

/-- A frame loaded by Receive, its instruction done by Execute, and its payload sent by Respond. -/
theorem run_cycle {s u v : State} {es fs : List Event} {q : List Byte} (hload : step s = .next u)
    (hexec : step u = .next v) (hst : v.st = .respond) (hph : v.ph.isTx = false) (hok : v.resOk = true)
    (hbuf : v.buf.readRange 0 v.resLen.toNat = some q) (hready : v.txReadyFor (1 + v.resLen.toNat))
    (hes : u.trace = es.reverse ++ s.trace) (hfs : v.trace = fs.reverse ++ u.trace) :
    ∃ t gs, Host.Core.run Sys2Proof.core (4 + v.resLen.toNat) s = .next t ∧ t.st = .receive ∧ t.resOk = true ∧
      t.trace = (es ++ fs ++ gs).reverse ++ s.trace ∧ actions gs = (v.resLen :: q).map .txPut := by
  obtain ⟨gs, hrun, hacts⟩ := respondSendsPayload.1 v q hst (beginRespond_ph_of_resOk hph hok) hbuf hready
  have hsteps : 4 + v.resLen.toNat = 2 + v.resLen.toNat + 1 + 1 := by omega
  rw [← run_next hexec, ← run_next hload, ← hsteps] at hrun
  exact ⟨_, gs, hrun, rfl, hok, by simp only [hfs, hes, List.reverse_append, List.append_assoc], hacts⟩

/-- Settles O58: Execute, the response, and the whole cycle. -/
theorem echoReturnsItsPayload : Obligations.EchoReturnsItsPayload := by
  intro p ks s hfits
  refine ⟨echoCompletes p s hfits, fun hst hheld => ?_, fun hst hlen hcomes hfirst hbytes hready => ?_⟩
  · obtain ⟨t, hexec, ht, hpend⟩ := echoAnswersItsRequest p s hfits (readRange_of_held_echo hheld)
    exact ⟨t, by rw [step_of_held (i := .echo p) hst hfits hheld, hexec], by rw [ht], hpend⟩
  · rw [hlen] at hbytes
    obtain ⟨u, es, hload, hust, hheld, hparams, -, hpolls, htrace, hacts⟩ :=
      receive_holds (i := .echo p) hst hfits rfl hlen hcomes hfirst hbytes
    have hstep := step_of_held (i := .echo p) hust hfits hheld
    rw [echoCompletes p u hfits] at hstep
    have hcount : (countByte p).toNat = p.length := countByte_toNat hfits
    obtain ⟨t, gs, hrun, htst, hok, htrace', hacts'⟩ := run_cycle (q := p) (fs := []) hload hstep rfl rfl rfl
      (by rw [hcount]; exact readRange_of_held_echo hheld)
      (fun k hk => by
        rw [hcount] at hk
        have h := hready k hk
        rw [← State.pollAhead_of_advance hpolls] at h
        exact h) htrace rfl
    rw [hcount] at hrun
    refine ⟨t, es ++ [] ++ gs, hrun, htst, hok, htrace', ?_⟩
    rw [actions_append, actions_append, hacts, hacts', actions_nil, List.append_nil]
    rfl

/-- Settles O59: the bytes of the bus are the response. -/
theorem readReturnsBusBytes : Obligations.ReadReturnsBusBytes := by
  intro a r n ks js s hst hn hlen hcomes hfirst hbytes hserved hready
  obtain ⟨u, es, hload, hust, hheld, hparams, hbus, hpolls, htrace, hacts⟩ :=
    receive_holds (i := .read a r n) hst rfl rfl hlen hcomes hfirst hbytes
  obtain ⟨fs, hexec, hacts', -⟩ := readCompletes a r n js u hn
    (by rw [State.servedFrom_of_advance hpolls hparams]; exact hserved)
  have hbusBytes : ∀ k, u.busBytes k = s.busBytes k := busBytes_of_busRx hbus
  have hstep := (step_of_held (i := .read a r n) hust rfl hheld).trans hexec
  obtain ⟨t, gs, hrun, htst, -, htrace', hacts''⟩ := run_cycle (q := s.busBytes n.toNat) hload hstep rfl rfl rfl
    (by
      have h := Memory.readRange_writeRange u.buf 0 (s.busBytes n.toNat)
      rw [State.busBytes_length] at h
      rw [hbusBytes]
      exact h)
    (fun k hk => by
      rw [State.pollAhead_of_advance (s := u) (n := pollsOf js) rfl, State.pollAhead_of_advance hpolls, ← Nat.add_assoc]
      exact hready k hk) htrace rfl
  refine ⟨t, es ++ fs ++ gs, hrun, htst, htrace', ?_⟩
  rw [sentBytes_append, sentBytes_append, sentBytes_actions es, sentBytes_actions fs, sentBytes_actions gs, hacts, hacts',
    hacts'', sentBytes_map_of_none (fun _ => rfl), sentBytes_append, sentBytes_append,
    sentBytes_map_of_none (fun _ => rfl), sentBytes_map_txPut]
  rfl

/-- Settles O60: the count is the response. -/
theorem writeReturnsItsCount : Obligations.WriteReturnsItsCount := by
  intro a r p ks js s hst hfits hlen hcomes hfirst hbytes hserved hready
  rw [hlen] at hbytes
  obtain ⟨u, es, hload, hust, hheld, hparams, -, hpolls, htrace, hacts⟩ :=
    receive_holds (i := .write a r p) hst hfits rfl hlen hcomes hfirst hbytes
  obtain ⟨fs, hexec, hacts', -⟩ := writeCompletes a r p js u hfits
    (by rw [State.servedFrom_of_advance hpolls hparams]; exact hserved)
  have hstep := (step_of_held (i := .write a r p) hust hfits hheld).trans hexec
  obtain ⟨t, gs, hrun, htst, -, htrace', hacts''⟩ := run_cycle (q := [countByte p]) hload hstep rfl rfl rfl
    (Memory.readRange_writeRange u.buf 0 [countByte p])
    (fun k hk => by
      rw [State.pollAhead_of_advance (s := u) (n := pollsOf js) rfl, State.pollAhead_of_advance hpolls, ← Nat.add_assoc]
      exact hready k hk) htrace rfl
  refine ⟨t, es ++ fs ++ gs, hrun, htst, htrace', ?_⟩
  rw [sentBytes_append, sentBytes_append, sentBytes_actions es, sentBytes_actions fs, sentBytes_actions gs, hacts, hacts',
    hacts'', sentBytes_map_of_none (fun _ => rfl), sentBytes_append, sentBytes_append,
    sentBytes_map_of_none (fun _ => rfl), sentBytes_map_txPut]
  rfl

end Sys2Proof.Machine
end

section
/-! The machine that takes the steps of R8 one at a time: what each of its steps is, and that they make up the pass of
`step` (R8, R11 of 00_scope.md; R220, R321). -/

namespace Sys2Proof.Machine

/-! ## One step of R8 -/

/-- What a program can begin with at the state `s`: its end, a step, of which a `MemRead` finds a value, or the fault of a
`MemRead` that finds none. -/
inductive Begins {α : Type} (s : State) : α ⊕ Host.Outcome (MicroOp × Prog α) Fault Refusal → Prop where
  | ends (a : α) : Begins s (.inl a)
  | step (op : MicroOp) (rest : Prog α) (loads : ∀ i, op = .memRead i → ∃ b, s.bufLoad i = .ok b) :
      Begins s (.inr (.next (op, rest)))
  | faults (i : Nat) (r : Fault) (load : s.bufLoad i = .error r) : Begins s (.inr (.fault r))

theorem Prog.begins {α : Type} (p : Prog α) (s : State) : Begins s (p.first s) := by
  induction p generalizing s with
  | ret a => exact .ends a
  | read k ih => exact ih s s
  | poll k => exact .step _ _ nofun
  | rxTake k => exact .step _ _ nofun
  | busRecv k => exact .step _ _ nofun
  | act c k => exact .step _ _ nofun
  | update u k => exact .step _ _ nofun
  | load i k =>
    simp only [Prog.first]
    cases hload : s.bufLoad i with
    | ok b => exact .step _ _ fun j hj => by cases hj; exact ⟨b, hload⟩
    | error r => exact .faults i r hload

/-- The machine goes on with the pass it is in, or begins the next. -/
theorem Micro.next_begins (m : Micro) : Begins m.now m.next := by
  unfold Micro.next
  split
  · exact Prog.begins _ _
  · rename_i o ho
    rw [← ho]
    exact Prog.begins _ _

/-- Settles O33: the steps of a program are operations, and only a `MemRead` faults. -/
theorem microStepIsOneOperation : Obligations.MicroStepIsOneOperation := by
  intro m
  obtain ⟨o, ho⟩ := m.next_some
  have hbegins := m.next_begins
  rw [ho] at hbegins
  cases hbegins with
  | step op rest loads =>
    have hstep : microStep m = .next ⟨rest, op.apply m.now⟩ := by simp only [microStep, ho]
    rw [hstep]
    refine ⟨fun n hn => ?_, fun r hr => (by cases hr), fun r hr => (by cases hr)⟩
    cases hn
    cases op with
    | poll => exact .inl rfl
    | rxTake => exact .inr (.inl (.inl rfl))
    | busRecv => exact .inr (.inl (.inr (.inl rfl)))
    | act c => exact .inr (.inl (.inr (.inr ⟨c, rfl⟩)))
    | update u => exact .inr (.inr (.inl ⟨u, rfl, u.apply_ports m.now⟩))
    | memRead i =>
      obtain ⟨b, hb⟩ := loads i rfl
      exact .inr (.inr (.inr ⟨rfl, i, b, hb⟩))
  | faults i r load =>
    have hstep : microStep m = .fault r := by simp only [microStep, ho]
    rw [hstep]
    refine ⟨fun n hn => (by cases hn), fun r' hr => ?_, fun r' hr => (by cases hr)⟩
    cases hr
    exact ⟨i, load⟩

/-! ## The steps of a program -/

/-- What stands between two configurations of the machine: the events between them, and the same parameters. -/
def Follows (s t : State) : Prop := t.params = s.params ∧ ∃ es, Ran s t es

theorem Follows.refl (s : State) : Follows s s := ⟨rfl, [], Ran.refl s⟩

theorem Follows.trans {s t u : State} (h : Follows s t) (k : Follows t u) : Follows s u := by
  obtain ⟨hp, es, hran⟩ := h
  obtain ⟨hp', fs, hran'⟩ := k
  exact ⟨hp'.trans hp, es ++ fs, hran.trans hran'⟩

/-- From `m` the machine reaches the state `t` at the place `pl` after `n` steps, and stands at no place before. -/
structure Passes (m : Micro) (pl : Place) (t : State) (n : Nat) : Prop where
  ends : ∃ m', microCore.run n m = .next m' ∧ m'.now = t ∧ m'.place = some pl
  between : ∀ j, j < n → ∃ m', microCore.run j m = .next m' ∧ m'.place = none ∧ Follows m.now m'.now ∧ Follows m'.now t
  follows : Follows m.now t

/-- A first step, and then the rest. -/
theorem Passes.step {m m' : Micro} {pl : Place} {t : State} {n : Nat} (hstep : microStep m = .next m')
    (hplace : m.place = none) (hfollows : Follows m.now m'.now) (h : Passes m' pl t n) : Passes m pl t (n + 1) where
  ends := by rw [microRun_next hstep]; exact h.ends
  between := fun j hj => by
    cases j with
    | zero => exact ⟨m, rfl, hplace, .refl _, hfollows.trans h.follows⟩
    | succ j =>
      obtain ⟨u, hrun, hu, hmu, hut⟩ := h.between j (Nat.lt_of_succ_lt_succ hj)
      exact ⟨u, by rw [microRun_next hstep]; exact hrun, hu, hfollows.trans hmu, hut⟩
  follows := hfollows.trans h.follows

/-- A program whose first step is `op` takes that step. -/
theorem Passes.of_first {p rest : Prog Place} {s t : State} {op : MicroOp} {pl : Place} {n : Nat}
    (hfirst : p.first s = .inr (.next (op, rest))) (h : Passes ⟨rest, op.apply s⟩ pl t n) : Passes ⟨p, s⟩ pl t (n + 1) := by
  obtain ⟨es, hran, hp⟩ := op.apply_ran s
  exact h.step (microStep_of_first hfirst) (by rw [Micro.place, hfirst]; rfl) ⟨hp, es, hran⟩

/-- What the machine does depends on its state and on what is next. -/
theorem microStep_congr {m m' : Micro} (hnow : m.now = m'.now) (hnext : m.next = m'.next) : microStep m = microStep m' := by
  obtain ⟨o, ho⟩ := m'.next_some
  unfold microStep
  rw [hnext, ho, hnow]
  rcases o with ⟨op, rest⟩ | r | r <;> rfl

theorem microStep_read (k : State → Prog Place) (s : State) : microStep ⟨.read k, s⟩ = microStep ⟨k s, s⟩ :=
  microStep_congr rfl rfl

/-- A branch is no step. -/
theorem Passes.read {k : State → Prog Place} {s t : State} {pl : Place} {n : Nat} (h : Passes ⟨k s, s⟩ pl t n) :
    Passes ⟨.read k, s⟩ pl t n := by
  have hrun : ∀ j, microCore.run (j + 1) ⟨.read k, s⟩ = microCore.run (j + 1) ⟨k s, s⟩ := microRun_congr (microStep_read k s)
  refine ⟨?_, fun j hj => ?_, h.follows⟩
  · cases n with
    | zero =>
      obtain ⟨m', hm, hnow, hplace⟩ := h.ends
      cases hm
      exact ⟨_, rfl, hnow, hplace⟩
    | succ n => rw [hrun]; exact h.ends
  · cases j with
    | zero =>
      obtain ⟨m', hm, hplace, hbefore, hafter⟩ := h.between 0 hj
      cases hm
      exact ⟨_, rfl, hplace, hbefore, hafter⟩
    | succ j => rw [hrun]; exact h.between _ hj

/-- The steps of a program lead where running it to its end leads. -/
theorem Prog.passes {p : Prog Place} {s t : State} {pl : Place} (h : p.run s = .next (pl, t)) :
    ∃ n, Passes ⟨p, s⟩ pl t n := by
  induction p generalizing s with
  | ret a =>
    cases h
    exact ⟨0, ⟨_, rfl, rfl, rfl⟩, nofun, .refl _⟩
  | read k ih =>
    obtain ⟨n, hn⟩ := ih s h
    exact ⟨n, hn.read⟩
  | poll k ih => obtain ⟨n, hn⟩ := ih _ h; exact ⟨n + 1, hn.of_first rfl⟩
  | rxTake k ih => obtain ⟨n, hn⟩ := ih _ h; exact ⟨n + 1, hn.of_first rfl⟩
  | busRecv k ih => obtain ⟨n, hn⟩ := ih _ h; exact ⟨n + 1, hn.of_first rfl⟩
  | act c k ih => obtain ⟨n, hn⟩ := ih h; exact ⟨n + 1, hn.of_first rfl⟩
  | update u k ih => obtain ⟨n, hn⟩ := ih h; exact ⟨n + 1, hn.of_first rfl⟩
  | load i k ih =>
    simp only [Prog.run] at h
    cases hload : s.bufLoad i with
    | ok b =>
      rw [hload] at h
      obtain ⟨n, hn⟩ := ih b h
      exact ⟨n + 1, hn.of_first (by simp only [Prog.first, hload])⟩
    | error r => rw [hload] at h; cases h

/-- The steps of a program that faults end in its fault. -/
theorem Prog.faults {p : Prog Place} {s : State} {r : Fault} (h : p.run s = .fault r) :
    ∃ n, microCore.run (n + 1) ⟨p, s⟩ = .fault r := by
  have hop : ∀ {q rest : Prog Place} {s : State} {op : MicroOp}, q.first s = .inr (.next (op, rest)) →
      (∃ n, microCore.run (n + 1) ⟨rest, op.apply s⟩ = .fault r) → ∃ n, microCore.run (n + 1) ⟨q, s⟩ = .fault r := by
    rintro q rest s op hfirst ⟨n, hn⟩
    exact ⟨n + 1, by rw [microRun_next (microStep_of_first hfirst), hn]⟩
  induction p generalizing s with
  | ret a => cases h
  | read k ih =>
    obtain ⟨n, hn⟩ := ih s h
    exact ⟨n, by rw [← hn]; exact microRun_congr (microStep_read k s) n⟩
  | poll k ih => exact hop rfl (ih _ h)
  | rxTake k ih => exact hop rfl (ih _ h)
  | busRecv k ih => exact hop rfl (ih _ h)
  | act c k ih => exact hop rfl (ih h)
  | update u k ih => exact hop rfl (ih h)
  | load i k ih =>
    simp only [Prog.run] at h
    cases hload : s.bufLoad i with
    | ok b =>
      rw [hload] at h
      exact hop (by simp only [Prog.first, hload]) (ih b h)
    | error r' =>
      rw [hload] at h
      cases h
      have hstep : microCore.step ⟨.load i k, s⟩ = .fault r := by
        show microStep _ = _
        simp only [microStep, Micro.next, Prog.first, hload]
        rfl
      exact ⟨0, by simp only [Host.Core.run, hstep]⟩

/-! ## The pass that begins at a place -/

/-- From a place the machine takes the steps of the pass that begins there, at least one. -/
theorem passes_of_place {m : Micro} {pl pl' : Place} {t : State} (hplace : m.place = some pl)
    (hrun : (placeProg pl).run m.now = .next (pl', t)) :
    ∃ n, 0 < n ∧ (∃ m', microCore.run n m = .next m' ∧ m'.now = t ∧ m'.place = some pl') ∧
      ∀ j, j < n → ∃ m', microCore.run j m = .next m' ∧ (0 < j → m'.place = none) ∧
        Follows m.now m'.now ∧ Follows m'.now t := by
  obtain ⟨n, hpasses⟩ := Prog.passes hrun
  have hcongr : ∀ j, microCore.run (j + 1) m = microCore.run (j + 1) ⟨placeProg pl, m.now⟩ :=
    microRun_congr (microStep_place hplace)
  cases n with
  | zero =>
    obtain ⟨m', hm, -, hplace'⟩ := hpasses.ends
    cases hm
    obtain ⟨o, ho⟩ := place_first pl m.now
    rw [Micro.place, ho] at hplace'
    cases hplace'
  | succ n =>
    refine ⟨n + 1, Nat.succ_pos n, by rw [hcongr]; exact hpasses.ends, fun j hj => ?_⟩
    cases j with
    | zero => exact ⟨m, rfl, nofun, .refl _, hpasses.follows⟩
    | succ j =>
      obtain ⟨m', hm, hnone, hbefore, hafter⟩ := hpasses.between _ hj
      exact ⟨m', by rw [hcongr]; exact hm, fun _ => hnone, hbefore, hafter⟩

theorem faults_of_place {m : Micro} {pl : Place} {r : Fault} (hplace : m.place = some pl)
    (hrun : (placeProg pl).run m.now = .fault r) : ∃ n, microCore.run n m = .fault r := by
  obtain ⟨n, hn⟩ := Prog.faults hrun
  exact ⟨n + 1, by rw [microRun_congr (microStep_place hplace), hn]⟩

/-- A reset between two configurations is the reset after the events up to there (R321). -/
theorem assertReset_eq_resetDuring {s u t : State} (h : Follows s u) (k : Follows u t) :
    u.assertReset = s.resetDuring t (s.eventsSince u).length := by
  obtain ⟨hp, es, hran⟩ := h
  obtain ⟨-, fs, hran'⟩ := k
  simp only [State.resetDuring, State.assertReset, hran.eventsSince, (hran.trans hran').eventsSince, List.take_left,
    hran.polls, hran.rx, hran.busRx, hran.trace, hp]

theorem dispatch_fits {s : State} (h : s.ph.isTx = false) : Place.dispatch.fits s = true := by
  simp only [Place.fits, h, Bool.not_false, Bool.or_true]

/-- Outside Execute the block can stand somewhere: in Respond where its phase says. -/
theorem exists_place {s : State} (hst : s.st ≠ .execute) : ∃ pl : Place, pl.fits s = true := by
  cases hdisp : s.st with
  | startup => exact ⟨.dispatch, by simp only [Place.fits, hdisp]; rfl⟩
  | receive => exact ⟨.dispatch, by simp only [Place.fits, hdisp]; rfl⟩
  | execute => exact absurd hdisp hst
  | respond =>
    cases hph : s.ph with
    | txLen => exact ⟨.txLen, by simp only [Place.fits, hdisp, hph]; rfl⟩
    | txData => exact ⟨.txData, by simp only [Place.fits, hdisp, hph]; rfl⟩
    | txFail => exact ⟨.txFail, by simp only [Place.fits, hdisp, hph]; rfl⟩
    | _ => exact ⟨.dispatch, dispatch_fits (by rw [hph]; rfl)⟩

/-- Where the block stands after a step in Receive: still in the wait that has no bound, or between two states. -/
theorem receive_place_fits (s : State) (hst : s.st = .receive) :
    (if s.params.idWaitBounded || s.pollAnswer.rxReady then Place.dispatch else .idWait).fits (receive s) = true := by
  obtain ⟨es, hrun, -⟩ := receive_cases s
  cases hb : s.params.idWaitBounded || s.pollAnswer.rxReady with
  | true => exact dispatch_fits hrun.ph
  | false =>
    obtain ⟨hbounded, hsilent⟩ := Bool.or_eq_false_iff.1 hb
    rw [State.pollAnswer_eq] at hsilent
    have hwait := silentHostIsAwaited s hst hbounded hsilent
    rw [step_of_receive hst] at hwait
    rw [Host.Outcome.next.inj hwait]
    simp [Place.fits, hst, hbounded]

/-- In the wait that has no bound a pass of Receive goes on where it stands. -/
theorem receive_of_idWait {s : State} (hfits : Place.idWait.fits s = true) : receive s = receiveUnbounded s := by
  simp only [Place.fits, Bool.and_eq_true, Bool.not_eq_true', beq_iff_eq] at hfits
  obtain ⟨⟨⟨-, hb⟩, hph⟩, hkind⟩ := hfits
  have hopen : s.openFrame = s := by
    show { s with ph := .rxId, failKind := none } = s
    rw [← hph, ← hkind]
  rw [receive_of_unbounded hb, hopen]

/-- The pass of Receive from a place that fits. -/
theorem run_place_receive {pl : Place} {s : State} (hst : s.st = .receive) (hfits : pl.fits s = true) :
    ∃ pl', (placeProg pl).run s = .next (pl', receive s) ∧ pl'.fits (receive s) = true := by
  refine ⟨_, ?_, receive_place_fits s hst⟩
  cases pl with
  | dispatch => simp only [placeProg, dispatchProg, Prog.run, hst, run_receive]
  | idWait =>
    have hb : s.params.idWaitBounded = false := by
      simp only [Place.fits, Bool.and_eq_true, Bool.not_eq_true'] at hfits
      exact hfits.1.1.2
    rw [receive_of_idWait hfits, placeProg, run_idWait, hb, Bool.false_or]
  | _ => simp [Place.fits, hst] at hfits

/-- Outside Receive and Respond a pass begins at the dispatcher's entry. -/
theorem eq_dispatch_of_fits {pl : Place} {s : State} (hfits : pl.fits s = true) (hrec : s.st ≠ .receive)
    (hres : s.st ≠ .respond) : pl = .dispatch := by
  cases pl with
  | dispatch => rfl
  | _ => simp [Place.fits, hrec, hres] at hfits

/-- The pass of Execute from the dispatcher's entry. -/
theorem run_dispatch_execute {s : State} (hst : s.st = .execute) :
    (placeProg .dispatch).run s = (thenDispatch executeProg).run s := by
  simp only [placeProg, dispatchProg, Prog.run, hst]

/-- Where `step` answers a next state, the pass from a place that fits leads there, at a place that fits. -/
theorem run_place_of_step {pl : Place} {s t : State} (hfits : pl.fits s = true) (hstep : step s = .next t) :
    ∃ pl', (placeProg pl).run s = .next (pl', t) ∧ pl'.fits t = true := by
  cases hst : s.st with
  | startup =>
    obtain rfl := eq_dispatch_of_fits hfits (by rw [hst]; nofun) (by rw [hst]; nofun)
    simp only [Machine.step, hst] at hstep
    cases hstep
    exact ⟨.dispatch, by simp only [placeProg, dispatchProg, Prog.run, hst]; rfl, rfl⟩
  | receive =>
    rw [step_of_receive hst] at hstep
    cases hstep
    exact run_place_receive hst hfits
  | execute =>
    obtain rfl := eq_dispatch_of_fits hfits (by rw [hst]; nofun) (by rw [hst]; nofun)
    have hph : s.ph.isTx = false := by simpa [Place.fits, hst] using hfits
    have hheld : executeHeld s = .next t := by simpa only [Machine.step, hst] using hstep
    obtain ⟨i, rest, hframe, hexec⟩ := exec_of_executeHeld hheld
    refine ⟨.dispatch, ?_, dispatch_fits ?_⟩
    · rw [run_dispatch_execute hst]
      exact run_thenDispatch (by rw [run_execute hframe, hheld]; rfl)
    · obtain ⟨es, hrun⟩ := exec_run_of_next hexec
      cases hrec : recognized i with
      | true => exact hrun.ph hrec
      | false =>
        rw [exec_of_unrecognized hrec] at hexec
        cases hexec
        exact hph
  | respond =>
    rw [step_of_respond hst] at hstep
    rcases run_respond hst hfits with ⟨pl', u, hrun, hrespond, hfits'⟩ | ⟨r, -, hrespond⟩
    · rw [hrespond] at hstep
      cases hstep
      exact ⟨pl', hrun, hfits'⟩
    · rw [hrespond] at hstep
      cases hstep

/-- Settles O34: the pass from the place, in the steps of R8. -/
theorem microStepsMakeTheStep : Obligations.MicroStepsMakeTheStep := by
  refine ⟨fun s hst => exists_place hst, fun s hph => dispatch_fits hph, fun m pl t hplace hfits hstep => ?_,
    fun m pl r hplace hfits hstep => ?_⟩
  · obtain ⟨pl', hrun, hfits'⟩ := run_place_of_step hfits hstep
    obtain ⟨n, hpos, ⟨m', hm, hnow, hplace'⟩, hbetween⟩ := passes_of_place hplace hrun
    refine ⟨n, hpos, ⟨m', pl', hm, hnow, hplace', hfits'⟩, fun j hj => ?_⟩
    obtain ⟨u, hu, hnone, hbefore, hafter⟩ := hbetween j hj
    exact ⟨u, hu, hnone, assertReset_eq_resetDuring hbefore hafter⟩
  · cases hst : m.now.st with
    | startup => simp only [Machine.step, hst] at hstep; cases hstep
    | receive => rw [step_of_receive hst] at hstep; cases hstep
    | respond =>
      rw [step_of_respond hst] at hstep
      rcases run_respond hst hfits with ⟨pl', u, -, hrespond, -⟩ | ⟨r', hrun, hrespond⟩
      · rw [hrespond] at hstep; cases hstep
      · rw [hrespond] at hstep
        cases hstep
        exact .inl (faults_of_place hplace hrun)
    | execute =>
      obtain rfl := eq_dispatch_of_fits hfits (by rw [hst]; nofun) (by rw [hst]; nofun)
      have hexec : executeHeld m.now = .fault r := by simpa only [Machine.step, hst] using hstep
      have hfault : executeProg.run m.now = .fault r → ∃ n, microCore.run n m = .fault r := fun h =>
        faults_of_place hplace (by rw [run_dispatch_execute hst]; exact Prog.run_bind_fault h _)
      cases hheld : m.now.heldFrame with
      | some bytes => exact .inl (hfault (by rw [run_execute hheld, hexec]; rfl))
      | none =>
        obtain rfl : .bufUnwritten = r := by
          simp only [executeHeld, fetchInstr, hheld] at hexec
          cases hexec
          rfl
        rcases ends_execute hheld with hrun | ⟨t, hrun, ht⟩
        · exact .inl (hfault hrun)
        · obtain ⟨n, -, ⟨m', hm, rfl, hplace'⟩, -⟩ :=
            passes_of_place hplace (by rw [run_dispatch_execute hst]; exact run_thenDispatch hrun)
          exact .inr ⟨rfl, rfl, n, m', hm, hplace', ht⟩

end Sys2Proof.Machine
end
